-- ==== Sys2Proof/Word.lean ====
section
/-! DEFINITION. The word types of the T8 (R5 to R7, R11, R12, R144) and the sparse table that holds
everything the part keeps many of. -/

namespace Sys2Proof

/-- One byte of memory (R6: multi-byte values are little-endian). -/
abbrev Byte := BitVec 8
abbrev W16 := BitVec 16
abbrev W32 := BitVec 32
/-- A control register, a scalar register, a word of a record (R7, R144). -/
abbrev W64 := BitVec 64
/-- A matrix core MC0 to MC3 (R13). -/
abbrev CoreId := Fin 4
/-- A vector engine VE0 to VE63 (R13). -/
abbrev EngId := Fin 64
/-- A control core CC0 to CC7 (R13). -/
abbrev CcId := Fin 8
/-- A resident job slot (R32). -/
abbrev SlotId := Fin 4
/-- A Travy link L00 to L95 (R13). -/
abbrev LinkId := Fin 96
/-- A stack ST0 to ST19 (R13). -/
abbrev StackId := Fin 20

/-- A sparse table: pairs of key and value, keys rising, no entry holding the value an unlisted
key reads as. One form for memory bytes, register files, planes, tables and queues by number. -/
abbrev SMap (α : Type) := List (Nat × α)

/-- The value under key `k`, `d` where none is listed. -/
def SMap.get {α : Type} (d : α) : SMap α → Nat → α
  | [], _ => d
  | (j, v) :: t, k => if j = k then v else SMap.get d t k

/-- Puts `(k, v)` in its place, replacing what stands there. -/
def SMap.insert {α : Type} (k : Nat) (v : α) : SMap α → SMap α
  | [] => [(k, v)]
  | (j, w) :: t =>
    if k < j then (k, v) :: (j, w) :: t
    else if k = j then (k, v) :: t
    else (j, w) :: SMap.insert k v t

/-- Removes every entry of key `k`. -/
def SMap.erase {α : Type} (k : Nat) (m : SMap α) : SMap α :=
  m.filter (fun p => p.1 != k)

/-- The table with `k` reading as `v`; an entry equal to the default is not listed. -/
def SMap.set {α : Type} [DecidableEq α] (d : α) (m : SMap α) (k : Nat) (v : α) : SMap α :=
  if v = d then SMap.erase k m else SMap.insert k v m

/-- Keys strictly rising. -/
def SMap.rising {α : Type} : SMap α → Bool
  | [] => true
  | [_] => true
  | (j, _) :: (k, w) :: t => decide (j < k) && SMap.rising ((k, w) :: t)

/-- The canonical form: keys strictly rising and no entry equal to the default. -/
def SMap.wf {α : Type} [DecidableEq α] (d : α) (m : SMap α) : Bool :=
  SMap.rising m && m.all (fun p => decide (p.2 ≠ d))

end Sys2Proof
end

