-- ==== Sys2Proof/Syntax.lean ====
section
/-! DEFINITION. The commands of the block: one constructor of `Instr` per row of the table, with the
operands the spec gives each step. The order is the table's. -/

namespace Sys2Proof

/-- The flags of a DRN (R110, R123). -/
structure DrnFlags where
  red : Bool
  pair : Bool
  nonsat : Bool
  bias : Bool
  final : Bool
  first : Bool
  deriving DecidableEq, Repr

/-- A link packet (R330): the header's fields and the payload bytes. LEN and CRC follow from them; the CRC that a packet
arrives with is an operand of its arrival. -/
structure Packet where
  dchip : W16
  daddr : BitVec 48
  schip : W16
  flow : BitVec 13
  hops : BitVec 2
  kind : BitVec 4
  last : Bool
  status : BitVec 2
  fseq : W16
  lseq : BitVec 8
  karg : BitVec 56
  payload : List Byte
  deriving DecidableEq, Repr

/-- Where a landing packet lies whole: a receive buffer of a link, or the local path of R126. -/
inductive LandSrc where
  | link (l : LinkId) (vc : BitVec 2)
  | localPath
  deriving DecidableEq, Repr

/-- What the controller and the cycle counters measured over the beat just ended (R393, R439, R476). -/
structure BeatMeas where
  /-- Beat-mean draw of the module, microwatts. -/
  draw : Nat
  /-- Draw that work and leakage alone would have, microwatts, with the clocks as they stand. -/
  demand : Nat
  /-- MC clock cycles each core's sequencer was in RUN or STALL. -/
  cycles : List Nat
  /-- Of these, those under an instance that has left the core since: core, entry, cycles (R439). -/
  left : List (Nat × Nat × Nat)
  /-- Cycles of each core's switch to the instance it holds (R445). -/
  switching : List Nat
  /-- Slots of each core in which no row entered for a reason of SBACK, and in which a repair or maintenance held the array
  (R476). -/
  sback : List Nat
  held : List Nat
  /-- Cycles in which a request of a stack port waited by R183, and in which a whole packet of a link waited for hop credits
  (R475). -/
  bankWait : List Nat
  credWait : List Nat
  /-- Millijoules of ballast. -/
  ballastMj : Nat
  deriving DecidableEq, Repr

/-- One reading of a regulator over AVSBus (R492): rail 0 to 6, millivolts, milliamperes. -/
structure AvsReading where
  rail : Nat
  mv : Nat
  ma : Nat
  deriving DecidableEq, Repr

/-- What an epoch boundary finds (R393, R410, R449, R492). -/
structure EpochMeas where
  /-- Readings of the regulators that answered. -/
  avs : List AvsReading
  /-- Each core's mean draw in the epoch just ended, in sixteenths of its full-load draw. -/
  levels : List Nat
  /-- Mean draw of the epoch's last beat, microwatts. -/
  draw : Nat
  /-- FW_MAINT.USED of the epoch, in hundredths of one per cent. -/
  maintUsed : Nat
  deriving DecidableEq, Repr

/-- Sensor readings of one conversion (R196, R407), in degrees Celsius. -/
structure SensorReadings where
  /-- Tier t of stack s at index 8s + t. -/
  tiers : List Nat
  /-- 16 over each core in order, 8 in the fabric and control region, 4 in each link quadrant. -/
  die : List Nat
  deriving DecidableEq, Repr

/-- What the fuses hold (R457, R460, R465, R473, R503). -/
structure Fuses where
  secret : List Byte
  serial0 : W64
  serial1 : W64
  mac : List Byte
  fmax : List Nat
  ceilMv : List Nat
  signers : List (List Byte)
  revoked : BitVec 4
  secver : Nat
  /-- Factory entries of the repair map, then field entries, each in the form of R460. -/
  repairs : List W64
  /-- Factory voltages (mV) per core and class: 3c + class. -/
  factoryMv : List Nat
  deriving DecidableEq, Repr

/-- Fuses before COLD_START reads the real ones. -/
def Fuses.blank : Fuses :=
  ⟨[], 0, 0, [], [], [], [], 0, 0, [], []⟩

/-- What self-test finds at a start (R459). -/
structure SelfTest where
  /-- 0 pass, 1 keeper core, 2 crypto engine, 3 fuse read (R495 FAILCAUSE). -/
  failCause : Nat
  /-- Failing elements found, as repair-map entries (R460). -/
  failing : List W64
  /-- Voltage above the factory record per core and class (R415 VADD): 3c + class. -/
  vadd : List Nat
  /-- Cores whose margin at 2,400 MHz self-test restored (R415 REPLOST). -/
  repOk : List Bool
  deriving DecidableEq, Repr

/-- What link training finds on one link (R327, R340). -/
structure TrainResult where
  link : LinkId
  /-- The partner's chip and link, when one answers. -/
  partner : Option (W16 × BitVec 7)
  lane0 : Bool
  lane1 : Bool
  spare : Option (BitVec 3)
  /-- Half of the measured asymmetry, picoseconds (R24). -/
  asym : Int
  deriving DecidableEq, Repr

/-- The time frame of R331 with the receiver's own timestamps. -/
structure TimeFrame where
  txTick : W64
  txPs : W16
  echoTick : W64
  resid : W32
  echoPs : W16
  rxTick : W64
  rxPs : W16
  deriving DecidableEq, Repr

/-- A monitor class of R412: a core's own monitors, a stack port's or a link quadrant's. -/
inductive AgeUnit where
  | core (c : CoreId)
  | stack (s : StackId)
  | quadrant (q : Fin 4)
  deriving DecidableEq, Repr

/-- A rail watched by the droop detectors (R406). -/
inductive Rail where
  | mc (c : CoreId)
  | soc
  deriving DecidableEq, Repr

/-- A port of the memory: a stack port, or a core buffer (R188, R191). -/
inductive MemPort where
  | stack (s : StackId)
  | cbuf (c : CoreId)
  deriving DecidableEq, Repr

/-- Cause a manager or Darkel gives for stopping a slot (FW_JOB.CAUSE, R454). -/
inductive StopCause where
  | unit | deadlock | link | manager | trip | stop | service
  deriving DecidableEq, Repr

/-- A datagram of the management port as it arrives, its MAGIC checked (R468): source address, fragment index and count,
session, sequence number and payload. The row that carries it says its TYPE. -/
structure PortMsg where
  src : Nat
  fidx : Nat
  fcnt : Nat
  session : W32
  seq : W32
  payload : List Byte
  deriving DecidableEq, Repr

/-- A time of an IEEE 1588 message: seconds and nanoseconds. -/
structure PtpTime where
  secs : BitVec 48
  ns : W32
  deriving DecidableEq, Repr

/-- A message of the two-step, end-to-end exchange that the slave receives (R23). -/
inductive PtpMsg where
  | sync (seq : W16)
  | followUp (seq : W16) (origin : PtpTime)
  | delayResp (seq : W16) (receive : PtpTime)
  deriving DecidableEq, Repr

/-- The commands. A field named `c` is the core, `e` the engine, `cc` the control core, `i` an entry of
the command table. -/
inductive Instr where
  -- sequencer: stationary loads and passes
  | wld (c : CoreId) (a b : BitVec 12) (sub : BitVec 4) (part : BitVec 3)
  | wldt (c : CoreId) (a b : BitVec 12) (sub : BitVec 4) (part : BitVec 3)
  | wldProceed (c : CoreId)
  | loadComplete (c : CoreId) (k : Nat)
  | wswapF (c : CoreId)
  | jet (c : CoreId) (a : BitVec 12) (part : BitVec 3) (swap : Bool) (m : BitVec 13)
  | ats (c : CoreId) (a mask : BitVec 12) (part : BitVec 3) (swap : Bool) (m : BitVec 13)
  | atx (c : CoreId) (a : BitVec 12) (part : BitVec 3) (swap : Bool) (m : BitVec 13)
  | atv (c : CoreId) (a : BitVec 12) (part : BitVec 3) (swap : Bool) (m : BitVec 13)
  | passIssue (c : CoreId)
  | prescanEnd (c : CoreId)
  | rowEntry (c : CoreId)
  | drainOutput (c : CoreId) (arrB : Bool) (sub : BitVec 4) (row col : Nat)
  | drainWriteComplete (c : CoreId) (k : Nat)
  | chunkCloseTimeout (c : CoreId) (k : Nat)
  | drn (c : CoreId) (a b dest : BitVec 12) (sub : BitVec 4) (flags : DrnFlags)
  | mov (c : CoreId) (a dest : BitVec 12)
  | movComplete (c : CoreId) (k : Nat)
  | put (c : CoreId) (a dest : BitVec 12) (flow : BitVec 13)
  | putComplete (op : Nat)
  -- sequencer: semaphores, fences, time, flow of control
  | semw (c : CoreId) (s : BitVec 8) (n : BitVec 12)
  | semwSatisfied (s : BitVec 8)
  | sems (c : CoreId) (s : BitVec 8) (n : BitVec 12)
  | semsRel (c : CoreId) (s : BitVec 8) (n : BitVec 12)
  | semsRelAdd (c : CoreId)
  | fence (c : CoreId) (l d m p : Bool)
  | fenceComplete (c : CoreId)
  | waitt (c : CoreId) (unit : BitVec 2) (k : BitVec 12)
  | waittA (c : CoreId) (unit : BitVec 2) (k : BitVec 12)
  | waittExpire (c : CoreId)
  | loop (c : CoreId) (len count : BitVec 12)
  | br (c : CoreId) (target : BitVec 15)
  | brSemz (c : CoreId) (target : BitVec 15) (s : BitVec 8)
  | brSemnz (c : CoreId) (target : BitVec 15) (s : BitVec 8)
  | brRet (c : CoreId)
  | brLast (c : CoreId) (target : BitVec 15)
  | call (c : CoreId) (target : BitVec 15)
  | yieldPt (c : CoreId)
  | halt (c : CoreId) (code : BitVec 12)
  | haltComplete (c : CoreId)
  | zen (c : CoreId) (level : BitVec 4) (lead : BitVec 12)
  | csnap (c : CoreId) (dest : BitVec 12) (index : BitVec 12)
  | sqReservedOpcode (c : CoreId) (w : W64)
  | columnSteeringSwitch (c : CoreId)
  -- engine: scalar unit
  | sAdd (e : EngId) (sd sa sb : BitVec 5)
  | sSub (e : EngId) (sd sa sb : BitVec 5)
  | sMul (e : EngId) (sd sa sb : BitVec 5)
  | sAnd (e : EngId) (sd sa sb : BitVec 5)
  | sOr (e : EngId) (sd sa sb : BitVec 5)
  | sXor (e : EngId) (sd sa sb : BitVec 5)
  | sShl (e : EngId) (sd sa sb : BitVec 5)
  | sShr (e : EngId) (sd sa sb : BitVec 5)
  | sSlt (e : EngId) (sd sa sb : BitVec 5)
  | sAmoAdd (e : EngId) (wide : Bool) (sd sa sb : BitVec 5)
  | sAmoCas (e : EngId) (wide : Bool) (sd sa sb : BitVec 5)
  | sAmoMin (e : EngId) (wide : Bool) (sd sa sb : BitVec 5)
  | sAmoMax (e : EngId) (wide : Bool) (sd sa sb : BitVec 5)
  | sAddi (e : EngId) (sd sa : BitVec 5) (imm : BitVec 16)
  | sIns (e : EngId) (sd sa : BitVec 5) (imm : BitVec 16)
  | sLd (e : EngId) (sd sa : BitVec 5) (off : BitVec 16)
  | sSt (e : EngId) (src sa : BitVec 5) (off : BitVec 16)
  | sBeq (e : EngId) (sa sb : BitVec 5) (off : BitVec 16)
  | sBne (e : EngId) (sa sb : BitVec 5) (off : BitVec 16)
  | sBlt (e : EngId) (sa sb : BitVec 5) (off : BitVec 16)
  | sJalr (e : EngId) (sa sb : BitVec 5) (off : BitVec 16)
  -- engine: vector arithmetic
  | vAddF32 (e : EngId) (vd va vb : BitVec 6) (pm : BitVec 3)
  | vSubF32 (e : EngId) (vd va vb : BitVec 6) (pm : BitVec 3)
  | vMulF32 (e : EngId) (vd va vb : BitVec 6) (pm : BitVec 3)
  | vFmaF32 (e : EngId) (vd va vb : BitVec 6) (pm : BitVec 3)
  | vMaxF32 (e : EngId) (vd va vb : BitVec 6) (pm : BitVec 3)
  | vMinF32 (e : EngId) (vd va vb : BitVec 6) (pm : BitVec 3)
  | vExp (e : EngId) (vd va : BitVec 6) (pm : BitVec 3)
  | vRcp (e : EngId) (vd va : BitVec 6) (pm : BitVec 3)
  | vRsqrt (e : EngId) (vd va : BitVec 6) (pm : BitVec 3)
  | vCvtF32I32 (e : EngId) (vd va : BitVec 6) (pm : BitVec 3)
  | vCvtI32F32 (e : EngId) (vd va : BitVec 6) (pm : BitVec 3)
  | vCmpLtF32 (e : EngId) (pd : BitVec 3) (va vb : BitVec 6) (pm : BitVec 3)
  | vCmpEqF32 (e : EngId) (pd : BitVec 3) (va vb : BitVec 6) (pm : BitVec 3)
  | vFmaw (e : EngId) (vd va vb : BitVec 6) (pm : BitVec 3)
  | vAddI32 (e : EngId) (vd va vb : BitVec 6) (pm : BitVec 3)
  | vSubI32 (e : EngId) (vd va vb : BitVec 6) (pm : BitVec 3)
  | vMulI32 (e : EngId) (vd va vb : BitVec 6) (pm : BitVec 3)
  | vAnd (e : EngId) (vd va vb : BitVec 6) (pm : BitVec 3)
  | vOr (e : EngId) (vd va vb : BitVec 6) (pm : BitVec 3)
  | vXor (e : EngId) (vd va vb : BitVec 6) (pm : BitVec 3)
  | vShlI32 (e : EngId) (vd va vb : BitVec 6) (pm : BitVec 3)
  | vShrI32 (e : EngId) (vd va vb : BitVec 6) (pm : BitVec 3)
  | vAddI16 (e : EngId) (vd va vb : BitVec 6) (pm : BitVec 3)
  | vCmpLtI32 (e : EngId) (pd : BitVec 3) (va vb : BitVec 6) (pm : BitVec 3)
  | vSel (e : EngId) (vd va vb : BitVec 6) (pm : BitVec 3)
  | vHsumF32 (e : EngId) (vd va : BitVec 6) (pm : BitVec 3)
  | vHmaxF32 (e : EngId) (vd va : BitVec 6) (pm : BitVec 3)
  | vMov (e : EngId) (vd va : BitVec 6) (pm : BitVec 3)
  | vPerm (e : EngId) (vd va vb : BitVec 6) (pm : BitVec 3)
  | vAddF32S (e : EngId) (vd va : BitVec 6) (sb : BitVec 5) (pm : BitVec 3)
  | vMulF32S (e : EngId) (vd va : BitVec 6) (sb : BitVec 5) (pm : BitVec 3)
  | vFmaF32S (e : EngId) (vd va : BitVec 6) (sb : BitVec 5) (pm : BitVec 3)
  | vAddI32S (e : EngId) (vd va : BitVec 6) (sb : BitVec 5) (pm : BitVec 3)
  | vBcast (e : EngId) (vd : BitVec 6) (sb : BitVec 5) (pm : BitVec 3)
  | vLane (e : EngId) (vd : BitVec 6) (sb : BitVec 5) (pm : BitVec 3)
  -- engine: vector memory, reduction, generators, updates
  | vLd (e : EngId) (v : BitVec 6) (sa : BitVec 5) (pm : BitVec 3) (cv : BitVec 4) (imm : BitVec 8)
  | vSt (e : EngId) (v : BitVec 6) (sa : BitVec 5) (pm : BitVec 3) (cv : BitVec 4) (imm : BitVec 8)
  | vRedEs16 (e : EngId) (vd : BitVec 6) (sa sb : BitVec 5) (pm : BitVec 3)
  | vRedS1 (e : EngId) (vd : BitVec 6) (sa sb : BitVec 5) (pm : BitVec 3)
  | vRes (e : EngId) (sd : BitVec 5) (va : BitVec 6)
  | vRand (e : EngId) (vd : BitVec 6) (sa sb : BitVec 5) (pm : BitVec 3)
  | vPmov (e : EngId) (pd : BitVec 3) (sa : BitVec 5) (pm : BitVec 3 := 0)
  | vUctx (e : EngId) (sa : BitVec 5)
  | vUpdAdam (e : EngId) (vd va vb : BitVec 6) (pm : BitVec 3)
  | vUpdSgdm (e : EngId) (vd va vb : BitVec 6) (pm : BitVec 3)
  | vUpdEf (e : EngId) (vd va : BitVec 6) (pm : BitVec 3)
  | vUnpackMxfp4 (e : EngId) (vd va : BitVec 6) (sb : BitVec 5) (pm : BitVec 3)
  | vUnpackMxfp6E2m3 (e : EngId) (vd va : BitVec 6) (sb : BitVec 5) (pm : BitVec 3)
  | vUnpackMxfp6E3m2 (e : EngId) (vd va : BitVec 6) (sb : BitVec 5) (pm : BitVec 3)
  | vUnpackMxint8 (e : EngId) (vd va : BitVec 6) (sb : BitVec 5) (pm : BitVec 3)
  | vPackMxfp4 (e : EngId) (vd va : BitVec 6) (sd : BitVec 5) (pm : BitVec 3)
  | vPackMxfp6E2m3 (e : EngId) (vd va : BitVec 6) (sd : BitVec 5) (pm : BitVec 3)
  | vPackMxfp6E3m2 (e : EngId) (vd va : BitVec 6) (sd : BitVec 5) (pm : BitVec 3)
  | vPackMxint8 (e : EngId) (vd va : BitVec 6) (sd : BitVec 5) (pm : BitVec 3)
  -- engine: system
  | vAcq (e : EngId) (sa sb : BitVec 5)
  | vAcqAll (e : EngId)
  | vFence (e : EngId)
  | vFenceComplete (e : EngId)
  | vSemW (e : EngId) (sa sb : BitVec 5)
  | vSemWSatisfied (e : EngId)
  | vSemS (e : EngId) (sa sb : BitVec 5)
  | vSemSRel (e : EngId) (sa sb : BitVec 5)
  | vSemSRelAdd (e : EngId)
  | vDma (e : EngId) (sa : BitVec 5)
  | vDmaComplete (e : EngId) (k : Nat)
  | vRsys (e : EngId) (sd sb : BitVec 5)
  | vWsys (e : EngId) (sa sb : BitVec 5)
  | vWaitT (e : EngId) (sa : BitVec 5)
  | vWaitTExpire (e : EngId)
  | vHalt (e : EngId)
  | vHaltComplete (e : EngId)
  | veReservedOpcode (e : EngId) (w : W32)
  -- Meridian
  | beatBoundary (m : BeatMeas)
  | epochBoundary (m : EpochMeas)
  | avsFrameRetry (r : Option AvsReading)
  | instanceLaunch (i : BitVec 10)
  | slewStep
  | time (l : LinkId) (f : TimeFrame)
  | lockAcquired
  | upstreamLinkFail (alt : Option LinkId)
  | holdoverTimeout
  | holdLimit
  | refLost (tenMhz : Bool := false)
  | referenceReturn (offset : Int)
  | ppsEdge
  | ptpMessage (m : PtpMsg)
  -- Darkel commands: entry i of the command table
  | commandPost (cc : CcId) (i : BitVec 8) (w0 : W64) (args : List W64)
  | jobLoad (i : BitVec 8)
  | jobStart (i : BitVec 8)
  | jobStop (i : BitVec 8)
  | jobShare (i : BitVec 8)
  | modelLoad (i : BitVec 8)
  | modelUnload (i : BitVec 8)
  | capSet (i : BitVec 8)
  | rampPlan (i : BitVec 8)
  | testSpares (i : BitVec 8) (nfail : Nat) (lowest : W32)
  | testArray (i : BitVec 8) (nfail : Nat) (lowest : W32)
  | testColumn (i : BitVec 8) (nfail : Nat) (lowest : W32)
  | testEngine (i : BitVec 8) (nfail : Nat) (lowest : W32)
  | testRow (i : BitVec 8) (nfail : Nat) (lowest : W32)
  | testLane (i : BitVec 8) (nfail : Nat) (lowest : W32)
  | testTimeout (i : BitVec 8)
  | linkeq (i : BitVec 8)
  | vplan (i : BitVec 8) (steps : Nat) (held : Bool)
  | ageperiod (i : BitVec 8)
  | regather (i : BitVec 8)
  | repairColumn (i : BitVec 8)
  | repairEngine (i : BitVec 8)
  | repairRow (i : BitVec 8)
  | repairLane (i : BitVec 8)
  | attestQuote (i : BitVec 8)
  | roleSet (i : BitVec 8)
  | timeLock (i : BitVec 8)
  | resetWarm (i : BitVec 8)
  | logRead (i : BitVec 8)
  | jobSlotStop (j : SlotId) (cause : StopCause)
  | instanceSave (i : BitVec 10)
  | instanceRestore (i : BitVec 10)
  | yieldBack (i : BitVec 10)
  -- links
  | packetSend (l : LinkId) (k : Nat)
  | packetReceive (l : LinkId) (p : Packet) (crc : W32)
  | packetForward (l : LinkId) (vc : BitVec 2)
  | controlCell (l : LinkId) (w0 w1 : W64)
  | replayTimeout (l : LinkId)
  | laneFail (l : LinkId) (lane1 : Bool)
  | linkLost (l : LinkId)
  | linkHoldExpire (l : LinkId)
  | data (src : LandSrc)
  | reduce (src : LandSrc)
  | lap (src : LandSrc)
  | ack (src : LandSrc)
  | mgmt (src : LandSrc)
  | ackTimer (schip : W16) (flow : BitVec 13)
  | operationTimeout (op : Nat)
  -- reduction and numerics
  | tailWrite (e : EngId)
  | reductionDeadline (j : SlotId) (n : Nat)
  | stepCommit (j : SlotId)
  | contrailRecompute (c : CoreId) (slot : Fin 15)
  -- key-value pages
  | kvpAlloc (cc : CcId)
  | kvpFree (cc : CcId) (v : W64)
  | kvpEnable (cc : CcId)
  | kvpDisable (cc : CcId)
  | kvpReady
  | relow (cc : CcId)
  -- control-core accesses
  | semAdd (cc : CcId) (s : BitVec 8) (amt : BitVec 12)
  | semTake (cc : CcId) (s : BitVec 8) (amt : BitVec 12)
  | registerWrite (cc : CcId) (addr : BitVec 48) (v : W64)
  | registerAccessFault (cc : CcId) (addr : BitVec 48) (size : Nat) (store : Bool)
  -- memory, power, thermal
  | scrubLine (p : MemPort)
  | wcbTimeoutFlush (p : MemPort) (line : Nat)
  | sensorConversion (r : SensorReadings)
  | shallowDroop (r : Rail)
  | deepDroop (r : Rail)
  | ageingMeasurement (u : AgeUnit) (marginPermille : List Nat) (steps : Nat) (held : Bool)
  | recordGathered (u : AgeUnit)
  | logRecord
  -- start-up and sideband
  | supplyResetAssert
  | coldStart (f : Fuses) (t : SelfTest) (straps : BitVec 8)
  | linkTraining (r : List TrainResult)
  | i3cWrite (index : BitVec 8) (bytes : List Byte)
  | bootreqTimer
  | boot (m : PortMsg)
  | bootVerify
  -- management port sessions
  | hello (m : PortMsg)
  | accept (m : PortMsg)
  | cmd (m : PortMsg)
  | bulk (m : PortMsg)
  | close (m : PortMsg)
  | sessionTimeout (session : W32)
  | portFragmentTimeout (src : Nat) (session seq : W32)
  -- management messages between chips
  | announce | heartbeat | status | takeover | mgmtCmd | cmdresp | haloplan | roleplan
  | logcopy | imgreq | imgdata
  | imgreqRetry
  | rampshare
  | mgmtFragmentTimeout (schip : W16) (mseq : W32)
  | memberFail (chip : W16)
  | deputyTakeover
  | droopRecovery (r : Rail)
  | uncorrectableCodeword (l : LinkId)
  deriving DecidableEq, Repr

end Sys2Proof
end

