-- ==== Sys2Proof/Decode.lean ====
section
/-! DEFINITION. Commands have no encoding of their own: no row of the table gives bits, so no word spells a
command. The instruction words of the sequencer and the engines do have one (R108 to R111, R150, R151): what a word
spells for a given core or engine is read here, and what is reserved, for SQ_RESERVED_OPCODE and VE_RESERVED_OPCODE. -/

namespace Sys2Proof

/-- The command a word spells by the table's bits: the table gives none. -/
def decodeTableWord (_nbits _w : Nat) : Option Instr := none

/-- Field [hi:lo] of a number. -/
def natFld (w hi lo : Nat) : Nat := w / 2 ^ lo % 2 ^ (hi - lo + 1)

/-- Fields of a sequencer word (R108). -/
structure SqWord where
  op : Nat
  flags : Nat
  a : Nat
  b : Nat
  dest : Nat
  imm : Nat
  deriving DecidableEq, Repr

def SqWord.of (w : W64) : SqWord :=
  let n := w.toNat
  ⟨natFld n 63 56, natFld n 55 48, natFld n 47 36, natFld n 35 24, natFld n 23 12, natFld n 11 0⟩

/-- Sub-arrays of a PART code, 0 where it is reserved (R111). -/
def partCount (p : Nat) : Nat :=
  match p with | 0 => 1 | 1 => 2 | 2 => 2 | 3 => 4 | 4 => 16 | _ => 0

/-- A sequencer word that raises an instruction fault for its opcode, a field that must be zero, an undefined flag, or
a reserved code (R110, R111, R132, R134). R110 gives IMM[11:8] of SEMW, SEMS and BR, and the whole IMM of BR with COND 0,
3 or 4, no use and does not mark them 0: they must be zero here too (DESIGN CHOICE, log 74). -/
def sqReserved (w : W64) : Bool :=
  let x := SqWord.of w
  let n := w.toNat
  match x.op with
  | 0x10 => x.flags != 0 || x.dest != 0 || x.imm / 128 != 0 || decide (partCount (x.imm % 8) ≤ x.imm / 8 % 16)
  | 0x11 => x.flags != 0 || x.dest != 0 || x.imm / 128 != 0 || decide (partCount (x.imm % 8) ≤ x.imm / 8 % 16)
  | 0x12 => natFld n 55 0 != 0
  | 0x20 => x.flags / 32 != 0 || partCount (x.flags / 4 % 8) == 0 || x.b != 0 || x.dest != 0
  | 0x21 => x.flags / 32 != 0 || partCount (x.flags / 4 % 8) == 0 || x.dest != 0
  | 0x22 => x.flags / 32 != 0 || partCount (x.flags / 4 % 8) == 0 || x.b != 0 || x.dest != 0
  | 0x23 => x.flags / 32 != 0 || partCount (x.flags / 4 % 8) == 0 || x.b != 0 || x.dest != 0
  | 0x28 => x.flags / 64 != 0 || x.imm / 16 != 0
  | 0x30 => x.flags != 0 || x.b != 0 || x.imm != 0
  | 0x31 => x.flags / 2 != 0 || x.imm != 0
  | 0x40 => x.flags != 0 || x.a != 0 || x.dest != 0 || x.imm / 256 != 0
  | 0x41 => x.flags / 2 != 0 || x.a != 0 || x.dest != 0 || x.imm / 256 != 0
  | 0x42 => x.flags / 16 != 0 || natFld n 47 0 != 0
  | 0x43 => x.flags / 8 != 0 || x.flags / 2 % 4 == 3 || natFld n 47 12 != 0
  | 0x50 => x.flags != 0 || x.a != 0 || x.b != 0
  | 0x51 =>
    let cond := x.flags % 8
    x.flags / 8 != 0 || natFld n 47 39 != 0 || x.dest != 0 || decide (5 ≤ cond) ||
      (if cond = 1 ∨ cond = 2 then x.imm / 256 != 0 else x.imm != 0) || (cond == 3 && natFld n 38 24 != 0)
  | 0x52 => x.flags != 0 || natFld n 47 39 != 0 || x.dest != 0 || x.imm != 0
  | 0x53 => natFld n 55 0 != 0
  | 0x54 => natFld n 55 12 != 0
  | 0x60 => x.flags / 16 != 0 || natFld n 47 12 != 0
  | 0x61 => x.flags != 0 || x.a != 0 || x.b != 0
  | _ => true

/-- An engine word that raises an instruction fault for its opcode, FN, CV or a field that must be zero (R148, R150,
R151). -/
def veReserved (w : W32) : Bool :=
  let n := w.toNat
  let vd := natFld n 25 20
  let va := natFld n 19 14
  let vb := natFld n 13 8
  let pm := natFld n 7 5
  let fn := natFld n 4 0
  match natFld n 31 26 with
  | 0x01 =>
    let f := natFld n 10 0
    !(decide (f ≤ 8) || decide (0x100 ≤ f ∧ f ≤ 0x103) || decide (0x108 ≤ f ∧ f ≤ 0x10B))
  | 0x02 => false
  | 0x03 => false
  | 0x08 => false
  | 0x09 => false
  | 0x0C => false
  | 0x0D => false
  | 0x0E => false
  | 0x0F => false
  | 0x10 =>
    !(decide (fn ≤ 0x0D) || decide (0x10 ≤ fn ∧ fn ≤ 0x1E)) || (decide (6 ≤ fn ∧ fn ≤ 8) && vb != 0) ||
      ((fn == 0x0B || fn == 0x0C || fn == 0x19) && vd / 8 != 0)
  | 0x11 =>
    natFld n 8 8 != 0 || !(fn == 0 || fn == 2 || fn == 3 || fn == 0x10 || fn == 0x1D || fn == 0x1F) ||
      ((fn == 0x1D || fn == 0x1F) && va != 0)
  | 0x12 => decide (6 ≤ natFld n 11 8)
  | 0x13 => decide (6 ≤ natFld n 11 8)
  | 0x14 =>
    match fn with
    | 0x00 => pm != 0 || va / 32 != 0 || vb / 32 != 0 || vd % 2 != 0
    | 0x01 => pm != 0 || va / 32 != 0 || vb / 32 != 0 || vd % 2 != 0
    | 0x02 => vd / 32 != 0
    | 0x04 => va / 32 != 0 || vb / 32 != 0
    | 0x05 => vd / 8 != 0 || va / 32 != 0
    | 0x08 => va / 32 != 0
    | 0x09 => va % 2 != 0
    | 0x0A => false
    | 0x0B => false
    | 0x10 => vb / 32 != 0
    | 0x11 => vb / 32 != 0
    | 0x12 => vb / 32 != 0
    | 0x13 => vb / 32 != 0
    | 0x14 => vb / 32 != 0
    | 0x15 => vb / 32 != 0
    | 0x16 => vb / 32 != 0
    | 0x17 => vb / 32 != 0
    | _ => true
  | 0x18 =>
    let f := natFld n 10 0
    !(decide (f ≤ 2) || decide (4 ≤ f ∧ f ≤ 6) || f == 8 || f == 0x10 || f == 0x11 || f == 0x18 || f == 0x1F)
  | _ => true

/-! Reading the words of R109, R110, R150 and R151: which word is which command of this table. -/

/-- Field [hi:lo] of a number as `n` bits. -/
def bitsFld (n w hi lo : Nat) : BitVec n := BitVec.ofNat n (natFld w hi lo)

/-- The conditions of BR (R134). -/
def decodeBr (c : CoreId) (n : Nat) : Instr :=
  let target := bitsFld 15 n 38 24
  let sm := bitsFld 8 n 7 0
  match natFld n 50 48 with
  | 0 => .br c target
  | 1 => .brSemz c target sm
  | 2 => .brSemnz c target sm
  | 3 => .brRet c
  | _ => .brLast c target

/-- The instruction of core c that a sequencer word spells; none where the word is reserved (R109, R110). -/
def decodeSq (c : CoreId) (w : W64) : Option Instr :=
  let n := w.toNat
  let flag (i : Nat) : Bool := natFld n i i == 1
  let a := bitsFld 12 n 47 36
  let b := bitsFld 12 n 35 24
  let dest := bitsFld 12 n 23 12
  let imm := bitsFld 12 n 11 0
  let loadSub := bitsFld 4 n 6 3
  let loadPart := bitsFld 3 n 2 0
  let part := bitsFld 3 n 52 50
  let m := BitVec.ofNat 13 (natFld n 48 48 * 4096 + natFld n 11 0)
  let sm := bitsFld 8 n 7 0
  let unit := bitsFld 2 n 50 49
  if sqReserved w then none
  else
    match natFld n 63 56 with
    | 0x10 => some (.wld c a b loadSub loadPart)
    | 0x11 => some (.wldt c a b loadSub loadPart)
    | 0x12 => some (.wswapF c)
    | 0x20 => some (.jet c a part (flag 49) m)
    | 0x21 => some (.ats c a b part (flag 49) m)
    | 0x22 => some (.atx c a part (flag 49) m)
    | 0x23 => some (.atv c a part (flag 49) m)
    | 0x28 => some (.drn c a b dest (bitsFld 4 n 3 0)
        ⟨flag 53, flag 52, flag 51, flag 50, flag 49, flag 48⟩)
    | 0x30 => some (.mov c a dest)
    | 0x31 => some (.put c a dest (BitVec.ofNat 13 (natFld n 48 48 * 4096 + natFld n 35 24)))
    | 0x40 => some (.semw c sm b)
    | 0x41 => some (if flag 48 then .semsRel c sm b else .sems c sm b)
    | 0x42 => some (.fence c (flag 48) (flag 49) (flag 50) (flag 51))
    | 0x43 => some (if flag 48 then .waittA c unit imm else .waitt c unit imm)
    | 0x50 => some (.loop c dest imm)
    | 0x51 => some (decodeBr c n)
    | 0x52 => some (.call c (bitsFld 15 n 38 24))
    | 0x53 => some (.yieldPt c)
    | 0x54 => some (.halt c imm)
    | 0x60 => some (.zen c (bitsFld 4 n 51 48) imm)
    | 0x61 => some (.csnap c dest imm)
    | _ => none

/-- SR: scalar operations and atomics by FN (R151, R161). -/
def decodeSr (e : EngId) (sd sa sb : BitVec 5) (fn : Nat) : Option Instr :=
  match fn with
  | 0x0 => some (.sAdd e sd sa sb)
  | 0x1 => some (.sSub e sd sa sb)
  | 0x2 => some (.sMul e sd sa sb)
  | 0x3 => some (.sAnd e sd sa sb)
  | 0x4 => some (.sOr e sd sa sb)
  | 0x5 => some (.sXor e sd sa sb)
  | 0x6 => some (.sShl e sd sa sb)
  | 0x7 => some (.sShr e sd sa sb)
  | 0x8 => some (.sSlt e sd sa sb)
  | 0x100 => some (.sAmoAdd e false sd sa sb)
  | 0x101 => some (.sAmoCas e false sd sa sb)
  | 0x102 => some (.sAmoMin e false sd sa sb)
  | 0x103 => some (.sAmoMax e false sd sa sb)
  | 0x108 => some (.sAmoAdd e true sd sa sb)
  | 0x109 => some (.sAmoCas e true sd sa sb)
  | 0x10a => some (.sAmoMin e true sd sa sb)
  | 0x10b => some (.sAmoMax e true sd sa sb)
  | _ => none

/-- VV: vector-vector operations by FN (R151). -/
def decodeVv (e : EngId) (vd va vb : BitVec 6) (pm : BitVec 3) (fn : Nat) : Option Instr :=
  match fn with
  | 0x0 => some (.vAddF32 e vd va vb pm)
  | 0x1 => some (.vSubF32 e vd va vb pm)
  | 0x2 => some (.vMulF32 e vd va vb pm)
  | 0x3 => some (.vFmaF32 e vd va vb pm)
  | 0x4 => some (.vMaxF32 e vd va vb pm)
  | 0x5 => some (.vMinF32 e vd va vb pm)
  | 0x6 => some (.vExp e vd va pm)
  | 0x7 => some (.vRcp e vd va pm)
  | 0x8 => some (.vRsqrt e vd va pm)
  | 0x9 => some (.vCvtF32I32 e vd va pm)
  | 0xa => some (.vCvtI32F32 e vd va pm)
  | 0xb => some (.vCmpLtF32 e (vd.setWidth 3) va vb pm)
  | 0xc => some (.vCmpEqF32 e (vd.setWidth 3) va vb pm)
  | 0xd => some (.vFmaw e vd va vb pm)
  | 0x10 => some (.vAddI32 e vd va vb pm)
  | 0x11 => some (.vSubI32 e vd va vb pm)
  | 0x12 => some (.vMulI32 e vd va vb pm)
  | 0x13 => some (.vAnd e vd va vb pm)
  | 0x14 => some (.vOr e vd va vb pm)
  | 0x15 => some (.vXor e vd va vb pm)
  | 0x16 => some (.vShlI32 e vd va vb pm)
  | 0x17 => some (.vShrI32 e vd va vb pm)
  | 0x18 => some (.vAddI16 e vd va vb pm)
  | 0x19 => some (.vCmpLtI32 e (vd.setWidth 3) va vb pm)
  | 0x1a => some (.vSel e vd va vb pm)
  | 0x1b => some (.vHsumF32 e vd va pm)
  | 0x1c => some (.vHmaxF32 e vd va pm)
  | 0x1d => some (.vMov e vd va pm)
  | 0x1e => some (.vPerm e vd va vb pm)
  | _ => none

/-- VS: vector-scalar operations by FN (R151). -/
def decodeVs (e : EngId) (vd va : BitVec 6) (sb : BitVec 5) (pm : BitVec 3) (fn : Nat) : Option Instr :=
  match fn with
  | 0x0 => some (.vAddF32S e vd va sb pm)
  | 0x2 => some (.vMulF32S e vd va sb pm)
  | 0x3 => some (.vFmaF32S e vd va sb pm)
  | 0x10 => some (.vAddI32S e vd va sb pm)
  | 0x1D => some (.vBcast e vd sb pm)
  | 0x1F => some (.vLane e vd sb pm)
  | _ => none

/-- VX: special operations by FN; a scalar or predicate number lies in the low bits of its field (R150, R151). -/
def decodeVx (e : EngId) (vd va vb : BitVec 6) (pm : BitVec 3) (fn : Nat) : Option Instr :=
  let sa := va.setWidth 5
  let sb := vb.setWidth 5
  match fn with
  | 0x0 => some (.vRedEs16 e vd sa sb pm)
  | 0x1 => some (.vRedS1 e vd sa sb pm)
  | 0x2 => some (.vRes e (vd.setWidth 5) va)
  | 0x4 => some (.vRand e vd sa sb pm)
  | 0x5 => some (.vPmov e (vd.setWidth 3) sa pm)
  | 0x8 => some (.vUctx e sa)
  | 0x9 => some (.vUpdAdam e vd va vb pm)
  | 0xA => some (.vUpdSgdm e vd va vb pm)
  | 0xB => some (.vUpdEf e vd va pm)
  | 0x10 => some (.vUnpackMxfp4 e vd va sb pm)
  | 0x11 => some (.vUnpackMxfp6E2m3 e vd va sb pm)
  | 0x12 => some (.vUnpackMxfp6E3m2 e vd va sb pm)
  | 0x13 => some (.vUnpackMxint8 e vd va sb pm)
  | 0x14 => some (.vPackMxfp4 e vd va sb pm)
  | 0x15 => some (.vPackMxfp6E2m3 e vd va sb pm)
  | 0x16 => some (.vPackMxfp6E3m2 e vd va sb pm)
  | 0x17 => some (.vPackMxint8 e vd va sb pm)
  | _ => none

/-- SY: system operations by FN (R151). -/
def decodeSy (e : EngId) (sd sa sb : BitVec 5) (fn : Nat) : Option Instr :=
  match fn with
  | 0x0 => some (.vAcq e sa sb)
  | 0x1 => some (.vAcqAll e)
  | 0x2 => some (.vFence e)
  | 0x4 => some (.vSemW e sa sb)
  | 0x5 => some (.vSemS e sa sb)
  | 0x6 => some (.vSemSRel e sa sb)
  | 0x8 => some (.vDma e sa)
  | 0x10 => some (.vRsys e sd sb)
  | 0x11 => some (.vWsys e sa sb)
  | 0x18 => some (.vWaitT e sa)
  | 0x1F => some (.vHalt e)
  | _ => none

/-- The instruction of engine e that a word spells; none where the word is reserved (R150, R151). -/
def decodeVe (e : EngId) (w : W32) : Option Instr :=
  let n := w.toNat
  let sd := bitsFld 5 n 25 21
  let sa := bitsFld 5 n 20 16
  let sb := bitsFld 5 n 15 11
  let imm := bitsFld 16 n 15 0
  let vd := bitsFld 6 n 25 20
  let va := bitsFld 6 n 19 14
  let vb := bitsFld 6 n 13 8
  let pm := bitsFld 3 n 7 5
  let fn := natFld n 4 0
  let mem := (bitsFld 5 n 19 15, bitsFld 3 n 14 12, bitsFld 4 n 11 8, bitsFld 8 n 7 0)
  if veReserved w then none
  else
    match natFld n 31 26 with
    | 0x01 => decodeSr e sd sa sb (natFld n 10 0)
    | 0x02 => some (.sAddi e sd sa imm)
    | 0x03 => some (.sIns e sd sa imm)
    | 0x08 => some (.sLd e sd sa imm)
    | 0x09 => some (.sSt e sd sa imm)
    | 0x0C => some (.sBeq e sd sa imm)
    | 0x0D => some (.sBne e sd sa imm)
    | 0x0E => some (.sBlt e sd sa imm)
    | 0x0F => some (.sJalr e sd sa imm)
    | 0x10 => decodeVv e vd va vb pm fn
    | 0x11 => decodeVs e vd va (bitsFld 5 n 13 9) pm fn
    | 0x12 => some (.vLd e vd mem.1 mem.2.1 mem.2.2.1 mem.2.2.2)
    | 0x13 => some (.vSt e vd mem.1 mem.2.1 mem.2.2.1 mem.2.2.2)
    | 0x14 => decodeVx e vd va vb pm fn
    | 0x18 => decodeSy e sd sa sb (natFld n 10 0)
    | _ => none

end Sys2Proof
end

