-- ==== Sys2Proof/Config.lean ====
section
/-! DEFINITION. What the manual leaves open: constants with no body, so that no proof can see their values.
A function applied to a fresh number gives a value that differs from use to use; one applied to operands gives
the value the part makes of them. The assumption log names each. -/

namespace Sys2Proof

/-- A free 32-bit value by a fresh number and a lane or index. -/
opaque Config.freeWord : Nat → Nat → BitVec 32
/-- A free 64-bit value by a fresh number (generator seeds, elapsed cycles, handshake nonces). -/
opaque Config.freeWide : Nat → Nat → BitVec 64
/-- A free byte of a line with more than 12 bytes in error (R185), by fresh number and address. -/
opaque Config.freeByte : Nat → Nat → BitVec 8
/-- Whether a read of such a line detects it, and whether it counts as a correction (R185). -/
opaque Config.beyondDetected : Nat → Nat → Bool
opaque Config.beyondCorrects : Nat → Nat → Bool
/-- v.exp, v.rcp and v.rsqrt within their bounds (R152): which of the neighbours allowed is given, by operation
and operand. -/
opaque Config.approxPick : Nat → BitVec 32 → Nat
/-- Bits 63:8 of the scalar that a pack instruction writes its scale to (R151), by format and the block's values. -/
opaque Config.packUpper : Nat → List (BitVec 32) → BitVec 64
/-- The unrounded value of a drain function that R94 defines and R95 bounds: by function code and output number, on exact
finite inputs as sign, magnitude and exponent of two. Taken where it keeps the bound. -/
opaque Config.drainFunc : Nat → Nat → List (Bool × Nat × Int) → Bool × Nat × Int
/-- Groups of the system the chip is wired into (R340); 1 to 1,024 of it are used. -/
opaque Config.systemGroups : Nat
/-- Whether a link between two other chips is up, by a fresh number and the lower of its two ends as 96 * chip + link: R341 has
Darkel know it, by means the manual does not give. -/
opaque Config.linkElsewhere : Nat → Nat → Bool
/-- Codewords with corrected symbols that a link received with a cell, and since the one before it (R345); whether a retrain
repairs a lane (R328): by fresh number, link and lane. -/
opaque Config.correctedWords : Nat → Nat → Nat
opaque Config.retrainHeals : Nat → Nat → Bool → Bool
/-- The status a timed-out operation ends with (R339 gives it no number). -/
opaque Config.timeoutStatus : Nat
/-- VE clock cycles a free-running generator has advanced when a sample is taken (R163). -/
opaque Config.genCycles : Nat → Nat → Nat
/-- Column groups of a bucket's rows, less one, as the receive unit of a MASKED entry takes them: the entry does not
hold COLS (R241, R355). -/
opaque Config.bucketGroups : Nat → Nat
/-- Relative error of Contrail's discrepancy, in units of 2^-40, taken modulo 2^21 - 1 and centred: below 2^-20 (R266). By
the chain value, its frame, and head and tail of the reference: the routine is one and the same on every part. -/
opaque Config.contrailError : Int → Option Int → BitVec 32 → BitVec 32 → Nat
/-- Bin and recorded ratio of a column with no frame and a reference that is not zero, which R266 and R267 do not state: by
head and tail of the reference. -/
opaque Config.contrailBin : BitVec 32 → BitVec 32 → Nat
opaque Config.contrailRatio : BitVec 32 → BitVec 32 → BitVec 32
/-- The code a capture slot holds for an element that streamed as NaN, in a format without one (R80, R265): by format and
the code in memory. -/
opaque Config.guardCode : Nat → Nat → Nat
/-- What a deputy's copy of the manager's state holds at a takeover: R374 has it held, by means the manual does not give. By a
fresh number: shadow priority and step last backed of a chip in a slot, slots it counts as failed for, ramp shares, log
records. -/
opaque Config.copiedSpri : Nat → Nat → Nat → Nat
opaque Config.copiedBacked : Nat → Nat → Nat → Option (BitVec 32)
opaque Config.copiedFailed : Nat → Nat → Nat → Bool
opaque Config.copiedRamps : Nat → List (Nat × Nat × Nat)
opaque Config.copiedLogs : Nat → List (List (BitVec 8))
/-- A halo copy was taken for a primary by an owner elsewhere, and the slices a chip sends to owners elsewhere (R381, R389): by
fresh number and chip. -/
opaque Config.takenElsewhere : Nat → Nat → Bool
opaque Config.slicesElsewhere : Nat → Nat → BitVec 64
/-- Shares of the operator's ramp limit that a system manager gives a group in an epoch (R402): epoch, FLOOR and SLEW of each entry,
by fresh number and group. -/
opaque Config.rampShares : Nat → Nat → List (Nat × Nat × Nat)
/-- Chip draw, in microwatts, that hints announce: by fresh number and the level of each core (R403). -/
opaque Config.announcedDraw : Nat → List Nat → Nat
/-- Module draw that ballast reaches, in microwatts, by which cores it may run on (R395). -/
opaque Config.ballastReach : List Bool → Nat
/-- SHAKE256 (FIPS 202), with a length of output in bytes. -/
opaque Config.shake256 : List (BitVec 8) → Nat → List (BitVec 8)
/-- KMAC256 under a key, of a message, with a customisation string's number, to a length. -/
opaque Config.kmac256 : List (BitVec 8) → List (BitVec 8) → Nat → Nat → List (BitVec 8)
/-- SLH-DSA-SHAKE-256s: verification, signing, public key. -/
opaque Config.slhVerify : List (BitVec 8) → List (BitVec 8) → List (BitVec 8) → Bool
opaque Config.slhSign : List (BitVec 8) → List (BitVec 8) → List (BitVec 8)
opaque Config.slhPublic : List (BitVec 8) → List (BitVec 8)
/-- ML-KEM-1024: encapsulation key and decapsulation for a random seed and a ciphertext. -/
opaque Config.kemPublic : List (BitVec 8) → List (BitVec 8)
opaque Config.kemDecaps : List (BitVec 8) → List (BitVec 8) → List (BitVec 8)
/-- The Darkel ROM, and the fuse configuration as it is measured (R466). -/
opaque Config.darkelRom : List (BitVec 8)
opaque Config.fuseImage : Fuses → List (BitVec 8)
/-- Random bytes of the crypto engine, by fresh number and length. -/
opaque Config.randomBytes : Nat → Nat → List (BitVec 8)

end Sys2Proof
end

