-- ==== Sys2Proof/Machine/Bits.lean ====
section
/-! DEFINITION. Bit fields and byte order (R6): fields of a 64-bit word, little-endian bytes. -/

namespace Sys2Proof.Machine

/-- Field [hi:lo] of a word, as a number. -/
def fld (w : W64) (hi lo : Nat) : Nat := w.toNat / 2 ^ lo % 2 ^ (hi - lo + 1)

/-- The word with field [hi:lo] holding `v`. -/
def putFld (w : W64) (hi lo v : Nat) : W64 :=
  BitVec.ofNat 64 (w.toNat - fld w hi lo * 2 ^ lo + v % 2 ^ (hi - lo + 1) * 2 ^ lo)

/-- Bit n of a word. -/
def bit (w : W64) (n : Nat) : Bool := w.getLsbD n

/-- The word with bit n set. -/
def setBit (w : W64) (n : Nat) : W64 := w ||| BitVec.ofNat 64 (2 ^ n)

/-- The word with bit n clear. -/
def clrBit (w : W64) (n : Nat) : W64 := w &&& ~~~ BitVec.ofNat 64 (2 ^ n)

def b2n (b : Bool) : Nat := if b then 1 else 0

/-- `v` placed at bit `lo`: registers are built as sums of placed fields. -/
def at' (v lo : Nat) : Nat := v * 2 ^ lo

def w64 (n : Nat) : W64 := BitVec.ofNat 64 n

/-- Unsigned value of little-endian bytes (R6). -/
def leNat : List Byte → Nat
  | [] => 0
  | b :: t => b.toNat + 256 * leNat t

/-- The `n` low bytes of a number, lowest first. -/
def toLe : Nat → Nat → List Byte
  | 0, _ => []
  | n + 1, v => BitVec.ofNat 8 v :: toLe n (v / 256)

def w64Bytes (w : W64) : List Byte := toLe 8 w.toNat
def w64OfBytes (l : List Byte) : W64 := BitVec.ofNat 64 (leNat (l.take 8))

/-- Value of a two's-complement field of `n` bits. -/
def sext (n v : Nat) : Int :=
  if 2 ^ (n - 1) ≤ v % 2 ^ n then (v % 2 ^ n : Nat) - (2 ^ n : Nat) else ((v % 2 ^ n : Nat) : Int)

/-- A number modulo 2^n of a signed value. -/
def wrapN (n : Nat) (v : Int) : Nat := (v % (2 ^ n : Nat)).toNat

/-- ceil(a / b). -/
def ceilDiv (a b : Nat) : Nat := (a + b - 1) / b

/-- Field of `w` bits at bit `lo` of little-endian bytes. -/
def bitsAt (l : List Byte) (lo w : Nat) : Nat :=
  leNat ((l.drop (lo / 8)).take (w / 8 + 2)) / 2 ^ (lo % 8) % 2 ^ w

/-- A word with only the fields given, each by its highest and lowest bit: reserved ones read 0 (R9). -/
def keepFlds (w : W64) (fs : List (Nat × Nat)) : W64 := w64 ((fs.map fun p => at' (fld w p.1 p.2) p.2).sum)

/-- Writes `src` over `dst` from index `i`. -/
def spliceAt {α : Type} (dst : List α) (i : Nat) (src : List α) : List α :=
  dst.take i ++ src ++ dst.drop (i + src.length)

/-- Replaces element i by f of it. -/
def modAt {α : Type} (f : α → α) : List α → Nat → List α
  | [], _ => []
  | a :: t, 0 => f a :: t
  | a :: t, i + 1 => a :: modAt f t i

end Sys2Proof.Machine
end

