-- ==== Sys2Proof/Machine/StateCore.lean ====
section
/-! DEFINITION. The state of a matrix core (R65 to R143, R233 to R243, R263 to R270, R281, R295) and of a
vector engine (R144 to R175), as plain data. -/

namespace Sys2Proof.Machine

/-- A value as the arrays, the drain and the engines see it: NaN, an infinity, or
(-1)^neg * mag * 2^exp, with mag = 0 for a signed zero (R45, R48, R79). -/
inductive FVal where
  | nan
  | inf (neg : Bool)
  | fin (neg : Bool) (mag : Nat) (exp : Int)
  deriving DecidableEq, Repr

/-- The 2-bit tag of a chain word (R79). -/
inductive Tag where
  | finite | posInf | negInf | nan
  deriving DecidableEq, Repr

/-- A chain word: the integer S and its tag (R76, R79). -/
structure ChainWord where
  s : Int
  tag : Tag
  deriving DecidableEq, Repr

/-- SQ_STATUS.STATE (R143). -/
inductive SqState where
  | idle | run | waitt | semw | stall | fault | saved | halted
  deriving DecidableEq, Repr

/-- Fault codes of a sequencer (R142). -/
inductive SqCode where
  | none | instr | range | desc | accum | loop | call | drain | sem | mem
  deriving DecidableEq, Repr

/-- One level of the loop stack (R106, R133). -/
structure LoopLevel where
  first : Nat
  last : Nat
  count : Nat
  index : Nat
  deriving DecidableEq, Repr

/-- What is known of the tile last loaded into one sub-array of a plane (R66, R70, R91, R122). -/
structure TileMeta where
  part : Nat
  sub : Nat
  fmt : Nat
  rows : Nat
  cols : Nat
  trans : Bool
  /-- The load's largest operand bound, none when no element is finite and non-zero (R76). -/
  uw : Option Int
  /-- Address of the load instruction and its capture slot, if it was selected (R263). -/
  pc : Nat
  slot : Option Nat
  deriving DecidableEq, Repr

/-- One plane of one array: PE(k, n) at 384k + n, 16 bits; tap scale of (column n, tap j, sub-lane s) at
48n + 4j + s, unlisted 0; the tiles it was last loaded with (R69, R81). -/
structure Plane where
  pes : SMap W16
  taps : SMap Byte
  tiles : List TileMeta
  /-- A load has written it since it last became shadow (R445). -/
  written : Bool
  deriving DecidableEq, Repr

def Plane.empty : Plane := ⟨[], [], [], false⟩

/-- One array: planes, the swap-wave flag of R72, the steering of R100. -/
structure ArrayState where
  active : Plane
  shadow : Plane
  /-- The plane a swap wave has vacated is not yet the shadow plane (R72). -/
  vacated : Bool
  /-- SQ_COLMAP's slots: retired physical columns, at most four (R100, R103). -/
  retired : List Nat
  /-- A REPAIR.APPLY change awaiting the next tile boundary (R101). -/
  pendCol : Option Nat
  deriving DecidableEq, Repr

def ArrayState.empty : ArrayState := ⟨.empty, .empty, false, [], none⟩

/-- A descriptor of kind TILE or WIDE as read and stepped at issue (R113, R114). -/
structure TileRef where
  wide : Bool
  base : Nat
  pitch : Nat
  rows : Nat
  cols : Nat
  fmt : Nat
  scale : Nat
  chip : Nat
  deriving DecidableEq, Repr

/-- A descriptor of kind BUCKET as read and stepped (R115). -/
structure BucketRef where
  chip : Nat
  base : Nat
  rows : Nat
  cols : Nat
  fmt : Nat
  bucket : Nat
  flow : Nat
  deriving DecidableEq, Repr

/-- Where an output goes (R123). -/
inductive OutRef where
  | tile (t : TileRef)
  | bucket (b : BucketRef)
  deriving DecidableEq, Repr

/-- A descriptor of kind DRAIN as read (R116); cina and cinb are the carry-in tiles read with it. -/
structure DrainRef where
  bias : Nat
  func : Nat
  scale : Int
  zfmt : Nat
  za : Nat
  zb : Nat
  cina : Option TileRef
  cinb : Option TileRef
  /-- CINA and CINB, for a fault of a carry-in found at binding. -/
  iA : Nat
  iB : Nat
  deriving DecidableEq, Repr

/-- A pending DRN (R123). `dA`, `dB` and `dD` are the indices, for a fault found at binding; `no` numbers the DRNs of
the core in program order. -/
structure PendDrn where
  no : Nat
  sub : Nat
  flags : DrnFlags
  outA : OutRef
  outB : Option OutRef
  drain : DrainRef
  dA : Nat
  dB : Nat
  dD : Nat
  pc : Nat
  deriving DecidableEq, Repr

/-- What a RED binding fixes for one bucket (R241, R348, R349, R354). -/
structure RedOut where
  exp : Int
  slice : Nat
  step : W32
  /-- The bucket's mask line, read when the DRN binds; none when SQ_GMASK.EN is clear. -/
  mask : Option (List Byte)
  /-- Packets of the binding not yet complete. -/
  left : Nat
  /-- The core was throttled at some time during the binding. -/
  thr : Bool
  deriving DecidableEq, Repr

/-- The running frame an array holds for one output tile (R82). -/
structure RunFrame where
  g : Option Int
  fmax : Int
  count : Nat
  span : Bool
  deriving DecidableEq, Repr

/-- A DRN bound to a pass (R122), with the running frame each array brings in, once its first merge is made. -/
structure Binding where
  drn : PendDrn
  redA : Option RedOut
  redB : Option RedOut
  frameA : Option RunFrame
  frameB : Option RunFrame
  deriving DecidableEq, Repr

/-- The four pass-starting instructions (R109). -/
inductive PassKind where
  | jet | ats | atx | atv
  deriving DecidableEq, Repr

/-- A token metadata entry (R271). -/
structure TokenMeta where
  glob : Bool
  seg : Nat
  pos : Nat
  deriving DecidableEq, Repr

/-- What an ATS keeps of its mask and metadata (R275 to R279). -/
structure AtsInfo where
  win : Nat
  mzero : Bool
  gen : Bool
  wen : Bool
  q : List TokenMeta
  ka : List TokenMeta
  kb : List TokenMeta
  deriving DecidableEq, Repr

/-- Operands of a pass as fixed at dispatch. -/
structure PassOps where
  kind : PassKind
  part : Nat
  swap : Bool
  m : Nat
  r : Nat
  act : TileRef
  /-- Pages of an ATX: base address of each listed page, row pitch, first column (R304). -/
  pages : List Nat
  rowb : Nat
  col0 : Nat
  /-- Page window of an ATX (R305). -/
  window : Nat
  ats : Option AtsInfo
  /-- Rows that stream, rising (R279, R281). -/
  rows : List Nat
  pc : Nat
  deriving DecidableEq, Repr

/-- One pass from its dispatch until its last output is written (R121, R443). -/
structure Pass where
  ops : PassOps
  binds : List Binding
  /-- Largest operand bound of the activations, one per band, once the prescan has ended (R76, R77). -/
  ua : Option (List (Option Int))
  /-- Frames of array A and B, one per sub-array, once fixed. -/
  framesA : List (Option Int)
  framesB : List (Option Int)
  issued : Bool
  /-- Rows entered, in the order they stream. -/
  entered : Nat
  /-- Rows of an ATX that the page reader has copied into the window (R305). -/
  copied : Nat
  /-- Chain words: key (array * 16 + sub) * 2^24 + row * 384 + column. -/
  chains : SMap ChainWord
  /-- Outputs made, by the same keys. -/
  done : SMap Bool
  /-- Unrounded values of MX blocks not yet whole, by the same keys (R97). -/
  mx : SMap FVal
  /-- Row maxima of an ATS: key array * 8192 + row: scores so far and the largest (R280). -/
  maxes : SMap (Nat × FVal)
  /-- NOW at issue, for a Contrail capture (R265). -/
  issueNow : W64
  deriving DecidableEq, Repr

/-- A drain write on its way: a line's bytes, or a packet of the reduction path (R124). -/
inductive DrainWrite where
  /-- The bytes that DRN number `no` has made so far for a line, by its canonical address: one write, since all of one
  operation's bytes in a line go together (R207). -/
  | line (addr no : Nat) (bytes : SMap (Option Byte))
  /-- A staged reduction packet, by its staging number. -/
  | packet (stage : Nat)
  deriving DecidableEq, Repr

/-- One packet in the staging ring (R233, R235). -/
structure StagedPacket where
  bucket : Nat
  slice : Nat
  step : W32
  pidx : Nat
  fmt : Nat
  exp : Int
  dchip : Nat
  daddr : Nat
  flow : Nat
  ints : SMap Int
  filled : Nat
  sat : Nat
  nonfin : Option Nat
  topx : Int
  thr : Bool
  /-- Slot address in the core's ring. -/
  slot : Nat
  /-- Residue, formed with the last element (R235). -/
  res : Nat
  /-- Taken by link DMA into a chunk. -/
  chunked : Bool
  deriving DecidableEq, Repr

/-- A chunk link DMA is filling (R352): the staging numbers in order. -/
structure OpenChunk where
  bucket : Nat
  slice : Nat
  step : W32
  stages : List Nat
  deriving DecidableEq, Repr

/-- An outstanding stationary load of one array (R70, R119). -/
structure Load where
  arrB : Bool
  src : TileRef
  part : Nat
  sub : Nat
  trans : Bool
  pc : Nat
  slot : Option Nat
  /-- Loads issued by one instruction carry one number; four instructions may be outstanding. -/
  op : Nat
  /-- Its descriptor's index, for a fault (R186). -/
  desc : Nat
  deriving DecidableEq, Repr

/-- An outstanding MOV or CSNAP (R125, R140). A MOV reads its source as it completes. -/
inductive MoveOp where
  | mov (src dst : TileRef) (header : Bool) (pc desc : Nat)
  | snap (addr : Nat) (words : List W64)
  deriving DecidableEq, Repr

/-- The instruction a stalled sequencer holds (R107, R141). -/
inductive SqHeld where
  | none
  | load (trans : Bool) (ra rb : Option TileRef) (da db sub part : Nat)
  | swap
  | pass (kind : PassKind) (a mask : BitVec 12) (part : BitVec 3) (swap : Bool) (m : BitVec 13)
  | mov (a dest : BitVec 12)
  | put (a dest : BitVec 12) (flow : BitVec 13)
  | csnap (dest index : BitVec 12)
  | semw (s n : Nat)
  | semsRel (s n : Nat)
  | fence (l d m p : Bool)
  | waitt (target : Nat)
  | yieldPt
  | halt (code : Nat)
  deriving DecidableEq, Repr

/-- SQ_JRANGEj (R104, R143). -/
structure JRange where
  valid : Bool
  ibase : Nat
  ilim : Nat
  dbase : Nat
  dlim : Nat
  deriving DecidableEq, Repr

def JRange.none : JRange := ⟨false, 0, 0, 0, 0⟩

/-- One Contrail capture slot (R263 to R265). -/
inductive Capture where
  | free
  /-- Tile copied, waiting for the pass that makes it active. -/
  | tile (arrB : Bool) (plane : Plane) (seq : Nat) (pc : Nat) (tm : TileMeta)
  /-- Captured whole: row and chains stand in the slot's memory too. -/
  | full (arrB : Bool) (plane : Plane) (seq : Nat) (tm : TileMeta) (row : List Byte) (scales : List Byte)
      (actFmt : Nat) (r : Nat) (part : Nat) (frame : Option Int) (chains : List ChainWord) (words : List W64)
      (colmap : List Nat)
  deriving DecidableEq, Repr

/-- The sequencer state that pre-emption saves and restores (R106, R444). -/
structure SqCtx where
  pc : Nat
  loops : List LoopLevel
  calls : List Nat
  drnq : List PendDrn
  /-- Dispatched passes, oldest first: at most one not issued, and those still in the arrays or drain. -/
  passes : List Pass
  loads : List Load
  moves : List MoveOp
  /-- Outstanding PUTs of this core, by operation number. -/
  puts : List Nat
  drainWrites : List DrainWrite
  held : SqHeld
  /-- Group vector latched by the last ATS, its M and its counts (R281, R295). -/
  atsValid : Bool
  atsM : Nat
  atsGroups : List Bool
  atsSkipBlk : Nat
  /-- SQ_REDSTG and SQ_GMASK images (R243). -/
  redstg : W64
  gmask : W64
  deriving DecidableEq, Repr

def SqCtx.empty : SqCtx :=
  ⟨0, [], [], [], [], [], [], [], [], .none, false, 0, [], 0, 0, 0⟩

/-- A matrix core. -/
structure Core where
  st : SqState
  job : Nat
  ctx : SqCtx
  jrange : SMap JRange
  faultCode : SqCode
  faultDesc : Nat
  faultPc : Nat
  /-- Instruction memory, by word address (R104). -/
  imem : SMap W64
  /-- Descriptor table: word w of descriptor i at 4i + w (R104, R105). -/
  desc : SMap W64
  arrA : ArrayState
  arrB : ArrayState
  /-- SQ_ARREVT (R103). -/
  arrevt : W64
  /-- SQ_REDOCC.GATE (R243). -/
  gate : Bool
  /-- Staging ring: packets by staging number, next number, slots reserved and not yet filled. -/
  staged : SMap (Option StagedPacket)
  nextStage : Nat
  reserved : Nat
  /-- Number of the next DRN (R84). -/
  nextDrn : Nat
  chunks : List OpenChunk
  /-- Binding count of each bucket of each job in the current step (R348): 65536 * job + bucket, step, count. -/
  bindNo : List (Nat × W32 × Nat)
  nextLoad : Nat
  /-- Contrail: loads counted since cold start, slots, registers (R263 to R270). -/
  loadCount : Nat
  captures : SMap Capture
  ctrail : W64
  cbase : W64
  crec : W64
  csamp : W64
  cmiss : W64
  calarm : W64
  /-- Rows entered since the last beat, for R476. -/
  retired : Nat
  wasted : Nat
  /-- Exit code written by HALT, until the instance's record is made (R138). -/
  exitCode : Nat
  /-- The core's unit claims were last written under this job slot (R446). -/
  lastJob : Option Nat
  deriving DecidableEq, Repr

/-- VE_STATUS.STATE (R175). -/
inductive VeState where
  | idle | run | wait | semw | stall | fault | saved | halted
  deriving DecidableEq, Repr

/-- Fault codes of an engine (R174). -/
inductive VeCode where
  | none | instr | range | align | sys | sem | dma | mem
  deriving DecidableEq, Repr

/-- A vector register: lane i at index i (R147). -/
abbrev VReg := SMap W32

/-- The update context (R170), field by field as its bytes give them. -/
structure UCtx where
  lr : W32
  b1 : W32
  omb1 : W32
  b2 : W32
  omb2 : W32
  eps : W32
  wd : W32
  c1r : W32
  c2r : W32
  gscale : W32
  elem : BitVec 48
  tensor : W32
  wfmt : Nat
  nesterov : Bool
  expo : Int
  deriving DecidableEq, Repr

def UCtx.zero : UCtx := ⟨0, 0, 0, 0, 0, 0, 0, 0, 0, 0, 0, 0, 0, false, 0⟩

/-- Which update instruction the gate holds (R251, R253). -/
inductive UpdKind where
  | adam | sgdm | ef
  deriving DecidableEq, Repr

/-- The instruction a waiting engine holds. -/
inductive VeHeld where
  | none
  | fence
  | semW (s n : Nat)
  | semSRel (s n : Nat)
  | dma (sa : BitVec 5)
  | waitT (target : W64)
  | upd (k : UpdKind) (vd va vb : BitVec 6) (pm : BitVec 3)
  | halt
  deriving DecidableEq, Repr

/-- An outstanding v.dma (R162): a local copy with the address of its instruction, for a fault (R175), or a PUT by its
operation number. -/
inductive DmaOp where
  | copy (src dst len flow pc : Nat)
  | put (op : Nat)
  deriving DecidableEq, Repr

/-- The engine state that pre-emption saves and restores (R444). -/
structure VeCtx where
  /-- Word address of the next instruction in the local store. -/
  pc : Nat
  sregs : SMap W64
  vregs : SMap VReg
  pregs : SMap W32
  step : W32
  uctx : UCtx
  held : VeHeld
  /-- Outstanding DMAs, at most eight. -/
  dmas : List DmaOp
  /-- Lines of stores not yet known complete (R204, R210). -/
  stores : List Nat
  deriving DecidableEq, Repr

def VeCtx.empty : VeCtx := ⟨0, [], [], [], 0, .zero, .none, [], []⟩

/-- A vector engine. -/
structure Engine where
  st : VeState
  job : Nat
  ctx : VeCtx
  keyed : Bool
  code : VeCode
  fpc : Nat
  /-- VE_EVT (R175). -/
  evt : W64
  entry : Nat
  /-- The job image has a VECPROG section for the engine (R146). -/
  hasProg : Bool
  /-- Physical engine in the cluster (R145). -/
  phys : Nat
  /-- Generator state of each lane (R163). -/
  gen : SMap W64
  /-- Data cache: line address to its 128 bytes (R157). -/
  dcache : SMap (List Byte)
  deriving DecidableEq, Repr

end Sys2Proof.Machine
end

