-- ==== Sys2Proof/Machine/Num.lean ====
section
/-! DEFINITION. Number formats and rounding (R43 to R64): every value is exact, and every conversion to a
narrower format is one rounding from the exact value (R59). -/

namespace Sys2Proof.Machine

/-- A floating-point layout of R45: exponent bits, fraction bits, bias, the code of the largest finite
magnitude, and the codes of infinity and canonical NaN where the format has them (R47). -/
structure FpSpec where
  ebits : Nat
  fbits : Nat
  bias : Nat
  maxCode : Nat
  infCode : Option Nat
  nanCode : Option Nat
  deriving DecidableEq, Repr

def fpD16 : FpSpec := ⟨8, 7, 127, 0x7F7F, some 0x7F80, some 0x7FC0⟩
def fpH16 : FpSpec := ⟨5, 10, 15, 0x7BFF, some 0x7C00, some 0x7E00⟩
def fpF32 : FpSpec := ⟨8, 23, 127, 0x7F7FFFFF, some 0x7F800000, some 0x7FC00000⟩
def fpE4M3 : FpSpec := ⟨4, 3, 7, 0x7E, none, some 0x7F⟩
def fpE5M2 : FpSpec := ⟨5, 2, 15, 0x7B, some 0x7C, some 0x7E⟩
def fpE2M1 : FpSpec := ⟨2, 1, 1, 7, none, none⟩
def fpE2M3 : FpSpec := ⟨2, 3, 1, 31, none, none⟩
def fpE3M2 : FpSpec := ⟨3, 2, 3, 31, none, none⟩

/-- Width in bits of the magnitude part of a code. -/
def FpSpec.mbits (sp : FpSpec) : Nat := sp.ebits + sp.fbits

/-- The value of a code (R45). A magnitude above the largest finite one is the infinity where the code is
the infinity's, else a NaN. -/
def FpSpec.decode (sp : FpSpec) (w : Nat) : FVal :=
  let m := w % 2 ^ sp.mbits
  let neg := decide (w / 2 ^ sp.mbits % 2 = 1)
  if sp.maxCode < m then
    if sp.infCode = some m then .inf neg else .nan
  else
    let e := m / 2 ^ sp.fbits
    let f := m % 2 ^ sp.fbits
    if e = 0 then .fin neg f (1 - (sp.bias : Int) - sp.fbits)
    else .fin neg (2 ^ sp.fbits + f) ((e : Int) - sp.bias - sp.fbits)

/-- `m * 2^sh` rounded to the nearest integer, ties to even (R60). -/
def rneShift (m : Nat) (sh : Int) : Nat :=
  match sh with
  | .ofNat k => m * 2 ^ k
  | .negSucc k =>
    let d := 2 ^ (k + 1)
    let q := m / d
    let r := m % d
    if 2 * r > d ∨ (2 * r = d ∧ q % 2 = 1) then q + 1 else q

/-- The code of a finite non-zero magnitude as though the exponent range had no upper limit (R60). -/
def FpSpec.rawCode (sp : FpSpec) (mag : Nat) (exp : Int) : Nat :=
  let lead : Int := (Nat.log2 mag : Int) + exp
  let emin : Int := 1 - (sp.bias : Int)
  let q : Int := max lead emin - sp.fbits
  let n := rneShift mag (exp - q)
  ((q + sp.fbits + sp.bias - 1).toNat) * 2 ^ sp.fbits + n

def FpSpec.signBit (sp : FpSpec) (neg : Bool) : Nat := if neg then 2 ^ sp.mbits else 0

/-- The magnitude code an overflow or an infinite input takes: infinity where the conversion gives one, the
largest finite value where it saturates, NaN for E4M3 without saturation (R60). -/
def FpSpec.overCode (sp : FpSpec) (sat : Bool) : Nat :=
  if sat then sp.maxCode else (sp.infCode.orElse fun _ => sp.nanCode).getD sp.maxCode

/-- Round-to-nearest-even (R60), with whether the output counts as overflowing or saturating. `sat` is set
for a conversion that saturates: E4M3 and E5M2 without the non-saturating option, and every MX element. -/
def FpSpec.round (sp : FpSpec) (sat : Bool) (v : FVal) : Nat × Bool :=
  match v with
  | .nan => (sp.nanCode.getD 0, false)
  | .inf neg =>
    if sat then (sp.signBit neg + sp.maxCode, true)
    else
      match sp.infCode with
      | some c => (sp.signBit neg + c, false)
      | none => (sp.nanCode.getD sp.maxCode, false)
  | .fin neg 0 _ => (sp.signBit neg, false)
  | .fin neg (m + 1) e =>
    let c := sp.rawCode (m + 1) e
    if sp.maxCode < c then
      if sp.infCode.isNone && !sat then (sp.overCode sat, true)
      else (sp.signBit neg + sp.overCode sat, true)
    else (sp.signBit neg + c, false)

/-- Stochastic rounding of an F32 value with 16 random bits (R62). -/
def FpSpec.stochastic (sp : FpSpec) (v : FVal) (r : Nat) : Nat :=
  match v with
  | .nan => sp.nanCode.getD 0
  | .inf neg => sp.signBit neg + sp.infCode.getD sp.maxCode
  | .fin neg 0 _ => sp.signBit neg
  | .fin neg (m + 1) e =>
    let mag := m + 1
    let lead : Int := (Nat.log2 mag : Int) + e
    let q : Int := max lead (1 - (sp.bias : Int)) - sp.fbits
    let base := ((q + sp.fbits + sp.bias - 1).toNat) * 2 ^ sp.fbits
    let d := (q - e).toNat
    let a := if q ≤ e then mag * 2 ^ (e - q).toNat else mag / 2 ^ d
    let t := if q ≤ e then 0 else mag % 2 ^ d
    let t16 := if 16 ≤ d then t / 2 ^ (d - 16) else t * 2 ^ (16 - d)
    let n := if t ≠ 0 ∧ t16 + r ≥ 65536 then a + 1 else a
    sp.signBit neg + min (base + n) sp.maxCode

/-- Sum of two exact values (R48). -/
def FVal.add : FVal → FVal → FVal
  | .nan, _ => .nan
  | _, .nan => .nan
  | .inf a, .inf b => if a = b then .inf a else .nan
  | .inf a, .fin _ _ _ => .inf a
  | .fin _ _ _, .inf b => .inf b
  | .fin na ma ea, .fin nb mb eb =>
    let e := if ma = 0 then eb else if mb = 0 then ea else min ea eb
    let ia : Int := if ma = 0 then 0 else (if na then -1 else 1) * (ma * 2 ^ (ea - e).toNat : Nat)
    let ib : Int := if mb = 0 then 0 else (if nb then -1 else 1) * (mb * 2 ^ (eb - e).toNat : Nat)
    let t := ia + ib
    if t = 0 then .fin (na && nb && ma == 0 && mb == 0) 0 0
    else .fin (decide (t < 0)) t.natAbs e

/-- Product of two exact values (R48). -/
def FVal.mul : FVal → FVal → FVal
  | .nan, _ => .nan
  | _, .nan => .nan
  | .inf a, .inf b => .inf (a != b)
  | .inf a, .fin b m _ => if m = 0 then .nan else .inf (a != b)
  | .fin a m _, .inf b => if m = 0 then .nan else .inf (a != b)
  | .fin na ma ea, .fin nb mb eb =>
    if ma = 0 ∨ mb = 0 then .fin (na != nb) 0 0 else .fin (na != nb) (ma * mb) (ea + eb)

def FVal.neg : FVal → FVal
  | .nan => .nan
  | .inf a => .inf (!a)
  | .fin n m e => .fin (!n) m e

def FVal.abs : FVal → FVal
  | .nan => .nan
  | .inf _ => .inf false
  | .fin _ m e => .fin false m e

def FVal.isFinite : FVal → Bool
  | .fin _ _ _ => true
  | _ => false

def FVal.isNan : FVal → Bool
  | .nan => true
  | _ => false

/-- `a < b`, false when either is NaN. -/
def FVal.lt : FVal → FVal → Bool
  | .nan, _ => false
  | _, .nan => false
  | .inf a, .inf b => a && !b
  | .inf a, .fin _ _ _ => a
  | .fin _ _ _, .inf b => !b
  | .fin na ma ea, .fin nb mb eb =>
    let e := if ma = 0 then eb else if mb = 0 then ea else min ea eb
    let ia : Int := if ma = 0 then 0 else (if na then -1 else 1) * (ma * 2 ^ (ea - e).toNat : Nat)
    let ib : Int := if mb = 0 then 0 else (if nb then -1 else 1) * (mb * 2 ^ (eb - e).toNat : Nat)
    decide (ia < ib)

/-- `a = b` as numbers: signed zeros are equal, a NaN equals nothing. -/
def FVal.numEq (a b : FVal) : Bool :=
  !a.isNan && !b.isNan && !FVal.lt a b && !FVal.lt b a

/-- The value times 2^k. -/
def FVal.scale2 (v : FVal) (k : Int) : FVal :=
  match v with
  | .fin n m e => if m = 0 then .fin n 0 0 else .fin n m (e + k)
  | w => w

/-- floor(log2 |v|) of a finite non-zero value. -/
def FVal.lead : FVal → Option Int
  | .fin _ m e => if m = 0 then none else some ((Nat.log2 m : Int) + e)
  | _ => none

/-- Quotient with at least `p` significant bits and a sticky last bit, so that one rounding to a format of
fewer bits is the rounding of the exact quotient. -/
def FVal.divSticky (p : Nat) : FVal → FVal → FVal
  | .nan, _ => .nan
  | _, .nan => .nan
  | .inf _, .inf _ => .nan
  | .inf a, .fin b _ _ => .inf (a != b)
  | .fin a _ _, .inf b => .fin (a != b) 0 0
  | .fin na ma ea, .fin nb mb eb =>
    if mb = 0 then (if ma = 0 then .nan else .inf (na != nb))
    else if ma = 0 then .fin (na != nb) 0 0
    else
      let k := p + Nat.log2 mb
      let q := ma * 2 ^ k / mb
      let r := ma * 2 ^ k % mb
      .fin (na != nb) (2 * q + (if r = 0 then 0 else 1)) (ea - eb - k - 1)

/-- Integer square root by bits, for `sqrtSticky`. -/
def isqrtBits (n : Nat) : Nat → Nat → Nat
  | 0, acc => acc
  | k + 1, acc =>
    let t := acc + 2 ^ k
    if t * t ≤ n then isqrtBits n k t else isqrtBits n k acc

/-- Square root with at least `p` significant bits and a sticky last bit; NaN below zero. -/
def FVal.sqrtSticky (p : Nat) : FVal → FVal
  | .nan => .nan
  | .inf a => if a then .nan else .inf false
  | .fin n m e =>
    if m = 0 then .fin n 0 0
    else if n then .nan
    else
      let m2 := if e % 2 = 0 then m else 2 * m
      let e2 := if e % 2 = 0 then e else e - 1
      let big := m2 * 2 ^ (2 * p)
      let r := isqrtBits big (Nat.log2 big / 2 + 1) 0
      .fin false (2 * r + (if r * r = big then 0 else 1)) (e2 / 2 - p - 1)

/-- One rounding to F32. -/
def FVal.toF32 (v : FVal) : W32 := BitVec.ofNat 32 (fpF32.round false v).1

/-- The value of an F32 pattern. -/
def f32 (w : W32) : FVal := fpF32.decode w.toNat

/-! Format codes (R43). -/

def fmtD16 : Nat := 0
def fmtH16 : Nat := 1
def fmtF32 : Nat := 2
def fmtE4M3 : Nat := 3
def fmtE5M2 : Nat := 4
def fmtMXFP4 : Nat := 5
def fmtE2M3 : Nat := 6
def fmtE3M2 : Nat := 7
def fmtMXINT8 : Nat := 8
def fmtES16 : Nat := 9
def fmtES32 : Nat := 10
def fmtS1 : Nat := 11

/-- Width of one element in bits. -/
def fmtBits (f : Nat) : Nat :=
  match f with
  | 0 => 16 | 1 => 16 | 2 => 32 | 3 => 8 | 4 => 8 | 5 => 4 | 6 => 6 | 7 => 6 | 8 => 8
  | 9 => 16 | 10 => 32 | 11 => 1 | _ => 0

/-- The microscaling formats (R49). -/
def fmtMx (f : Nat) : Bool := decide (5 ≤ f ∧ f ≤ 8)

/-- Formats of an array operand: the first two rows of R57. -/
def fmtArray (f : Nat) : Bool := decide (f = 0 ∨ f = 1 ∨ (3 ≤ f ∧ f ≤ 8))

/-- Formats of a drain output to memory: the third row of R57. -/
def fmtDrain (f : Nat) : Bool := decide (f ≤ 8)

/-- The layout of a floating-point format or MX element format; MXINT8 has none. -/
def fmtSpec (f : Nat) : Option FpSpec :=
  match f with
  | 0 => some fpD16 | 1 => some fpH16 | 2 => some fpF32 | 3 => some fpE4M3 | 4 => some fpE5M2
  | 5 => some fpE2M1 | 6 => some fpE2M3 | 7 => some fpE3M2 | _ => none

/-- Rate class of R58: 0 for 16 bits, 1 for 8 bits, 2 for MXFP4. -/
def rateClass (f : Nat) : Nat := if f = 0 ∨ f = 1 then 0 else if f = 5 then 2 else 1

/-- The value of an MXINT8 element: q * 2^-6 (R49). -/
def mxint8Decode (w : Nat) : FVal :=
  let q : Int := (BitVec.ofNat 8 w).toInt
  .fin (decide (q < 0)) q.natAbs (-6)

/-- The value of an element code, its MX scale apart. -/
def elemDecode (f w : Nat) : FVal :=
  match fmtSpec f with
  | some sp => sp.decode w
  | none => mxint8Decode w

/-- The value of an E8M0 scale (R49). -/
def e8m0 (x : Nat) : FVal := if x % 256 = 255 then .nan else .fin false 1 ((x % 256 : Nat) - 127)

/-- An MX element's value: its scale times its element value (R49). -/
def mxDecode (f x w : Nat) : FVal := FVal.mul (e8m0 x) (elemDecode f w)

/-- emax of R51 step 3. -/
def mxEmax (f : Nat) : Int :=
  match f with
  | 5 => 2 | 6 => 2 | 7 => 4 | _ => 0

/-- The largest magnitude's leading exponent among values, none when all are zero. -/
def maxLead : List FVal → Option Int
  | [] => none
  | v :: t =>
    match v.lead, maxLead t with
    | none, r => r
    | some a, none => some a
    | some a, some b => some (max a b)

/-- One MX element from its quotient: round-to-nearest-even, saturating (R51 step 4), and whether it saturated: a quotient
above the largest magnitude that rounds back to it sets no flag (R60, R97). -/
def mxElem (f : Nat) (v : FVal) : Nat × Bool :=
  match fmtSpec f with
  | some sp => sp.round true v
  | none =>
    match v with
    | .fin n m e =>
      let q := rneShift m (e + 6)
      let k := min q 127
      ((if n then (256 - k) % 256 else k), decide (127 < q))
    | _ => (0, false)

/-- Conversion of the values of one block (R51): the scale, the elements, whether any element saturated. -/
def mxPack (f : Nat) (vs : List FVal) : Nat × List (Nat × Bool) :=
  if vs.any (fun v => !v.isFinite) then (255, vs.map (fun _ => (0, false)))
  else
    match maxLead vs with
    | none => (0, vs.map (mxElem f))
    | some l =>
      let x : Int := max 0 (min 254 (l - mxEmax f + 127))
      (x.toNat, vs.map (fun v => mxElem f (v.scale2 (127 - x))))

/-- ES16 encoding of a finite value under exponent e, and whether it saturated (R53). -/
def es16Encode (v : FVal) (e : Int) : Int × Bool :=
  match v with
  | .fin n m x =>
    let q := if m = 0 then 0 else rneShift m (x - e)
    let k : Int := (min q 32767 : Nat)
    ((if n then -k else k), decide (32767 < q))
  | _ => (0, false)

/-- S1 encoding (R53): the bit is set for a value below zero. -/
def s1Encode (v : FVal) : Bool := FVal.lt v (.fin false 0 0)

/-- N * 2^e as an exact value (R52, R56). -/
def esValue (n e : Int) : FVal := .fin (decide (n < 0)) n.natAbs e

/-- The code of an element on output of a drain or narrowing store: R60, with the overflow flag. -/
def fmtRound (f : Nat) (nonsat : Bool) (v : FVal) : Nat × Bool :=
  match fmtSpec f with
  | some sp => sp.round ((f == 3 || f == 4) && !nonsat) v
  | none => (0, false)

end Sys2Proof.Machine
end

