-- ==== Sys2Proof/Machine/StateSys.lean ====
section
/-! DEFINITION. The state of Meridian and the schedule table (R20 to R42), of memory (R176 to R199), of
semaphores (R219 to R223), of the numerics unit (R244 to R262), of the key-value page unit (R296 to R321)
and of instances (R33, R441 to R447). -/

namespace Sys2Proof.Machine

/-- MER_STATUS.STATE (R26). -/
inductive LockState where
  | free | acquire | locked | holdover | fault
  deriving DecidableEq, Repr

/-- The last TIME frame of a link, for the exchange of R24 and R331. -/
structure TimeLink where
  txTick : W64
  txPs : W16
  rxTick : W64
  rxPs : W16
  deriving DecidableEq, Repr

def TimeLink.none : TimeLink := ⟨0, 0, 0, 0⟩

/-- The two-step, end-to-end exchange of IEEE 1588 with the slave's own stamps (R23; the messages are that standard's,
log entry 73). Times are counts of nanoseconds. -/
structure PtpExchange where
  /-- SequenceId of the last Sync and the count at its arrival. -/
  sync : Option (W16 × Nat)
  /-- Of the Delay_Req that waits for its answer: SequenceId, how far the Sync arrived after its origin, the count at its sending. -/
  request : Option (W16 × Int × Nat)
  /-- SequenceId of the next Delay_Req. -/
  nextSeq : W16
  /-- Delay_Req messages sent, oldest first. -/
  sent : List W16
  deriving DecidableEq, Repr

def PtpExchange.none : PtpExchange := ⟨.none, .none, 0, []⟩

structure Mer where
  now : W64
  st : LockState
  source : Nat
  hops : Nat
  holdEp : Nat
  /-- MER_OFFSET, signed picoseconds. -/
  offset : W64
  evt : W64
  lateCount : BitVec 48
  lateOvf : Bool
  /-- Counts at which the next beat and epoch events fire (R22). -/
  nextBeat : Nat
  nextEpoch : Nat
  upstream : Option LinkId
  /-- Count at which the upstream link changed, while no frame has come on the new one (R25). -/
  altSince : Option Nat
  /-- Ticks of slew still to apply: positive advances the count (R28). -/
  slew : Int
  /-- Count at which the last slew step was made. -/
  lastSlew : Nat
  /-- Source and seconds a TIME.LOCK recorded: on the system manager for the PPS edge, on the deputy (R23, R30). -/
  lockSource : Nat
  lockSeconds : W64
  lockGiven : Bool
  /-- The next PPS edge marks lockSeconds (R23). -/
  ppsArmed : Bool
  /-- The state of HOLDOVER or FAULT arises only from the external reference (R30). -/
  extOnly : Bool
  frames : SMap TimeLink
  /-- The upstream of a chip in HOLDOVER, or the reference, is back and its offset is being slewed away (R29, R30). -/
  returning : Bool
  /-- An offset has been measured since ACQUIRE was entered (R26). -/
  measured : Bool
  /-- Count at the last 1PPS edge or PTP message, or at which the source was taken (R42, REF_LOST). -/
  refAt : Nat
  ptp : PtpExchange
  deriving DecidableEq, Repr

def Mer.reset : Mer :=
  { now := 0, st := .free, source := 0, hops := 0, holdEp := 0, offset := 0, evt := 0, lateCount := 0,
    lateOvf := false, nextBeat := 1024, nextEpoch := 1048576, upstream := none, altSince := none, slew := 0,
    lastSlew := 0, lockSource := 0, lockSeconds := 0, lockGiven := false, ppsArmed := false, extOnly := false,
    frames := [], returning := false, measured := false, refAt := 0, ptp := .none }

/-- A schedule entry (R32) with what launch evaluation and the shares keep beside it. -/
structure SchedEntry where
  start : W64
  period : BitVec 48
  valid : Bool
  asap : Bool
  whole : Bool
  share : Nat
  cores : Nat
  job : Nat
  entry : Nat
  inst : W32
  tag : W32
  /-- Number of the next instance not yet launched (R33). -/
  nextNo : Nat
  /-- FW_DEF (R454). -/
  deficit : Int
  slots : Nat
  cont : Bool
  deriving DecidableEq, Repr

def SchedEntry.empty : SchedEntry :=
  ⟨0, 0, false, false, false, 0, 0, 0, 0, 0, 0, 0, 0, 0, false⟩

inductive InstState where
  | running | stopping | saved
  deriving DecidableEq, Repr

/-- An instance from its launch until it ends (R33, R441 to R447). -/
structure Inst where
  entry : Nat
  no : Nat
  job : Nat
  cores : List Nat
  whole : Bool
  nominal : W64
  st : InstState
  /-- It is being stopped for good, not saved (R436). -/
  discard : Bool
  /-- Amounts taken from and added to each semaphore since launch (R447). -/
  takes : SMap Nat
  adds : SMap Nat
  /-- Cores already released (R138). -/
  released : List Nat
  exit : Nat
  /-- Saved state of each core and engine it held (R444). -/
  savedCores : SMap SqCtx
  /-- Active and shadow plane of array A, then of B, and whether a swap wave was crossing. -/
  savedPlanes : SMap (List Plane × Bool)
  savedEngines : SMap VeCtx
  savedEngSt : SMap VeState
  savedSqSt : SMap SqState
  /-- Order of its save among all saves. -/
  saveNo : Nat
  /-- The entry whose slots its run is charged to (R447). -/
  charge : Nat
  /-- The waiter's entry and the semaphore a yield-back runs it for (R447). -/
  backFor : Option (Nat × Nat)
  /-- It was saved by a yield-back and waits for its holder to have run (R447). -/
  yielded : Bool
  /-- Packets of each core not yet whole, and slots reserved for rows that have not drained (R443, R444). -/
  savedStage : SMap (SMap (Option StagedPacket) × Nat)
  deriving DecidableEq, Repr

/-- The check state of a line that is not simply good (R185 to R187). -/
inductive LineState where
  | good
  /-- Symbols in error, 1 to 4: a read corrects them. -/
  | correctable (symbols : Nat)
  /-- 5 to 12 symbols in error. -/
  | uncorrectable
  /-- More than 12 symbols in error: outcome not stated. -/
  | beyond
  /-- Poisoned by a partial write (R187). -/
  | poisoned
  /-- Poisoned by the repair of its row (R193, R194): reads like the other, and has its row repaired again (R192). -/
  | lost
  deriving DecidableEq, Repr

/-- A write-combining entry: byte offset in the line to its byte (R188). -/
structure WcbEntry where
  line : Nat
  bytes : SMap (Option Byte)
  deriving DecidableEq, Repr

/-- A row repair in progress or made (R192 to R194): stack, tier, bank, row. -/
structure RowRepair where
  stack : Nat
  tier : Nat
  bank : Nat
  row : Nat
  deriving DecidableEq, Repr

/-- Memory: bytes of stack memory, core buffers and local stores by canonical local address. -/
structure Mem where
  /-- What a read of each byte gives: a line that a control core holds dirty is listed with the bytes it holds there (R214). -/
  cells : SMap Byte
  lines : SMap LineState
  /-- Write-combining buffers by port: stack s at s, core buffer c at 20 + c; oldest entry first. -/
  wcb : SMap (List WcbEntry)
  /-- Lines each port's scrubber has read since cold start (R191), by port as `wcb` numbers them. -/
  scrubAt : SMap Nat
  /-- Rows of stacks: 1 + the last sweep in which the row gave a corrected error (R192). -/
  scrubCe : SMap Nat
  /-- Row repairs scheduled by R192, and those applied. -/
  repairDue : List RowRepair
  repaired : List RowRepair
  carve : Nat
  scrubEn : Bool
  scrubPeriod : Nat
  evt : W64
  ueAddr : W64
  temps : SMap W64
  ce : SMap W64
  ue : SMap W64
  /-- Lines that the control cores' coherent caches hold: line, core, whether it is dirty there (R214). -/
  held : List (Nat × Nat × Bool)
  /-- The line each control core has reserved (R217). -/
  resv : SMap (Option Nat)
  deriving DecidableEq, Repr

def Mem.reset : Mem :=
  { cells := [], lines := [], wcb := [], scrubAt := [], scrubCe := [], repairDue := [], repaired := [],
    carve := 2, scrubEn := true, scrubPeriod := 256, evt := 0, ueAddr := 0, temps := [], ce := [], ue := [],
    held := [], resv := [] }

/-- Who waits on a semaphore (R220). -/
inductive SemUnit where
  | core (c : Nat)
  | eng (e : Nat)
  deriving DecidableEq, Repr

/-- One of the 256 semaphores (R219, R220, R223). -/
structure Sem where
  count : Nat
  noinh : Bool
  granted : Bool
  job : Nat
  /-- Oldest first: unit, amount, MER_NOW when its wait began (R220, R447). -/
  waiters : List (SemUnit × Nat × W64)
  deriving DecidableEq, Repr

def Sem.empty : Sem := ⟨0, false, false, 0, []⟩

/-- A numerics bank (R244 to R262, R269). -/
structure NumBank where
  ctl : W64
  state : W64
  steps : W64
  recReg : W64
  tt : W64
  evt : W64
  /-- The job image had a NUMERICS section (R244, R247). -/
  hasSection : Bool
  /-- Final words received and not committed, oldest first: step, word, MER_NOW of arrival (R245). -/
  held : List (W32 × W64 × W64)
  completed : SMap Bool
  nonzero : SMap Bool
  deriving DecidableEq, Repr

/-- NUM_CTL: INTERVAL 2,000, LSMAX 24, LSMIN 0, SDEF 64; NUM_STATE: STEP 0xFFFF_FFFF, INIT 1 (R269). -/
def NumBank.reset : NumBank :=
  { ctl := 0x07D0180000400000#64, state := 0xFFFFFFFF00020000#64, steps := 0, recReg := 0, tt := 0, evt := 0,
    hasSection := false, held := [], completed := [], nonzero := [] }

/-- The key-value page unit (R296 to R303, R321). The page table stands in stack memory. -/
structure Kvp where
  pool : W64
  geom : W64
  ptab : W64
  en : Bool
  ready : Bool
  /-- Head of the free list, none when empty. -/
  head : Option Nat
  free : Nat
  low : Nat
  evt : W64
  /-- Result of the last pop of each control core. -/
  popped : SMap W64
  deriving DecidableEq, Repr

def Kvp.reset : Kvp := ⟨0, 0, 0, false, false, none, 0, 0, 0, []⟩

end Sys2Proof.Machine
end

