-- ==== Sys2Proof/Machine/StateLink.lean ====
section
/-! DEFINITION. The state of the Travy links, flows and operations (R322 to R345), of the reduction receive
unit (R346 to R373), and of roles and management messages (R374 to R391). -/

namespace Sys2Proof.Machine

/-- LNK_STAT.STATE (R345). -/
inductive LinkState where
  | down | train | up2 | up1 | hold
  deriving DecidableEq, Repr

/-- A packet waiting at a transmit port: its virtual channel and its source there, flow f as f, receive
port p as 8192 + p, the chip's own ACK and TIME packets as 16384 (R333, R343). -/
structure TxItem where
  vc : Nat
  pkt : Packet
  source : Nat
  deriving DecidableEq, Repr

/-- One link (R322 to R345). -/
structure Link where
  st : LinkState
  partner : Nat
  plink : Nat
  src0 : Nat
  src1 : Nat
  spcab : Nat
  fecc : W64
  fecu : W64
  rply : W64
  /-- Transmit side: LSEQ of the next new packet, packets held for replay (oldest first), queue,
  how many of the replay buffer have still to be resent, resends of the oldest, hop credits per VC. -/
  txSeq : Nat
  replay : List Packet
  /-- MER_NOW at the last sending of each packet of the replay buffer (R332). -/
  sentAt : List W64
  queue : List TxItem
  toResend : Nat
  resends : Nat
  credits : SMap Nat
  /-- Receive side: LSEQ expected, NAK sent for the present gap, buffers per VC. -/
  rxSeq : Nat
  nakSent : Bool
  rx : SMap (List Packet)
  /-- Word 0 of the last control cell sent (R329). -/
  lastCtl : W64
  /-- Measured asymmetry, ps (R24). -/
  asym : Int
  /-- Deficit of each source in each virtual channel at the transmit port, in cells: 32768 * channel + source (R343). -/
  deficits : SMap Nat
  /-- A lane does not run on its own wires: a retrain or a repair may bring it back (R328). -/
  failed0 : Bool
  failed1 : Bool
  /-- MER_NOW when it entered HOLD (R342). -/
  heldAt : W64
  deriving DecidableEq, Repr

/-- A link at reset: DOWN, SRC1 = 1, SPCAB = 15; 768 cells of credit per VC are given at training (R334). -/
def Link.reset : Link :=
  { st := .down, partner := 0, plink := 0, src0 := 0, src1 := 1, spcab := 15, fecc := 0, fecu := 0, rply := 0,
    txSeq := 0, replay := [], sentAt := [], queue := [], toResend := 0, resends := 0, credits := [], rxSeq := 0,
    nakSent := false, rx := [], lastCtl := 0, asym := 0, deficits := [], failed0 := false, failed1 := false,
    heldAt := 0 }

/-- A flow context (R335, R345). -/
structure Flow where
  valid : Bool
  job : Nat
  cred : Nat
  weight : Nat
  dest : Nat
  /-- FSEQs of the packets in flight, oldest first (R337). -/
  flight : List W16
  failed : Bool
  next : W16
  acked : W16
  deriving DecidableEq, Repr

def Flow.empty : Flow := ⟨false, 0, 0, 0, 0, [], false, 0, 0⟩

/-- INFL (R337, R345). -/
def Flow.infl (f : Flow) : Nat := f.flight.length

/-- Who issued an operation (R336, R339). -/
inductive OpOwner where
  | core (c : Nat)
  | eng (e : Nat)
  | chunk (c : Nat) (stages : List Nat)
  | rru (j : Nat)
  | keeper
  deriving DecidableEq, Repr

/-- A packet an operation has still to send: kind, destination, source bytes to be read, or bytes given. -/
structure OutPacket where
  kind : Nat
  daddr : Nat
  /-- Payload: these bytes, then what is read from these (address, length) ranges when the packet is first
  sent (R336). -/
  bytes : List Byte
  src : List (Nat × Nat)
  karg : BitVec 56
  last : Bool
  deriving DecidableEq, Repr

/-- An operation of link DMA: PUT, v.dma, chunk, lap or message (R336 to R339). -/
structure LinkOp where
  owner : OpOwner
  flow : Nat
  job : Option Nat
  dchip : Nat
  todo : List OutPacket
  /-- FSEQs sent and not acknowledged. -/
  unacked : List W16
  /-- The packet with LAST has been acknowledged: the operation is complete. -/
  finished : Bool
  /-- It ended with this status (R339). -/
  failedWith : Option Nat
  /-- MER_NOW at its first sending (R339). -/
  t0 : Option W64
  /-- Address of the instruction that issued it and the descriptor of its source, for a fault (R186). -/
  pc : Nat
  desc : Nat
  deriving DecidableEq, Repr

/-- Landings of one (source chip, flow) pair since the last ACK (R338). -/
structure Landed where
  count : Nat
  fseq : W16
  /-- MER_NOW at the oldest of them. -/
  since : W64
  deriving DecidableEq, Repr

/-- The links unit. -/
structure Links where
  link : SMap Link
  evt : W64
  hold : Nat
  timeout : Nat
  flow : SMap Flow
  grt : SMap W64
  lrt : SMap W64
  /-- Operations in issue order, by number. -/
  ops : SMap (Option LinkOp)
  nextOp : Nat
  /-- By source chip * 8192 + flow. -/
  landed : SMap Landed
  /-- Packets delivered by the local path of R126, oldest first. -/
  localQ : List Packet
  /-- Chips found unreachable (R341). -/
  unreach : List Nat
  deriving DecidableEq, Repr

def Landed.none : Landed := ⟨0, 0, 0⟩

/-- HOLD 100 µs, TIMEOUT 1,000 µs (R345). -/
def Links.reset : Links :=
  { link := [], evt := 0, hold := 100, timeout := 1000, flow := [], grt := [], lrt := [], ops := [], nextOp := 1,
    landed := [], localQ := [], unreach := [] }

/-- How a packet of a source stands at the receive unit (R356 to R361). -/
inductive PkState where
  | none
  /-- Landed; held (a halo's) and not posted. -/
  | held
  | posted
  | added
  | broken
  /-- This copy failed, or has been passed over for the halo's. -/
  | passed
  deriving DecidableEq, Repr

/-- A landed chunk's header, kept against its source (R358). -/
structure ChunkHdr where
  src : Nat
  /-- Its packets that were not discarded. -/
  pks : List Nat
  nonfin : Bool
  broken : Bool
  halo : Bool
  nthr : Nat
  sat : Nat
  topx : Int
  fbchip : Nat
  fbelem : Nat
  ncon : Nat
  deriving DecidableEq, Repr

/-- A source record as the unit read it when it armed the step (R355). -/
structure SrcRec where
  chip : Nat
  slice : Nat
  kind : Nat
  prim : Nat
  deriving DecidableEq, Repr

/-- What the unit keeps of one bucket-table entry for the armed step (R355 to R364). -/
structure RruEntry where
  armed : Bool
  srcs : List SrcRec
  /-- By source * 65536 + packet. -/
  pk : SMap PkState
  kept : List ChunkHdr
  /-- Contributions (KIND 0 index) whose packet is taken from the halo: prim * 65536 + packet. -/
  taken : SMap Bool
  discard : Nat
  t0 : Option W64
  deadlinePassed : Bool
  /-- FLAGS of the last completed step and that step (R366). -/
  flags : BitVec 8
  doneStep : Option W32
  /-- ROLE and NEXT as the unit read them when it armed the step (R355, R384). -/
  role : Nat
  next : Nat
  deriving DecidableEq, Repr

def RruEntry.empty : RruEntry :=
  ⟨false, [], [], [], [], 0, none, false, 0, none, 0, 0⟩

/-- A lap leader's sums for one step (R367). -/
structure LapAcc where
  step : W32
  members : List Nat
  word : W64
  groups : List Nat
  gword : W64
  groupSent : Bool
  finalSent : Bool
  deriving DecidableEq, Repr

/-- The reduction registers and receive unit of one slot (R355 to R373). -/
structure RedSlot where
  ctl : W64
  btab : W64
  xtab : W64
  wqbase : W64
  wqcfg : W64
  mask : W64
  lapcfg : W64
  laplist : W64
  lapReg : W64
  evt : W64
  bidx : W64
  entries : SMap RruEntry
  /-- Posts made to and statuses read from each engine's queue (R359, R360). -/
  heads : SMap Nat
  tails : SMap Nat
  laps : List LapAcc
  /-- Step for which this chip has sent its word, and the words sent, for a new leader (R380). -/
  lapSent : Option W32
  sentWord : W64
  deriving DecidableEq, Repr

def RedSlot.reset : RedSlot :=
  { ctl := 0, btab := 0, xtab := 0, wqbase := 0, wqcfg := 0, mask := 0, lapcfg := 0, laplist := 0, lapReg := 0,
    evt := 0, bidx := 0, entries := [], heads := [], tails := [], laps := [], lapSent := none, sentWord := 0 }

/-- A management message whole in the keeper's queue (R386, R387). -/
structure MgmtMsg where
  mtype : Nat
  schip : Nat
  mseq : W32
  body : List Byte
  deriving DecidableEq, Repr

/-- A message being reassembled (R386). -/
structure MgmtPart where
  schip : Nat
  mseq : W32
  mtype : Nat
  fcnt : Nat
  frags : SMap (List Byte)
  /-- MER_NOW when its first fragment came. -/
  since : W64
  deriving DecidableEq, Repr

/-- A message the keeper wants sent to a chip. -/
structure MgmtOut where
  dchip : Nat
  mtype : Nat
  body : List Byte
  deriving DecidableEq, Repr

/-- One entry of a halo plan (R389). -/
structure HaloEntry where
  pool : Nat
  primary : Nat
  ridx : Nat
  slices : W64
  deriving DecidableEq, Repr

/-- One entry of a role plan (R389). -/
structure RoleEntry where
  kind : Nat
  former : Nat
  new : Nat
  ridx : Nat
  group : Nat
  deriving DecidableEq, Repr

/-- What a manager keeps of one member (R377, R378, R381). -/
structure Member where
  heard : Bool
  /-- Epoch of the last heartbeat. -/
  lastEpoch : Nat
  state : Nat
  holdLimit : Bool
  refLost : Bool
  oos : Nat
  unreach : List Nat
  failed : Bool
  /-- Role strap and claimed role of its announcement (R387). -/
  strap : Nat
  role : Nat
  /-- Shadow priority and the step last backed, by slot (R381). -/
  spri : SMap Nat
  lastBacked : SMap (Option W32)
  /-- THRFIRST and THRMASK of each slot in its last heartbeat, and its states and committed steps there (R388). -/
  thr : SMap (W32 × W64)
  slots : SMap (Nat × W32)
  /-- Step for which this chip last took a halo copy in its place, by slot (R381). -/
  took : SMap (Option W32)
  /-- Slots for whose job alone it counts as failed (R378). -/
  failedFor : List Nat
  /-- Slots it has been told to load as a new pool member and has not reported loaded, and the first commit at which a plan
  may name it once it has (R385). -/
  joining : List Nat
  poolFrom : SMap (Option W32)
  deriving DecidableEq, Repr

def Member.empty : Member := ⟨false, 0, 0, false, false, 0, [], false, 0, 0, [], [], [], [], [], [], [], []⟩

/-- A pool member of a cover set with the primaries it may back, as chip and role index (R431). -/
structure Cover where
  slot : Nat
  set : Nat
  pool : Nat
  prims : List (Nat × Nat)
  deriving DecidableEq, Repr

/-- Roles, membership and plans (R374 to R391). -/
structure Group where
  chip : W16
  strap : Nat
  role : Nat
  gmgr : Nat
  smgr : Nat
  term : Nat
  sterm : Nat
  failep : Nat
  deputy : Bool
  sdeputy : Bool
  failed : Bool
  /-- The group's deputy and the system deputy, as a manager or member knows them. -/
  deputyChip : Nat
  sdeputyChip : Nat
  formed : Bool
  /-- The group managers have formed: the system manager is known (R376). -/
  sformed : Bool
  /-- Ramp plan entries shared out to the group: epoch, FLOOR in W, SLEW (R402). -/
  ramps : List (Nat × Nat × Nat)
  /-- Announcements heard during formation: chip, strap. -/
  heard : List (Nat × Nat)
  members : SMap Member
  /-- Epoch in which the manager last answered (R379). -/
  mgrEpoch : Nat
  failedMask : W64
  halo : W64
  haloPlans : List (W32 × List HaloEntry)
  rolePlans : List (W32 × List RoleEntry)
  /-- HALO sections of the jobs (R431): cover sets; slot, group owner and its backup; slot, owner and its halo. -/
  covers : List Cover
  backupGo : List (Nat × Nat × Nat)
  ownHalo : List (Nat × Nat × Nat)
  /-- Message numbers sent to each chip, and those taken from each (R386). -/
  mseqOut : SMap Nat
  taken : SMap (List Nat)
  parts : List MgmtPart
  inbox : List MgmtMsg
  outbox : List MgmtOut
  /-- Commands of origin MGR waiting for an answer: entry, sender, MSEQ. -/
  mgrCmds : List (Nat × Nat × W32)
  /-- Log copies received and commands' answers received. -/
  logCopies : List (List Byte)
  answers : List (Nat × W32 × List Byte)
  /-- Records due to be copied to the manager in the next heartbeat (R484). -/
  copyDue : List (List Byte)
  /-- End of the image bytes last asked for, 0 for none, and when (R390). -/
  imgAsked : Nat
  imgAskedAt : Nat
  /-- Slot, chip and cover set of the pool places and primaries' roles that failed chips held (R385). -/
  lostSets : List (Nat × Nat × Nat)
  deriving DecidableEq, Repr

def Group.reset : Group :=
  { chip := 0, strap := 0, role := 0, gmgr := 0, smgr := 0, term := 0, sterm := 0, failep := 4, deputy := false,
    sdeputy := false, failed := false, deputyChip := 0, sdeputyChip := 0, formed := false, sformed := false, ramps := [], heard := [],
    members := [], mgrEpoch := 0, failedMask := 0, halo := 0, haloPlans := [], rolePlans := [], covers := [],
    backupGo := [], ownHalo := [], mseqOut := [], taken := [], parts := [], inbox := [], outbox := [],
    mgrCmds := [], logCopies := [], answers := [], copyDue := [], imgAsked := 0, imgAskedAt := 0, lostSets := [] }

end Sys2Proof.Machine
end

