-- ==== Sys2Proof/Machine/StateFw.lean ====
section
/-! DEFINITION. The state of the power and thermal controller (R392 to R415), of Darkel and its jobs (R416 to
R454), of start-up, identity and the management port (R455 to R473), of counters and the log (R474 to R486) and
of the pins and the sideband (R488 to R496). -/

namespace Sys2Proof.Machine

/-- Clock, duty, class and calibration of one core (R396 to R414, PWR_MODE and PWR_AGE of R415). -/
structure PwrCore where
  free : Bool
  thr : Bool
  cls : Nat
  guard : Bool
  fnow : Nat
  fset : Nat
  fmax : Nat
  /-- Array duty in eighths: 8 is full (R398). -/
  duty : Nat
  replost : Bool
  validRec : BitVec 3
  replans : Nat
  vaddH : Nat
  vaddM : Nat
  vaddL : Nat
  /-- Highest 40 MHz step that holds margin when the repeatable clock is lost (R414). -/
  fcap : Nat
  /-- Reasons the clock is held down now: thermal, deep droop beats left, slew, cap (R396). -/
  thermal : Bool
  droopBeats : Nat
  restrained : Bool
  stretched : Bool
  /-- Conversions in a row that found every sensor below its limit less HYST (R408). -/
  coolRuns : Nat
  /-- Epochs spent in each class since its record went missing (R411). -/
  gathering : SMap Nat
  /-- Hints not yet due: level, tick (R403). -/
  hints : List (Nat × Nat)
  /-- Ballast suspended under a thermal throttle (R401). -/
  ballastOff : Bool
  /-- Draw of the core in the epoch, in sixteenths of full load, for its class (R410). -/
  lastLevel : Nat
  /-- Level of the hint in force, 0 for none (R403). -/
  zen : Nat
  deriving DecidableEq, Repr

def PwrCore.reset : PwrCore :=
  { free := false, thr := false, cls := 0, guard := false, fnow := 2400, fset := 2400, fmax := 2400, duty := 8,
    replost := false, validRec := 7, replans := 0, vaddH := 0, vaddM := 0, vaddL := 0, fcap := 2400,
    thermal := false, droopBeats := 0, restrained := false, stretched := false, coolRuns := 0, gathering := [],
    hints := [], ballastOff := false, lastLevel := 0, zen := 0 }

/-- The power and thermal controller (R392 to R415). -/
structure Power where
  capPend : Bool
  capImm : Bool
  capNext : Nat
  cap : Nat
  /-- CEIL in force this beat, microwatts (R394, R397). -/
  ceil : Nat
  slew : Nat
  floor : Nat
  drawBeat : Nat
  drawMean : Nat
  drawPeak : Nat
  /-- Beat means of the epoch in progress, W: sum, count, peak. -/
  epSum : Nat
  epCount : Nat
  epPeak : Nat
  evt : W64
  agePeriod : Nat
  ramp : SMap W64
  core : SMap PwrCore
  /-- Ballast draw over work, microwatts (R395, R403). -/
  ballast : Nat
  /-- The beat in progress counts as one with SLEWHOLD (R395, R475). -/
  slewBeat : Bool
  /-- Class of each link quadrant, its valid records (bit k for class k, unlisted all three) and guard band (R410,
  R411). -/
  quadCls : SMap Nat
  quadValid : SMap Nat
  quadGuard : SMap Bool
  /-- Epochs a quadrant has spent in a class since that record went missing, by 3 * quadrant + class (R411). -/
  quadGathering : SMap Nat
  /-- Voltage that re-plans have added: VDD_PHY by 3 * quadrant + class, VDD_STK (R413). -/
  quadAdd : SMap Nat
  stkAdd : Nat
  thmCtl : W64
  thmDie : W64
  thmEvt : W64
  tripped : Bool
  /-- A thermal throttle has occurred in the epoch (R388). -/
  thermalEpoch : Bool
  /-- Voltages commanded and last telemetry, by rail: 0 to 3 MC, 4 SOC, 5 STK, 6 PHY (R488, R492). -/
  railMv : SMap Nat
  railTarget : SMap Nat
  telemetry : SMap AvsReading
  /-- Rails whose AVSBus frame failed and is repeated each beat (R492). -/
  avsRetry : List Nat
  socStretch : Bool
  socDroopBeats : Nat
  /-- Epochs since the last ageing measurement, and the units it has still to measure (R412). -/
  ageEpochs : Nat
  ageDue : List AgeUnit
  deriving DecidableEq, Repr

/-- CAP and NEXT 1,600 W, SLEW 25 W/ms, FLOOR 0; THM_CTL 110, 95, 115, 100, HYST 3 (R415). -/
def Power.reset : Power :=
  { capPend := false, capImm := false, capNext := 1600, cap := 1600, ceil := 1600000000, slew := 25, floor := 0,
    drawBeat := 0, drawMean := 0, drawPeak := 0, epSum := 0, epCount := 0, epPeak := 0, evt := 0,
    agePeriod := 65536, ramp := [], core := [], ballast := 0, slewBeat := false, quadCls := [], quadValid := [], quadGuard := [], quadGathering := [],
    quadAdd := [], stkAdd := 0,
    thmCtl := 0x6E5F736400000003#64, thmDie := 0, thmEvt := 0, tripped := false, thermalEpoch := false, railMv := [], railTarget := [],
    telemetry := [], avsRetry := [], socStretch := false, socDroopBeats := 0, ageEpochs := 0,
    ageDue := [] }

/-- How far a command has got (R419). `no` is its place in the order of reading. -/
inductive CmdPhase where
  /-- Not read: free, or posted if OWN is set. -/
  | free
  /-- A short command that its poll has read and completes. -/
  | ready (no : Nat)
  | running (no : Nat)
  | pending (no : Nat)
  deriving DecidableEq, Repr

/-- One entry of the command table (R417, R418). The words Darkel read stand beside those in the table. -/
structure CmdEntry where
  w : SMap W64
  phase : CmdPhase
  taken : SMap W64
  /-- Epoch in which a test was read; it waits for its core (R451). -/
  since : Option Nat
  /-- A test that waits for its core, or for the core's evacuation (R451). -/
  waits : Bool
  /-- Body of a quote, fixed as the command starts (R467). -/
  quote : List Byte
  deriving DecidableEq, Repr

def CmdEntry.empty : CmdEntry := ⟨[], .free, [], none, false, []⟩

/-- FW_JOB.STATE (R454). -/
inductive JobState where
  | empty | loading | ready | active | stopping | faulted | failedByMgr
  deriving DecidableEq, Repr

/-- A region of the LAYOUT section (R432). -/
structure Region where
  kind : Nat
  unit : Nat
  base : Nat
  size : Nat
  deriving DecidableEq, Repr

/-- A job slot (R425 to R437, R454). -/
structure Job where
  st : JobState
  cause : Nat
  sem : Nat
  cls : Nat
  free : Bool
  cntrd : Bool
  keyed : Bool
  seed : W64
  digest : List Byte
  layout : List Region
  /-- Cores that have a SEQCODE section (R435). -/
  cores : List Nat
  /-- First image copy: address in the COPY region and length (R434). -/
  copyAt : Nat
  length : Nat
  /-- BWMODE of each layer (R230). -/
  layers : List Bool
  /-- STEP and update context of the job on each engine, while the engine is not running it (R149, R170). -/
  engRegs : SMap (W32 × UCtx)
  /-- What SQ_ATSTAT holds for the job on each core, while the core is not running it: VALID, M, the group vector and the
  blocks skipped since its JOB.LOAD (R281, R295). -/
  atsRegs : SMap (Bool × Nat × List Bool × Nat)
  /-- Lines of the job's claims that another job's claims overlap, while the memory does not hold the job's own bytes:
  the bytes to be written before its next launch, none where nothing gives them (R434, R445, R446). -/
  aside : SMap (List (Option Byte))
  /-- SQ_REDSTG and SQ_GMASK images of each core (R233, R243, R429). -/
  redImg : SMap (W64 × W64)
  /-- Entry words of the VECPROG sections (R427). -/
  veEntry : SMap (Option Nat)
  /-- Grants that UNLOAD revokes: flow contexts (R434). -/
  flows : List Nat
  /-- The image had a NUMERICS section (R244). -/
  hasNum : Bool
  /-- Steps in which a RED binding of this chip was throttled, not yet out of the report's range (R388). -/
  thrSteps : List W32
  deriving DecidableEq, Repr

def Job.empty : Job :=
  ⟨.empty, 0, 0, 0, false, false, false, 0, [], [], [], 0, 0, [], [], [], [], [], [], [], false, []⟩

/-- Darkel (R416 to R454). -/
structure Darkel where
  cmds : SMap CmdEntry
  nextRead : Nat
  auth : W64
  sched : W64
  maintUsed : Nat
  oos : BitVec 4
  evac : BitVec 4
  evt : W64
  job : SMap Job
  model : Option (List Byte)
  modelRegions : List (Nat × Nat)
  insts : List Inst
  /-- Cores that instances have left in the beat in progress, with the entry charged for each (R439). -/
  left : List (Nat × Nat)
  nextSave : Nat
  deriving DecidableEq, Repr

/-- FW_AUTH 0x1_881E (AUTOREP and LOCAL 0x440F in bits 15:1), FW_SCHED QUANT 5, HYST 65,536, DCAP 4,194,304. -/
def Darkel.reset : Darkel :=
  { cmds := [], nextRead := 0, auth := 0x1881E#64, sched := 0x0005010000400000#64, maintUsed := 0, oos := 0,
    evac := 0, evt := 0, job := [], model := none, modelRegions := [], insts := [], left := [],
    nextSave := 0 }

/-- SEC_STATUS.BOOT (R473). -/
inductive BootStage where
  | fuse | repair | selftest | links | lock | waitimg | verify | running | failed
  deriving DecidableEq, Repr

/-- A management-port session (R470, R471). -/
structure Session where
  id : W32
  opkey : List Byte
  /-- Handshake so far: the HELLO and CHALLENGE bodies; keys once established. -/
  hello : List Byte
  challenge : List Byte
  established : Bool
  kc : List Byte
  kd : List Byte
  lastSeq : Option W32
  /-- The last accepted SEQ values with their answers, newest first, at most 64 (R471). -/
  answers : List (W32 × List Byte)
  lastValid : W64
  /-- BULK: what has been written of the ingest region, by ranges in order. -/
  bulk : List (Nat × Nat)
  /-- Seed of the session's key pair (R470). -/
  kemSeed : List Byte
  deriving DecidableEq, Repr

/-- A datagram message the port sends (R468). -/
structure PortOut where
  type : Nat
  session : W32
  seq : W32
  payload : List Byte
  deriving DecidableEq, Repr

/-- A message being reassembled at the port (R468). -/
structure PortPart where
  src : Nat
  type : Nat
  session : W32
  seq : W32
  frags : SMap (List Byte)
  fcnt : Nat
  /-- MER_NOW when its first fragment came. -/
  since : W64
  deriving DecidableEq, Repr

/-- Start-up, identity, measurements, boot image and port (R455 to R473). -/
structure Security where
  fuses : Fuses
  boot : BootStage
  failCause : Nat
  bfail : Nat
  bfails : Nat
  debug : Bool
  portcmd : Bool
  cause : Nat
  warms : Nat
  /-- Measurement banks 0 to 6 and their load counts (R466). -/
  meas : SMap (List Byte)
  loads : SMap Nat
  idpk : List Byte
  /-- Boot image: bytes held by contiguous ranges, LENGTH when known, the verified image (R462, R463, R469). -/
  imgHave : List (Nat × Nat)
  imgLen : Option Nat
  imgGood : Bool
  ingBase : Nat
  ingSize : Nat
  opkeys : List (List Byte)
  sessions : List Session
  nextSession : Nat
  portParts : List PortPart
  portOut : List PortOut
  /-- Commands of origin PORT waiting for an answer: entry, session, SEQ. -/
  portCmds : List (Nat × W32 × W32)
  /-- Pending repairs with ATRESET and entries applied (R460). -/
  repairPend : List W64
  fieldUsed : Nat
  ccReleased : Bool
  deriving DecidableEq, Repr

def Security.reset : Security :=
  { fuses := Fuses.blank, boot := .fuse, failCause := 0, bfail := 0, bfails := 0, debug := false, portcmd := false,
    cause := 0, warms := 0, meas := [], loads := [], idpk := [], imgHave := [], imgLen := none, imgGood := false,
    ingBase := 0, ingSize := 0, opkeys := [], sessions := [], nextSession := 1, portParts := [], portOut := [],
    portCmds := [], repairPend := [], fieldUsed := 0, ccReleased := false }

/-- The I3C sideband and the pins (R490 to R498). -/
structure Board where
  index : Nat
  groupReg : W16
  groupTaken : Bool
  straps : BitVec 8
  addr : SMap Byte
  addrLocked : Bool
  mac : List Byte
  supplyReset : Bool
  thermtripLow : Bool
  /-- A verified image or BOOTREQ has been asked for since the reset (R496). -/
  bootreqs : Nat
  deriving DecidableEq, Repr

def Board.reset : Board :=
  ⟨0, 0, false, 0, [], false, [], false, false, 0⟩

/-- A log record before it is written (R481, R482, R484). -/
structure LogRec where
  cls : Nat
  slot : Nat
  code : Nat
  tag : W32
  unit : Nat
  a0 : W64
  a1 : W64
  a2 : W64
  a3 : W64
  now : W64
  deriving DecidableEq, Repr

/-- Counters, snapshots, interrupt routing, the log (R474 to R486). -/
structure Counters where
  /-- Counter k of a bank by number: MC 12c + k; STK 48 + 4s + k; LNK 128 + 4l + k; VE 512 + 4e + k;
  RED 768 + 12j + k; PWR 816 + k. -/
  cnt : SMap W64
  snap : W64
  irq : W64
  /-- Log records held, oldest first, with their SEQ; next SEQ; events not yet logged. -/
  log : List (Nat × LogRec)
  nextSeq : Nat
  due : List LogRec
  /-- Tick of the last epoch boundary event (R478). -/
  lastEpochTick : Option W64
  deriving DecidableEq, Repr

/-- CNT_SNAP NREC 4,096 at 0x0004_F800_0000; CNT_IRQ MEN 0b11_0000 (R478, R485). -/
def Counters.reset : Counters :=
  { cnt := [], snap := 0x10000004F8000000#64, irq := 0x0000003000000000#64, log := [], nextSeq := 0, due := [],
    lastEpochTick := none }

/-- Privilege modes of a control core (R13, R455). -/
inductive PrivMode where
  | machine | supervisor | user
  deriving DecidableEq, Repr

/-- One control core (R13, R455, R456). Its registers are the RV64GC ones: x1 to x31 and f0 to f31 by number, the CSRs that
hold a value by theirs. -/
structure Hart where
  /-- Address of its last load and store access fault (R7, R177). -/
  loadFault : Option (BitVec 48)
  storeFault : Option (BitVec 48)
  /-- Darkel has released it: it runs (R456). -/
  running : Bool
  pc : W64
  mode : PrivMode
  x : SMap W64
  f : SMap W64
  csr : SMap W64
  deriving DecidableEq, Repr

def Hart.reset : Hart := ⟨none, none, false, 0, .machine, [], [], []⟩

/-- Register xn: x0 reads as zero. -/
def Hart.xreg (h : Hart) (n : Nat) : W64 := if n = 0 then 0 else SMap.get 0 h.x n

/-- A write of register xn: x0 discards it. -/
def Hart.setX (h : Hart) (n : Nat) (v : W64) : Hart := if n = 0 then h else { h with x := SMap.set 0 h.x n v }

end Sys2Proof.Machine
end

