-- ==== Sys2Proof/Machine/State.lean ====
section
/-! DEFINITION. The machine's state, its reset, and the reasons a step can stop. -/

namespace Sys2Proof.Machine

/-- Why the machine stops with a fault. -/
inductive Fault where
  /-- Raised by WSWAP.F alone, issued while data of a pass is inside an array: the one case the manual
  lists as undefined (R74, R487). Safe: nothing is claimed of the machine after it. -/
  | undefinedSwap
  deriving DecidableEq, Repr

/-- Why the model gives a command no meaning. -/
inductive Refusal where
  /-- Raised by a dispatch arm that has no meaning yet. Safe. -/
  | notModelled (mnemonic : String)
  deriving DecidableEq, Repr

/-- Everything the manual gives the part, and the queue of waiting commands. -/
structure State where
  mer : Mer
  sched : SMap SchedEntry
  cores : SMap Core
  engines : SMap Engine
  mem : Mem
  sems : SMap Sem
  semres : SMap W64
  num : SMap NumBank
  kvp : Kvp
  lnk : Links
  red : SMap RedSlot
  grp : Group
  pwr : Power
  fw : Darkel
  sec : Security
  board : Board
  cnt : Counters
  harts : SMap Hart
  /-- The model's own: how many free values have been taken (a DESIGN CHOICE; no register of the part). -/
  fresh : Nat
  /-- Commands waiting, first in first out. -/
  pending : List Instr
  deriving DecidableEq, Repr

/-- A core at reset: Contrail registers as R269 gives them for core c. -/
def Core.reset (c : Nat) : Core :=
  { st := .idle, job := 0, ctx := .empty, jrange := [], faultCode := .none, faultDesc := 0, faultPc := 0,
    imem := [], desc := [], arrA := .empty, arrB := .empty, arrevt := 0, gate := false, staged := [],
    nextStage := 0, reserved := 0, nextDrn := 0, chunks := [], bindNo := [], nextLoad := 0, loadCount := 0, captures := [],
    ctrail := 0x800C400000000000#64,
    cbase := BitVec.ofNat 64 (0x4F0000000 + c * 0x500000),
    crec := BitVec.ofNat 64 (0x0FFC0004FE000000 + c * 0x40000),
    csamp := 0, cmiss := 0, calarm := 0, retired := 0, wasted := 0, exitCode := 0, lastJob := none }

/-- An engine at reset; its physical engine is its place in the cluster while the repair map is empty. -/
def Engine.reset (e : Nat) : Engine :=
  { st := .idle, job := 0, ctx := .empty, keyed := false, code := .none, fpc := 0, evt := 0, entry := 0,
    hasProg := false, phys := e % 16, gen := [], dcache := [] }

/-- Core c of the state; an unlisted core stands at its reset value. -/
def State.core (s : State) (c : Nat) : Core := SMap.get (Core.reset c) s.cores c
/-- Engine e of the state; an unlisted engine stands at its reset value. -/
def State.eng (s : State) (e : Nat) : Engine := SMap.get (Engine.reset e) s.engines e

/-- The state at the release of the supply reset, before COLD_START: every register at the reset value its
map gives (R42, R143, R175, R199, R223, R243, R269, R295, R321, R345, R373, R391, R415, R454, R473, R478,
R485, R486, R495), nothing else listed. -/
def State.reset : State :=
  { mer := .reset, sched := [], cores := [], engines := [], mem := .reset, sems := [], semres := [], num := [],
    kvp := .reset, lnk := .reset, red := [], grp := .reset, pwr := .reset, fw := .reset, sec := .reset,
    board := .reset, cnt := .reset, harts := [], fresh := 0, pending := [] }

end Sys2Proof.Machine
end

