-- ==== Sys2Proof/Machine/Ops.lean ====
section
/-! DEFINITION. Named operations over the state: the parts of the machine by number, counters, events and the
log, the address map, memory with its lines, check states and write-combining buffers. -/

namespace Sys2Proof.Machine

/-! Parts by number. -/

def State.setCore (s : State) (c : Nat) (k : Core) : State :=
  { s with cores := SMap.set (Core.reset c) s.cores c k }
def State.modCore (s : State) (c : Nat) (f : Core → Core) : State := s.setCore c (f (s.core c))
/-- Changes the saved-and-restored part of a core's sequencer. -/
def State.modCtx (s : State) (c : Nat) (f : SqCtx → SqCtx) : State :=
  s.modCore c fun k => { k with ctx := f k.ctx }
def State.setEng (s : State) (e : Nat) (k : Engine) : State :=
  { s with engines := SMap.set (Engine.reset e) s.engines e k }
def State.modEng (s : State) (e : Nat) (f : Engine → Engine) : State := s.setEng e (f (s.eng e))
def State.modVctx (s : State) (e : Nat) (f : VeCtx → VeCtx) : State :=
  s.modEng e fun k => { k with ctx := f k.ctx }

def State.sem (s : State) (n : Nat) : Sem := SMap.get Sem.empty s.sems n
def State.modSem (s : State) (n : Nat) (f : Sem → Sem) : State :=
  { s with sems := SMap.set Sem.empty s.sems n (f (s.sem n)) }

def State.entry (s : State) (i : Nat) : SchedEntry := SMap.get SchedEntry.empty s.sched i
def State.modEntry (s : State) (i : Nat) (f : SchedEntry → SchedEntry) : State :=
  { s with sched := SMap.set SchedEntry.empty s.sched i (f (s.entry i)) }

def State.job (s : State) (j : Nat) : Job := SMap.get Job.empty s.fw.job j
def State.modFw (s : State) (f : Darkel → Darkel) : State := { s with fw := f s.fw }
def State.modJob (s : State) (j : Nat) (f : Job → Job) : State :=
  s.modFw fun d => { d with job := SMap.set Job.empty d.job j (f (s.job j)) }
def State.cmd (s : State) (i : Nat) : CmdEntry := SMap.get CmdEntry.empty s.fw.cmds i
def State.modCmd (s : State) (i : Nat) (f : CmdEntry → CmdEntry) : State :=
  s.modFw fun d => { d with cmds := SMap.set CmdEntry.empty d.cmds i (f (s.cmd i)) }

def State.bank (s : State) (j : Nat) : NumBank := SMap.get NumBank.reset s.num j
def State.modBank (s : State) (j : Nat) (f : NumBank → NumBank) : State :=
  { s with num := SMap.set NumBank.reset s.num j (f (s.bank j)) }
def State.redSlot (s : State) (j : Nat) : RedSlot := SMap.get RedSlot.reset s.red j
def State.modRed (s : State) (j : Nat) (f : RedSlot → RedSlot) : State :=
  { s with red := SMap.set RedSlot.reset s.red j (f (s.redSlot j)) }

def State.modLnk (s : State) (f : Links → Links) : State := { s with lnk := f s.lnk }
def State.link (s : State) (l : Nat) : Link := SMap.get Link.reset s.lnk.link l
def State.modLink (s : State) (l : Nat) (f : Link → Link) : State :=
  s.modLnk fun n => { n with link := SMap.set Link.reset n.link l (f (s.link l)) }
def State.flow (s : State) (f : Nat) : Flow := SMap.get Flow.empty s.lnk.flow f
def State.modFlow (s : State) (f : Nat) (g : Flow → Flow) : State :=
  s.modLnk fun n => { n with flow := SMap.set Flow.empty n.flow f (g (s.flow f)) }

def State.modMer (s : State) (f : Mer → Mer) : State := { s with mer := f s.mer }
def State.modMem (s : State) (f : Mem → Mem) : State := { s with mem := f s.mem }
def State.modGrp (s : State) (f : Group → Group) : State := { s with grp := f s.grp }
def State.modPwr (s : State) (f : Power → Power) : State := { s with pwr := f s.pwr }
def State.pcore (s : State) (c : Nat) : PwrCore := SMap.get PwrCore.reset s.pwr.core c
def State.modPcore (s : State) (c : Nat) (f : PwrCore → PwrCore) : State :=
  s.modPwr fun p => { p with core := SMap.set PwrCore.reset p.core c (f (s.pcore c)) }
def State.modSec (s : State) (f : Security → Security) : State := { s with sec := f s.sec }
def State.modBoard (s : State) (f : Board → Board) : State := { s with board := f s.board }
def State.modCnt (s : State) (f : Counters → Counters) : State := { s with cnt := f s.cnt }
def State.hart (s : State) (cc : Nat) : Hart := SMap.get Hart.reset s.harts cc
def State.modHart (s : State) (cc : Nat) (f : Hart → Hart) : State :=
  { s with harts := SMap.set Hart.reset s.harts cc (f (s.hart cc)) }
def State.now (s : State) : Nat := s.mer.now.toNat

/-- A fresh number has been used. -/
def State.tick (s : State) : State := { s with fresh := s.fresh + 1 }

/-! Counters (R474). -/

/-- A counter word after `n` more events: the count wraps at 2^48 and leaves OVF set. -/
def cntAdd (w : W64) (n : Nat) : W64 :=
  let t := fld w 47 0 + n
  let o := decide (bit w 48 = true ∨ 2 ^ 48 ≤ t)
  BitVec.ofNat 64 (t % 2 ^ 48 + at' (b2n o) 48)

/-- A counter word with its overflow flag cleared by a W1C write of bit 48. -/
def cntClear (w v : W64) : W64 := if bit v 48 then clrBit w 48 else w

def State.cntr (s : State) (k : Nat) : W64 := SMap.get 0 s.cnt.cnt k
def State.bumpBy (s : State) (k n : Nat) : State :=
  s.modCnt fun c => { c with cnt := SMap.set 0 c.cnt k (cntAdd (s.cntr k) n) }
def State.bump (s : State) (k : Nat) : State := s.bumpBy k 1

/-- Numbers of the counters of R475. -/
def cntMc (c k : Nat) : Nat := 12 * c + k
def cntStk (i k : Nat) : Nat := 48 + 4 * i + k
def cntLnk (l k : Nat) : Nat := 128 + 4 * l + k
def cntVe (e k : Nat) : Nat := 512 + 4 * e + k
def cntRed (j k : Nat) : Nat := 768 + 12 * j + k
def cntPwr (k : Nat) : Nat := 816 + k

/-! The log (R480 to R484). -/

/-- Puts a record among those not yet written: by the tick of its event, then by CODE (R484). -/
def insertDue (r : LogRec) : List LogRec → List LogRec
  | [] => [r]
  | h :: t =>
    if h.now.toNat < r.now.toNat ∨ (h.now = r.now ∧ h.code ≤ r.code) then h :: insertDue r t
    else r :: h :: t

/-- An event that Darkel will log. Until it is logged the record's NOW is the event's own tick. -/
def State.logEvt (s : State) (cls slot code : Nat) (tag : W32) (unit : Nat) (a0 a1 a2 a3 : W64) : State :=
  s.modCnt fun c => { c with due := insertDue ⟨cls, slot, code, tag, unit, a0, a1, a2, a3, s.mer.now⟩ c.due }

/-- Event bits of MER_EVT, STK_EVT, FW_EVT and so on are sticky: detecting an event sets its bit (R484). -/
def State.merEvt (s : State) (b : Nat) : State := s.modMer fun m => { m with evt := setBit m.evt b }
def State.stkEvt (s : State) (b : Nat) : State := s.modMem fun m => { m with evt := setBit m.evt b }
def State.fwEvt (s : State) (b : Nat) : State := s.modFw fun d => { d with evt := setBit d.evt b }
def State.lnkEvt (s : State) (b : Nat) : State := s.modLnk fun n => { n with evt := setBit n.evt b }
def State.kvpEvt (s : State) (b : Nat) : State := { s with kvp := { s.kvp with evt := setBit s.kvp.evt b } }
def State.pwrEvt (s : State) (b : Nat) : State := s.modPwr fun p => { p with evt := setBit p.evt b }
def State.thmEvt (s : State) (b : Nat) : State := s.modPwr fun p => { p with thmEvt := setBit p.thmEvt b }
def State.redEvt (s : State) (j b : Nat) : State := s.modRed j fun r => { r with evt := setBit r.evt b }
def State.numEvt (s : State) (j b : Nat) : State := s.modBank j fun n => { n with evt := setBit n.evt b }

/-! The address map (R176 to R181). -/

/-- What a local address names. -/
inductive Loc where
  /-- Stack s, offset o. -/
  | stack (s o : Nat)
  | cbuf (c o : Nat)
  | lstore (e o : Nat)
  | rom
  | regs
  | outside
  deriving DecidableEq, Repr

def stackSize : Nat := 0x500000000
def cbufBase (c : Nat) : Nat := 0x800000000 + c * 0x4000000
def cbufSize : Nat := 0x3000000
def lsBase (e : Nat) : Nat := 0x900000000 + e * 0x100000

/-- R176 and R178. -/
def locate (a : Nat) : Loc :=
  if a < stackSize then
    let g := a / 4096
    .stack (g % 20) (g / 20 * 4096 + a % 4096)
  else if 0x800000000 ≤ a ∧ a < 0x810000000 then
    let o := (a - 0x800000000) % 0x4000000
    if o < cbufSize then .cbuf ((a - 0x800000000) / 0x4000000) o else .outside
  else if 0x900000000 ≤ a ∧ a < 0x904000000 then
    .lstore ((a - 0x900000000) / 0x100000) ((a - 0x900000000) % 0x100000)
  else if 0xA00000000 ≤ a ∧ a < 0xA00040000 then .rom
  else if 0xE00000000 ≤ a ∧ a < 0xF00000000 then .regs
  else if 0x1000000000 ≤ a ∧ a < 0x1500000000 then
    .stack ((a - 0x1000000000) / 0x40000000) ((a - 0x1000000000) % 0x40000000)
  else .outside

/-- The interleaved address of stack s, offset o: R178 read backwards. -/
def stackAddr (s o : Nat) : Nat := (o / 4096 * 20 + s) * 4096 + o % 4096

/-- The one name under which a byte is kept: a window address becomes its interleaved address (R179). -/
def canon (a : Nat) : Nat :=
  if 0x1000000000 ≤ a ∧ a < 0x1500000000 then
    stackAddr ((a - 0x1000000000) / 0x40000000) ((a - 0x1000000000) % 0x40000000)
  else a

def lineOf (a : Nat) : Nat := a - a % 128

/-- First address of the OS carve-out (R181). -/
def State.carveBase (s : State) : Nat := stackSize - s.mem.carve * 0x10000000

/-- The bytes [a, a + n) lie in one range of memory: a stack range by either name, one core buffer or one
local store. -/
def inMemory (a n : Nat) : Bool :=
  match locate a with
  | .stack _ _ => if a < stackSize then decide (a + n ≤ stackSize) else decide (a + n ≤ 0x1500000000)
  | .cbuf c _ => decide (a + n ≤ cbufBase c + cbufSize)
  | .lstore e _ => decide (a + n ≤ lsBase e + 0x100000)
  | _ => false

/-- No byte of [a, a + n) lies in the carve-out, by either name (R181). A window range is checked granule by
granule. -/
def State.clearOfCarve (s : State) (a n : Nat) : Bool :=
  if a < stackSize then decide (a + n ≤ s.carveBase)
  else if 0x1000000000 ≤ a ∧ a < 0x1500000000 then
    (List.range ((a % 4096 + n + 4095) / 4096)).all fun i =>
      decide (canon (lineOf (a - a % 4096 + i * 4096)) < s.carveBase)
  else true

/-- The bytes [a, a + n) lie wholly inside the OS carve-out, by either name (R181). -/
def State.insideCarve (s : State) (a n : Nat) : Bool :=
  if a < stackSize then decide (s.carveBase ≤ a ∧ a + n ≤ stackSize)
  else
    (match locate a with | .stack _ _ => true | _ => false) && inMemory a n &&
      (List.range ((a % 4096 + n + 4095) / 4096)).all fun i => decide (s.carveBase ≤ canon (a - a % 4096 + i * 4096))

/-- The capture slots lie in the carve-out (R265, R270). -/
def State.slotsFit (s : State) (base slots : Nat) : Bool := s.insideCarve base (0x50000 * slots)

/-- A range a job's unit may touch in memory: mapped, and clear of the carve-out (R117, R156, R181). -/
def State.jobRange (s : State) (a n : Nat) : Bool := inMemory a n && s.clearOfCarve a n

/-! Memory. Addresses below are canonical. -/

/-- The canonical form: bytes, check states and write-combining buffers by rising key, none listed that reads as an unlisted
one does, so that equal memories are equal data. -/
def Memory.wf (m : Mem) : Bool := SMap.wf 0 m.cells && SMap.wf .good m.lines && SMap.wf [] m.wcb

/-- The write-combining port of a line: stack s at s, core buffer c at 20 + c (R188). -/
def wcbPort (line : Nat) : Option Nat :=
  match locate line with
  | .stack s _ => some s
  | .cbuf c _ => some (20 + c)
  | _ => none

def State.wcbAt (s : State) (p : Nat) : List WcbEntry := SMap.get [] s.mem.wcb p

def State.setWcb (s : State) (p : Nat) (l : List WcbEntry) : State :=
  s.modMem fun m => { m with wcb := SMap.set [] m.wcb p l }

def wcbFind (l : List WcbEntry) (line : Nat) : Option WcbEntry := l.find? fun w => w.line == line

/-- The byte of a line that lies in the buffer, if any. -/
def State.wcbByte (s : State) (a : Nat) : Option Byte :=
  match wcbPort (lineOf a) with
  | none => none
  | some p =>
    match wcbFind (s.wcbAt p) (lineOf a) with
    | none => none
    | some w => SMap.get none w.bytes (a % 128)

def State.lineSt (s : State) (line : Nat) : LineState := SMap.get .good s.mem.lines line

/-- The value a read of one byte gives (R189): the buffered byte, else the stored one; free in a line beyond
the code's guarantee (R185). -/
def State.peek (s : State) (a0 : Nat) : Byte :=
  let a := canon a0
  match s.wcbByte a with
  | some b => b
  | none => if s.lineSt (lineOf a) = .beyond then Config.freeByte s.fresh a else SMap.get 0 s.mem.cells a

def State.bytes (s : State) (a n : Nat) : List Byte := (List.range n).map fun i => s.peek (a + i)

def State.word64 (s : State) (a : Nat) : W64 := w64OfBytes (s.bytes a 8)
def State.word32 (s : State) (a : Nat) : W32 := BitVec.ofNat 32 (leNat (s.bytes a 4))

/-- A write to a line takes every copy that the control cores hold of it and clears their reservations (R214, R217). -/
def Mem.recall (m : Mem) (line : Nat) : Mem :=
  { m with held := m.held.filter fun h => h.1 != line, resv := m.resv.filter fun r => r.2 != some line }

/-- A read by another unit takes the line that a control core holds dirty: its copy is clean from then on (R214). -/
def Mem.supply (m : Mem) (line : Nat) : Mem :=
  { m with held := m.held.map fun h => (h.1, h.2.1, h.2.2 && h.1 != line) }
def State.supplyLine (s : State) (line : Nat) : State :=
  match locate line with
  | .stack _ _ => s.modMem fun m => m.supply line
  | _ => s

/-- Stores bytes in the arrays, whatever their lines. -/
def State.poke (s : State) (a : Nat) : List Byte → State
  | [] => s
  | b :: t =>
    State.poke (s.modMem fun m =>
      { (m.recall (lineOf (canon a))) with cells := SMap.set 0 m.cells (canon a) b }) (a + 1) t

def State.setLine (s : State) (line : Nat) (v : LineState) : State :=
  s.modMem fun m => { m with lines := SMap.set .good m.lines line v }

/-- One more corrected or uncorrectable read of a line's unit, in the counter its kind has (R185, R199, R475). -/
def State.countCe (s : State) (line : Nat) : State :=
  match locate line with
  | .stack i _ => s.modMem fun m => { m with ce := SMap.set 0 m.ce i (cntAdd (SMap.get 0 m.ce i) 1) }
  | .cbuf c _ => s.bump (cntMc c 10)
  | .lstore e _ => s.bump (cntVe e 1)
  | _ => s
def State.countUe (s : State) (line : Nat) : State :=
  match locate line with
  | .stack i _ => s.modMem fun m => { m with ue := SMap.set 0 m.ue i (cntAdd (SMap.get 0 m.ue i) 1) }
  | .cbuf c _ => s.bump (cntMc c 11)
  | .lstore e _ => s.bump (cntVe e 2)
  | _ => s
def State.countPort (s : State) (line k n : Nat) : State :=
  match locate line with
  | .stack i _ => s.bumpBy (cntStk i k) n
  | _ => s

/-- Who reads a line, as MEMUE numbers readers (R482). -/
def rdSeq : Nat := 0
def rdEng : Nat := 1
def rdDma : Nat := 2
def rdCc : Nat := 3
def rdScrub : Nat := 4
def rdKeeper : Nat := 5

/-- An uncorrectable line has been read (R186): its counter, STK_EVT.UE_READ, STK_UEADDR, the log. R199 gives the
scrubber's finds a bit of their own: they set UE_SCRUB and not UE_READ, which R186's general sentence would set too
(DESIGN CHOICE, log 78). -/
def State.foundUe (s : State) (reader slot line : Nat) : State :=
  let s1 := ((s.countUe line).stkEvt (if reader = rdScrub then 1 else 2)).modMem
    fun m => { m with ueAddr := w64 line }
  s1.logEvt (if reader = rdScrub then 2 else 3) slot 0x20 0
    (match locate line with | .stack i _ => i | .cbuf c _ => c | .lstore e _ => e | _ => 0)
    (w64 line) (w64 reader) 0 0

/-- Reads a line's check state: the counts and events of the read, and whether it returns data (R185, R186). -/
def State.checkLine (s : State) (reader slot line : Nat) : State × Bool :=
  let s1 := (s.supplyLine line).countPort line 0 1
  match s.lineSt line with
  | .good => (s1, true)
  | .correctable _ => ((s1.countCe line).stkEvt 0, true)
  | .uncorrectable => (s1.foundUe reader slot line, false)
  | .poisoned => (s1.foundUe reader slot line, false)
  | .lost => (s1.foundUe reader slot line, false)
  | .beyond =>
    if Config.beyondDetected s.fresh line then (s1.foundUe reader slot line, false)
    else if Config.beyondCorrects s.fresh line then ((s1.countCe line).stkEvt 0, true)
    else (s1, true)

/-- The canonical lines of [a, a + n), in address order. -/
def linesOf (a n : Nat) : List Nat :=
  if n = 0 then [] else
  (List.range ((a % 128 + n + 127) / 128)).map fun i => canon (lineOf a + 128 * i)

/-- Reads the lines given; all of them return data, or the whole read does not. -/
def State.checkLines (s : State) (reader slot : Nat) : List Nat → State × Bool
  | [] => (s, true)
  | l :: t =>
    let (s1, ok) := s.checkLine reader slot l
    let (s2, ok2) := State.checkLines s1 reader slot t
    (s2, ok && ok2)

def State.checkRange (s : State) (reader slot a n : Nat) : State × Bool :=
  s.checkLines reader slot (linesOf a n)

/-- The array line written whole: good again, its buffer entry freed (R187, R188). -/
def State.writeLine (s : State) (line : Nat) (bs : List Byte) : State :=
  let s1 := match wcbPort line with
    | some p => s.setWcb p ((s.wcbAt p).filter fun w => w.line != line)
    | none => s
  ((s1.poke line bs).setLine line .good).countPort line 1 1

/-- The read of a line for a merge counts and flags what it corrects, as every read does (R185). -/
def State.mergeRead (s : State) (line : Nat) : State :=
  match s.lineSt line with
  | .correctable _ => (s.countCe line).stkEvt 0
  | .beyond =>
    if !Config.beyondDetected s.fresh line && Config.beyondCorrects s.fresh line then (s.countCe line).stkEvt 0 else s
  | _ => s

/-- Merges bytes into a line of the array: R187 where the line is uncorrectable. `bs` gives byte offsets. -/
def State.mergeLine (s0 : State) (line : Nat) (bs : List (Nat × Byte)) : State :=
  let s := s0.mergeRead line
  let bad := match s.lineSt line with
    | .uncorrectable => true
    | .poisoned => true
    | .lost => true
    | .beyond => Config.beyondDetected s.fresh line
    | _ => false
  if bad then (((s.modMem fun m => m.recall line).setLine line .poisoned).stkEvt 3).countPort line 1 1
  else
    let whole := if s.lineSt line = .beyond then
        s.poke line ((List.range 128).map fun i => Config.freeByte s.fresh (line + i)) else s
    let s1 := bs.foldl (fun t p => t.poke (line + p.1) [p.2]) (whole.setLine line .good)
    s1.countPort line 1 1

/-- Writes a buffer entry to the array (R188): without a read when its mask is full. -/
def State.flushEntry (s : State) (p : Nat) (w : WcbEntry) : State :=
  let s1 := s.setWcb p ((s.wcbAt p).filter fun x => x.line != w.line)
  let bs := w.bytes.filterMap fun q => q.2.map fun b => (q.1, b)
  if bs.length = 128 then ((s1.poke w.line (bs.map (·.2))).setLine w.line .good).countPort w.line 1 1
  else (s1.mergeLine w.line bs).countPort w.line 2 1

/-- Flushes the entry of a line, if there is one: a completing operation does so (R190). -/
def State.flushLine (s : State) (line : Nat) : State :=
  match wcbPort line with
  | none => s
  | some p =>
    match wcbFind (s.wcbAt p) line with
    | none => s
    | some w => s.flushEntry p w

def mergeBytes (m : SMap (Option Byte)) (off : Nat) : List Byte → SMap (Option Byte)
  | [] => m
  | b :: t => mergeBytes (SMap.set none m off (some b)) (off + 1) t

/-- A partial write within one line: into the write-combining buffer of its port, the oldest of 64 entries
making room (R188); a local store merges it at once (R198). -/
def State.placePart (s : State) (a : Nat) (bs : List Byte) : State :=
  let line := lineOf a
  match wcbPort line with
  | none => s.mergeLine line ((List.range bs.length).zipWith (fun i b => (a % 128 + i, b)) bs)
  | some p =>
    match wcbFind (s.wcbAt p) line with
    | some w =>
      let w' : WcbEntry := { w with bytes := mergeBytes w.bytes (a % 128) bs }
      let s1 := s.setWcb p ((s.wcbAt p).map fun x => if x.line = line then w' else x)
      if w'.bytes.length = 128 then s1.flushEntry p w' else s1
    | none =>
      let s1 := match s.wcbAt p with
        | w :: _ => if 64 ≤ (s.wcbAt p).length then s.flushEntry p w else s
        | [] => s
      s1.setWcb p (s1.wcbAt p ++ [⟨line, mergeBytes [] (a % 128) bs⟩])

/-- A partial write, which takes the line from the control cores first (R214). -/
def State.writePart (s : State) (a : Nat) (bs : List Byte) : State :=
  (s.modMem fun m => m.recall (lineOf a)).placePart a bs

/-- Writes bytes that lie in one line, whole or in part. -/
def State.writeIn (s : State) (a0 : Nat) (bs : List Byte) : State :=
  let a := canon a0
  if bs.length = 128 ∧ a % 128 = 0 then s.writeLine a bs else if bs.isEmpty then s else s.writePart a bs

/-- Cuts a byte string at line boundaries. -/
def cutLines (a : Nat) (bs : List Byte) : Nat → List (Nat × List Byte)
  | 0 => []
  | k + 1 =>
    if bs.isEmpty then []
    else
      let n := 128 - a % 128
      (a, bs.take n) :: cutLines (a + n) (bs.drop n) k

/-- A write accepted by its ports, not yet complete (R201). -/
def State.write (s : State) (a : Nat) (bs : List Byte) : State :=
  (cutLines a bs (bs.length / 128 + 2)).foldl (fun t p => t.writeIn p.1 p.2) s

/-- Flushes every entry of the lines of [a, a + n) (R190). -/
def State.flushRange (s : State) (a n : Nat) : State :=
  (linesOf a n).foldl (fun t l => t.flushLine l) s

/-- A write that completes: its bytes are in the arrays (R190, R204). -/
def State.writeDone (s : State) (a : Nat) (bs : List Byte) : State :=
  (s.write a bs).flushRange a bs.length

def State.writeW64 (s : State) (a : Nat) (w : W64) : State := s.writeDone a (w64Bytes w)
def State.writeWords (s : State) (a : Nat) (ws : List W64) : State := s.writeDone a (ws.flatMap w64Bytes)

end Sys2Proof.Machine
end

