-- ==== Sys2Proof/Machine/Units.lean ====
section
/-! DEFINITION. Operations that several units share: instances of schedule entries, the chip-wide semaphores,
faults of sequencers and engines, waits for Meridian, unit status words. -/

namespace Sys2Proof.Machine

/-- What a command answers. -/
abbrev Result := Host.Outcome State Fault Refusal

/-! Instances (R33, R138, R441). -/

/-- The instance that holds core c: launched, not saved, and the core not yet released. -/
def State.instOn (s : State) (c : Nat) : Option Inst :=
  s.fw.insts.find? fun i => decide (i.st ≠ .saved) && i.cores.contains c && !i.released.contains c

/-- Changes the instance that holds core c. -/
def State.modInstOn (s : State) (c : Nat) (f : Inst → Inst) : State :=
  match s.instOn c with
  | none => s
  | some i => s.modFw fun d => { d with insts := d.insts.map fun x => if x = i then f x else x }

def State.modInst (s : State) (entry no : Nat) (f : Inst → Inst) : State :=
  s.modFw fun d => { d with insts := d.insts.map fun x => if x.entry = entry ∧ x.no = no then f x else x }

/-- A tile boundary (R136). -/
def Core.tileBoundary (k : Core) : Bool := k.ctx.passes.isEmpty && k.ctx.drainWrites.isEmpty

/-- The sequencer of core c stands stopped for a save or a stop: in split configuration at its next instruction
boundary, in whole-job configuration at its next tile boundary (R136, R443). -/
def State.sqStopped (s : State) (c : Nat) : Bool :=
  match s.instOn c with
  | some x => decide (x.st = .stopping) && (!x.whole || (s.core c).tileBoundary)
  | none => false

/-- A pass of core c stands frozen: a stop in split configuration, except at a YIELD, which waits for its passes (R137,
R443). -/
def State.frozen (s : State) (c : Nat) : Bool :=
  match s.instOn c with
  | some x => decide (x.st = .stopping) && !x.whole && decide ((s.core c).ctx.held ≠ .yieldPt)
  | none => false

/-- The core whose cluster an engine belongs to (R13). -/
def coreOfEng (e : Nat) : Nat := e / 16

/-- The engine stands stopped: at its next instruction boundary, in whole-job configuration once the sequencers have
stopped (R443). -/
def State.veStopped (s : State) (e : Nat) : Bool :=
  match s.instOn (coreOfEng e) with
  | some x => decide (x.st = .stopping) && (!x.whole || x.cores.all fun c => (s.core c).tileBoundary)
  | none => false

/-- The core of a waiting unit. -/
def unitCore : SemUnit → Nat
  | .core c => c
  | .eng e => coreOfEng e

/-- TAG of the entry whose instance holds core c, 0 when none does. -/
def State.tagOn (s : State) (c : Nat) : W32 :=
  match s.instOn c with
  | none => 0
  | some i => (s.entry i.entry).tag

/-! Unit status words and faults. -/

def sqStateCode : SqState → Nat
  | .idle => 0 | .run => 1 | .waitt => 2 | .semw => 3 | .stall => 4 | .fault => 5 | .saved => 6 | .halted => 7

def sqCode : SqCode → Nat
  | .none => 0 | .instr => 1 | .range => 2 | .desc => 3 | .accum => 4 | .loop => 5 | .call => 6 | .drain => 7
  | .sem => 8 | .mem => 9

def veStateCode : VeState → Nat
  | .idle => 0 | .run => 1 | .wait => 2 | .semw => 3 | .stall => 4 | .fault => 5 | .saved => 6 | .halted => 7

def veCode : VeCode → Nat
  | .none => 0 | .instr => 1 | .range => 2 | .align => 3 | .sys => 4 | .sem => 5 | .dma => 6 | .mem => 7

/-- SQ_FAULT (R143). -/
def Core.faultWord (k : Core) : W64 :=
  w64 (at' (sqCode k.faultCode) 48 + at' (k.faultDesc % 4096) 36 + k.faultPc % 32768)

/-- VE_STATUS (R175). -/
def Engine.status (k : Engine) : W64 :=
  w64 (at' (veCode k.code) 48 + at' (k.fpc % 2 ^ 18) 28 + at' (k.phys % 32) 18 + at' (k.ctx.dmas.length % 16) 14
    + at' (k.job % 4) 4 + veStateCode k.st)

/-! Semaphores (R219 to R223). -/

/-- The semaphore is granted to the job slot (R219). -/
def State.semGranted (s : State) (slot n : Nat) : Bool := (s.sem n).granted && (s.sem n).job == slot

/-- Keeps an instance's net take on a semaphore (R447). -/
def State.noteTake (s : State) (c n amt : Nat) : State :=
  s.modInstOn c fun i => { i with takes := SMap.set 0 i.takes n (SMap.get 0 i.takes n + amt) }
def State.noteAdd (s : State) (c n amt : Nat) : State :=
  s.modInstOn c fun i => { i with adds := SMap.set 0 i.adds n (SMap.get 0 i.adds n + amt) }

/-- Adds to a semaphore's count; none where the count would pass 65,535 (R129, R160). -/
def State.semAdd (s : State) (n amt : Nat) : Option State :=
  if 65535 < (s.sem n).count + amt then none
  else some (s.modSem n fun q => { q with count := q.count + amt })

/-- Whether a wait for `amt` completes as it begins: at once with nothing to take, else only where no earlier
waiter stands and the count suffices (R220). -/
def State.semReady (s : State) (n amt : Nat) : Bool :=
  amt == 0 || ((s.sem n).waiters.isEmpty && decide (amt ≤ (s.sem n).count))

/-- Takes from a count on behalf of a unit. -/
def State.semTake (s : State) (u : SemUnit) (n amt : Nat) : State :=
  (s.modSem n fun q => { q with count := q.count - amt }).noteTake (unitCore u) n amt

/-- Joins the queue of a semaphore at its tail. -/
def State.semJoin (s : State) (u : SemUnit) (n amt : Nat) : State :=
  s.modSem n fun q => { q with waiters := q.waiters ++ [(u, amt, s.mer.now)] }

/-- Leaves every semaphore's queue. -/
def State.semLeave (s : State) (u : SemUnit) : State :=
  { s with sems := s.sems.map fun p => (p.1, { p.2 with waiters := p.2.waiters.filter fun w => decide (w.1 ≠ u) }) }

/-! Program counters. -/

/-- Where the sequencer goes after the word at pc has issued (R133): the innermost loop that ends there is taken
back to its body's first word, or popped and the next tested. An inner loop that ends elsewhere stays open: every open
loop's end is compared with each issued word (R135; DEDUCED, log 74). -/
def loopStep (pc : Nat) : List LoopLevel → Nat × List LoopLevel
  | [] => (pc + 1, [])
  | l :: t =>
    if l.last = pc then
      if l.index + 1 < l.count then (l.first, { l with index := l.index + 1 } :: t) else loopStep pc t
    else
      let r := loopStep pc t
      (r.1, l :: r.2)

/-- Goes on past the instruction at PC, back in RUN. -/
def State.sqAdvance (s : State) (c : Nat) : State :=
  s.modCore c fun k =>
    let r := loopStep k.ctx.pc k.ctx.loops
    { k with st := .run, ctx := { k.ctx with pc := r.1, loops := r.2, held := .none } }

/-- Goes on past the engine's instruction at PC, back in RUN. -/
def State.veAdvance (s : State) (e : Nat) : State :=
  s.modEng e fun k => { k with st := .run, ctx := { k.ctx with pc := k.ctx.pc + 1, held := .none } }

/-- A sequencer stalled, or waiting, with its instruction held. -/
def State.sqHold (s : State) (c : Nat) (st : SqState) (h : SqHeld) : State :=
  s.modCore c fun k => { k with st := st, ctx := { k.ctx with held := h } }

def State.veHold (s : State) (e : Nat) (st : VeState) (h : VeHeld) : State :=
  s.modEng e fun k => { k with st := st, ctx := { k.ctx with held := h } }

/-- The oldest waiter has its amount: it takes it, leaves the queue and its unit goes on (R220). -/
def State.semServeOne (s : State) (n : Nat) : Option State :=
  match (s.sem n).waiters with
  | [] => none
  | (u, amt, _) :: t =>
    if amt ≤ (s.sem n).count then
      let s1 := (s.modSem n fun q => { q with waiters := t }).semTake u n amt
      some (match u with | .core c => s1.sqAdvance c | .eng e => s1.veAdvance e)
    else none

/-- Serves waiters in order until one is not satisfied (R220). -/
def State.semServe (s : State) (n : Nat) : Nat → State
  | 0 => s
  | k + 1 => match s.semServeOne n with | none => s | some s1 => State.semServe s1 n k

/-! Faults. -/

/-- A waiter gives up its wait: it leaves the queue, and the waiter that is now the oldest is tested at once (R220). -/
def State.semQuit (s : State) (u : SemUnit) : State :=
  (s.sems.filter fun p => p.2.waiters.any fun w => decide (w.1 = u)).foldl
    (fun t p => t.semServe p.1 p.2.waiters.length) (s.semLeave u)

/-- A sequencer fault (R142): the code, the instruction's address and the descriptor are recorded, the sequencer
stops, and the fault will be logged (SQFAULT). A fault of an earlier operation may find it in SEMW: it leaves the
semaphore's queue, since no instruction issues after a fault. The slot is stopped by Darkel in its own step (R437). -/
def State.sqFault (s : State) (c : Nat) (code : SqCode) (pc desc : Nat) : State :=
  let s1 := s.modCore c fun k =>
    { k with st := .fault, faultCode := code, faultDesc := desc, faultPc := pc, ctx := { k.ctx with held := .none } }
  let s2 := s1.logEvt 3 (s.core c).job 0x10 (s.tagOn c) c (s1.core c).faultWord 0 0 0
  if (s.core c).st = .semw then s2.semQuit (.core c) else s2

/-- An engine fault (R174): the code and the address of the faulting instruction are recorded and the engine stops
(VEFAULT). One in SEMW leaves the semaphore's queue. -/
def State.veFaultAt (s : State) (e : Nat) (code : VeCode) (pc : Nat) : State :=
  let s1 := s.modEng e fun k =>
    { k with st := .fault, code := code, fpc := pc, ctx := { k.ctx with held := .none } }
  let s2 := s1.logEvt 3 (s.eng e).job 0x11 (s.tagOn (coreOfEng e)) e (s1.eng e).status 0 0 0
  if (s.eng e).st = .semw then s2.semQuit (.eng e) else s2

/-- A fault of the instruction an engine is at. -/
def State.veFault (s : State) (e : Nat) (code : VeCode) : State := s.veFaultAt e code (s.eng e).ctx.pc

/-- An add made by a unit: its semaphore fault where the count would pass 65,535. -/
def State.semAddBy (s : State) (u : SemUnit) (n amt : Nat) : State :=
  match s.semAdd n amt with
  | none => match u with | .core c => s.sqFault c .sem (s.core c).ctx.pc 0 | .eng e => s.veFault e .sem
  | some s1 =>
    let s2 := s1.noteAdd (unitCore u) n amt
    match u with | .core c => s2.sqAdvance c | .eng e => s2.veAdvance e

end Sys2Proof.Machine
end

