-- ==== Sys2Proof/Machine/LinkOps.lean ====
section
/-! DEFINITION. Link DMA: operations, the packets they are cut into, flows, acknowledgements, routing (R330 to
R345), shared by PUT, v.dma, reduction chunks, laps and Darkel's own messages. -/

namespace Sys2Proof.Machine

/-- Packet kinds (R331). -/
def pkData : Nat := 0
def pkReduce : Nat := 1
def pkLap : Nat := 2
def pkAck : Nat := 3
def pkTime : Nat := 4
def pkMgmt : Nat := 5

/-- Statuses of an ACK (R330). -/
def stOk : Nat := 0
def stRange : Nat := 1
def stLost : Nat := 2

/-- Darkel's own flow contexts (R335). -/
def keeperFlow (f : Nat) : Bool := decide (8176 ≤ f)

/-- The flow context is granted to the job slot (R335). -/
def State.flowGranted (s : State) (slot f : Nat) : Bool := (s.flow f).valid && (s.flow f).job == slot

def State.op (s : State) (n : Nat) : Option LinkOp := SMap.get none s.lnk.ops n
def State.setOp (s : State) (n : Nat) (o : Option LinkOp) : State :=
  s.modLnk fun k => { k with ops := SMap.set none k.ops n o }

/-- Cuts [dst, dst + len) so that no packet crosses a 4 KiB boundary of the destination (R336). -/
def cutOp (dst src len : Nat) : Nat → List (Nat × Nat × Nat)
  | 0 => []
  | k + 1 =>
    if len = 0 then []
    else
      let n := min len (4096 - dst % 4096)
      (dst, src, n) :: cutOp (dst + n) (src + n) (len - n) k

/-- Puts a piece among others by its destination address. -/
def insertPiece (p : Nat × Nat × Nat) : List (Nat × Nat × Nat) → List (Nat × Nat × Nat)
  | [] => [p]
  | q :: t => if p.1 < q.1 then p :: q :: t else q :: insertPiece p t

/-- DATA packets of an operation that moves the given (destination, source, length) pieces, in order of address (R336). -/
def dataPackets (pieces : List (Nat × Nat × Nat)) : List OutPacket :=
  let cut := (pieces.foldl (fun l p => insertPiece p l) []).flatMap fun p => cutOp p.1 p.2.1 p.2.2 (p.2.2 / 4096 + 2)
  let n := cut.length
  (List.range n).zipWith (fun i p => ⟨pkData, p.1, [], [(p.2.1, p.2.2)], 0, i + 1 == n⟩) cut

/-- Operations of a flow that have packets to send, oldest first. -/
def State.flowOps (s : State) (f : Nat) : List (Nat × LinkOp) :=
  s.lnk.ops.filterMap fun p =>
    match p.2 with
    | some o => if o.flow = f ∧ o.todo ≠ [] ∧ o.failedWith = none then some (p.1, o) else none
    | none => none

/-- The limit on packets in flight: CRED, or 255 for Darkel's own contexts, whose CRED the manual does not give. -/
def State.flowLimit (s : State) (f : Nat) : Nat := if keeperFlow f then 255 else (s.flow f).cred

/-- The oldest packet of a flow may be sent (R337, R339). -/
def State.flowMaySend (s : State) (f : Nat) : Bool :=
  match s.flowOps f with
  | [] => false
  | (_, o) :: _ =>
    let w := s.flow f
    !w.failed && decide (w.infl < s.flowLimit f) && (decide (w.infl = 0) || w.dest == o.dchip)

/-- A fault of the unit that issued an operation: an uncorrectable source line (R186). -/
def State.opMemFault (s : State) (o : LinkOp) : State :=
  match o.owner with
  | .core c => s.sqFault c .mem o.pc o.desc
  | .eng e => s.veFaultAt e .mem o.pc
  | _ => s

/-- Reads the payload of a packet (R336). -/
def State.payloadOf (s : State) (p : OutPacket) : List Byte :=
  p.bytes ++ p.src.flatMap fun r => s.bytes r.1 r.2

def State.checkSrc (s : State) (slot : Nat) : List (Nat × Nat) → State × Bool
  | [] => (s, true)
  | r :: t =>
    let (s1, ok) := s.checkRange rdDma slot r.1 r.2
    let (s2, ok2) := State.checkSrc s1 slot t
    (s2, ok && ok2)

/-- Takes the oldest packet of a flow for its first sending: its source is read, it takes the flow's next FSEQ and
counts in flight. With an uncorrectable source line nothing is sent, the operation ends and its issuer faults. -/
def State.takePacket (s : State) (f : Nat) : State × Option Packet :=
  match s.flowOps f with
  | [] => (s, none)
  | (n, o) :: _ =>
    match o.todo with
    | [] => (s, none)
    | p :: rest =>
      let (s1, ok) := s.checkSrc (o.job.getD 255) p.src
      if ok then
        let w := s1.flow f
        let pkt : Packet :=
          { dchip := BitVec.ofNat 16 o.dchip, daddr := BitVec.ofNat 48 p.daddr, schip := s1.grp.chip,
            flow := BitVec.ofNat 13 f, hops := 0, kind := BitVec.ofNat 4 p.kind, last := p.last, status := 0,
            fseq := w.next, lseq := 0, karg := p.karg, payload := s1.payloadOf p }
        let s2 := s1.modFlow f fun w => { w with next := w.next + 1, flight := w.flight ++ [w.next], dest := o.dchip }
        (s2.setOp n (some { o with todo := rest, unacked := o.unacked ++ [w.next],
                                   t0 := some (o.t0.getD s.mer.now) }), some pkt)
      else ((s1.setOp n (some { o with todo := [], failedWith := some stLost })).opMemFault o, none)

def mkOp (owner : OpOwner) (flow : Nat) (job : Option Nat) (dchip : Nat) (todo : List OutPacket) (pc desc : Nat) :
    LinkOp :=
  ⟨owner, flow, job, dchip, todo, [], false, none, none, pc, desc⟩

/-! Routing (R341). -/

/-- This chip's number. -/
def State.me (s : State) : Nat := s.grp.chip.toNat

def chipGroup (c : Nat) : Nat := c / 64
def chipPos (c : Nat) : Nat := c % 64

/-- The link toward a position of the own group, by LNK_LRT. -/
def State.localRoute (s : State) (q : Nat) : Option Nat :=
  let e : W64 := SMap.get 0 s.lnk.lrt q
  if bit e 63 then some (fld e 56 50) else none

/-- The link a packet takes from this chip, none without a valid entry. -/
def State.route (s : State) (dchip flow : Nat) : Option Nat :=
  if chipGroup dchip = chipGroup s.grp.chip.toNat then s.localRoute (chipPos dchip)
  else
    let e : W64 := SMap.get 0 s.lnk.grt (chipGroup dchip)
    let slot1 := bit e 63
    let slot0 := bit e 47
    let pick := if slot0 && slot1 then flow % 2 else if slot1 then 1 else 0
    if !slot0 && !slot1 then none
    else
      let pos := if pick = 1 then fld e 62 57 else fld e 46 41
      let lnk := if pick = 1 then fld e 56 50 else fld e 40 34
      if pos = chipPos s.grp.chip.toNat then some lnk else s.localRoute pos

/-- What a manager keeps of one chip (R377 to R381). -/
def State.member (s : State) (chip : Nat) : Member := SMap.get .empty s.grp.members chip
def State.modMember (s : State) (chip : Nat) (f : Member → Member) : State :=
  s.modGrp fun g => { g with members := SMap.set .empty g.members chip (f (s.member chip)) }

/-! The bytes of a packet and their check (R329, R330). -/

/-- CRC-32C, the Castagnoli polynomial in its usual form: bits from the lowest up, all ones before and after (PRESUMED, log
82: the manual names it only). -/
def crcBit (c : Nat) : Nat := if c % 2 = 1 then (c / 2) ^^^ 0x82F63B78 else c / 2
def crcByte (c : Nat) (b : Byte) : Nat := (List.range 8).foldl (fun c _ => crcBit c) (c ^^^ b.toNat)
def crc32c (bs : List Byte) : W32 := BitVec.ofNat 32 (bs.foldl crcByte 0xFFFFFFFF ^^^ 0xFFFFFFFF)

/-- LEN: the payload in units of 16 bytes. A piece of a tile that is no whole number of them counts its last unit whole
(DESIGN CHOICE, log 82). -/
def packetLen (p : Packet) : Nat := ceilDiv p.payload.length 16

/-- Words 0 to 2 of the header cell. -/
def packetWords (p : Packet) : List W64 :=
  [ w64 (at' p.dchip.toNat 48 + p.daddr.toNat),
    w64 (at' p.schip.toNat 48 + at' p.flow.toNat 35 + at' p.hops.toNat 32 + at' p.kind.toNat 28 + at' (packetLen p) 19 +
      at' (b2n p.last) 18 + at' p.status.toNat 16 + p.fseq.toNat),
    w64 (at' p.lseq.toNat 56 + p.karg.toNat) ]

/-- Its CRC, for which LSEQ and HOPS are zero, and the whole header. -/
def packetCrc (p : Packet) : W32 :=
  crc32c ((packetWords { p with lseq := 0, hops := 0 }).flatMap w64Bytes ++ p.payload)
def packetHeader (p : Packet) : List W64 := packetWords p ++ [(packetCrc p).zeroExtend 64]

/-- CRC of a control cell's word 0, in its word 1 (R329). -/
def cellCrc (w : W64) : W32 := crc32c (w64Bytes w)

/-- Cells of a packet: its header and its payload in 32-byte cells (R330). -/
def pktCells (p : Packet) : Nat := 1 + ceilDiv p.payload.length 32

/-- Source number of a chip's own ACK and TIME packets at a transmit port. -/
def ownSource : Nat := 16384

/-- Queues a packet at a link's transmit port, on the virtual channel its hop count gives (R333). A link that is down or
holds takes none. -/
def State.enqueue (s : State) (l source : Nat) (p : Packet) : State :=
  if (s.link l).st = .down ∨ (s.link l).st = .hold then s
  else s.modLink l fun k => { k with queue := k.queue ++ [⟨p.hops.toNat, p, source⟩] }

/-- Sends a control cell at once (R329): LACK for the last packet taken in order, a NAK if one is asked for, credits of
one virtual channel. -/
def State.sendCtl (s : State) (l : Nat) (nak : Bool) (vc cells : Nat) : State :=
  let k := s.link l
  let w := w64 (at' 1 60 + at' (b2n nak) 59 + at' ((k.rxSeq + 255) % 256) 48 + at' (k.rxSeq % 256) 40 +
    at' (cells % 1024) (10 * vc))
  (s.modLink l fun k => { k with lastCtl := w }).bump (cntLnk l 2)

/-- The oldest packet of a receive buffer. -/
def State.rxFront (s : State) (l vc : Nat) : Option Packet := (SMap.get [] (s.link l).rx vc).head?

/-- It leaves the buffer and its credits return (R334). -/
def State.popRx (s : State) (l vc : Nat) : State :=
  match s.rxFront l vc with
  | none => s
  | some p =>
    (s.modLink l fun k => { k with rx := SMap.set [] k.rx vc (SMap.get [] k.rx vc).tail }).sendCtl l false vc (pktCells p)

/-- The link carries packets (R345), or will once its retrain is over (R332). -/
def Link.up (k : Link) : Bool := k.st == .up2 || k.st == .up1
def Link.alive (k : Link) : Bool := k.up || k.st == .train

/-- An acknowledgement of a flow of a source chip (R338), as a packet of its own. -/
def State.ackPacket (s : State) (schip flow : Nat) (fseq : W16) (status : Nat) : Packet :=
  { dchip := BitVec.ofNat 16 schip, daddr := 0, schip := s.grp.chip, flow := BitVec.ofNat 13 flow, hops := 0,
    kind := BitVec.ofNat 4 pkAck, last := false, status := BitVec.ofNat 2 status, fseq := fseq, lseq := 0,
    karg := 0, payload := [] }

/-- Sends an acknowledgement: to this chip itself by the local path, else along its route; a route that does not
exist discards it. -/
def State.sendAck (s : State) (schip flow : Nat) (fseq : W16) (status : Nat) : State :=
  let p := s.ackPacket schip flow fseq status
  if schip = s.grp.chip.toNat then s.modLnk fun n => { n with localQ := n.localQ ++ [p] }
  else
    match s.route schip flow with
    | some l => s.enqueue l ownSource p
    | none => s.lnkEvt 5

/-- Discards a packet that cannot go on, with a LOST acknowledgement to its source (R333, R342). An
acknowledgement itself is only discarded. -/
def State.lose (s : State) (p : Packet) : State :=
  if p.kind.toNat = pkAck ∨ p.kind.toNat = pkTime then s
  else s.sendAck p.schip.toNat p.flow.toNat p.fseq stLost

/-- Discards a packet that has no way on. -/
def State.noRoute (s : State) (p : Packet) : State := (s.lnkEvt 5).lose p

/-- Packets for this chip itself travel the local path of R126, without a link, and packets that have no route are discarded
(R333, R341), as the flow's credit allows. -/
def State.pumpLocal (s : State) (f : Nat) : Nat → State
  | 0 => s
  | k + 1 =>
    match s.flowOps f with
    | [] => s
    | (_, o) :: _ =>
      if o.dchip = s.grp.chip.toNat ∧ s.flowMaySend f = true then
        match s.takePacket f with
        | (s1, some p) => State.pumpLocal (s1.modLnk fun n => { n with localQ := n.localQ ++ [p] }) f k
        | (s1, none) => s1
      else if o.dchip ≠ s.grp.chip.toNat ∧ s.flowMaySend f = true ∧ (s.route o.dchip f).isNone = true then
        match s.takePacket f with
        | (s1, some p) => State.pumpLocal (s1.noRoute p) f k
        | (s1, none) => s1
      else s

/-- Adds an operation at the end of its flow's order (R126, R212) and lets the local path take what it may. -/
def State.addOp (s : State) (o : LinkOp) : State :=
  let n := s.lnk.nextOp
  let s1 := (s.setOp n (some o)).modLnk fun k => { k with nextOp := n + 1 }
  s1.pumpLocal o.flow o.todo.length

/-- Sends a message of the keeper core (R386): Darkel's flow for the destination, cut into fragments of 4,096
bytes. -/
def State.sendMgmt (s : State) (dchip mtype : Nat) (body : List Byte) : State :=
  let mseq : W32 := BitVec.ofNat 32 (SMap.get 0 s.grp.mseqOut dchip)
  let fcnt := max 1 (ceilDiv body.length 4096)
  let pks := (List.range fcnt).map fun i =>
    ({ kind := pkMgmt, daddr := 0, bytes := (body.drop (4096 * i)).take 4096, src := [],
       karg := BitVec.ofNat 56 (at' mtype 48 + at' i 40 + at' fcnt 32 + mseq.toNat), last := i + 1 == fcnt } : OutPacket)
  let s1 := s.modGrp fun g => { g with mseqOut := SMap.set 0 g.mseqOut dchip (SMap.get 0 g.mseqOut dchip + 1) }
  s1.addOp (mkOp .keeper (8176 + dchip % 16) none dchip pks 0 0)

/-- The header of a message body (R387): the group's TERM within the group, the system's between managers. -/
def State.mgmtHeader (s : State) (sys : Bool) : List Byte :=
  w64Bytes (w64 (at' (if sys then s.grp.sterm else s.grp.term) 32 + s.grp.chip.toNat)) ++ w64Bytes s.mer.now

end Sys2Proof.Machine
end

