-- ==== Sys2Proof/Machine/DrainFunc.lean ====
section
/-! DEFINITION. The functions of the drain unit that R94 defines and R95 bounds: their values in fixed point, far finer
than the bound, and the free value held to it (log 76). -/

namespace Sys2Proof.Machine

/-- Fraction bits of the fixed point in which the functions are evaluated. With |z| cut at 64 for Φ and at 4,096 for σ,
every value is within a relative 2^-1000 or an absolute 2^-1000 of the function's. -/
def fxBits : Nat := 8192
def fxOne : Int := 2 ^ fxBits

/-- A finite value in fixed point, toward minus infinity. -/
def FVal.toFx : FVal → Int
  | .fin n m e =>
    let k := e + (fxBits : Nat)
    let q : Int := if 0 ≤ k then (m : Int) * (2 ^ k.toNat : Nat) else (m : Int) / (2 ^ (-k).toNat : Nat)
    if n then -q else q
  | _ => 0

/-- The value of a fixed-point number. -/
def fxVal (x : Int) : FVal := .fin (decide (x < 0)) x.natAbs (-(fxBits : Nat))

def fxMul (x y : Int) : Int := x * y / fxOne
def fxDiv (x y : Int) : Int := x * fxOne / y
/-- A ratio of integers. -/
def fxRat (p q : Int) : Int := p * fxOne / q

/-- Sum of a series whose next term is the term before it times `f k`, for the k counted down. -/
def fxSeries (f : Nat → Int → Int) : Nat → Nat → Int → Int
  | 0, _, _ => 0
  | fuel + 1, k, t => t + fxSeries f fuel (k + 1) (f k t)

/-- Squares a number n times. -/
def fxSquare : Nat → Int → Int
  | 0, x => x
  | n + 1, x => fxSquare n (fxMul x x)

/-- e^-x for x from 0 to 4,096: the series of e^-(x / 2^16), squared sixteen times. -/
def fxExpNeg (x : Int) : Int :=
  let t := x / 65536
  fxSquare 16 (fxSeries (fun k u => -(fxMul u t) / (k + 1 : Nat)) 1100 0 fxOne)

/-- σ(x) = 1 / (1 + e^-x); 0 or 1 past 4,096. -/
def fxSigma (x : Int) : Int :=
  if 4096 * fxOne ≤ x then fxOne
  else if x ≤ -(4096 * fxOne) then 0
  else if 0 ≤ x then fxDiv fxOne (fxOne + fxExpNeg x)
  else
    let u := fxExpNeg (-x)
    fxDiv u (fxOne + u)

/-- arctan(1 / n) by its series. -/
def fxAtanInv (n : Int) : Int :=
  let term (k : Nat) (p : Int) : Int := if k % 2 = 0 then p / (2 * k + 1 : Nat) else -(p / (2 * k + 1 : Nat))
  (List.range 1800).foldl (fun (a : Int × Int) k => (a.1 + term k a.2, a.2 / (n * n))) (0, fxOne / n) |>.1

/-- π by Machin's formula. -/
def fxPi : Int := 16 * fxAtanInv 5 - 4 * fxAtanInv 239

/-- Square root of a non-negative fixed-point number. -/
def fxSqrt (x : Int) : Int :=
  let n := x.natAbs * 2 ^ fxBits
  isqrtBits n (Nat.log2 n / 2 + 1) 0

/-- φ(x) = e^(-x² / 2) / √(2π); 0 past 64. -/
def fxDensity (x : Int) : Int :=
  if 64 * fxOne < x.natAbs then 0 else fxDiv (fxExpNeg (fxMul x x / 2)) (fxSqrt (2 * fxPi))

/-- Φ(x) = 1/2 + φ(x) (x + x³/3 + x⁵/(3·5) + …); 0 or 1 past 64. -/
def fxPhi (x : Int) : Int :=
  if 64 * fxOne < x then fxOne
  else if x < -(64 * fxOne) then 0
  else fxOne / 2 + fxMul (fxDensity x) (fxSeries (fun k u => fxMul u (fxMul x x) / (2 * k + 3 : Nat)) 16000 0 x)

/-- w(x) = c (x + 0.044715 x³), c = √(2/π), and its derivative. -/
def fxTanhArg (x : Int) : Int :=
  fxMul (fxSqrt (fxDiv (2 * fxOne) fxPi)) (x + fxMul (fxRat 44715 1000000) (fxMul x (fxMul x x)))
def fxTanhSlope (x : Int) : Int :=
  fxMul (fxSqrt (fxDiv (2 * fxOne) fxPi)) (fxOne + fxMul (fxRat 134145 1000000) (fxMul x x))

/-- GELU, SILU and their derivatives. -/
def fxGelu (x : Int) : Int := fxMul x (fxPhi x)
def fxSilu (x : Int) : Int := fxMul x (fxSigma x)
def fxDGelu (z : Int) : Int := fxPhi z + fxMul z (fxDensity z)
def fxDSilu (z : Int) : Int := fxMul (fxSigma z) (fxOne + fxMul z (fxSigma (-z)))
/-- GELU.T = x (1 + tanh w) / 2 = x σ(2w), and its derivative. -/
def fxGeluT (x : Int) : Int := fxMul x (fxSigma (2 * fxTanhArg x))
def fxDGeluT (z : Int) : Int :=
  let w := 2 * fxTanhArg z
  fxSigma w + fxMul z (fxMul (fxMul (fxSigma w) (fxSigma (-w))) (2 * fxTanhSlope z))

/-- The functions of R94 that are not correctly rounded, by code and output, of v′ (of array A), then the other operands
in R94's order. -/
def drainValue (code out : Nat) (x : List Int) : Int :=
  let a := x.headD 0
  let b := (x.drop 1).headD 0
  let c := (x.drop 2).headD 0
  match code with
  | 0x03 => fxGelu a
  | 0x04 => fxGeluT a
  | 0x05 => fxSilu a
  | 0x06 => fxSigma a
  | 0x07 => 2 * fxSigma (2 * a) - fxOne
  | 0x08 => fxMul (fxSilu a) b
  | 0x09 => fxMul (fxGelu a) b
  | 0x12 => fxMul a (fxDGelu b)
  | 0x13 => fxMul a (fxDGeluT b)
  | 0x14 => fxMul a (fxDSilu b)
  | 0x15 => fxMul a (fxMul (fxSigma b) (fxSigma (-b)))
  | 0x16 => fxMul a (4 * fxMul (fxSigma (2 * b)) (fxSigma (-(2 * b))))
  | 0x17 => if out = 0 then fxMul (fxMul a c) (fxDSilu b) else fxMul a (fxSilu b)
  | 0x18 => if out = 0 then fxMul (fxMul a c) (fxDGelu b) else fxMul a (fxGelu b)
  | _ => 0

/-- |y - f| ≤ 2^-32 |f| + 2^-150 (R95), with a margin of one part in 2^32 for the fixed point's own error. -/
def withinBound (y f : Int) : Bool :=
  let b := f.natAbs / 2 ^ 32 + 2 ^ (fxBits - 150)
  decide ((y - f).natAbs ≤ b + b / 2 ^ 32 + 2)

def FVal.parts : FVal → Bool × Nat × Int
  | .fin n m e => (n, m, e)
  | _ => (false, 0, 0)

/-- The unrounded y of a function that R95 bounds, on finite inputs: the free value where it keeps the bound, else the
function's own value. -/
def freeFunc (code out : Nat) (vs : List FVal) : FVal :=
  let r := Config.drainFunc code out (vs.map FVal.parts)
  let y : FVal := .fin r.1 r.2.1 r.2.2
  let f := drainValue code out (vs.map FVal.toFx)
  if withinBound y.toFx f then y else fxVal f

end Sys2Proof.Machine
end

