-- ==== Sys2Proof/Machine/Operands.lean ====
section
/-! DEFINITION. Operand forms of the sequencer: descriptors as read and stepped at issue (R112 to R118), the
checks of R117, the partitions of R91 and R111, and the elements of a tile. -/

namespace Sys2Proof.Machine

/-- A fault an operand raises: a range fault or a descriptor fault on a descriptor index (R117). -/
inductive DescErr where
  | range (d : Nat)
  | desc (d : Nat)
  deriving DecidableEq, Repr

def DescErr.code : DescErr → SqCode
  | .range _ => .range
  | .desc _ => .desc
def DescErr.index : DescErr → Nat
  | .range d => d
  | .desc d => d

/-- An operand, or the fault it raises. -/
abbrev Operand (α : Type) := Except DescErr α

/-- Word w of descriptor i. -/
def Core.descWord (k : Core) (i w : Nat) : W64 := SMap.get 0 k.desc (4 * i + w)

def Core.range (k : Core) : JRange := SMap.get JRange.none k.jrange k.job

/-- The PC lies in the job's instruction range (R135). -/
def Core.pcOk (k : Core) (pc : Nat) : Bool := k.range.valid && decide (k.range.ibase ≤ pc ∧ pc ≤ k.range.ilim)

/-- An index other than 0 must lie in the job's descriptor range (R105, R117). -/
def Core.checkIndex (k : Core) (i : Nat) : Operand Unit :=
  if i = 0 then .error (.desc 0)
  else if k.range.valid && decide (k.range.dbase ≤ i ∧ i ≤ k.range.dlim) then .ok ()
  else .error (.range i)

/-- Iteration index of the open loop at depth l, 0 where none is open (R114). -/
def SqCtx.loopIndex (x : SqCtx) (l : Nat) : Nat :=
  match x.loops.reverse[l]? with
  | some v => v.index
  | none => 0

/-- STEP0 * i(LVL0) and STEP1 * i(LVL1) of word 3 (R113, R114). -/
def SqCtx.step0 (x : SqCtx) (w3 : W64) : Int := sext 30 (fld w3 29 0) * x.loopIndex (fld w3 31 30)
def SqCtx.step1 (x : SqCtx) (w3 : W64) : Int := sext 30 (fld w3 61 32) * x.loopIndex (fld w3 63 62)

/-- Bytes of one MX block of elements (R50). -/
def blockBytes (f : Nat) : Nat := match f with | 5 => 16 | 6 => 24 | 7 => 24 | 8 => 32 | _ => 16

/-- Kind of a descriptor (R112). -/
def descKind (w1 : W64) : Nat := fld w1 7 4

/-- Bytes of a tile's row. -/
def TileRef.rowBytes (t : TileRef) : Nat :=
  if t.wide then 16 * t.cols
  else if fmtMx t.fmt then ceilDiv t.cols 32 * blockBytes t.fmt
  else t.cols * fmtBits t.fmt / 8

/-- Address of a wide-partial tile's header (R113). -/
def TileRef.header (t : TileRef) : Nat := t.base + t.rows * t.pitch

/-- A descriptor of kind TILE or WIDE, its base stepped, with the checks of R113 and R117 that do not depend on
the place: rows and columns present, alignment, a WIDE's pitch. -/
def Core.tileAt (k : Core) (i : Nat) : Operand TileRef :=
  match k.checkIndex i with
  | .error e => .error e
  | .ok _ =>
    let w0 := k.descWord i 0
    let w1 := k.descWord i 1
    let w2 := k.descWord i 2
    let off := k.ctx.step0 (k.descWord i 3) + k.ctx.step1 (k.descWord i 3)
    let wide := descKind w1 == 1
    let fmt := fld w1 11 8
    let mx := !wide && fmtMx fmt
    let base : Int := (fld w0 47 0 : Nat) + off * (if mx then blockBytes fmt else 16)
    let scale : Int := (fld w2 47 0 : Nat) + (if mx then off else 0)
    let pitch := fld w1 63 40
    let cols := fld w1 39 26
    let rows := fld w1 25 12
    if descKind w1 ≠ 0 ∧ descKind w1 ≠ 1 then .error (.desc i)
    else if rows = 0 ∨ cols = 0 then .error (.desc i)
    else if fld w0 3 0 ≠ 0 ∨ base < 0 ∨ base % 16 ≠ 0 ∨ pitch % 16 ≠ 0 ∨ scale < 0 then .error (.desc i)
    else if mx && pitch % blockBytes fmt ≠ 0 then .error (.desc i)
    else if wide && pitch ≠ 16 * cols then .error (.desc i)
    else .ok ⟨wide, base.toNat, pitch, rows, cols, fmt, scale.toNat, fld w0 63 48⟩

/-- Every byte of a tile's rows, its header and its scales lies in the ranges a sequencer may touch (R117, R181). -/
def State.tileInRange (s : State) (t : TileRef) : Bool :=
  (List.range t.rows).all (fun r =>
    s.jobRange (t.base + r * t.pitch) t.rowBytes &&
      (t.wide || !fmtMx t.fmt ||
        s.jobRange (t.scale + r * (t.pitch / blockBytes t.fmt)) (ceilDiv t.cols 32))) &&
    (!t.wide || s.jobRange t.header 16)

/-- A TILE operand in one of the formats permitted at its place (R44, R57), within an extent (R117). -/
def State.tileOperand (s : State) (c i : Nat) (okFmt : Nat → Bool) (maxRows maxCols : Nat) : Operand TileRef :=
  match (s.core c).tileAt i with
  | .error e => .error e
  | .ok t =>
    if t.wide || !okFmt t.fmt || decide (maxRows < t.rows) || decide (maxCols < t.cols) || !s.tileInRange t then
      .error (.desc i)
    else .ok t

/-- A WIDE operand. -/
def State.wideOperand (s : State) (c i : Nat) : Operand TileRef :=
  match (s.core c).tileAt i with
  | .error e => .error e
  | .ok t => if !t.wide || !s.tileInRange t then .error (.desc i) else .ok t

/-- A BUCKET operand (R115): COLS a multiple of 64 up to 384, ROWS up to 8,192 (R347), no reserved format (R44), the
effective bucket number within 16 bits. -/
def State.bucketOperand (s : State) (c i : Nat) : Operand BucketRef :=
  let k := s.core c
  match k.checkIndex i with
  | .error e => .error e
  | .ok _ =>
    let w0 := k.descWord i 0
    let w1 := k.descWord i 1
    let w2 := k.descWord i 2
    let cols := fld w1 39 26
    let rows := fld w1 25 12
    let b : Int := (fld w2 63 48 : Nat) + k.ctx.step0 (k.descWord i 3) + k.ctx.step1 (k.descWord i 3)
    if descKind w1 ≠ 2 ∨ 12 ≤ fld w1 11 8 ∨ rows = 0 ∨ cols = 0 ∨ cols % 64 ≠ 0 ∨ 384 < cols ∨ 8192 < rows ∨ b < 0 ∨ 65535 < b then
      .error (.desc i)
    else .ok ⟨fld w0 63 48, fld w0 47 0, rows, cols, fld w1 11 8, b.toNat, fld w2 12 0⟩

/-! Partitions (R91, R111). -/

/-- Bands of rows and groups of columns of a partition code, none where reserved. -/
def partShape (p : Nat) : Option (Nat × Nat) :=
  match p with
  | 0 => some (1, 1) | 1 => some (1, 2) | 2 => some (2, 1) | 3 => some (2, 2) | 4 => some (4, 4) | _ => none

def partBands (p : Nat) : Nat := ((partShape p).getD (1, 1)).1
def partGroups (p : Nat) : Nat := ((partShape p).getD (1, 1)).2
def partSubs (p : Nat) : Nat := partBands p * partGroups p
/-- PE rows of a band and columns of a group. -/
def bandRows (p : Nat) : Nat := 384 / partBands p
def groupCols (p : Nat) : Nat := 384 / partGroups p
def subBand (p sub : Nat) : Nat := sub / partGroups p
def subGroup (p sub : Nat) : Nat := sub % partGroups p
/-- Multiply-adds per PE and cycle of a format's own rate class (R66). -/
def rateOf (f : Nat) : Nat := match rateClass f with | 0 => 1 | 1 => 2 | _ => 4
def pairRate (f g : Nat) : Nat := min (rateOf f) (rateOf g)

/-! Elements of a tile in memory. -/

/-- Element code at (row, col). -/
def State.elemCode (s : State) (t : TileRef) (row col : Nat) : Nat :=
  let a := t.base + row * t.pitch
  if fmtMx t.fmt then
    bitsAt (s.bytes (a + col / 32 * blockBytes t.fmt) (blockBytes t.fmt)) (col % 32 * fmtBits t.fmt) (fmtBits t.fmt)
  else leNat (s.bytes (a + col * (fmtBits t.fmt / 8)) (fmtBits t.fmt / 8))

/-- Scale code of the block of (row, col); 127 in a format without scales (R81). -/
def State.elemScale (s : State) (t : TileRef) (row col : Nat) : Nat :=
  if fmtMx t.fmt then (s.peek (t.scale + row * (t.pitch / blockBytes t.fmt) + col / 32)).toNat else 127

/-- The value at (row, col), +0 outside the tile (R117). -/
def State.elemVal (s : State) (t : TileRef) (row col : Nat) : FVal :=
  if row < t.rows ∧ col < t.cols then
    if fmtMx t.fmt then mxDecode t.fmt (s.elemScale t row col) (s.elemCode t row col)
    else elemDecode t.fmt (s.elemCode t row col)
  else .fin false 0 0

/-- Reads the lines of a tile's rows [r0, r1): whether all of them return data (R186). -/
def State.checkTile (s : State) (slot : Nat) (t : TileRef) (rows : List Nat) : State × Bool :=
  rows.foldl (fun (acc : State × Bool) r =>
    if r < t.rows then
      let (s1, ok) := acc.1.checkRange rdSeq slot (t.base + r * t.pitch) t.rowBytes
      let (s2, ok2) := if fmtMx t.fmt && !t.wide then
          s1.checkRange rdSeq slot (t.scale + r * (t.pitch / blockBytes t.fmt)) (ceilDiv t.cols 32) else (s1, true)
      (s2, acc.2 && ok && ok2)
    else acc) (s, true)

/-! Issue. -/

/-- An instruction of core c: it issues while the sequencer is in RUN and not stopped, with its PC in the job's range
(R107, R135, R443); otherwise nothing happens, or the range fault is raised. -/
def State.sqIssue (s : State) (c : Nat) (f : State) : State :=
  if (s.core c).st = .run ∧ s.sqStopped c = false then
    if (s.core c).pcOk (s.core c).ctx.pc then f else s.sqFault c .range (s.core c).ctx.pc 0
  else s

/-- An operand fault at the issuing instruction. -/
def State.sqOperandFault (s : State) (c : Nat) (e : DescErr) : State :=
  s.sqFault c e.code (s.core c).ctx.pc e.index

/-- Names the descriptor of an optional operand: index 0 is none. -/
def optIndex (i : Nat) (f : Operand TileRef) : Operand (Option TileRef) :=
  if i = 0 then .ok none else match f with | .ok t => .ok (some t) | .error e => .error e

end Sys2Proof.Machine
end

