-- ==== Sys2Proof/Machine/Arrays.lean ====
section
/-! DEFINITION. The matrix arrays: planes and stationary loads (R65 to R75), operand bounds and frames (R76 to
R80), scale taps (R81), chain words (R78, R79), and Contrail's captures (R263 to R265). -/

namespace Sys2Proof.Machine

/-- SQ_COLMAP of an array (R103). -/
def ArrayState.colmap (a : ArrayState) : W64 :=
  w64 (at' (b2n a.pendCol.isSome) 63 + (List.range 4).foldl (fun n j =>
    match a.retired[j]? with | some col => n + at' (512 + col % 512) (10 * j) | none => n) 0)

def Core.arr (k : Core) (b : Bool) : ArrayState := if b then k.arrB else k.arrA
def Core.setArr (k : Core) (b : Bool) (a : ArrayState) : Core :=
  if b then { k with arrB := a } else { k with arrA := a }
/-- Sets bit n of SQ_ARREVT (R103). -/
def Core.event (k : Core) (n : Nat) : Core := { k with arrevt := setBit k.arrevt n }
def Core.eventIf (k : Core) (c : Bool) (n : Nat) : Core := if c then k.event n else k

/-- The operand bound of the largest of some values (R76). -/
def boundOf (vs : List FVal) : Option Int := (maxLead vs).map (· + 1)

def maxOpt : Option Int → Option Int → Option Int
  | none, b => b
  | a, none => a
  | some a, some b => some (max a b)

/-! Planes. -/

/-- PE row and sub-lane of K index κ of a sub-array (R66, R91). -/
def peRow (p sub κ : Nat) : Nat := subBand p sub * bandRows p + κ % bandRows p
def peLane (p κ : Nat) : Nat := κ / bandRows p

/-- PE (k, n) belongs to the sub-array. -/
def inSub (p sub k n : Nat) : Bool := k / bandRows p == subBand p sub && n / groupCols p == subGroup p sub

/-- Bits of one sub-lane of a PE word (R66). -/
def laneBits (f : Nat) : Nat := 16 / rateOf f

/-- K extent and column extent of a tile as it lands: WLDT turns it (R117, R120). -/
def landRows (t : TileRef) (trans : Bool) : Nat := if trans then t.cols else t.rows
def landCols (t : TileRef) (trans : Bool) : Nat := if trans then t.rows else t.cols

/-- A stationary tile as its bytes lie: a block of an MX tile holds 32 K indices of one column (R50, R81), so a row of
PITCH bytes holds the blocks of 32 of the tile's rows, one block a column (DEDUCED, log 35). -/
def TileRef.stored (t : TileRef) : TileRef :=
  if fmtMx t.fmt then { t with rows := ceilDiv t.rows 32, cols := 32 * t.cols } else t

/-- Where element (κ, n) of a landed tile stands among the bytes: row and column of the tile as stored. -/
def TileRef.placeOf (t : TileRef) (trans : Bool) (κ n : Nat) : Nat × Nat :=
  if fmtMx t.fmt then (κ / 32, 32 * n + κ % 32) else if trans then (n, κ) else (κ, n)

/-- Code and value of element (κ, n) of a landed tile. -/
def State.landCode (s : State) (t : TileRef) (trans : Bool) (κ n : Nat) : Nat :=
  s.elemCode t.stored (t.placeOf trans κ n).1 (t.placeOf trans κ n).2
def State.landVal (s : State) (t : TileRef) (trans : Bool) (κ n : Nat) : FVal :=
  s.elemVal t.stored (t.placeOf trans κ n).1 (t.placeOf trans κ n).2

/-- Places of a landed tile: K index and column. -/
def landPlaces (t : TileRef) (trans : Bool) : List (Nat × Nat) :=
  (List.range (landRows t trans)).flatMap fun κ => (List.range (landCols t trans)).map fun n => (κ, n)

/-- Adds an element's code to the PE word it lands in. -/
def placeCode (p sub f : Nat) (pes : SMap W16) (κ col code : Nat) : SMap W16 :=
  if code = 0 then pes
  else
    let key := 384 * peRow p sub κ + (subGroup p sub * groupCols p + col)
    SMap.set 0 pes key (SMap.get 0 pes key ||| BitVec.ofNat 16 (code * 2 ^ (laneBits f * peLane p κ)))

/-- The sub-array's PEs emptied to +0. -/
def clearPes (p sub : Nat) (pes : SMap W16) : SMap W16 :=
  pes.filter fun q => !inSub p sub (q.1 / 384) (q.1 % 384)

/-- Tap of K index κ, column n: 48n + 4j + s (R81). -/
def tapKey (p sub κ n : Nat) : Nat := 48 * n + 4 * (peRow p sub κ / 32) + peLane p κ

def clearTaps (p sub : Nat) (taps : SMap Byte) : SMap Byte :=
  taps.filter fun q => !inSub p sub (q.1 % 48 / 4 * 32) (q.1 / 48)

/-- The scales of an MX tile into the taps of its sub-array. -/
def State.landTaps (s : State) (t : TileRef) (p sub : Nat) (taps : SMap Byte) : SMap Byte :=
  let places := (List.range t.stored.rows).flatMap fun j => (List.range t.cols).map fun n => (j, n)
  places.foldl (fun m q =>
    SMap.set 0 m (tapKey p sub (32 * q.1) (subGroup p sub * groupCols p + q.2))
      (BitVec.ofNat 8 (s.elemScale t.stored q.1 (32 * q.2)))) (clearTaps p sub taps)

/-- What is kept of a tile in a plane (R76, R91). -/
def State.tileMeta (s : State) (l : Load) : TileMeta :=
  { part := l.part, sub := l.sub, fmt := l.src.fmt, rows := landRows l.src l.trans, cols := landCols l.src l.trans,
    trans := l.trans, uw := boundOf ((landPlaces l.src l.trans).map fun q => s.landVal l.src l.trans q.1 q.2), pc := l.pc,
    slot := l.slot }

/-- The sub-array (p, sub) lies wholly in (p', sub'). -/
def subWithin (p sub p' sub' : Nat) : Bool :=
  let k0 := subBand p sub * bandRows p
  let n0 := subGroup p sub * groupCols p
  inSub p' sub' k0 n0 && inSub p' sub' (k0 + bandRows p - 1) (n0 + groupCols p - 1)

/-- Two sub-arrays share a PE. -/
def subMeets (p sub p' sub' : Nat) : Bool :=
  let k := subBand p sub * bandRows p
  let k' := subBand p' sub' * bandRows p'
  let n := subGroup p sub * groupCols p
  let n' := subGroup p' sub' * groupCols p'
  decide (k < k' + bandRows p' ∧ k' < k + bandRows p ∧ n < n' + groupCols p' ∧ n' < n + groupCols p)

/-- The plane after a load (R70): the sub-array is padded with +0 (R117), the tile placed, its scales in the taps. -/
def State.landPlane (s : State) (l : Load) (pl : Plane) : Plane :=
  let t := l.src
  let pes := (landPlaces t l.trans).foldl (fun m q =>
    placeCode l.part l.sub t.fmt m q.1 q.2 (s.landCode t l.trans q.1 q.2)) (clearPes l.part l.sub pl.pes)
  { pes := pes,
    taps := if fmtMx t.fmt then s.landTaps t l.part l.sub pl.taps else pl.taps,
    tiles := (pl.tiles.filter fun m => !subWithin m.part m.sub l.part l.sub) ++ [s.tileMeta l],
    written := true }

/-- Newest tile that covers PE (k, n). -/
def Plane.tileAt (pl : Plane) (k n : Nat) : Option TileMeta :=
  (pl.tiles.filter fun m => inSub m.part m.sub k n).getLast?

/-- Tiles that meet a sub-array. -/
def Plane.tilesIn (pl : Plane) (p sub : Nat) : List TileMeta :=
  pl.tiles.filter fun m => subMeets m.part m.sub p sub

/-- Uw of a sub-array (R76). -/
def Plane.uw (pl : Plane) (p sub : Nat) : Option Int :=
  (pl.tilesIn p sub).foldl (fun a m => maxOpt a m.uw) none

/-- The value in sub-lane `lane` of a PE word. -/
def peVal (f w lane scale : Nat) : FVal :=
  let code := w / 2 ^ (laneBits f * lane) % 2 ^ fmtBits f
  if fmtMx f then mxDecode f scale code else elemDecode f code

/-- Elements of a sub-array that are not +0: column, index of the activation row they meet, value (R66, R81). A
block with a NaN scale is NaN in its first element too, whatever its PE holds (R49). -/
def Plane.weights (pl : Plane) (p sub r : Nat) : List (Nat × Nat × FVal) :=
  let ofPes := pl.pes.flatMap fun q =>
    let k := q.1 / 384
    let n := q.1 % 384
    if inSub p sub k n then
      match pl.tileAt k n with
      | none => []
      | some m => (List.range (min r (rateOf m.fmt))).map fun lane =>
          (n, 384 * lane + k, peVal m.fmt q.2.toNat lane (SMap.get (0 : Byte) pl.taps (48 * n + 4 * (k / 32) + lane)).toNat)
    else []
  let ofTaps := pl.taps.filterMap fun q =>
    let n := q.1 / 48
    let k := q.1 % 48 / 4 * 32
    let lane := q.1 % 4
    if q.2 = (255 : Byte) && inSub p sub k n && decide (lane < r) then
      match pl.tileAt k n with
      | some m => if fmtMx m.fmt then some (n, 384 * lane + k, FVal.nan) else none
      | none => none
    else none
  ofPes ++ ofTaps

/-! Chain words. -/

def Tag.ofVal : FVal → Tag
  | .nan => .nan
  | .inf false => .posInf
  | .inf true => .negInf
  | .fin _ _ _ => .finite

/-- Tags in a sum (R79). -/
def Tag.add : Tag → Tag → Tag
  | .nan, _ => .nan
  | _, .nan => .nan
  | .finite, t => t
  | t, .finite => t
  | .posInf, .posInf => .posInf
  | .negInf, .negInf => .negInf
  | .posInf, .negInf => .nan
  | .negInf, .posInf => .nan

def Tag.code : Tag → Nat
  | .finite => 0 | .posInf => 1 | .negInf => 2 | .nan => 3
def Tag.ofCode (n : Nat) : Tag :=
  match n % 4 with | 0 => .finite | 1 => .posInf | 2 => .negInf | _ => .nan

def ChainWord.zero : ChainWord := ⟨0, .finite⟩

/-- A product truncated toward zero to a multiple of 2^F, in units of 2^F, and whether bits were lost (R78). -/
def truncAt (f : Int) (neg : Bool) (m : Nat) (e : Int) : Int × Bool :=
  let q : Nat := if f ≤ e then m * 2 ^ (e - f).toNat else m / 2 ^ (f - e).toNat
  let lost := decide (e < f) && decide (m % 2 ^ (f - e).toNat ≠ 0)
  ((if neg then -(q : Int) else (q : Int)), lost)

/-- Adds a product to a chain word (R78, R79). -/
def ChainWord.addProduct (frame : Option Int) (w : ChainWord) (v : FVal) : ChainWord × Bool :=
  match v with
  | .fin neg m e =>
    match frame with
    | none => (w, false)
    | some f =>
      let (q, lost) := truncAt f neg m e
      ({ w with s := w.s + q }, lost)
  | x => ({ w with tag := w.tag.add (Tag.ofVal x) }, false)

/-- The value at an index of a sparse row, +0 where none is listed. -/
def sparseAt (l : List (Nat × FVal)) (i : Nat) : FVal :=
  match l.find? fun q => q.1 == i with
  | some q => q.2
  | none => .fin false 0 0

/-- Products of one column: every element that is not +0 with the activation it meets, and every non-finite
activation with the +0 elements it meets. -/
def columnProducts (acts : List (Nat × FVal)) (ws : List (Nat × FVal)) : List FVal :=
  ws.map (fun w => FVal.mul (sparseAt acts w.1) w.2) ++
    (acts.filter fun a => !a.2.isFinite && !(ws.any fun w => w.1 == a.1)).map
      fun a => FVal.mul a.2 (.fin false 0 0)

/-- Chain word of a column, and whether a product lost bits. -/
def columnChain (frame : Option Int) (acts ws : List (Nat × FVal)) : ChainWord × Bool :=
  (columnProducts acts ws).foldl (fun a v =>
    let (w, lost) := a.1.addProduct frame v
    (w, a.2 || lost)) (ChainWord.zero, false)

/-- h of R76. -/
def chainH (r : Nat) : Int := match r with | 1 => 9 | 2 => 10 | _ => 11

/-- Tile frame (R76). -/
def tileFrame (ua uw : Option Int) (r : Nat) : Option Int :=
  match ua, uw with
  | some a, some w => some (a + w + chainH r - 47)
  | _, _ => none

/-! Stationary loads. -/

/-- A pass that will swap the planes and has not reached its array origin. -/
def Pass.toSwap (p : Pass) : Bool := p.ops.swap && p.framesA.isEmpty

/-- Loads stall: four instructions' loads are outstanding, or the plane they target is still active (R72, R119). -/
def Core.loadBlocked (k : Core) : Bool :=
  k.arrA.vacated || k.ctx.passes.any Pass.toSwap || decide (4 ≤ (k.ctx.loads.map (·.op)).eraseDups.length)

/-- K of NUM_CTRAIL, and its slots (R269). -/
def Core.ctrailK (k : Core) : Nat := fld k.ctrail 51 48
def Core.ctrailSlots (k : Core) : Nat := max 1 (fld k.ctrail 47 44)

def Core.capture (k : Core) (i : Nat) : Capture := SMap.get Capture.free k.captures i
def Core.setCapture (k : Core) (i : Nat) (v : Capture) : Core :=
  { k with captures := SMap.set Capture.free k.captures i v }

/-- A selected load or tile that is not captured (R264). -/
def Core.missCapture (k : Core) : Core := { k with cmiss := cntAdd k.cmiss 1 }

/-- No tile of the planes bears capture slot i any more: it is captured, or it will not be. -/
def ArrayState.unmark (a : ArrayState) (i : Nat) : ArrayState :=
  let clear (p : Plane) : Plane := { p with tiles := p.tiles.map fun t => if t.slot = some i then { t with slot := none } else t }
  { a with active := clear a.active, shadow := clear a.shadow }
def Core.unmark (k : Core) (i : Nat) : Core := { k with arrA := k.arrA.unmark i, arrB := k.arrB.unmark i }

/-- A capture that is missed: its slot is free again (R264). -/
def Core.loseCapture (k : Core) (i : Nat) : Core := ((k.unmark i).setCapture i .free).missCapture

/-- Counts one load of one array and selects it for capture (R263, R264). -/
def Core.countLoad (k : Core) (l : Load) : Core × Load :=
  let n := k.loadCount
  let k1 := { k with loadCount := n + 1 }
  if bit k.ctrail 63 && decide (n % 2 ^ k.ctrailK = 0) then
    match (List.range k.ctrailSlots).find? fun i => decide (k.capture i = .free) with
    | none => (k1.missCapture, l)
    | some i =>
      let tm : TileMeta :=
        ⟨l.part, l.sub, l.src.fmt, landRows l.src l.trans, landCols l.src l.trans, l.trans, none, l.pc, some i⟩
      (k1.setCapture i (.tile l.arrB .empty (n / 2 ^ k.ctrailK) l.pc tm), { l with slot := some i })
  else (k1, l)

/-- Adds a load to those outstanding. -/
def Core.addLoad (k : Core) (l : Load) : Core :=
  let (k1, l1) := k.countLoad l
  { k1 with ctx := { k1.ctx with loads := k1.ctx.loads ++ [l1] } }

/-- Issues the loads of one instruction (R119). -/
def Core.startLoads (k : Core) (trans : Bool) (ra rb : Option TileRef) (da db sub part : Nat) : Core :=
  let mk (b : Bool) (t : TileRef) (d : Nat) : Load :=
    ⟨b, t, part, sub, trans, k.ctx.pc, none, k.nextLoad, d⟩
  let k1 := match ra with | some t => k.addLoad (mk false t da) | none => k
  let k2 := match rb with | some t => k1.addLoad (mk true t db) | none => k1
  { k2 with nextLoad := k.nextLoad + 1 }

/-- Starts a load that the stall rules let go, or holds it (R119). -/
def State.tryLoad (s : State) (c : Nat) (trans : Bool) (ra rb : Option TileRef) (da db sub part : Nat) : State :=
  if (s.core c).loadBlocked then s.sqHold c .stall (.load trans ra rb da db sub part)
  else (s.modCore c fun k => k.startLoads trans ra rb da db sub part).sqAdvance c

/-- A load held for a plane or for the limit goes on once neither holds it. -/
def State.resumeLoad (s : State) (c : Nat) : State :=
  match (s.core c).ctx.held with
  | .load tr ra rb da db sub part =>
    if (s.core c).loadBlocked || s.sqStopped c then s
    else (s.modCore c fun k => k.startLoads tr ra rb da db sub part).sqAdvance c
  | _ => s

/-- A capture whose tile a later load overwrites before any pass activates it (R264). -/
def Core.dropOverwritten (k : Core) (l : Load) : Core :=
  (List.range 15).foldl (fun k i =>
    match k.capture i with
    | .tile b _ _ _ tm =>
      if b == l.arrB && (k.arr b).shadow.tiles.any (fun m => m.slot == some i)
          && subMeets tm.part tm.sub l.part l.sub then k.loseCapture i else k
    | _ => k) k

/-- The load written into its shadow plane (R70). -/
def State.landLoad (s : State) (c : Nat) (l : Load) : State :=
  s.modCore c fun k0 =>
    let k := k0.dropOverwritten l
    let a := k.arr l.arrB
    let pl := s.landPlane l a.shadow
    let k1 := k.setArr l.arrB { a with shadow := pl }
    match l.slot with
    | none => k1
    | some i =>
      match k1.capture i with
      | .tile b _ seq pc _ => k1.setCapture i (.tile b pl seq pc (s.tileMeta l))
      | _ => k1

/-- The k-th outstanding load completes, once every earlier load of its array has (R70, R186). -/
def State.finishLoad (s : State) (c k : Nat) : State :=
  match (s.core c).ctx.loads[k]? with
  | none => s
  | some l =>
    if ((s.core c).ctx.loads.take k).any fun x => x.arrB == l.arrB then s
    else
      let s0 := s.modCtx c fun x => { x with loads := x.loads.eraseIdx k }
      let (s1, ok) := s0.checkTile (s.core c).job l.src.stored (List.range l.src.stored.rows)
      if ok then s1.landLoad c l
      else
        (s1.modCore c fun q => match l.slot with
          | some i => q.loseCapture i
          | none => q).sqFault c .mem l.pc l.desc

/-- The exchange of the planes and scale taps of both arrays (R71, R74). -/
def ArrayState.swap (a : ArrayState) : ArrayState :=
  { a with active := a.shadow, shadow := { a.active with written := false } }
def Core.swapPlanes (k : Core) : Core := { k with arrA := k.arrA.swap, arrB := k.arrB.swap }

end Sys2Proof.Machine
end

