-- ==== Sys2Proof/Machine/Bind.lean ====
section
/-! DEFINITION. Drain instructions as queued (R116, R117, R123) and their binding to a pass (R122, R123, R241,
R276, R348, R349, R351). -/

namespace Sys2Proof.Machine

/-- Function codes of R94. -/
def funcKnown (f : Nat) : Bool := decide (f ≤ 9) || decide (0x10 ≤ f ∧ f ≤ 0x18)
def funcPaired (f : Nat) : Bool := f == 8 || f == 9 || f == 0x17 || f == 0x18
def funcDeriv (f : Nat) : Bool := decide (0x10 ≤ f ∧ f ≤ 0x18)
/-- DSWIGLU and DGEGLU, which write two outputs (R96). -/
def funcTwoOut (f : Nat) : Bool := f == 0x17 || f == 0x18
/-- Formats of saved pre-activations (R116). -/
def zfmtOk (f : Nat) : Bool := decide (f ≤ 4)

def OutRef.rows : OutRef → Nat
  | .tile t => t.rows
  | .bucket b => b.rows
def OutRef.cols : OutRef → Nat
  | .tile t => t.cols
  | .bucket b => b.cols
def OutRef.isS1 : OutRef → Bool
  | .bucket b => b.fmt == fmtS1
  | _ => false

/-- An output operand of a DRN. With RED any kind is read, and the kind is judged at binding; else FINAL asks for a
TILE in a drain format and its absence for a WIDE (R57, R123). -/
def State.outOperand (s : State) (c i : Nat) (fl : DrnFlags) : Operand OutRef :=
  match (s.core c).checkIndex i with
  | .error e => .error e
  | .ok _ =>
    if fl.red then
      if descKind ((s.core c).descWord i 1) = 2 then (s.bucketOperand c i).map .bucket
      else
        match (s.core c).tileAt i with
        | .error e => .error e
        | .ok t => if s.tileInRange t then .ok (.tile t) else .error (.desc i)
    else if fl.final then (s.tileOperand c i fmtDrain 8192 384).map .tile
    else
      match s.wideOperand c i with
      | .error e => .error e
      | .ok t => if 8192 < t.rows ∨ 384 < t.cols then .error (.desc i) else .ok (.tile t)

/-- Array B's accumulator is merged too: array B has an output of its own, or its v′ enters a paired function. The two
outputs of DSWIGLU and DGEGLU both come from array A's (R94, R96). -/
def usesB (fl : DrnFlags) (outB : Option OutRef) (func : Nat) : Bool :=
  if fl.pair && fl.final then !funcTwoOut func else outB.isSome

/-- The DRAIN descriptor of a DRN with its carry-ins (R116). A format that no saved pre-activation may have is a
descriptor fault whatever FUNC is (R44, R116). -/
def State.drainOperand (s : State) (c d : Nat) (fl : DrnFlags) (outA : OutRef) (outB : Option OutRef) :
    Operand DrainRef :=
  let k := s.core c
  match k.checkIndex d with
  | .error e => .error e
  | .ok _ =>
    let w0 := k.descWord d 0
    let w1 := k.descWord d 1
    let func := fld w1 28 24
    let zfmt := fld w1 11 8
    let za := fld (k.descWord d 2) 47 0
    let zb := fld (k.descWord d 3) 47 0
    let bias := fld w0 47 0
    let colsB := match outB with | some o => o.cols | none => if fl.pair then outA.cols else 0
    let zlen (o : OutRef) := o.rows * o.cols * (fmtBits zfmt / 8)
    let elems := outA.rows * outA.cols + (match outB with | some o => o.rows * o.cols | none => 0)
    let s1 := fl.red && (outA.isS1 || (outB.map OutRef.isS1).getD false)
    let zBad :=
      if !zfmtOk zfmt then true
      else if s1 then !s.jobRange za (2 * elems) || !s.jobRange zb (4 * elems)
      else if fl.final && funcDeriv func then
        !s.jobRange za (zlen outA) ||
          (if funcTwoOut func then !s.jobRange zb (zlen outA)
           else match outB with | some o => !s.jobRange zb (zlen o) | none => false)
      else false
    if descKind w1 ≠ 5 then .error (.desc d)
    else if fl.final && (!funcKnown func || (funcPaired func && !fl.pair)) then .error (.desc d)
    else if fl.final && fl.bias && !s.jobRange bias (4 * (outA.cols + colsB)) then .error (.desc d)
    else if zBad then .error (.desc d)
    else
      let mk (ca cb : Option TileRef) : DrainRef := ⟨bias, func, sext 7 (fld w1 22 16), zfmt, za, zb, ca, cb, fld w1 63 52, fld w1 51 40⟩
      if fl.first then .ok (mk none none)
      else
        match s.wideOperand c (fld w1 63 52) with
        | .error e => .error e
        | .ok ca =>
          if usesB fl outB func then
            match s.wideOperand c (fld w1 51 40) with
            | .error e => .error e
            | .ok cb => .ok (mk (some ca) (some cb))
          else .ok (mk (some ca) none)

/-- A DRN as it is queued, or the fault of its operands (R117, R118, R123). -/
def State.drnOperands (s : State) (c : Nat) (a b dest sub : Nat) (fl : DrnFlags) : Operand PendDrn :=
  match s.outOperand c a fl with
  | .error e => .error e
  | .ok outA =>
    let rb : Operand (Option OutRef) := if b = 0 then .ok none else (s.outOperand c b fl).map some
    match rb with
    | .error e => .error e
    | .ok outB =>
      match s.drainOperand c dest fl outA outB with
      | .error e => .error e
      | .ok dr => .ok ⟨(s.core c).nextDrn, sub, fl, outA, outB, dr, a, b, dest, (s.core c).ctx.pc⟩

/-! Binding. -/

/-- Why a pass does not run: the fault's code and descriptor, and the state with what the reads left. -/
structure BindFault where
  st : State
  code : SqCode
  desc : Nat

abbrev Bound (α : Type) := Except BindFault α

/-- A descriptor fault unless the condition holds. -/
def State.need (s : State) (ok : Bool) (d : Nat) : Bound Unit :=
  if ok then .ok () else .error ⟨s, .desc, d⟩

/-- Mask block of a packet (R241). -/
def maskBlock (cols row group : Nat) : Nat := row / 64 * (cols / 64) + group

/-- Bit n of a mask line. -/
def maskBit (bs : List Byte) (n : Nat) : Bool := ((bs[n / 8]?).getD 0).getLsbD (n % 8)

/-- A packet is suppressed by the binding's mask (R241, R242). -/
def suppressed (mask : Option (List Byte)) (cols row group : Nat) : Bool :=
  match mask with
  | none => false
  | some l => maskBit l (maskBlock cols row group)

/-- Packets of one output row that are not suppressed. -/
def rowPackets (b : BucketRef) (mask : Option (List Byte)) (row : Nat) : Nat :=
  if row < b.rows then ((List.range (b.cols / 64)).filter fun g => !suppressed mask b.cols row g).length else 0

/-- Step of a binding: NUM_STATE.STEP + 1 of the job (R348). -/
def State.bindStep (s : State) (job : Nat) : W32 := BitVec.ofNat 32 (fld (s.bank job).state 63 32 + 1)

/-- LSEXP of NUM_STATE (R269). -/
def NumBank.lsexp (n : NumBank) : Int := sext 8 (fld n.state 31 24)

def clampInt (lo hi v : Int) : Int := max lo (min hi v)

/-- Binding number of a bucket in a step, and the table after one more (R348). -/
def nextBind (l : List (Nat × W32 × Nat)) (bucket : Nat) (step : W32) : Nat × List (Nat × W32 × Nat) :=
  match l.find? fun x => x.1 == bucket && x.2.1 == step with
  | some (_, _, n) => (n, l.map fun x => if x.1 = bucket ∧ x.2.1 = step then (bucket, step, n + 1) else x)
  | none => (0, (l.filter fun x => x.1 != bucket) ++ [(bucket, step, 1)])

/-- A RED binding of one BUCKET (R123, R233, R241, R348, R349, R351). -/
def State.bindBucket (s : State) (c : Nat) (o : OutRef) (idx dD func : Nat) : Bound (State × RedOut) := do
  let k := s.core c
  let job := k.job
  match o with
  | .tile _ => .error ⟨s, .desc, idx⟩
  | .bucket b =>
    s.need (b.fmt == fmtES16 || b.fmt == fmtS1) idx
    s.need (s.flowGranted job b.flow) idx
    s.need (b.fmt != fmtS1 || func == 0) dD
    s.need (decide (fld k.ctx.redstg 63 48 ≠ 0)) idx
    let masked := bit k.ctx.gmask 63
    s.need (!masked || decide (maskBlock b.cols (b.rows - 1) (b.cols / 64 - 1) ≤ 1023)) idx
    let step := s.bindStep job
    let (n, tab) := nextBind k.bindNo (65536 * job + b.bucket) step
    s.need (decide (n < 15)) idx
    let gaddr := fld (s.redSlot job).xtab 47 0 + 16 * b.bucket
    let (s1, ok) := s.checkRange rdSeq job gaddr 16
    if ok = false then .error ⟨s1, .mem, idx⟩
    else
      let maddr := fld k.ctx.gmask 47 0 + 128 * b.bucket
      let (s2, ok2) := if masked then s1.checkRange rdSeq job maddr 128 else (s1, true)
      if ok2 = false then .error ⟨s2, .mem, idx⟩
      else
        let e := clampInt (-128) 127 (sext 8 (s2.peek (gaddr + 8)).toNat + (s2.bank job).lsexp)
        let mask := if masked then some (s2.bytes maddr 128) else none
        let left := ((List.range b.rows).map (rowPackets b mask)).sum
        .ok (s2.modCore c fun q => { q with bindNo := tab },
          { exp := e, slice := 16 * c + n, step := step, mask := mask, left := left, thr := (s.pcore c).thr })

/-- Extents of an output within its pass and sub-array, and of a carry-in with its output (R117, R123). -/
def State.bindShape (s : State) (o : OutRef) (cin : Option TileRef) (m cols idx ci : Nat) : Bound Unit := do
  s.need (decide (o.rows ≤ m ∧ o.cols ≤ cols)) idx
  match cin with
  | none => .ok ()
  | some t => s.need (decide (t.rows = o.rows ∧ t.cols = o.cols)) ci

/-- Conditions of a DRN bound to an ATS (R276): it writes both arrays' row maxima (R280). -/
def State.bindAts (s : State) (p : PendDrn) (m : Nat) : Bound Unit := do
  let okOut : OutRef → Bool := fun o => match o with
    | .tile t => !t.wide && (t.fmt == fmtF32 || t.fmt == fmtD16)
    | _ => false
  s.need (p.flags.first && p.flags.final && !p.flags.red && !p.flags.pair && p.drain.func == 0) p.dD
  s.need (okOut p.outA) p.dA
  s.need ((p.outB.map okOut).getD true) p.dB
  s.need (s.jobRange p.drain.za (4 * m) && s.jobRange p.drain.zb (4 * m)) p.dD

/-- Shapes of the tiles a pass will use in a sub-array, newest. -/
def shapeOf (l : List TileMeta) (p sub : Nat) : Option (Nat × Nat) :=
  ((l.filter fun m => subMeets m.part m.sub p sub).getLast?).map fun m => (m.rows, m.cols)

/-- Binds one pending DRN to a pass (R122, R123). -/
def State.bindDrn (s : State) (c : Nat) (kind : PassKind) (part m : Nat) (ta tb : List TileMeta) (p : PendDrn) :
    Bound (State × Binding) := do
  let f := p.flags
  s.need (f.final || !(f.red || f.bias || f.pair)) p.dD
  s.need (!f.pair || (funcPaired p.drain.func && (p.outB.isSome == funcTwoOut p.drain.func))) p.dD
  s.need (!f.pair || (shapeOf ta part p.sub == shapeOf tb part p.sub)) p.dD
  s.bindShape p.outA p.drain.cina m (groupCols part) p.dA p.drain.iA
  match p.outB with
  | some o => s.bindShape o p.drain.cinb m (groupCols part) p.dB p.drain.iB
  | none => s.bindShape p.outA p.drain.cinb m (groupCols part) p.dA p.drain.iB
  if kind = .ats then s.bindAts p m else pure ()
  if f.red then
    let (s1, ra) ← s.bindBucket c p.outA p.dA p.dD p.drain.func
    match p.outB with
    | none => .ok (s1, ⟨p, some ra, none, none, none⟩)
    | some o =>
      let (s2, rb) ← s1.bindBucket c o p.dB p.dD p.drain.func
      .ok (s2, ⟨p, some ra, some rb, none, none⟩)
  else .ok (s, ⟨p, none, none, none, none⟩)

/-- Binds DRNs in order of SUB. -/
def State.bindAll (s : State) (c : Nat) (kind : PassKind) (part m : Nat) (ta tb : List TileMeta) :
    List PendDrn → Bound (State × List Binding)
  | [] => .ok (s, [])
  | p :: t => do
    let (s1, b) ← s.bindDrn c kind part m ta tb p
    let (s2, bs) ← State.bindAll s1 c kind part m ta tb t
    .ok (s2, b :: bs)

/-- The oldest pending DRN of each sub-array a partition defines, and the queue without them; none where a
sub-array has no DRN (R122). -/
def takeDrns : List Nat → List PendDrn → Option (List PendDrn × List PendDrn)
  | [], q => some ([], q)
  | sub :: t, q =>
    match q.find? fun p => p.sub == sub with
    | none => none
    | some p =>
      match takeDrns t (q.erase p) with
      | none => none
      | some (l, r) => some (p :: l, r)

end Sys2Proof.Machine
end

