-- ==== Sys2Proof/Machine/Passes.lean ====
section
/-! DEFINITION. Passes: dispatch of the four pass-starting instructions (R121, R122, R276 to R282, R304), the
prescan (R77), the issue and the array origin (R71 to R73, R121), rows entering the arrays (R78, R80, R234, R279)
and Contrail's capture of a row (R263, R265). -/

namespace Sys2Proof.Machine

/-! Attention masks (R271 to R279). -/

def tokenOf (w : W64) : TokenMeta := ⟨bit w 48, fld w 47 32, fld w 31 0⟩
def TokenMeta.padding (t : TokenMeta) : Bool := t.seg == 0xFFFF

/-- `n` metadata entries from an address. -/
def State.tokens (s : State) (a n : Nat) : List TokenMeta :=
  (List.range n).map fun i => tokenOf (s.word64 (a + 8 * i))

/-- The mask rule (R272). -/
def AtsInfo.visible (x : AtsInfo) (i j : TokenMeta) : Bool :=
  if i.padding || i.seg != j.seg then false
  else if i.pos < j.pos then false
  else if !x.wen then true
  else if i.pos - j.pos < x.win then true
  else x.gen && (i.glob || j.glob)

/-- Consecutive groups of `n`. -/
def groupsOf {α : Type} (n : Nat) : List α → Nat → List (List α)
  | _, 0 => []
  | [], _ + 1 => []
  | l, k + 1 => l.take n :: groupsOf n (l.drop n) k

def minPos (l : List TokenMeta) : Nat := l.foldl (fun a t => min a t.pos) 0xFFFFFFFF
def maxPos (l : List TokenMeta) : Nat := l.foldl (fun a t => max a t.pos) 0
/-- The one segment of a group, none where two differ. -/
def uniformSeg : List TokenMeta → Option Nat
  | [] => none
  | t :: r => if r.all fun u => u.seg == t.seg then some t.seg else none

/-- A block is skipped (R278). -/
def AtsInfo.skips (x : AtsInfo) (qg kg : List TokenMeta) : Bool :=
  let q := qg.filter fun t => !t.padding
  let k := kg.filter fun t => !t.padding
  if q.isEmpty || k.isEmpty then true
  else
    let segs := match uniformSeg q, uniformSeg k with
      | some a, some b => a != b
      | _, _ => false
    let later := decide (maxPos q < minPos k)
    let globs := x.gen && ((q.any TokenMeta.glob) || (k.any TokenMeta.glob))
    let far := x.wen && !globs && decide (maxPos k + x.win ≤ minPos q)
    segs || later || far

/-- For each query group, how many of its twelve blocks are skipped (R278). -/
def AtsInfo.skipCounts (x : AtsInfo) : List Nat :=
  let kgs := groupsOf 64 x.ka 6 ++ groupsOf 64 x.kb 6
  (groupsOf 64 x.q 128).map fun g => (kgs.filter fun k => x.skips g k).length

/-- Rows of the groups whose bit is set (R279, R281). -/
def groupRows (m : Nat) (gs : List Bool) : List Nat :=
  (List.range m).filter fun r => (gs[r / 64]?).getD false

/-- The MASK operand of an ATS (R275, R276): the metadata it names, checked and read. -/
def State.maskOperand (s : State) (c i m : Nat) : Bound (State × AtsInfo) := do
  let k := s.core c
  match k.checkIndex i with
  | .error e => .error ⟨s, e.code, e.index⟩
  | .ok _ =>
    let w1 := k.descWord i 1
    let qa : Int := (fld (k.descWord i 0) 47 0 : Nat) + 8 * k.ctx.step0 (k.descWord i 3)
    let ka : Int := (fld (k.descWord i 2) 47 0 : Nat) + 8 * k.ctx.step1 (k.descWord i 3)
    let win := fld w1 46 32
    let wen := bit w1 10
    s.need (descKind w1 == 3) i
    s.need (!wen || decide (1 ≤ win ∧ win ≤ 16384)) i
    s.need (decide (0 ≤ qa ∧ qa % 8 = 0 ∧ 0 ≤ ka ∧ ka % 8 = 0)) i
    s.need (s.jobRange qa.toNat (8 * m) && s.jobRange ka.toNat 6144) i
    let (s1, ok1) := s.checkRange rdSeq k.job qa.toNat (8 * m)
    let (s2, ok2) := s1.checkRange rdSeq k.job ka.toNat 6144
    if ok1 && ok2 then
      let keys := s2.tokens ka.toNat 768
      .ok (s2, ⟨win, bit w1 12, bit w1 11, wen, s2.tokens qa.toNat m, keys.take 384, keys.drop 384⟩)
    else .error ⟨s2, .mem, i⟩

/-! Operands of a pass. -/

/-- Tiles of an array's shadow plane once its outstanding loads have landed. -/
def Core.tilesAfterLoads (k : Core) (b : Bool) : List TileMeta :=
  (k.ctx.loads.filter fun l => l.arrB == b).foldl (fun ts l =>
    (ts.filter fun m => !subWithin m.part m.sub l.part l.sub) ++
      [⟨l.part, l.sub, l.src.fmt, landRows l.src l.trans, landCols l.src l.trans, l.trans, none, l.pc, l.slot⟩])
    (k.arr b).shadow.tiles

/-- Tiles a pass dispatched now will find active, with the swaps still to come (R71, R122). -/
def Core.futureTiles (k : Core) (b swap : Bool) : List TileMeta :=
  if ((k.ctx.passes.filter Pass.toSwap).length + b2n swap) % 2 = 1 then k.tilesAfterLoads b
  else (k.arr b).active.tiles

/-- r of a pass (R58, R66): the smallest over the operand pairs of both arrays. -/
def passRate (fmt : Nat) (tiles : List TileMeta) : Nat :=
  tiles.foldl (fun r m => min r (pairRate fmt m.fmt)) (rateOf fmt)

/-- What dispatch finds of the activation operand. -/
structure ActOperand where
  act : TileRef
  pages : List Nat
  rowb : Nat
  col0 : Nat
  window : Nat

/-- Bytes [a, a + n) of core c's own core buffer. -/
def inOwnBuffer (c a n : Nat) : Bool := decide (cbufBase c ≤ a ∧ a + n ≤ cbufBase c + cbufSize)

/-- Every row of a tile, and its scales, lie in core c's own buffer (R67, R197). -/
def tileInOwn (c : Nat) (t : TileRef) : Bool :=
  (List.range t.rows).all fun r =>
    inOwnBuffer c (t.base + r * t.pitch) t.rowBytes &&
      (!fmtMx t.fmt || inOwnBuffer c (t.scale + r * (t.pitch / blockBytes t.fmt)) (ceilDiv t.cols 32))

/-- The activation tile of a JET, ATS or ATV (R117), with the rate its format allows. The jet stream reads only its own
core's buffer (R67, R197): a tile elsewhere is refused as a descriptor fault, for which the manual names no outcome
(DESIGN CHOICE, log 74). -/
def State.actOperand (s : State) (c i m : Nat) (tiles : List TileMeta) : Bound (ActOperand × Nat) := do
  match (s.core c).tileAt i with
  | .error e => .error ⟨s, e.code, e.index⟩
  | .ok t =>
    let r := passRate t.fmt tiles
    s.need (!t.wide && fmtArray t.fmt && decide (t.rows ≤ m ∧ t.cols ≤ 384 * r) && tileInOwn c t) i
    .ok (⟨t, [], 0, 0, 0⟩, r)

/-- Formats of a page (R297). -/
def fmtPage (f : Nat) : Bool := f == 0 || f == 1 || f == 3 || f == 4

/-- The PAGES operand of an ATX (R304). -/
def State.pagesOperand (s : State) (c i m : Nat) (tiles : List TileMeta) : Bound (State × ActOperand × Nat) := do
  let k := s.core c
  match k.checkIndex i with
  | .error e => .error ⟨s, e.code, e.index⟩
  | .ok _ =>
    let w1 := k.descWord i 1
    let w2 := k.descWord i 2
    let list : Int := (fld (k.descWord i 0) 47 0 : Nat) + 4 * k.ctx.step0 (k.descWord i 3)
    let col0 : Int := (fld w1 25 12 : Nat) + k.ctx.step1 (k.descWord i 3)
    let rowb := fld w1 63 40
    let ncol := fld w1 39 26
    let fmt := fld w1 11 8
    let npg := fld w2 63 56
    let win := fld w2 47 0
    let r := passRate fmt tiles
    let es := fmtBits fmt / 8
    s.need (descKind w1 == 4) i
    s.need (fmtPage fmt && s.kvp.en && decide (1 ≤ npg ∧ npg ≤ 128)) i
    s.need (decide (0 ≤ list ∧ list % 4 = 0 ∧ 0 ≤ col0 ∧ rowb % 128 = 0)) i
    s.need (decide (1 ≤ ncol ∧ ncol ≤ 384 * r ∧ (col0.toNat + ncol) * es ≤ rowb ∧ m ≤ 64 * npg)) i
    s.need (decide (win % 128 = 0 ∧ cbufBase c ≤ win ∧ win + 98304 ≤ cbufBase c + cbufSize)) i
    s.need (s.jobRange list.toNat (4 * npg)) i
    let (s1, ok) := s.checkRange rdSeq k.job list.toNat (4 * npg)
    if ok = false then .error ⟨s1, .mem, i⟩
    else
      let nums := (List.range npg).map fun p => (s1.word32 (list.toNat + 4 * p)).toNat % 2 ^ 22
      s.need (nums.all fun n => decide (n < fld s.kvp.geom 41 20)) i
      let slot := fld s.kvp.geom 11 0 * 128
      let pages := nums.map fun n => fld s.kvp.pool 47 0 + n * slot
      .ok (s1, ⟨⟨false, 0, rowb, m, ncol, fmt, 0, 0⟩, pages, rowb, col0.toNat, win⟩, r)

/-! The activation row as it streams. -/

/-- Address of row m of a pass's activation operand, and where its scales lie. -/
def PassOps.rowAddr (o : PassOps) (m : Nat) : Nat :=
  if o.kind = .atx then (o.pages[m / 64]?).getD 0 + m % 64 * o.rowb + o.col0 * (fmtBits o.act.fmt / 8)
  else o.act.base + m * o.act.pitch
def PassOps.scaleAddr (o : PassOps) (m : Nat) : Nat :=
  o.act.scale + m * (o.act.pitch / blockBytes o.act.fmt)

/-- Row m as a tile of one row. -/
def PassOps.rowTile (o : PassOps) (m : Nat) : TileRef :=
  { o.act with base := o.rowAddr m, rows := if m < o.act.rows then 1 else 0, scale := o.scaleAddr m }

/-- Row m where the jet stream reads it: its place in the page window for an ATX, else the tile's own row (R305). -/
def PassOps.streamTile (o : PassOps) (m : Nat) : TileRef :=
  if o.kind = .atx then { o.rowTile m with base := o.window + m % 128 * 768 } else o.rowTile m

/-- Elements of a one-row tile that are not zero, by index. A zero of either sign contributes alike (R79). -/
def State.rowElems (s : State) (t : TileRef) : List (Nat × FVal) :=
  if t.rows = 0 then []
  else ((List.range t.cols).map fun i => (i, s.elemVal t 0 i)).filter fun q =>
    match q.2 with | .fin _ m _ => m != 0 | _ => true

/-- Row m as the prescan reads it, and as the stream does. -/
def State.actRow (s : State) (o : PassOps) (m : Nat) : List (Nat × FVal) := s.rowElems (o.rowTile m)
def State.streamRow (s : State) (o : PassOps) (m : Nat) : List (Nat × FVal) := s.rowElems (o.streamTile m)

/-- Elements of a band's lanes: those of its PE rows (R67, R91). -/
def bandPart (p band : Nat) (row : List (Nat × FVal)) : List (Nat × FVal) :=
  row.filter fun q => q.1 % 384 / bandRows p == band

/-- Reads the lines of the streamed rows. -/
def State.checkRows (s : State) (slot : Nat) (o : PassOps) (rows : List Nat) : State × Bool :=
  rows.foldl (fun (acc : State × Bool) m =>
    let (s1, ok) := acc.1.checkTile slot (o.rowTile m) [0]
    (s1, acc.2 && ok)) (s, true)

/-! Dispatch (R121, R122). -/

/-- Every earlier pass has entered whole. -/
def Pass.entering (p : Pass) : Bool := p.framesA.isEmpty || decide (p.entered < p.ops.rows.length)
def SqCtx.waiting (x : SqCtx) : Bool := x.passes.any fun p => !p.issued

/-- The ATS group vector a dispatched ATS latches (R281, R295). -/
def latchAts (m : Nat) (x : AtsInfo) (k : Core) : Core :=
  let counts := x.skipCounts
  { k with ctx := { k.ctx with atsValid := true, atsM := m, atsGroups := counts.map fun n => decide (n < 12),
                               atsSkipBlk := counts.sum } }

/-- The operands of a pass as dispatch fixes them. -/
def State.passOperands (s : State) (c : Nat) (kind : PassKind) (a mask part m : Nat) (swap : Bool) :
    Bound (State × PassOps) := do
  let k := s.core c
  let ta := k.futureTiles false swap
  let tb := k.futureTiles true swap
  let tiles := ta ++ tb
  s.need (kind == .jet || part == 0) a
  let fits (r : Nat) : Bool := tiles.all fun t => decide (t.rows ≤ bandRows t.part * r)
  let samePart := [ta, tb].all fun l => match l.getLast? with | some t => t.part == part | none => true
  match kind with
  | .atx =>
    let (s1, x, r) ← s.pagesOperand c a m tiles
    s.need (fits r && (!swap || samePart)) a
    .ok (s1, ⟨kind, part, swap, m, r, x.act, x.pages, x.rowb, x.col0, x.window, none, List.range m, k.ctx.pc⟩)
  | .ats =>
    let (x, r) ← s.actOperand c a m tiles
    s.need (fits r && (!swap || samePart)) a
    let (s1, i) ← s.maskOperand c mask m
    let rows := groupRows m (i.skipCounts.map fun n => decide (n < 12))
    .ok (s1, ⟨kind, part, swap, m, r, x.act, [], 0, 0, 0, some i, rows, k.ctx.pc⟩)
  | .atv =>
    let (x, r) ← s.actOperand c a m tiles
    s.need (fits r && (!swap || samePart)) a
    s.need (k.ctx.atsValid && k.ctx.atsM == m) a
    .ok (s, ⟨kind, part, swap, m, r, x.act, [], 0, 0, 0, none, groupRows m k.ctx.atsGroups, k.ctx.pc⟩)
  | .jet =>
    let (x, r) ← s.actOperand c a m tiles
    s.need (fits r && (!swap || samePart)) a
    .ok (s, ⟨kind, part, swap, m, r, x.act, [], 0, 0, 0, none, List.range m, k.ctx.pc⟩)

/-- A line of row j could not be read: a MEM fault against the pass-starting instruction, and no row from j on streams
(R186). The rows before it go on to the drain (DESIGN CHOICE, log 75). -/
def State.rowFault (s : State) (c n j : Nat) (p : Pass) : State :=
  (s.modCtx c fun x => { x with passes := x.passes.set n { p with ops := { p.ops with rows := p.ops.rows.take j } } }).sqFault
    c .mem p.ops.pc 0

/-- The page reader copies the next row of an ATX from its page into the window, zeros after it (R305). -/
def State.copyPageRow (s : State) (c n m : Nat) (p : Pass) : State :=
  let (s1, ok) := s.checkTile (s.core c).job (p.ops.rowTile m) [0]
  if ok then
    let bs := s1.bytes (p.ops.rowAddr m) p.ops.act.rowBytes
    (s1.writeDone (p.ops.window + m % 128 * 768) (bs ++ List.replicate (768 - bs.length) 0)).modCtx c fun x =>
      { x with passes := x.passes.set n { p with copied := p.copied + 1 } }
  else s1.rowFault c n p.copied p

/-- The page reader goes on until it is 128 rows ahead of the stream. -/
def State.readPages (s : State) (c n : Nat) : Nat → State
  | 0 => s
  | fuel + 1 =>
    match (s.core c).ctx.passes[n]? with
    | none => s
    | some p =>
      match p.ops.rows[p.copied]? with
      | none => s
      | some m =>
        if p.ops.kind = .atx ∧ p.copied < p.entered + 128 then State.readPages (s.copyPageRow c n m p) c n fuel else s

/-- A pass issues (R121): counted, and its time kept for a capture. An ATX's page reader starts (R305). -/
def State.issuePass (s : State) (c : Nat) : State :=
  let n := (s.core c).ctx.passes.findIdx fun p => !p.issued
  ((s.modCtx c fun x => { x with passes := x.passes.modify n fun p =>
      { p with issued := true, issueNow := s.mer.now } }).bump (cntMc c 4)).readPages c n 128

def Pass.new (o : PassOps) (bs : List Binding) : Pass :=
  { ops := o, binds := bs, ua := none, framesA := [], framesB := [], issued := false, entered := 0, copied := 0,
    chains := [], done := [], mx := [], maxes := [], issueNow := 0 }

/-- Dispatches a pass: its operands are checked, its DRNs bound, and its prescan starts; it issues at once where
every earlier pass has entered whole (R121, R122). -/
def State.dispatchPass (s : State) (c : Nat) (kind : PassKind) (a mask part m : Nat) (swap : Bool) : State :=
  let k := s.core c
  match s.passOperands c kind a mask part m swap with
  | .error f => f.st.sqFault c f.code k.ctx.pc f.desc
  | .ok (s1, o) =>
    match takeDrns (List.range (partSubs part)) k.ctx.drnq with
    | none => s.sqFault c .drain k.ctx.pc 0
    | some (drns, rest) =>
      match s1.bindAll c kind part m (k.futureTiles false swap) (k.futureTiles true swap) drns with
      | .error f => f.st.sqFault c f.code k.ctx.pc f.desc
      | .ok (s2, bs) =>
        let s3 := (s2.modCore c fun q =>
          let q1 := match o.ats with | some i => latchAts m i q | none => q
          { q1 with ctx := { q1.ctx with drnq := rest, passes := q1.ctx.passes ++ [Pass.new o bs] } })
        let s4 := match o.ats with
          | some i =>
            let n := i.skipCounts
            ((s3.bumpBy (cntMc c 5) n.sum).bumpBy (cntMc c 6) (n.filter fun x => decide (x < 12)).length).bumpBy
              (cntMc c 7) (n.filter fun x => decide (12 ≤ x)).length
          | none => s3
        let s5 := s4.sqAdvance c
        if k.ctx.passes.any Pass.entering then s5 else s5.issuePass c

/-! Entering the arrays. -/

/-- Chain keys: array, sub-array, row, column. -/
def chainKey (arrB : Bool) (sub row col : Nat) : Nat := (b2n arrB * 16 + sub) * 2 ^ 24 + row * 384 + col

/-- The drain writes any output of the pass (R437 may have taken them away). -/
def Pass.hasOutputs (p : Pass) : Bool := !p.binds.isEmpty && !p.ops.rows.isEmpty

/-- Packets a row will produce for a binding, over both arrays (R234). -/
def Binding.rowSlots (b : Binding) (row : Nat) : Nat :=
  let one (o : Option OutRef) (r : Option RedOut) : Nat :=
    match o, r with
    | some (.bucket bk), some x => rowPackets bk x.mask row
    | _, _ => 0
  one (some b.drn.outA) b.redA + one b.drn.outB b.redB

/-- Packets a row will produce, over both arrays and every sub-array. -/
def Pass.rowSlots (p : Pass) (row : Nat) : Nat := (p.binds.map fun b => b.rowSlots row).sum

/-- Slots of the staging region, and those reserved or holding packets (R233, R243). -/
def Core.redSlots (k : Core) : Nat := fld k.ctx.redstg 63 48 * 64
def Core.redUsed (k : Core) : Nat := k.reserved + k.staged.length

/-- A value lies above a prescanned bound. -/
def aboveBound (ua : Option Int) (v : FVal) : Bool :=
  match v.lead, ua with
  | some l, some u => decide (u < l + 1)
  | some _, none => true
  | none, _ => false

/-- A streamed element above its prescanned bound streams as NaN (R80). -/
def guardRow (ua : Option Int) (row : List (Nat × FVal)) : List (Nat × FVal) × Bool :=
  (row.map fun q => if aboveBound ua q.2 then (q.1, .nan) else q, row.any fun q => aboveBound ua q.2)

/-- Indices of a row's elements that so stream as NaN. -/
def Pass.guarded (p : Pass) (row : List (Nat × FVal)) : List Nat :=
  (List.range (partBands p.ops.part)).flatMap fun b =>
    ((bandPart p.ops.part b row).filter fun q => aboveBound (((p.ua.getD [])[b]?).getD none) q.2).map (·.1)

/-- A row's bytes with the format's NaN at the indices given (R265). A format without one leaves the code open (DESIGN
CHOICE, log 81). -/
def nanCodes (f : Nat) (bs : List Byte) (idx : List Nat) : List Byte :=
  let w := fmtBits f
  toLe bs.length (idx.foldl (fun v i =>
    let old := v / 2 ^ (i * w) % 2 ^ w
    let code := (((fmtSpec f).bind (·.nanCode)).getD (Config.guardCode f old)) % 2 ^ w
    v + code * 2 ^ (i * w) - old * 2 ^ (i * w)) (leNat bs))

/-- Chain words of one row in one sub-array of one array, of the columns where they are not zero. -/
def rowChains (pl : Plane) (frame : Option Int) (part sub r : Nat) (acts : List (Nat × FVal)) :
    List (Nat × ChainWord × Bool) :=
  let ws := pl.weights part sub r
  let g0 := subGroup part sub * groupCols part
  let cols := (List.range (groupCols part)).filter fun n =>
    (acts.any fun a => !a.2.isFinite) || ws.any fun w => w.1 == g0 + n
  cols.map fun n =>
    let (w, lost) := columnChain frame acts ((ws.filter fun w => w.1 == g0 + n).map (·.2))
    (n, w, lost)

/-- One array's part of a row's entry: its chain words added to the pass's. -/
def enterArray (pl : Plane) (arrB : Bool) (o : PassOps) (frames : List (Option Int)) (m : Nat)
    (acts : Nat → List (Nat × FVal)) (acc : SMap ChainWord × Bool) : SMap ChainWord × Bool :=
  (List.range (partSubs o.part)).foldl (fun acc sub =>
    let frame := (frames[sub]?).getD none
    (rowChains pl frame o.part sub o.r (acts (subBand o.part sub))).foldl (fun acc q =>
      (SMap.set ChainWord.zero acc.1 (chainKey arrB sub m q.1) q.2.1, acc.2 || q.2.2)) acc) acc

/-! Contrail (R263 to R265). -/

/-- Cuts [a, a + n), both multiples of 4 KiB, from what is listed of memory: every byte reads 0 again and every
line is good, as after whole-line writes. -/
def State.zeroGranules (s : State) (a n : Nat) : State :=
  let inR (x : Nat) : Bool := decide (a ≤ x ∧ x < a + n)
  let s1 := s.modMem fun m =>
    { m with cells := m.cells.filter (fun q => !inR q.1), lines := m.lines.filter (fun q => !inR q.1),
             wcb := (m.wcb.map fun q => (q.1, q.2.filter fun w => !inR w.line)).filter fun q => !q.2.isEmpty
             held := m.held.filter fun h => !inR h.1
             resv := m.resv.filter fun r => match r.2 with | some l => !inR l | none => true }
  (List.range (n / 4096)).foldl (fun t i => t.countPort (a + 4096 * i) 1 32) s1

/-- A plane row packed as R265 lays it out: element (n, s) at bit position (n r + s) w. -/
def packPlaneRow (pl : Plane) (part sub k f : Nat) : List Byte :=
  let r := rateOf f
  let v := pl.pes.foldl (fun (acc : Nat) q =>
    if q.1 / 384 = k ∧ inSub part sub k (q.1 % 384) = true then
      (List.range r).foldl (fun a lane =>
        a + q.2.toNat / 2 ^ (laneBits f * lane) % 2 ^ fmtBits f * 2 ^ ((q.1 % 384 * r + lane) * fmtBits f)) acc
    else acc) 0
  toLe (384 * r * fmtBits f / 8) v

/-- Stores bytes that are not zero, over zeroed memory. -/
def State.pokeNonzero (s : State) (a : Nat) (bs : List Byte) : State :=
  if bs.all (fun b => b == 0) then s else s.poke a bs

/-- Writes a capture slot (R265) and keeps what the recompute reads; `bad` gives the elements that streamed as NaN.
Nothing is written where a smaller carve-out has left the slot outside (R270). -/
def State.writeCapture (s : State) (c i : Nat) (p : Pass) (arrB : Bool) (pl : Plane) (seq pcLoad : Nat)
    (tm : TileMeta) (m : Nat) (bad : List Nat) : State :=
  let k := s.core c
  let o := p.ops
  let fs := if arrB then p.framesB else p.framesA
  let frame := (fs[tm.sub]?).getD none
  let base := fld k.cbase 47 0 + 0x50000 * i
  let rowBs := if m < o.act.rows then
      nanCodes o.act.fmt (s.bytes (o.streamTile m).base o.act.rowBytes) bad else []
  let scales := if fmtMx o.act.fmt && decide (m < o.act.rows) then s.bytes (o.scaleAddr m) (ceilDiv o.act.cols 32)
    else []
  let ins := s.instOn c
  let chains := (List.range 384).map fun n =>
    if n / groupCols tm.part = subGroup tm.part tm.sub then
      SMap.get ChainWord.zero p.chains (chainKey arrB tm.sub m (n % groupCols tm.part))
    else ChainWord.zero
  let cm := (k.arr arrB).retired
  let words : List W64 :=
    [ p.issueNow,
      w64 (at' k.job 57 + at' (b2n arrB) 56 + at' tm.sub 52 + at' tm.part 49 + at' (b2n tm.trans) 48
        + at' o.act.fmt 44 + at' tm.fmt 40 + seq % 2 ^ 32),
      w64 (at' (match frame with | none => 0x8000 | some f => wrapN 16 f) 48 + at' (o.m % 65536) 32 + m),
      w64 (at' o.pc 32 + pcLoad),
      w64 (at' ((ins.map fun x => x.no % 2 ^ 32).getD 0) 32 + (s.tagOn c).toNat) ]
  let cmw := (k.arr arrB).colmap
  let s1 := s.zeroGranules base 0x4E000
  let s2 := s1.pokeNonzero base ((words ++ [cmw]).flatMap w64Bytes)
  let s3 := (s2.pokeNonzero (base + 0x40) rowBs).pokeNonzero (base + 0x340) scales
  let s4 := (List.range 384).foldl (fun t n =>
    match chains[n]? with
    | some w => t.pokeNonzero (base + 0x400 + 8 * n) (w64Bytes (w64 (at' w.tag.code 48 + wrapN 48 w.s)))
    | none => t) s3
  let s5 := ((pl.pes.map fun q => q.1 / 384).eraseDups).foldl (fun t kr =>
    t.pokeNonzero (base + 0x1000 + 768 * kr) (packPlaneRow pl tm.part tm.sub kr tm.fmt)) s4
  let r := rateOf tm.fmt
  let s6 := pl.taps.foldl (fun t q =>
    let n := q.1 / 48
    let j := q.1 % 48 / 4
    if fmtMx tm.fmt && inSub tm.part tm.sub (32 * j) n then
      t.pokeNonzero (base + 0x49000 + (12 * n + j) * r + q.1 % 4) [q.2]
    else t) s5
  (if s.slotsFit (fld k.cbase 47 0) (i + 1) then s6 else s).modCore c fun q =>
    { (q.unmark i).setCapture i (.full arrB pl seq tm rowBs scales o.act.fmt o.r tm.part frame chains (words ++ [cmw]) cm) with
      csamp := cntAdd q.csamp 1 }

/-- Captures that await row m of this pass: slot, array, plane, SEQ, load's PC, tile. -/
def Core.dueCaptures (k : Core) (p : Pass) (m : Nat) : List (Nat × Bool × Plane × Nat × Nat × TileMeta) :=
  (List.range 15).filterMap fun i =>
    match k.capture i with
    | .tile b pl seq pc tm =>
      if p.ops.swap && (k.arr b).active.tiles.any (fun t => t.slot == some i) && seq % p.ops.m == m then
        some (i, b, pl, seq, pc, tm)
      else none
    | _ => none

def State.captureRow (s : State) (c : Nat) (p : Pass) (m : Nat) (bad : List Nat) : State :=
  ((s.core c).dueCaptures p m).foldl (fun t q =>
    t.writeCapture c q.1 p q.2.1 q.2.2.1 q.2.2.2.1 q.2.2.2.2.1 q.2.2.2.2.2 m bad) s

/-- Captures of tiles this pass made active whose row does not stream are missed. -/
def Core.missUnstreamed (k : Core) (p : Pass) : Core :=
  (List.range 15).foldl (fun k i =>
    match k.capture i with
    | .tile b _ seq _ _ =>
      if p.ops.swap && (k.arr b).active.tiles.any (fun t => t.slot == some i)
          && !p.ops.rows.contains (seq % p.ops.m) then k.loseCapture i else k
    | _ => k) k

/-! Streaming. -/

/-- Replaces pass number n of a core. -/
def State.setPass (s : State) (c n : Nat) (p : Pass) : State :=
  s.modCtx c fun x => { x with passes := x.passes.set n p }

/-- A row that could be read enters both arrays (R67, R68). -/
def State.streamIn (s : State) (c n : Nat) (p : Pass) (m : Nat) : State :=
  let k := s.core c
  let o := p.ops
  let row := s.streamRow o m
  let guarded := (List.range (partBands o.part)).map fun b =>
    guardRow (((p.ua.getD [])[b]?).getD none) (bandPart o.part b row)
  let acts (b : Nat) : List (Nat × FVal) := ((guarded[b]?).map (·.1)).getD []
  let frameEvt := guarded.any (·.2)
  let (ch1, lostA) := enterArray k.arrA.active false o p.framesA m acts (p.chains, false)
  let (ch2, lost) := enterArray k.arrB.active true o p.framesB m acts (ch1, lostA)
  let need := p.rowSlots m
  let p1 := { p with chains := ch2, entered := p.entered + 1 }
  let s1 := s.modCore c fun q =>
    let q1 := (q.eventIf frameEvt 4).eventIf lost 2
    { q1 with reserved := q1.reserved + need, ctx := { q1.ctx with passes := q1.ctx.passes.set n p1 },
              retired := q1.retired + (if p.hasOutputs then 2 else 0),
              wasted := q1.wasted + (if p.hasOutputs then 0 else 2) }
  let s2 := s1.bumpBy (cntMc c (if p.hasOutputs then 0 else 1)) 2
  s2.captureRow c p1 m (p.guarded row)

/-- The next streamed row, m, of pass n: the stream reads its lines a second time (R77, R186). -/
def State.enterRow (s : State) (c n : Nat) (p : Pass) (m : Nat) : State :=
  let (s1, ok) := s.checkTile (s.core c).job (p.ops.streamTile m) [0]
  if ok then (s1.streamIn c n p m).readPages c n 1 else s1.rowFault c n p.entered p

/-- Rows of pass n enter while the staging region has the slots they need; a row that must wait sets GATE (R234). -/
def State.enterRows (s : State) (c n : Nat) : Nat → State
  | 0 => s
  | fuel + 1 =>
    match (s.core c).ctx.passes[n]? with
    | none => s
    | some p =>
      match p.ops.rows[p.entered]? with
      | none => s
      | some m =>
        let k := s.core c
        if k.redUsed + p.rowSlots m ≤ k.redSlots ∨ p.rowSlots m = 0 then
          State.enterRows (s.enterRow c n p m) c n fuel
        else s.modCore c fun q => { q with gate := true }

/-- Frames of one array at the origin (R76). -/
def originFrames (pl : Plane) (o : PassOps) (ua : List (Option Int)) : List (Option Int) :=
  (List.range (partSubs o.part)).map fun sub =>
    tileFrame ((ua[subBand o.part sub]?).getD none) (pl.uw o.part sub) o.r

/-! Drain writes on their way (R124, R207). -/

/-- Adds bytes of DRN `no` at an offset of a line to the write that gathers them. Writes stand in the order of their
DRNs, so that of two to one line the later DRN's is performed last. -/
def joinLine (line no off : Nat) (bs : List Byte) : List DrainWrite → List DrainWrite
  | [] => [.line line no (mergeBytes [] off bs)]
  | w :: t =>
    match w with
    | .line l n m =>
      if l = line ∧ n = no then .line l n (mergeBytes m off bs) :: t
      else if no < n then .line line no (mergeBytes [] off bs) :: w :: t
      else w :: joinLine line no off bs t
    | .packet _ => w :: joinLine line no off bs t

/-- Adds bytes of DRN `no` at an address, each line's part to its own write. Lines go by their canonical address
(R179). -/
def addBytes (ws : List DrainWrite) (no a : Nat) (bs : List Byte) : List DrainWrite :=
  (cutLines a bs (bs.length / 128 + 2)).foldl
    (fun ws p => joinLine (lineOf (canon p.1)) no (p.1 % 128) p.2 ws) ws

/-- Row maxima of the rows of an ATS that do not stream: -infinity for both arrays, as drain writes (R280). -/
def Pass.idleMaxima (p : Pass) (ws : List DrainWrite) : List DrainWrite :=
  let idle := (List.range p.ops.m).filter fun m => !p.ops.rows.contains m
  if p.ops.kind = .ats then
    p.binds.foldl (fun ws b =>
      idle.foldl (fun ws m => addBytes (addBytes ws b.drn.no (b.drn.drain.za + 4 * m) (toLe 4 0xFF800000)) b.drn.no
        (b.drn.drain.zb + 4 * m) (toLe 4 0xFF800000)) ws) ws
  else ws

/-- The array origin of pass n (R71 to R73, R76, R279): the swap, the frames, then the rows. -/
def State.originPass (s : State) (c n : Nat) (p : Pass) : State :=
  let s1 := if p.ops.swap then
      s.modCore c fun k =>
        let k1 := k.swapPlanes
        { k1 with arrA := { k1.arrA with vacated := true }, arrB := { k1.arrB with vacated := true } }
    else s
  let k := s1.core c
  let ua := p.ua.getD []
  let p1 := { p with framesA := originFrames k.arrA.active p.ops ua, framesB := originFrames k.arrB.active p.ops ua }
  let s2 := s1.modCore c fun q =>
    let q1 := q.missUnstreamed p
    { q1 with ctx := { q1.ctx with passes := q1.ctx.passes.set n p1,
                                   drainWrites := p.idleMaxima q1.ctx.drainWrites } }
  if p.ops.rows.isEmpty then
    (s2.modCore c fun q => { q with wasted := q.wasted + 2 }).bumpBy (cntMc c 1) 2
  else s2.enterRows c n p.ops.rows.length

/-- The output of a binding in one array. -/
def Binding.out (b : Binding) (arrB : Bool) : Option OutRef := if arrB then b.drn.outB else some b.drn.outA

/-- Rows and columns of the elements the drain makes for a binding in one array: those of its output. The drain of an
ATS takes every score of both arrays, since each counts in its row's maximum (R280). -/
def Binding.extent (b : Binding) (p : Pass) (arrB : Bool) : Nat × Nat :=
  if p.ops.kind = .ats then (p.ops.m, 384)
  else match b.out arrB with | some o => (o.rows, o.cols) | none => (0, 0)

/-- Elements of one binding in one array that are still to be made: rows that stream, columns of the extent. -/
def Pass.elemsLeft (p : Pass) (b : Binding) (arrB : Bool) : List (Nat × Nat) :=
  let e := b.extent p arrB
  (p.ops.rows.filter fun m => decide (m < e.1)).flatMap fun m =>
    ((List.range e.2).filter fun n => !(SMap.get false p.done (chainKey arrB b.drn.sub m n))).map fun n => (m, n)

/-- Some output of the pass is still to be made. -/
def Pass.outputsLeft (p : Pass) : Bool :=
  p.binds.any fun b => !(p.elemsLeft b false).isEmpty || !(p.elemsLeft b true).isEmpty

/-- A pass that has entered whole and has no output left is over. -/
def Pass.ended (p : Pass) : Bool := !p.entering && !p.outputsLeft

/-- Drops the passes that are over. -/
def State.dropOver (s : State) (c : Nat) : State :=
  s.modCtx c fun x => { x with passes := x.passes.filter fun p => !p.ended }

/-- The oldest pass that has not entered whole goes on as far as it may: it needs its issue, its prescan, and, to
swap, every earlier load (R73, R77, R121). -/
def State.streamOnce (s : State) (c : Nat) : Option State :=
  let k := s.core c
  match (List.range k.ctx.passes.length).find? fun i =>
      match k.ctx.passes[i]? with | some p => p.entering | none => false with
  | none => none
  | some n =>
    match k.ctx.passes[n]? with
    | none => none
    | some p =>
      if !p.issued || p.ua.isNone then none
      else if p.framesA.isEmpty then
        if p.ops.swap && !k.ctx.loads.isEmpty then none
        else
          match p.ops.rows.head? with
          | some m =>
            if k.redUsed + p.rowSlots m ≤ k.redSlots ∨ p.rowSlots m = 0 then some (s.originPass c n p)
            else some (s.modCore c fun q => { q with gate := true })
          | none => some (s.originPass c n p)
      else some (s.enterRows c n p.ops.rows.length)

/-- Lets the passes of a core stream as far as they may. -/
def State.tryStream (s : State) (c : Nat) : State :=
  match if s.frozen c then none else s.streamOnce c with
  | none => s
  | some s1 =>
    match s1.streamOnce c with
    | none => s1.dropOver c
    | some s2 => s2.dropOver c

/-- The prescan of the oldest pass that has none ends (R77): the bound of each band; a line that cannot be read
faults the sequencer and the pass does not run (R186). -/
def State.endPrescan (s : State) (c : Nat) : State :=
  let k := s.core c
  match (List.range k.ctx.passes.length).find? fun i =>
      match k.ctx.passes[i]? with | some p => p.ua.isNone | none => false with
  | none => s
  | some n =>
    match k.ctx.passes[n]? with
    | none => s
    | some p =>
      let (s1, ok) := s.checkRows k.job p.ops p.ops.rows
      if ok then
        let rows := p.ops.rows.map fun m => s1.actRow p.ops m
        let ua := (List.range (partBands p.ops.part)).map fun b =>
          boundOf (rows.flatMap fun r => (bandPart p.ops.part b r).map (·.2))
        (s1.setPass c n { p with ua := some ua }).tryStream c
      else (s1.modCtx c fun x => { x with passes := x.passes.eraseIdx n }).sqFault c .mem p.ops.pc 0

end Sys2Proof.Machine
end

