-- ==== Sys2Proof/Machine/Drain.lean ====
section
/-! DEFINITION. The drain unit: the merge with the carry-in (R82 to R86), pre-scaling, functions and rounding
(R93 to R97), the mask and row maxima of a score pass (R280), the reduction path with its staging and chunks
(R98, R235, R350 to R354), and drain writes (R124). -/

namespace Sys2Proof.Machine

/-! The merge (R82). -/

def RunFrame.zero : RunFrame := ⟨none, 0, 0, false⟩

/-- The running frame after a tile of frame `f` (R82). -/
def RunFrame.merge (h : RunFrame) (f : Option Int) : RunFrame :=
  match f, h.g with
  | none, _ => { h with count := h.count + 1 }
  | some x, none => { h with g := some x, fmax := x, count := h.count + 1 }
  | some x, some g0 =>
    let fm := max h.fmax x
    let g := max (min g0 x) (fm - 66)
    ⟨some g, fm, h.count + 1, h.span || decide (g0 < g) || decide (x < g)⟩

/-- The merge of a tile of frame `f` shifts A or S right (R82, R90). -/
def RunFrame.spans (h : RunFrame) (f : Option Int) : Bool :=
  match f, h.g, (h.merge f).g with
  | some x, some g0, some g => decide (g0 < g) || decide (x < g)
  | _, _, _ => false

/-- A × 2^k, truncated toward zero for a negative k. -/
def shiftT (a : Int) (k : Int) : Int :=
  if 0 ≤ k then a * (2 ^ k.toNat : Nat) else a.tdiv (2 ^ (-k).toNat : Nat)

/-- One column's accumulator after the merge (R82). -/
def RunFrame.mergeA (h : RunFrame) (f : Option Int) (a w : ChainWord) : ChainWord :=
  let t := a.tag.add w.tag
  match f, h.g, (h.merge f).g with
  | some _, none, _ => ⟨w.s, t⟩
  | some x, some g0, some g => ⟨shiftT a.s (g0 - g) + shiftT w.s (x - g), t⟩
  | _, _, _ => ⟨a.s, t⟩

/-- The header of a wide-partial tile (R83). -/
def RunFrame.header (h : RunFrame) : List Byte :=
  toLe 16 (match h.g with
    | none => at' 1 46 + at' (b2n h.span) 45 + at' h.count 32
    | some g => at' (b2n h.span) 45 + at' h.count 32 + at' (wrapN 16 h.fmax) 16 + wrapN 16 g)

def RunFrame.ofHeader (bs : List Byte) : RunFrame :=
  let v := leNat bs
  if v / 2 ^ 46 % 2 = 1 then ⟨none, 0, v / 2 ^ 32 % 8192, decide (v / 2 ^ 45 % 2 = 1)⟩
  else ⟨some (sext 16 v), sext 16 (v / 2 ^ 16), v / 2 ^ 32 % 8192, decide (v / 2 ^ 45 % 2 = 1)⟩

/-- An element of a wide-partial tile (R83). -/
def wideElem (a : ChainWord) : List Byte := toLe 16 (at' a.tag.code 126 + wrapN 126 a.s)
def ofWideElem (bs : List Byte) : ChainWord :=
  let v := leNat bs
  ⟨sext 126 v, Tag.ofCode (v / 2 ^ 126)⟩

/-! Functions (R93 to R95). -/

/-- v = A × 2^G, exact; a finite zero is +0 (R86). -/
def accVal (g : Option Int) (a : ChainWord) : FVal :=
  match a.tag, g with
  | .nan, _ => .nan
  | .posInf, _ => .inf false
  | .negInf, _ => .inf true
  | .finite, none => .fin false 0 0
  | .finite, some g => if a.s = 0 then .fin false 0 0 else .fin (decide (a.s < 0)) a.s.natAbs g

def plusZero : FVal := .fin false 0 0
def oneVal : FVal := .fin false 1 0

/-- x Φ(x) and its like, which take the sign of x and are zero at zero. -/
def signedFunc (code : Nat) (v : FVal) : FVal :=
  match v with
  | .fin n m e => if m = 0 then .fin n 0 0 else match freeFunc code 0 [.fin n m e] with
    | .fin _ m2 e2 => .fin n m2 e2
    | x => x
  | .inf true => plusZero
  | x => x

/-- Limits of a derivative factor at an infinite z: 1 or 0 for GELU and SILU kinds, 0 for SIGM and TANH. -/
def derivLimit (code : Nat) (neg : Bool) : FVal :=
  if code = 0x15 ∨ code = 0x16 then plusZero else if neg then plusZero else oneVal

/-- v′ × factor(z) for the derivative functions that the manual bounds. -/
def derivFunc (code out : Nat) (v z : FVal) : FVal :=
  match v, z with
  | .nan, _ => .nan
  | _, .nan => .nan
  | .fin n m e, .fin nz mz ez => if m = 0 then .fin n 0 0 else freeFunc code out [.fin n m e, .fin nz mz ez]
  | .fin n m e, .inf b => FVal.mul (.fin n m e) (derivLimit code b)
  | .inf a, .fin nz mz ez => FVal.mul (.inf a) (freeFunc code out [oneVal, .fin nz mz ez])
  | .inf a, .inf b => FVal.mul (.inf a) (derivLimit code b)

/-- A paired forward function: act(a) × b. -/
def pairedFunc (code : Nat) (a b : FVal) : FVal :=
  match a, b with
  | .nan, _ => .nan
  | _, .nan => .nan
  | .fin na ma ea, .fin nb mb eb =>
    if ma = 0 ∨ mb = 0 then .fin (na != nb) 0 0
    else match freeFunc code 0 [.fin na ma ea, .fin nb mb eb] with
      | .fin _ m e => .fin (na != nb) m e
      | x => x
  | .inf true, y => FVal.mul plusZero y
  | .inf false, y => FVal.mul (.inf false) y
  | .fin n m e, .inf b => FVal.mul (.fin n m e) (.inf b)

/-- Two-output derivatives (R94): ya for output 0, yb for output 1. -/
def twoOutFunc (code out : Nat) (v za zb : FVal) : FVal :=
  let c1 := if code = 0x17 then 0x05 else 0x03
  let c2 := if code = 0x17 then 0x14 else 0x12
  if v.isFinite && za.isFinite && zb.isFinite then
    if out = 0 then (if (FVal.mul v zb).lead.isNone then FVal.mul v zb else freeFunc code 0 [v, za, zb])
    else (if (FVal.mul v za).lead.isNone then FVal.mul v za else freeFunc code 1 [v, za, zb])
  else if out = 0 then derivFunc c2 0 (FVal.mul v zb) za
  else FVal.mul v (signedFunc c1 za)

/-- A result of zero from a limit is +0 (R95). -/
def limitZero (v : FVal) (infinite : Bool) : FVal :=
  match v with
  | .fin n m e => if m = 0 && infinite then plusZero else .fin n m e
  | x => x

/-- The drain function (R94, R95) on v′ of array A's or the element's own array, v′ of array B, and the saved
pre-activations. `out` is 1 for the second output. -/
def drainY (func out : Nat) (v vB za zb : FVal) : FVal :=
  if v.isNan then .nan
  else
    match func with
    | 0x00 => v
    | 0x01 => if FVal.lt plusZero v then v else plusZero
    | 0x02 => if FVal.lt plusZero v then FVal.mul v v else plusZero
    | 0x06 => (match v with
      | .inf true => plusZero
      | .inf false => oneVal
      | x => freeFunc 6 0 [x])
    | 0x07 => (match v with
      | .inf b => .fin b 1 0
      | x => signedFunc 7 x)
    | 0x08 => limitZero (pairedFunc 8 v vB) (!(v.isFinite && vB.isFinite))
    | 0x09 => limitZero (pairedFunc 9 v vB) (!(v.isFinite && vB.isFinite))
    | 0x10 =>
      if za.isNan then .nan
      else if FVal.lt plusZero za then v
      else if v.isFinite then plusZero else .nan
    | 0x11 => limitZero ((FVal.mul v (if za.isNan then .nan else if FVal.lt plusZero za then za else plusZero)).scale2 1)
        (!za.isFinite)
    | 0x17 => limitZero (twoOutFunc 0x17 out v za zb) (!(v.isFinite && za.isFinite && zb.isFinite))
    | 0x18 => limitZero (twoOutFunc 0x18 out v za zb) (!(v.isFinite && za.isFinite && zb.isFinite))
    | f =>
      if f < 0x10 then limitZero (signedFunc f v) (!v.isFinite)
      else limitZero (derivFunc f 0 v za) (!(v.isFinite && za.isFinite))

/-! What a DRN has still to write. -/

/-- DSWIGLU or DGEGLU: two outputs of one array's accumulator (R96). FUNC is read only with FINAL (R123). -/
def Binding.twoOut (b : Binding) : Bool := b.drn.flags.final && b.drn.flags.pair && funcTwoOut b.drn.drain.func

/-- The array whose accumulator an output of the binding reads (R96). -/
def Binding.source (b : Binding) (arrB : Bool) : Bool := arrB && !b.twoOut

/-- Array B's accumulator is merged as well as array A's. -/
def Binding.mergesB (b : Binding) : Bool := usesB b.drn.flags b.drn.outB b.drn.drain.func

def Binding.frame (b : Binding) (arrB : Bool) : Option RunFrame := if arrB then b.frameB else b.frameA

/-- Address of an ATS row's maximum (R276). -/
def Binding.maxAddr (b : Binding) (arrB : Bool) (row : Nat) : Nat :=
  (if arrB then b.drn.drain.zb else b.drn.drain.za) + 4 * row

/-- First element of an array's output among those of ZA and ZB of an S1 binding: array B's follow array A's (R351). -/
def Binding.errorBase (b : Binding) (arrB : Bool) : Nat := if arrB then b.drn.outA.rows * b.drn.outA.cols else 0

/-- Bytes that an element still to be made will change: address and length. -/
def Binding.elemSpans (b : Binding) (p : Pass) (arrB : Bool) (row col : Nat) : List (Nat × Nat) :=
  (if p.ops.kind = .ats then [(b.maxAddr arrB row, 4)] else []) ++
    match b.out arrB with
    | none => []
    | some (.bucket k) =>
      if k.fmt = fmtS1 then [(b.drn.drain.zb + 4 * (b.errorBase arrB + row * k.cols + col), 4)] else []
    | some (.tile t) =>
      let a := t.base + row * t.pitch
      let bb := blockBytes t.fmt
      let sz := fmtBits t.fmt / 8
      if t.rows ≤ row ∨ t.cols ≤ col then []
      else if t.wide then [(a + 16 * col, 16)]
      else if fmtMx t.fmt then [(a + col / 32 * bb, bb), (t.scale + row * (t.pitch / bb) + col / 32, 1)]
      else [(a + col * sz, sz)]

/-- Header of a wide-partial output that is not yet formed. -/
def Binding.headSpans (b : Binding) (arrB : Bool) : List (Nat × Nat) :=
  match b.out arrB with
  | some (.tile t) => if t.wide && (b.frame arrB).isNone then [(t.header, 16)] else []
  | _ => []

/-- Bytes a binding of a pass has still to write. -/
def Pass.owed (p : Pass) (b : Binding) : List (Nat × Nat) :=
  [false, true].flatMap fun arrB =>
    b.headSpans arrB ++ (p.elemsLeft b arrB).flatMap fun e => b.elemSpans p arrB e.1 e.2

/-- One of the bytes of [a, a + n) has the canonical address x. -/
def holdsByte (a n x : Nat) : Bool := (List.range n).any fun i => canon (a + i) == x

/-- One of the bytes of [a, a + n) lies in a line. -/
def meetsLine (a n line : Nat) : Bool := (List.range n).any fun i => lineOf (canon (a + i)) == line

/-! Reads of the drain, with the writes still in its pipeline forwarded (R84). -/

/-- The byte that a pending write of a DRN before number `no` holds for an address: the latest such DRN's. -/
def pendingByte (ws : List DrainWrite) (no a : Nat) : Option Byte :=
  ws.foldl (fun acc w =>
    match w with
    | .line l n bs =>
      if l = lineOf (canon a) ∧ n < no then (match SMap.get none bs (a % 128) with | some b => some b | none => acc)
      else acc
    | .packet _ => acc) none

/-- Bytes the drain reads for DRN `no`, and whether every line returned data (R84, R186). -/
def State.drainRead (s : State) (c no a n : Nat) : State × List Byte × Bool :=
  let ws := (s.core c).ctx.drainWrites
  let fw := (List.range n).map fun i => pendingByte ws no (a + i)
  if fw.all Option.isSome then (s, fw.map (·.getD 0), true)
  else
    let (s1, ok) := s.checkRange rdSeq (s.core c).job a n
    (s1, (List.range n).map fun i => ((fw[i]?).getD none).getD (s1.peek (a + i)), ok)

/-- An earlier DRN, of pass i or of one before it, has still to make a byte of [a, a + n): a carry-in read waits for
it, since it sees every earlier DRN's result (R84). -/
def SqCtx.carryDue (x : SqCtx) (i no a n : Nat) : Bool :=
  (x.passes.take (i + 1)).any fun q => q.binds.any fun y => decide (y.drn.no < no) &&
    (q.owed y).any fun w => (List.range n).any fun j => holdsByte w.1 w.2 (canon (a + j))

/-! Drain writes (R124). -/

/-- DRN `no` has still to make a byte of a line. -/
def SqCtx.owesLine (x : SqCtx) (no line : Nat) : Bool :=
  x.passes.any fun p => p.binds.any fun b => b.drn.no == no && (p.owed b).any fun w => meetsLine w.1 w.2 line

/-- The write holds every byte its DRN makes in the line (R207), or its packet has been reported sent. -/
def State.writeReady (s : State) (c : Nat) : DrainWrite → Bool
  | .line l n _ => !(s.core c).ctx.owesLine n l
  | .packet n => (SMap.get none (s.core c).staged n).isNone

def DrainWrite.line? : DrainWrite → Option Nat
  | .line l _ _ => some l
  | .packet _ => none

/-- Writes some bytes of a line, by offset, in one step, through the port's buffer to the array (R190, R207). -/
def State.writeSome (s : State) (line : Nat) (bs : SMap (Option Byte)) : State :=
  let given := bs.filterMap fun q => q.2.map fun b => (q.1, b)
  if given.length = 128 then s.writeLine line (given.map (·.2))
  else (given.foldl (fun t q => t.writePart (line + q.1) [q.2]) s).flushLine line

/-- The k-th drain write of a core completes (R124, R235): not before an earlier write to its line. -/
def State.finishWrite (s : State) (c k : Nat) : State :=
  let ws := (s.core c).ctx.drainWrites
  match ws[k]? with
  | none => s
  | some w =>
    if !s.writeReady c w || ((ws.take k).any fun x => x.line?.isSome && x.line? == w.line?) then s
    else
      let s1 := s.modCtx c fun x => { x with drainWrites := x.drainWrites.eraseIdx k }
      match w with
      | .line l _ m => s1.writeSome l m
      | .packet _ => s1

/-! Reduction packets: staging and chunks (R98, R235, R350 to R354). -/

/-- The next slot of the ring that no packet holds, counting on from the last one taken (R233). -/
def Core.freeSlot (k : Core) : Nat :=
  let base := fld k.ctx.redstg 47 0
  let used := k.staged.filterMap fun q => q.2.map (·.slot)
  let place (i : Nat) := base + 128 * ((k.nextStage + i) % k.redSlots)
  place (((List.range k.redSlots).find? fun i => !used.contains (place i)).getD 0)

/-- Residue of 64 integers (R166). -/
def residue (qs : List Int) : Nat :=
  ((List.zipWith (fun (i : Nat) (q : Int) => ((i : Int) + 1) * q) (List.range qs.length) qs).sum % 65535).toNat

/-- The integers of a packet: S1 bits count 1 - 2b (R166). -/
def StagedPacket.integers (p : StagedPacket) : List Int :=
  (List.range 64).map fun i =>
    let v := SMap.get 0 p.ints i
    if p.fmt = fmtS1 then 1 - 2 * v else v

/-- A packet's bytes in its slot: 128 of ES16, or the 8 of S1 with zeros after them (R52, R233). -/
def StagedPacket.slotBytes (p : StagedPacket) : List Byte :=
  if p.fmt = fmtS1 then
    toLe 128 ((List.range 64).foldl (fun a i => a + (SMap.get 0 p.ints i).toNat * 2 ^ i) 0)
  else (List.range 64).flatMap fun i => toLe 2 (wrapN 16 (SMap.get 0 p.ints i))

/-- Header of a chunk from a drain (R353, R354). -/
def chunkHeader (chip : Nat) (ps : List StagedPacket) : List Byte :=
  match ps with
  | [] => []
  | p :: _ =>
    let fb := ps.findSome? fun x => x.nonfin
    let nthr := b2n (ps.any fun x => x.thr)
    let sat := min 0xFFFFFFFF (ps.map (·.sat)).sum
    let topx := ps.foldl (fun a x => max a x.topx) (-32768)
    let words : List W64 :=
      [ w64 (at' p.step.toNat 32 + p.pidx % 2 ^ 32),
        w64 (at' ps.length 56 + at' (b2n fb.isSome) 55 + at' nthr 32 + sat),
        w64 (at' (wrapN 16 topx) 48 + at' (if fb.isSome then chip else 0) 32 + fb.getD 0xFFFFFFFF),
        w64 1 ]
    words.flatMap w64Bytes ++ List.replicate 32 0 ++
      (ps.flatMap fun x => toLe 2 x.res) ++ List.replicate (64 - 2 * ps.length) 0

/-- KARG of a chunk (R352). -/
def chunkKarg (bucket : Nat) (e : Int) (slice fmt : Nat) : BitVec 56 :=
  BitVec.ofNat 56 (at' (bucket % 65536) 40 + at' (wrapN 8 e) 32 + at' (slice % 64) 26 + at' fmt 24)

/-- Sends the k-th open chunk as one REDUCE packet on its flow (R235, R352). -/
def State.closeChunk (s : State) (c k : Nat) : State :=
  match (s.core c).chunks[k]? with
  | none => s
  | some ch =>
    let ps := ch.stages.filterMap fun n => SMap.get none (s.core c).staged n
    let s1 := s.modCore c fun q => { q with chunks := q.chunks.eraseIdx k }
    match ps with
    | [] => s1
    | p :: _ =>
      let isS1 := p.fmt == fmtS1
      let n := ps.length
      let src := (List.range n).zipWith (fun i x =>
        (x.slot, if isS1 then (if i + 1 = n ∧ n % 2 = 1 then 16 else 8) else 128)) ps
      let out : OutPacket :=
        ⟨pkReduce, p.daddr, chunkHeader s.grp.chip.toNat ps, src,
          chunkKarg p.bucket p.exp p.slice (if isS1 then 1 else 0), true⟩
      let job := (s.core c).job
      let s2 := if ps.any (·.thr) then
          s1.modJob job fun j => { j with thrSteps := if j.thrSteps.contains p.step then j.thrSteps
                                                      else j.thrSteps ++ [p.step] }
        else s1
      s2.addOp (mkOp (.chunk c ch.stages) p.flow (some job) p.dchip [out] (s.core c).ctx.pc 0)

/-- Link DMA takes a staged packet into its binding's chunk; a chunk that is full, out of sequence or holds the
binding's last packet closes (R352). -/
def State.chunkPacket (s : State) (c n : Nat) (p : StagedPacket) (last : Bool) : State :=
  let same (x : OpenChunk) : Bool := x.bucket == p.bucket && x.slice == p.slice && x.step == p.step
  let follows (x : OpenChunk) : Bool :=
    match x.stages.getLast? with
    | none => true
    | some l => match SMap.get none (s.core c).staged l with
      | some q => q.pidx + 1 == p.pidx
      | none => false
  let s1 := match (s.core c).chunks.findIdx? same with
    | some i => match (s.core c).chunks[i]? with
      | some x => if follows x then s else s.closeChunk c i
      | none => s
    | none => s
  let s2 := s1.modCore c fun q =>
    if q.chunks.any same then
      { q with chunks := q.chunks.map fun x => if same x then { x with stages := x.stages ++ [n] } else x }
    else { q with chunks := q.chunks ++ [⟨p.bucket, p.slice, p.step, [n]⟩] }
  match (s2.core c).chunks.findIdx? same with
  | none => s2
  | some i => match (s2.core c).chunks[i]? with
    | none => s2
    | some x => if last ∨ x.stages.length = 31 then s2.closeChunk c i else s2

/-- Staging number of a packet being filled. -/
def Core.stageOf (k : Core) (b : BucketRef) (r : RedOut) (pidx : Nat) : Option (Nat × StagedPacket) :=
  k.staged.findSome? fun q =>
    match q.2 with
    | some p => if p.bucket = b.bucket ∧ p.slice = r.slice ∧ p.step = r.step ∧ p.pidx = pidx ∧ p.filled < 64 then
        some (q.1, p) else none
    | none => none

/-- Adds one encoded element to its packet (R98, R350); the packet whole goes to link DMA. `x` is the value
encoded; `y` the drain's, whose NaN sets SQ_ARREVT.NAN and whose tag says whether it is finite (R97). -/
def State.stageElement (s : State) (c : Nat) (b : BucketRef) (r : RedOut) (last : Bool) (row col : Nat)
    (x y : FVal) : State :=
  let fin := y.isFinite
  let k := s.core c
  let pidx := row * (b.cols / 64) + col / 64
  let i := col % 64
  let (n, p) := match k.stageOf b r pidx with
    | some q => q
    | none => (k.nextStage,
        ({ bucket := b.bucket, slice := r.slice, step := r.step, pidx := pidx, fmt := b.fmt, exp := r.exp,
           dchip := b.chip, daddr := b.base, flow := b.flow, ints := [], filled := 0, sat := 0, nonfin := none,
           topx := -32768, thr := r.thr, slot := k.freeSlot, res := 0, chunked := false } :
          StagedPacket))
  let isNew := decide (n = k.nextStage)
  let (q, sat) : Int × Bool :=
    if !fin then (0, false)
    else if b.fmt = fmtS1 then ((b2n (s1Encode x) : Nat), false)
    else es16Encode x r.exp
  let p1 := { p with
    ints := SMap.set 0 p.ints i q, filled := p.filled + 1, sat := p.sat + b2n sat,
    nonfin := if fin then p.nonfin else
      some (match p.nonfin with | none => 64 * pidx + i | some y => min y (64 * pidx + i)),
    topx := match fin, x.lead with | true, some l => max p.topx l | _, _ => p.topx,
    thr := p.thr || r.thr }
  let s1 := s.modCore c fun u =>
    let u1 := (u.eventIf y.isNan 1).eventIf sat 0
    { u1 with staged := SMap.set none u1.staged n (some p1),
              nextStage := if isNew then n + 1 else u1.nextStage,
              reserved := if isNew then u1.reserved - 1 else u1.reserved }
  if p1.filled = 64 then
    let p2 := { p1 with res := residue p1.integers, chunked := true }
    let s2 := (s1.modCore c fun u =>
      { u with staged := SMap.set none u.staged n (some p2),
               ctx := { u.ctx with drainWrites := u.ctx.drainWrites ++ [.packet n] } }).writeDone p2.slot p2.slotBytes
    s2.chunkPacket c n p2 last
  else s1

/-! One output element (R93). -/

/-- Where an output's elements lie among the columns of the whole array. -/
def physCol (part sub col : Nat) : Nat := subGroup part sub * groupCols part + col

/-- Some output of this array and column is still to be made. -/
def Pass.columnLeft (p : Pass) (arrB : Bool) (col : Nat) : Bool :=
  p.binds.any fun b =>
    let e := b.extent p arrB
    let n := col - subGroup p.ops.part b.drn.sub * groupCols p.ops.part
    decide (subGroup p.ops.part b.drn.sub = col / groupCols p.ops.part ∧ n < e.2) &&
      (p.ops.rows.filter fun m => decide (m < e.1)).any fun m =>
        !(SMap.get false p.done (chainKey arrB b.drn.sub m n))

/-- The row of a pass before row m. -/
def Pass.rowBefore (p : Pass) (m : Nat) : Option Nat := (p.ops.rows.filter fun x => decide (x < m)).getLast?

/-- The element can leave the function stage now: its row has entered, it is an output not yet made, and the row
before it and every earlier pass are past its column (R68, R92). -/
def Pass.ready (p : Pass) (arrB : Bool) (sub row col : Nat) : Option Binding :=
  match p.binds.find? fun b => b.drn.sub == sub with
  | none => none
  | some b =>
    let e := b.extent p arrB
    if decide (row < e.1 ∧ col < e.2) && (p.ops.rows.take p.entered).contains row
        && !(SMap.get false p.done (chainKey arrB sub row col))
        && (match p.rowBefore row with | none => true | some m => SMap.get false p.done (chainKey arrB sub m col)) then
      some b
    else none

/-- Number of the pass an element comes from. -/
def SqCtx.drainPass (x : SqCtx) (arrB : Bool) (sub row col : Nat) : Option Nat :=
  (List.range x.passes.length).find? fun i =>
    match x.passes[i]? with
    | none => false
    | some p => (p.ready arrB sub row col).isSome &&
        (x.passes.take i).all fun q => !(q.columnLeft arrB (physCol p.ops.part sub col))

/-- Replaces the binding of a sub-array in pass n. -/
def State.setBinding (s : State) (c n sub : Nat) (b : Binding) : State :=
  s.modCtx c fun x => { x with passes := x.passes.modify n fun p =>
    { p with binds := p.binds.map fun y => if y.drn.sub = sub then b else y } }

/-- A read the drain could not make: the fault of R186, against the DRN. -/
def State.drainFault (s : State) (c : Nat) (b : Binding) : State := s.sqFault c .mem b.drn.pc b.drn.dD

/-- Carry-in tile of one array. -/
def Binding.carryIn (b : Binding) (arr : Bool) : Option TileRef := if arr then b.drn.drain.cinb else b.drn.drain.cina

/-- The running frame one array brings to the merge, from the carry-in's header (R83). -/
def State.headOf (s : State) (c : Nat) (b : Binding) (arr : Bool) : State × RunFrame × Bool :=
  match b.carryIn arr with
  | none => (s, .zero, true)
  | some t =>
    let (s1, bs, ok) := s.drainRead c b.drn.no t.header 16
    (s1, RunFrame.ofHeader bs, ok)

/-- One column's carry-in. -/
def State.carryOf (s : State) (c : Nat) (b : Binding) (arr : Bool) (row col : Nat) : State × ChainWord × Bool :=
  match b.carryIn arr with
  | none => (s, ChainWord.zero, true)
  | some t =>
    let (s1, bs, ok) := s.drainRead c b.drn.no (t.base + row * t.pitch + 16 * col) 16
    (s1, ofWideElem bs, ok)

/-- Arrays whose accumulator an output element reads: both for a paired forward function (R94, R96). -/
def Binding.reads (b : Binding) (arrB : Bool) : List Bool :=
  if b.drn.flags.final && b.drn.flags.pair && !b.twoOut then [false, true] else [b.source arrB]

/-- A carry-in the element needs is still to be made by an earlier DRN: its headers with the binding's first element,
and the element's own place (R84). -/
def SqCtx.carryWaits (x : SqCtx) (i : Nat) (b : Binding) (arrB : Bool) (row col : Nat) : Bool :=
  (b.frameA.isNone && [false, true].any fun arr =>
    match b.carryIn arr with | some t => x.carryDue i b.drn.no t.header 16 | none => false) ||
  (b.reads arrB).any fun arr =>
    match b.carryIn arr with
    | some t => x.carryDue i b.drn.no (t.base + row * t.pitch + 16 * col) 16
    | none => false

/-- Tile frame of one array of a binding's sub-array. -/
def Pass.frameOf (p : Pass) (b : Binding) (arr : Bool) : Option Int :=
  (((if arr then p.framesB else p.framesA)[b.drn.sub]?).getD none)

/-- Staging slots that a binding's rows already entered have reserved. -/
def Pass.slotsHeld (p : Pass) (b : Binding) : Nat := ((p.ops.rows.take p.entered).map b.rowSlots).sum

/-- Drops the DRN of a sub-array from pass n before it has made any output: it writes none, and its reserved staging slots
are free again (R85, R234). -/
def State.dropBinding (s : State) (c n : Nat) (p : Pass) (b : Binding) : State :=
  s.modCore c fun k =>
    { k with reserved := k.reserved - p.slotsHeld b,
             ctx := { k.ctx with passes := k.ctx.passes.modify n fun p =>
               { p with binds := p.binds.filter fun y => y.drn.sub != b.drn.sub } } }

def State.pushWrites (s : State) (c : Nat) (f : List DrainWrite → List DrainWrite) : State :=
  s.modCtx c fun x => { x with drainWrites := f x.drainWrites }

/-- The headers of a binding's wide-partial outputs, formed with its first merge (R83, R84). -/
def Binding.pushHeaders (b : Binding) (p : Pass) (ws : List DrainWrite) : List DrainWrite :=
  [false, true].foldl (fun ws arrB =>
    match b.out arrB, b.frame arrB with
    | some (.tile t), some h =>
      if t.wide then addBytes ws b.drn.no t.header (h.merge (p.frameOf b arrB)).header else ws
    | _, _ => ws) ws

/-- The first element of a binding brings in the running frame of each array it merges. A merge that would pass 4,096
tiles, in either array, raises the accumulation fault and the DRN writes nothing (R82, R85); SPAN is noted (R90). -/
def State.headBinding (s : State) (c n : Nat) (p : Pass) (b : Binding) : State × Option Binding :=
  if b.frameA.isSome then (s, some b)
  else
    let (s1, hA, okA) := s.headOf c b false
    let (s2, hB, okB) := if b.mergesB then s1.headOf c b true else (s1, .zero, true)
    let mA := hA.merge (p.frameOf b false)
    let mB := hB.merge (p.frameOf b true)
    if (okA && okB) = false then (s2.drainFault c b, none)
    else if 4096 < mA.count ∨ (b.mergesB = true ∧ 4096 < mB.count) then
      (((s2.modCore c fun k => k.event 5).dropBinding c n p b).sqFault c .accum p.ops.pc 0, none)
    else
      let b1 : Binding := { b with frameA := some hA, frameB := if b.mergesB then some hB else none }
      let span := hA.spans (p.frameOf b false) || (b.mergesB && hB.spans (p.frameOf b true))
      (((s2.modCore c fun k => k.eventIf span 3).setBinding c n b.drn.sub b1).pushWrites c (b1.pushHeaders p), some b1)

/-- What a merge answers: the frame before and after, and the merged word. -/
structure Merged where
  head : RunFrame
  next : RunFrame
  acc : ChainWord

/-- The merge of one element of one array (R82). -/
def State.mergeAt (s : State) (c : Nat) (p : Pass) (b : Binding) (arr : Bool) (row col : Nat) : State × Merged × Bool :=
  let f := p.frameOf b arr
  let h := (b.frame arr).getD .zero
  let (s1, a, ok) := s.carryOf c b arr row col
  let w := SMap.get ChainWord.zero p.chains (chainKey arr b.drn.sub row col)
  (s1, ⟨h, h.merge f, h.mergeA f a w⟩, ok)

/-- A saved pre-activation or error-memory element (R116, R237, R351). -/
def State.savedVal (s : State) (c : Nat) (b : Binding) (a fmt : Nat) : State × FVal × Bool :=
  let n := fmtBits fmt / 8
  let (s1, bs, ok) := s.drainRead c b.drn.no a n
  (s1, elemDecode fmt (leNat bs), ok)

/-- v′: the exact pre-scaling and bias (R93). -/
def State.preScale (s : State) (c : Nat) (b : Binding) (arr : Bool) (col : Nat) (m : Merged) : State × FVal × Bool :=
  let v := (accVal m.next.g m.acc).scale2 b.drn.drain.scale
  if b.drn.flags.bias then
    let off := if arr then b.drn.outA.cols else 0
    let (s1, bs, ok) := s.drainRead c b.drn.no (b.drn.drain.bias + 4 * (off + col)) 4
    (s1, FVal.add v (fpF32.decode (leNat bs)), ok)
  else (s, v, true)

/-- The address of saved pre-activation z of an element: ZA for array A's, ZB for array B's (R116). -/
def Binding.zAddr (b : Binding) (second : Bool) (o : OutRef) (row col : Nat) : Nat :=
  (if second then b.drn.drain.zb else b.drn.drain.za) + (row * o.cols + col) * (fmtBits b.drn.drain.zfmt / 8)

/-- v′, and for a paired forward function the other array's v′ (R93 step 2, R94). -/
def State.preValues (s : State) (c : Nat) (p : Pass) (b : Binding) (arrB : Bool) (row col : Nat) :
    State × FVal × FVal × Bool :=
  let (s1, m, ok) := s.mergeAt c p b (b.source arrB) row col
  let (s2, v, ok1) := s1.preScale c b (b.source arrB) col m
  if b.drn.flags.pair && !b.twoOut then
    let (s3, mb, ok2) := s2.mergeAt c p b true row col
    let (s4, vB, ok3) := s3.preScale c b true col mb
    (s4, v, vB, ok && ok1 && ok2 && ok3)
  else (s2, v, plusZero, ok && ok1)

/-- y and v′ of an element of a FINAL drain (R93 steps 1 to 3). -/
def State.finalValue (s : State) (c : Nat) (p : Pass) (b : Binding) (arrB : Bool) (o : OutRef) (row col : Nat) :
    State × FVal × FVal × Bool :=
  let d := b.drn.drain
  let (s2, v, vB, ok1) := s.preValues c p b arrB row col
  let (s3, za, ok2) := if funcDeriv d.func then s2.savedVal c b (b.zAddr (arrB && !b.twoOut) o row col) d.zfmt
    else (s2, plusZero, true)
  let (s4, zb, ok3) := if b.twoOut then s3.savedVal c b (b.zAddr true o row col) d.zfmt else (s3, plusZero, true)
  (s4, v, drainY d.func (b2n arrB) v vB za zb, ok1 && ok2 && ok3)

/-- Marks an element made. -/
def State.markDone (s : State) (c n : Nat) (key : Nat) : State :=
  s.modCtx c fun x => { x with passes := x.passes.modify n fun p => { p with done := SMap.set false p.done key true } }

/-- A score of an ATS: masked or rounded, and the row's maximum over the array's 384 columns (R280). A score outside the
output tile counts in the maximum and is written nowhere; an array without an output tile rounds to array A's format
(DESIGN CHOICE, log 75). -/
def State.scoreOut (s : State) (c n : Nat) (p : Pass) (x : AtsInfo) (b : Binding) (arrB : Bool) (row col : Nat)
    (y : FVal) : State :=
  let tile (o : Option OutRef) : Option TileRef := match o with | some (.tile t) => some t | _ => none
  let fmt := (((tile (b.out arrB)).or (tile (b.out false))).map (·.fmt)).getD 0
  let q := (x.q[row]?).getD ⟨false, 0xFFFF, 0⟩
  let kj := ((if arrB then x.kb else x.ka)[col]?).getD ⟨false, 0xFFFF, 0⟩
  let vis := x.visible q kj
  let (code, ov) := if vis then fmtRound fmt b.drn.flags.nonsat y
    else if x.mzero then (0, false) else fmtRound fmt true (.inf true)
  let val := elemDecode fmt code
  let key := b2n arrB * 8192 + row
  let (cnt, best) := SMap.get (0, FVal.inf true) p.maxes key
  let best1 := if !vis then best else if best.isNan || val.isNan then .nan else if FVal.lt best val then val else best
  let s1 := s.modCtx c fun k => { k with
    passes := k.passes.modify n fun p => { p with maxes := SMap.set (0, FVal.inf true) p.maxes key (cnt + 1, best1) } }
  let s2 := match tile (b.out arrB) with
    | some t =>
      if row < t.rows ∧ col < t.cols then
        let sz := fmtBits fmt / 8
        (s1.modCore c fun k => (k.eventIf (vis && ov) 0).eventIf (vis && val.isNan) 1).pushWrites c
          fun ws => addBytes ws b.drn.no (t.base + row * t.pitch + col * sz) (toLe sz code)
      else s1
    | none => s1
  if cnt + 1 = 384 then
    s2.pushWrites c fun ws => addBytes ws b.drn.no (b.maxAddr arrB row) (toLe 4 best1.toF32.toNat)
  else s2

/-- An element of a TILE output in a format of its own (R93 step 4, R97). -/
def State.tileOut (s : State) (c : Nat) (b : Binding) (t : TileRef) (row col : Nat) (y : FVal) : State :=
  let (code, ov) := fmtRound t.fmt b.drn.flags.nonsat y
  let sz := fmtBits t.fmt / 8
  (s.modCore c fun k => (k.eventIf ov 0).eventIf (elemDecode t.fmt code).isNan 1).pushWrites c
    fun ws => addBytes ws b.drn.no (t.base + row * t.pitch + col * sz) (toLe sz code)

/-- An element of an MX output: kept until its block's 32 columns are there (R51, R97). Where COLS is no multiple of 32
the manual does not say what fills the last block: +0 does, in its largest magnitude too, and the block is written whole
(DESIGN CHOICE, log 75). -/
def State.mxOut (s : State) (c n : Nat) (p : Pass) (b : Binding) (arrB : Bool) (t : TileRef) (row col : Nat) (y : FVal) :
    State :=
  let key (col : Nat) := chainKey arrB b.drn.sub row col
  let mx1 := SMap.set plusZero p.mx (key col) y
  let j := col / 32
  let hi := min (32 * j + 32) t.cols
  let whole := ((List.range (hi - 32 * j)).all fun i => 32 * j + i == col || SMap.get false p.done (key (32 * j + i)))
  let keep (m : SMap FVal) : State :=
    s.modCtx c fun x => { x with passes := x.passes.modify n fun p => { p with mx := m } }
  if whole then
    let ys := (List.range 32).map fun i => if 32 * j + i < hi then SMap.get plusZero mx1 (key (32 * j + i)) else plusZero
    let (x, els) := mxPack t.fmt ys
    let code := (List.range 32).zipWith (fun i e => e.1 % 2 ^ fmtBits t.fmt * 2 ^ (fmtBits t.fmt * i)) els
    let bb := blockBytes t.fmt
    let s1 := keep (mx1.filter fun q => !((List.range 32).any fun i => q.1 == key (32 * j + i)))
    (s1.modCore c fun k => (k.eventIf (els.any (·.2)) 0).eventIf (x == 255) 1).pushWrites c fun ws =>
      addBytes (addBytes ws b.drn.no (t.base + row * t.pitch + j * bb) (toLe bb code.sum)) b.drn.no
        (t.scale + row * (t.pitch / bb) + j) (toLe 1 x)
  else keep mx1

/-- An element of the reduction path (R242, R350, R351). -/
def State.redOut (s : State) (c n : Nat) (b : Binding) (arrB : Bool) (bk : BucketRef) (r : RedOut) (row col : Nat)
    (v y : FVal) : State × Bool :=
  let isS1 := bk.fmt == fmtS1
  let i := b.errorBase arrB + row * bk.cols + col
  let (s1, em, ok) := if isS1 then s.savedVal c b (b.drn.drain.za + 2 * i) fmtD16 else (s, plusZero, true)
  if ok = false then (s1, false)
  else
    let x := if isS1 then FVal.add v em else y
    let s2 := if isS1 then
        s1.pushWrites c fun ws => addBytes ws b.drn.no (b.drn.drain.zb + 4 * i) (toLe 4 x.toF32.toNat)
      else s1
    if suppressed r.mask bk.cols row (col / 64) then (s2, true)
    else
      let fills := match (s2.core c).stageOf bk r (row * (bk.cols / 64) + col / 64) with
        | some q => q.2.filled == 63
        | none => false
      let left := if fills then r.left - 1 else r.left
      let r1 := { r with left := left }
      let b1 := if arrB then { b with redB := some r1 } else { b with redA := some r1 }
      ((s2.setBinding c n b.drn.sub b1).stageElement c bk r (fills && left == 0) row col x (if isS1 then v else y), true)

/-- An element of a wide-partial output (R83). -/
def State.wideOut (s : State) (c : Nat) (p : Pass) (b : Binding) (arrB : Bool) (t : TileRef) (row col : Nat) :
    State × Bool :=
  let (s1, m, ok) := s.mergeAt c p b arrB row col
  (s1.pushWrites c fun ws => addBytes ws b.drn.no (t.base + row * t.pitch + 16 * col) (wideElem m.acc), ok)

/-- An element of a FINAL output, rounded or encoded to its place (R93 steps 3 and 4). -/
def State.finalOut (s : State) (c n : Nat) (p : Pass) (b : Binding) (arrB : Bool) (row col : Nat) : State × Bool :=
  let (s1, v, y, ok) := s.finalValue c p b arrB ((b.out arrB).getD b.drn.outA) row col
  if ok = false then (s1, false)
  else
    match p.ops.ats, b.out arrB, if arrB then b.redB else b.redA with
    | some x, _, _ => (s1.scoreOut c n p x b arrB row col y, true)
    | none, some (.bucket bk), some r => s1.redOut c n b arrB bk r row col v y
    | none, some (.tile t), _ =>
      (if fmtMx t.fmt then s1.mxOut c n p b arrB t row col y else s1.tileOut c b t row col y, true)
    | none, _, _ => (s1, true)

/-- One output element of a pass (R93). -/
def State.drainOutput (s : State) (c : Nat) (arrB : Bool) (sub row col : Nat) : State :=
  match if s.frozen c then none else (s.core c).ctx.drainPass arrB sub row col with
  | none => s
  | some n =>
    match (s.core c).ctx.passes[n]? with
    | none => s
    | some p =>
      match p.ready arrB sub row col with
      | none => s
      | some b =>
        if (s.core c).ctx.carryWaits n b arrB row col then s
        else
          match s.headBinding c n p b with
          | (s1, none) => s1.dropOver c
          | (s1, some b1) =>
            let (s2, ok) :=
              match b1.drn.flags.final, b1.out arrB with
              | false, some (.tile t) => s1.wideOut c p b1 arrB t row col
              | false, _ => (s1, true)
              | true, _ => s1.finalOut c n p b1 arrB row col
            if ok then (s2.markDone c n (chainKey arrB sub row col)).dropOver c else s2.drainFault c b1

end Sys2Proof.Machine
end

