-- ==== Sys2Proof/Machine/Moves.lean ====
section
/-! DEFINITION. What a sequencer has outstanding (R106, R127, R130), copies of tiles (R125, R126), counter
snapshots (R140), jumps and loops (R133 to R135), and going on after a stall (R141). -/

namespace Sys2Proof.Machine

/-! Outstanding operations (R130, R136). -/

/-- Drain writes not complete: those on their way, and outputs that passes have still to make (R124). -/
def Core.drainsOut (k : Core) : Bool :=
  !k.ctx.drainWrites.isEmpty || k.ctx.passes.any fun p => !p.binds.isEmpty

/-- Operations of the selected classes are outstanding: L, D, M, P; none selected means all (R130). -/
def Core.classesOut (k : Core) (l d m p : Bool) : Bool :=
  let all := !(l || d || m || p)
  ((l || all) && !k.ctx.loads.isEmpty) || ((d || all) && k.drainsOut) ||
    ((m || all) && !k.ctx.moves.isEmpty) || ((p || all) && !k.ctx.puts.isEmpty)

/-- Every pass and outstanding operation of the core has completed (R137, R138). -/
def Core.quiet (k : Core) : Bool := !k.classesOut true true true true && k.ctx.passes.isEmpty

/-- Sixteen MOV, PUT and CSNAP are outstanding (R127). -/
def Core.movesFull (k : Core) : Bool := decide (16 ≤ k.ctx.moves.length + k.ctx.puts.length)

/-! Copies (R125, R126). -/

/-- Bytes of a scale row; 0 in a format without scales (R50). -/
def TileRef.scaleBytes (t : TileRef) : Nat := if !t.wide && fmtMx t.fmt then ceilDiv t.cols 32 else 0

/-- What a copy moves, source, destination and length: the rows, the header where both are WIDE, and the scale rows where
both tiles have them of one length. None unless ROWS and row lengths in bytes agree (R125). That scale rows of equal
length go along, and no others, is DEDUCED (log 74): the manual names rows and headers. -/
def pairRuns (src dst : TileRef) : Option (List (Nat × Nat × Nat)) :=
  if src.rows = dst.rows ∧ src.rowBytes = dst.rowBytes then
    let each (f : TileRef → Nat → Nat) (n : Nat) := (List.range src.rows).map fun r => (f src r, f dst r, n)
    some (each (fun t r => t.base + r * t.pitch) src.rowBytes ++
      (if src.wide && dst.wide then [(src.header, dst.header, 16)] else []) ++
      (if src.scaleBytes = dst.scaleBytes ∧ 0 < src.scaleBytes then
        each (fun t r => t.scale + r * (t.pitch / blockBytes t.fmt)) src.scaleBytes else []))
  else none

/-- A TILE or WIDE to be copied (R112, R125). A PUT destination is held to the same ranges, since every chip of a job
has one carve-out (R117, R181). -/
def State.copyOperand (s : State) (c i : Nat) : Operand TileRef :=
  match (s.core c).tileAt i with
  | .error e => .error e
  | .ok t => if (t.wide || decide (t.fmt ≤ 8)) && s.tileInRange t then .ok t else .error (.desc i)

/-- MOV at issue (R125, R127). -/
def State.issueMov (s : State) (c : Nat) (a dest : BitVec 12) : State :=
  if (s.core c).movesFull then s.sqHold c .stall (.mov a dest)
  else
    match s.copyOperand c a.toNat, s.copyOperand c dest.toNat with
    | .error e, _ => s.sqOperandFault c e
    | .ok _, .error e => s.sqOperandFault c e
    | .ok src, .ok dst =>
      match pairRuns src dst with
      | none => s.sqOperandFault c (.desc dest.toNat)
      | some _ =>
        (s.modCtx c fun x => { x with moves := x.moves ++
          [.mov src dst (src.wide && dst.wide) x.pc a.toNat] }).sqAdvance c

/-- PUT at issue (R126, R127, R335). -/
def State.issuePut (s : State) (c : Nat) (a dest : BitVec 12) (flow : BitVec 13) : State :=
  if (s.core c).movesFull then s.sqHold c .stall (.put a dest flow)
  else
    match s.copyOperand c a.toNat with
    | .error e => s.sqOperandFault c e
    | .ok src =>
      let chip := fld ((s.core c).descWord dest.toNat 0) 63 48
      match s.copyOperand c dest.toNat with
      | .error e => s.sqOperandFault c e
      | .ok dst =>
        match pairRuns src dst with
        | none => s.sqOperandFault c (.desc dest.toNat)
        | some runs =>
          if s.flowGranted (s.core c).job flow.toNat then
            let n := s.lnk.nextOp
            let packets := dataPackets (runs.map fun r => (r.2.1, r.1, r.2.2))
            let pc := (s.core c).ctx.pc
            let s1 := (s.modCtx c fun x => { x with puts := x.puts ++ [n] }).sqAdvance c
            s1.addOp (mkOp (.core c) flow.toNat (some (s.core c).job) chip packets pc a.toNat)
          else s.sqOperandFault c (.desc dest.toNat)

/-! Counter snapshots (R140). -/

/-- The eight words of a snapshot record. -/
def State.snapWords (s : State) (c index : Nat) : List W64 :=
  let k := s.core c
  let perm := (s.job k.job).cntrd
  let n (i : Nat) : W64 := if perm then s.cntr (cntMc c i) else 0
  let inst := ((s.instOn c).map fun i => (s.entry i.entry).inst.toNat).getD 0
  [ s.mer.now, n 0, n 1, n 2, n 3,
    w64 (at' (b2n perm) 63 + at' (k.job % 4) 32 + at' index 16 + k.ctx.pc % 32768),
    w64 (at' inst 32 + (s.tagOn c).toNat), 0 ]

/-- CSNAP at issue. -/
def State.issueSnap (s : State) (c : Nat) (dest index : BitVec 12) : State :=
  if (s.core c).movesFull then s.sqHold c .stall (.csnap dest index)
  else
    match (s.core c).tileAt dest.toNat with
    | .error e => s.sqOperandFault c e
    | .ok t =>
      let a := t.base + 64 * index.toNat
      if !t.wide && decide (t.fmt ≤ 8) && decide (64 ≤ t.rowBytes) && s.tileInRange t && s.jobRange a 64 then
        (s.modCtx c fun x => { x with moves := x.moves ++ [.snap a (s.snapWords c index.toNat)] }).sqAdvance c
      else s.sqOperandFault c (.desc dest.toNat)

/-- A MOV, PUT or CSNAP held for the limit of sixteen issues once there is room. -/
def State.resumeMove (s : State) (c : Nat) : State :=
  if (s.core c).movesFull || s.sqStopped c then s
  else
    match (s.core c).ctx.held with
    | .mov a d => s.issueMov c a d
    | .put a d f => s.issuePut c a d f
    | .csnap d i => s.issueSnap c d i
    | _ => s

/-- The bytes of a MOV read from its source and written at its destination, line by line in address order. -/
def State.copyRuns (s : State) (runs : List (Nat × Nat × Nat)) : State :=
  runs.foldl (fun t r => t.writeDone r.2.1 (t.bytes r.1 r.2.2)) s

def State.checkRuns (s : State) (slot : Nat) (runs : List (Nat × Nat × Nat)) : State × Bool :=
  runs.foldl (fun (acc : State × Bool) r =>
    let (s1, ok) := acc.1.checkRange rdSeq slot r.1 r.2.2
    (s1, acc.2 && ok)) (s, true)

/-- The k-th outstanding MOV or CSNAP completes (R125, R140). -/
def State.finishMove (s : State) (c k : Nat) : State :=
  match (s.core c).ctx.moves[k]? with
  | none => s
  | some m =>
    let s0 := s.modCtx c fun x => { x with moves := x.moves.eraseIdx k }
    match m with
    | .snap a ws => (s0.writeWords a ws).resumeMove c
    | .mov src dst _ pc desc =>
      match pairRuns src dst with
      | none => s0
      | some runs =>
        let (s1, ok) := s0.checkRuns (s.core c).job runs
        if ok then (s1.copyRuns runs).resumeMove c else s1.sqFault c .mem pc desc

/-! Loops, branches and calls (R133 to R135). -/

/-- The loops that a jump to `t` leaves open: none whose body lacks the target, nor any inside one (R134). -/
def loopsAfterJump (t : Nat) (ls : List LoopLevel) : List LoopLevel :=
  (ls.reverse.takeWhile fun l => decide (l.first ≤ t ∧ t ≤ l.last)).reverse

/-- A taken branch: a range fault outside the job's range. -/
def State.sqJump (s : State) (c t : Nat) (calls : List Nat) : State :=
  if (s.core c).pcOk t then
    s.modCtx c fun x => { x with pc := t, loops := loopsAfterJump t x.loops, calls := calls }
  else s.sqFault c .range (s.core c).ctx.pc 0

/-- A branch taken or not. -/
def State.sqBranch (s : State) (c t : Nat) (taken : Bool) : State :=
  if taken then s.sqJump c t (s.core c).ctx.calls else s.sqAdvance c

/-- A branch on a semaphore's count: a semaphore fault where it is not granted (R134, R219). -/
def State.sqSemBranch (s : State) (c t n : Nat) (zero : Bool) : State :=
  if s.semGranted (s.core c).job n then s.sqBranch c t (decide ((s.sem n).count = 0) == zero)
  else s.sqFault c .sem (s.core c).ctx.pc 0

/-- Ticks of a unit of WAITT (R132). -/
def waitUnit (u : Nat) : Nat := match u with | 0 => 1 | 1 => 1024 | _ => 1048576

/-- Nominal start of the instance that holds a core, 0 where none does (R33). -/
def State.nominalOn (s : State) (c : Nat) : Nat := ((s.instOn c).map fun i => i.nominal.toNat).getD 0

/-- Waits for a target tick, or goes on where it is past (R39, R40). -/
def State.sqWaitUntil (s : State) (c target : Nat) : State :=
  if target ≤ s.now then s.sqAdvance c else s.sqHold c .waitt (.waitt target)

end Sys2Proof.Machine
end

