-- ==== Sys2Proof/Machine/EngOps.lean ====
section
/-! DEFINITION. What the engine's instructions share: issue, registers (R147, R148), loads, stores and the data
cache (R155 to R159), branches (R151), DMA (R162), generators (R163, R164). -/

namespace Sys2Proof.Machine

/-! Registers. -/

/-- s0 reads as zero (R147). -/
def VeCtx.sreg (x : VeCtx) (r : BitVec 5) : W64 := if r = 0 then 0 else SMap.get 0 x.sregs r.toNat
def VeCtx.setSreg (x : VeCtx) (r : BitVec 5) (v : W64) : VeCtx :=
  if r = 0 then x else { x with sregs := SMap.set 0 x.sregs r.toNat v }
/-- p0 reads as all ones (R147). -/
def VeCtx.preg (x : VeCtx) (r : BitVec 3) : W32 := if r = 0 then 0xFFFFFFFF#32 else SMap.get 0 x.pregs r.toNat
def VeCtx.setPreg (x : VeCtx) (r : BitVec 3) (v : W32) : VeCtx :=
  if r = 0 then x else { x with pregs := SMap.set 0 x.pregs r.toNat v }
def VeCtx.vreg (x : VeCtx) (r : Nat) : VReg := SMap.get [] x.vregs r
def VeCtx.lane (x : VeCtx) (r : BitVec 6) (i : Nat) : W32 := SMap.get 0 (x.vreg r.toNat) i
/-- Lane i of the register after register r. -/
def VeCtx.lane1 (x : VeCtx) (r : BitVec 6) (i : Nat) : W32 := SMap.get 0 (x.vreg (r.toNat + 1)) i

/-- The lanes whose mask bit is 1 take `f`, the others keep their values (R148). -/
def setLanes (v : VReg) (mask : W32) (f : Nat → W32) : VReg :=
  (List.range 32).foldl (fun v i => if mask.getLsbD i then SMap.set 0 v i (f i) else v) v

def VeCtx.setVec (x : VeCtx) (r : Nat) (mask : W32) (f : Nat → W32) : VeCtx :=
  { x with vregs := SMap.set [] x.vregs r (setLanes (x.vreg r) mask f) }

/-- A mask of 32 lanes from a predicate on lanes. -/
def maskOf (f : Nat → Bool) : W32 :=
  BitVec.ofNat 32 ((List.range 32).foldl (fun a i => if f i then a + 2 ^ i else a) 0)

/-- A predicate register with the active lanes replaced. -/
def blendMask (old new mask : W32) : W32 := (old &&& ~~~ mask) ||| (new &&& mask)

def allLanes : W32 := 0xFFFFFFFF#32

/-! Issue (R144, R146, R154). -/

/-- Words of a local store. -/
def lsWords : Nat := 262144

/-- An instruction of engine e: it issues in RUN and not stopped, counted in ISSUED, with its word in the engine's own
local store (R146, R443); otherwise nothing happens, or the range fault of a fetch is raised. -/
def State.veIssue (s : State) (e : Nat) (f : State → State) : State :=
  if (s.eng e).st = .run ∧ s.veStopped e = false then
    if (s.eng e).ctx.pc < lsWords then f (s.bump (cntVe e 0)) else s.veFault e .range
  else s

/-- A change of the registers, then on to the next word. -/
def State.veDo (s : State) (e : Nat) (f : VeCtx → VeCtx) : State := (s.modVctx e f).veAdvance e

/-- A scalar result. -/
def State.veScalar (s : State) (e : Nat) (sd : BitVec 5) (f : VeCtx → W64) : State :=
  s.veIssue e fun t => t.veDo e fun x => x.setSreg sd (f x)

/-- A vector result under a predicate. -/
def State.veVector (s : State) (e : Nat) (vd : BitVec 6) (pm : BitVec 3) (f : VeCtx → Nat → W32) : State :=
  s.veIssue e fun t => t.veDo e fun x => x.setVec vd.toNat (x.preg pm) (f x)

/-- A predicate result. -/
def State.vePred (s : State) (e : Nat) (pd : BitVec 3) (pm : BitVec 3) (f : VeCtx → Nat → Bool) : State :=
  s.veIssue e fun t => t.veDo e fun x => x.setPreg pd (blendMask (x.preg pd) (maskOf (f x)) (x.preg pm))

/-- A branch taken or not; a target outside the own local store raises a range fault at the branch (R151). -/
def State.veBranch (s : State) (e : Nat) (off : BitVec 16) (f : VeCtx → Bool) : State :=
  s.veIssue e fun t =>
    let x := (t.eng e).ctx
    if f x then
      let dst : Int := (x.pc : Nat) + off.toInt
      if 0 ≤ dst ∧ dst < lsWords then t.modVctx e fun y => { y with pc := dst.toNat } else t.veFault e .range
    else t.veAdvance e

/-! Memory (R155 to R158). -/

/-- An address of the engine's own local store. -/
def ownStore (e a n : Nat) : Bool := decide (lsBase e ≤ a ∧ a + n ≤ lsBase e + 0x100000)

/-- Address with a signed offset, modulo 2^64. -/
def addrAt (b : W64) (off : Int) : Nat := (b + BitVec.ofInt 64 off).toNat

/-- Drops a line from a data cache. -/
def Engine.dropLine (k : Engine) (line : Nat) : Engine := { k with dcache := SMap.erase line k.dcache }

/-- Makes room for one more of 512 lines (R144). The manual gives the cache no organisation: here any line may stand in
any of the 512 places, so that a line is replaced only when all are taken, and which one is free (DESIGN CHOICE, log
77). -/
def Engine.makeRoom (k : Engine) (fresh e : Nat) : Engine :=
  if 512 ≤ k.dcache.length then
    { k with dcache := k.dcache.eraseIdx ((Config.freeWord fresh e).toNat % k.dcache.length) }
  else k

/-- Reads n bytes at an address within one line, through the data cache where it is stack memory (R156 to R158): the
bytes, or none where the line is uncorrectable (R186). -/
def State.veRead (s : State) (e a n : Nat) : State × Option (List Byte) :=
  let slot := (s.eng e).job
  match locate a with
  | .stack _ _ =>
    let ca := canon a
    let line := lineOf ca
    match (s.eng e).dcache.find? fun q => q.1 == line with
    | some q => (s, some ((q.2.drop (ca % 128)).take n))
    | none =>
      let s0 := s.bump (cntVe e 3)
      let (s1, ok) := s0.checkLine rdEng slot line
      if ok then
        let bs := s1.bytes line 128
        let s2 := (s1.modEng e fun k =>
          let k1 := k.makeRoom s.fresh e
          { k1 with dcache := SMap.insert line bs k1.dcache }).tick
        (s2, some ((bs.drop (ca % 128)).take n))
      else (s1, none)
  | _ =>
    let (s1, ok) := s.checkRange rdEng slot a n
    if ok then (s1, some (s1.bytes a n)) else (s1, none)

/-- Writes bytes within one line: to memory, and into the engine's cached line if it holds it (R157). The line is
one the engine's fences wait for. Stores of an engine to different addresses may be performed in any order (R210); here
each is performed as it issues, in program order (DESIGN CHOICE, log 77). -/
def State.veWrite (s : State) (e a : Nat) (bs : List Byte) : State :=
  let ca := canon a
  let line := lineOf ca
  (s.write a bs).modEng e fun k =>
    { k with dcache := k.dcache.map fun q => if q.1 = line then (q.1, spliceAt q.2 (ca % 128) bs) else q,
             ctx := { k.ctx with stores := if k.ctx.stores.contains line then k.ctx.stores
                                           else k.ctx.stores ++ [line] } }

/-- An access of `size` bytes: the range fault, then the alignment fault, else the access (R155, R156, R174). -/
def State.veAccess (s : State) (e a size : Nat) (f : State) : State :=
  if !s.jobRange a size then s.veFault e .range
  else if a % size ≠ 0 then s.veFault e .align
  else f

/-! Fences (R210). -/

/-- Every earlier store, atomic and DMA has completed. An atomic completes as it is performed. -/
def VeCtx.quiet (x : VeCtx) : Bool := x.stores.isEmpty && x.dmas.isEmpty

/-- The engine's stores complete: their buffered bytes are written to the arrays (R190, R204). -/
def State.veFlush (s : State) (e : Nat) : State :=
  ((s.eng e).ctx.stores.foldl (fun t l => t.flushLine l) s).modVctx e fun x => { x with stores := [] }

/-! DMA (R162). -/

/-- Flow of an outstanding DMA. -/
def State.dmaFlow (s : State) : DmaOp → Nat
  | .copy _ _ _ f _ => f
  | .put n => match s.op n with | some o => o.flow | none => 8192

/-- v.dma at issue: a ninth stalls; so does a PUT behind a local copy on its flow, which keeps the flow's order
(R212). -/
def State.issueDma (s : State) (e : Nat) (sa : BitVec 5) : State :=
  let x := (s.eng e).ctx
  let job := (s.eng e).job
  let rec' := (x.sreg sa).toNat
  if !ownStore e rec' 32 then s.veFault e .range
  else if rec' % 32 ≠ 0 then s.veFault e .align
  else
    let (s1, ok) := s.checkRange rdEng job rec' 32
    if ok = false then s1.veFault e .mem
    else
      let w0 := s1.word64 rec'
      let dst := s1.word64 (rec' + 8)
      let w2 := s1.word64 (rec' + 16)
      let src := fld w0 47 0
      let chip := fld dst 63 48
      let da := fld dst 47 0
      let flow := fld w2 44 32
      let len := fld w2 31 0
      let n := max len 1
      if !s1.jobRange src n || !s1.jobRange da n then s1.veFault e .range
      else if fld w0 63 48 ≠ 0 ∨ fld w2 63 45 ≠ 0 ∨ s1.word64 (rec' + 24) ≠ 0 ∨ src % 16 ≠ 0 ∨ da % 16 ≠ 0 ∨ len % 16 ≠ 0 ∨ len < 16 ∨
          16777216 < len ∨ s1.flowGranted job flow = false then s1.veFault e .dma
      else
        let here := chip == s1.grp.chip.toNat
        let behind := x.dmas.any fun d => match d with | .copy _ _ _ f _ => f == flow | .put _ => false
        if 8 ≤ x.dmas.length ∨ (!here && behind) = true then s1.veHold e .stall (.dma sa)
        else if here then s1.veDo e fun y => { y with dmas := y.dmas ++ [.copy src da len flow x.pc] }
        else
          let m := s1.lnk.nextOp
          let s2 := s1.veDo e fun y => { y with dmas := y.dmas ++ [.put m] }
          s2.addOp (mkOp (.eng e) flow (some job) chip (dataPackets [(da, src, len)]) x.pc 0)

/-- A v.dma that stalled issues once it may. -/
def State.resumeDma (s : State) (e : Nat) : State :=
  match (s.eng e).ctx.held with
  | .dma sa => if s.veStopped e then s else s.issueDma e sa
  | _ => s

/-- The k-th outstanding DMA of an engine, a local copy, completes: not before an earlier one on its flow (R204,
R212). -/
def State.finishDma (s : State) (e k : Nat) : State :=
  match (s.eng e).ctx.dmas[k]? with
  | some (.copy src dst len flow pc) =>
    if ((s.eng e).ctx.dmas.take k).any fun d => s.dmaFlow d == flow then s
    else
      let s0 := s.modVctx e fun x => { x with dmas := x.dmas.eraseIdx k }
      let (s1, ok) := s0.checkRange rdDma (s.eng e).job src len
      if ok then (s1.writeDone dst (s1.bytes src len)).resumeDma e else s1.veFaultAt e .mem pc
  | _ => s

/-! Generators (R163, R164). -/

def advanceGen (z0 : W64) : W64 :=
  let z1 := z0 ^^^ (z0 <<< 13)
  let z2 := z1 ^^^ (z1 >>> 7)
  z2 ^^^ (z2 <<< 17)

def mixGen (z0 : W64) : W64 :=
  let z1 := (z0 ^^^ (z0 >>> 30)) * 0xBF58476D1CE4E5B9#64
  let z2 := (z1 ^^^ (z1 >>> 27)) * 0x94D049BB133111EB#64
  z2 ^^^ (z2 >>> 31)

def advanceBy : Nat → W64 → W64
  | 0, z => z
  | n + 1, z => advanceBy n (advanceGen z)

/-- key(T, x, d) of R164. -/
def keyGen (seed : W64) (step : W32) (t x d : Nat) : W32 :=
  let k := mixGen (seed ^^^ ((step.zeroExtend 64) <<< 32) ^^^ w64 t)
  (mixGen (k ^^^ (w64 x <<< 4) ^^^ w64 d)).truncate 32

/-- Output of lane i's free-running generator, some VE cycles after its last use. -/
def Engine.genOut (k : Engine) (i : Nat) : W32 := (mixGen (SMap.get 0 k.gen i)).truncate 32

/-- The generators of an engine advance by the cycles that have passed, a number the manual does not fix. -/
def State.advanceGens (s : State) (e : Nat) : State :=
  (s.modEng e fun k =>
    { k with gen := (List.range 32).foldl (fun g i =>
        SMap.set 0 g i (advanceBy (Config.genCycles s.fresh e) (SMap.get 0 g i))) k.gen }).tick

end Sys2Proof.Machine
end

