-- ==== Sys2Proof/Machine/SchedOps.lean ====
section
/-! DEFINITION. Claims, waiting and holding instances, and the release of cores (R138, R146, R441), shared by the
sequencer's YIELD and HALT, the engines' v.halt, and Darkel. -/

namespace Sys2Proof.Machine

/-- Instances of an entry that have not ended, saved ones included. -/
def State.instsOf (s : State) (i : Nat) : List Inst := s.fw.insts.filter fun x => x.entry == i

/-- The cores an entry names. -/
def coresOf (mask : Nat) : List Nat := (List.range 4).filter fun c => mask / 2 ^ c % 2 == 1

/-- Claim of an entry's instance: its job's CLASS (R441). -/
def State.classOf (s : State) (slot : Nat) : Nat := (s.job slot).cls

/-- Number and nominal start of the instance an entry would launch at a tick, none where none is due (R32, R33, R36):
the pending instance takes the latest number whose nominal start has come. -/
def SchedEntry.due (e : SchedEntry) (now : Nat) : Option (Nat × Nat) :=
  let st := e.start.toNat
  let p := e.period.toNat
  if !e.valid then none
  else if e.asap ∧ e.nextNo = 0 then some (0, now)
  else if p = 0 then (if e.nextNo = 0 ∧ st ≤ now then some (0, st) else none)
  else if st + e.nextNo * p ≤ now then
    let n := (now - st) / p
    some (n, st + n * p)
  else none

/-- A waiting instance: an entry's pending one, or a saved one. -/
structure Waiter where
  entry : Nat
  cores : List Nat
  slot : Nat
  saved : Bool
  /-- It was saved for a yield-back whose holder has run: it resumes before any claim (R447). -/
  back : Bool
  deriving DecidableEq, Repr

/-- Cores an instance still needs. -/
def Inst.needs (x : Inst) : List Nat := x.cores.filter fun c => !x.released.contains c

/-- An instance that a yield-back runs for entry i's waiter is not back in its save (R447). -/
def State.holderRuns (s : State) (i : Nat) : Bool :=
  s.fw.insts.any fun h => (match h.backFor with | some q => q.1 == i | none => false) && decide (h.st ≠ .saved)

/-- The waiting instances (R441). A saved instance of an entry comes before its next one, and a running one holds it
back (R33); one saved for a yield-back waits for its holder's run (R447). -/
def State.waiting (s : State) : List Waiter :=
  (s.fw.insts.filterMap fun x =>
    if x.st = .saved ∧ ¬ (x.yielded = true ∧ s.holderRuns x.entry = true) then
      some ⟨x.entry, x.needs, x.job, true, x.yielded⟩ else none) ++
  s.sched.filterMap fun p =>
    if (p.2.due s.now).isSome && (s.instsOf p.1).isEmpty then
      some ⟨p.1, coresOf p.2.cores, p.2.job, false, false⟩ else none

/-- `a` has the higher claim: CLASS, then DEF; between equal claims the lower entry index (R37, R441). The end of a
yield-back waits for no claim (R447). -/
def State.higher (s : State) (a b : Waiter) : Bool :=
  let ca := s.classOf a.slot
  let cb := s.classOf b.slot
  let da := (s.entry a.entry).deficit
  let db := (s.entry b.entry).deficit
  if a.back ≠ b.back then a.back
  else decide (cb < ca ∨ (ca = cb ∧ (db < da ∨ (da = db ∧ a.entry < b.entry))))

/-- W outranks the holder H of a core (R441). At a YIELD the WHOLE condition is lifted (R137, R441). -/
def State.outranks (s : State) (w : Waiter) (h : Inst) (atYield : Bool) : Bool :=
  let cw := s.classOf w.slot
  let ch := s.classOf h.job
  decide (ch < cw) || (decide (cw = ch) && (!h.whole || atYield) &&
    decide ((s.entry h.entry).deficit + (fld s.fw.sched 47 24 : Nat) ≤ (s.entry w.entry).deficit))

/-- The core an intrusive TEST.RUN evacuates, by words 0 and 1 of its record (R450). -/
def testCore (w0 a0 : W64) : Option Nat :=
  if fld w0 55 48 = 8 then
    match fld a0 63 56 with
    | 1 => some (fld a0 49 48)
    | 2 => some (fld a0 49 48)
    | 3 => some (fld a0 53 48 / 16)
    | _ => none
  else none

/-- An intrusive test runs on the core or waits for it (R451). -/
def State.testHolds (s : State) (c : Nat) : Bool :=
  s.fw.cmds.any fun p =>
    testCore (SMap.get 0 p.2.taken 0) (SMap.get 0 p.2.taken 1) == some c &&
      (match p.2.phase with | .running _ => true | .pending _ => p.2.waits | _ => false)

/-- No instance launches on the core: a test has it or waits for it, it is out of service, or the chip has tripped (R409,
R438, R451). -/
def State.coreBarred (s : State) (c : Nat) : Bool :=
  s.fw.evac.getLsbD c || s.testHolds c || s.fw.oos.getLsbD c || s.pwr.tripped

/-- The core is held by an instance (R33). -/
def State.coreHeld (s : State) (c : Nat) : Bool := (s.instOn c).isSome

/-- No waiter of higher claim needs one of w's cores. -/
def State.firstFor (s : State) (w : Waiter) : Bool :=
  s.waiting.all fun v => v == w || !s.higher v w || !(v.cores.any fun c => w.cores.contains c)

/-- A waiter whose cores are all free, and who is first for them, may launch or resume. -/
def State.mayTake (s : State) (w : Waiter) : Bool :=
  w.cores.all (fun c => !s.coreHeld c && !s.coreBarred c) && s.firstFor w

/-- An instance that a waiting one of higher claim pre-empts: one of the waiters that is first for its cores outranks
every holder of its cores. -/
def State.preempted (s : State) (h : Inst) (atYield : Bool) : Bool :=
  s.waiting.any fun w =>
    w.cores.any (fun c => h.cores.contains c && !h.released.contains c) && s.firstFor w &&
      !(w.cores.any s.coreBarred) &&
      w.cores.all fun c =>
        match s.instOn c with
        | none => true
        | some x => s.outranks w x (atYield && x == h)

/-- An intrusive test waits for a core of the instance (R137, R451). -/
def State.testFor (s : State) (h : Inst) : Bool := h.needs.any s.testHolds

/-- What SQ_ATSTAT shows (R295). -/
def SqCtx.atsReg (x : SqCtx) : Bool × Nat × List Bool × Nat := (x.atsValid, x.atsM, x.atsGroups, x.atsSkipBlk)
def SqCtx.setAts (x : SqCtx) (r : Bool × Nat × List Bool × Nat) : SqCtx :=
  { x with atsValid := r.1, atsM := r.2.1, atsGroups := r.2.2.1, atsSkipBlk := r.2.2.2 }

/-- The STEP and update context of a core's engines, and its SQ_ATSTAT, go back to their job, for its next instance
(R149, R170, R281). -/
def State.keepRegs (s : State) (c slot : Nat) : State :=
  s.modJob slot fun j =>
    { j with atsRegs := SMap.set (false, 0, [], 0) j.atsRegs c (s.core c).ctx.atsReg
             engRegs := (List.range 16).foldl (fun m i =>
        let x := (s.eng (16 * c + i)).ctx
        SMap.set (0, UCtx.zero) m (16 * c + i) (x.step, x.uctx)) j.engRegs }

/-- An instance is gone. -/
def State.dropInst (s : State) (x : Inst) : State :=
  s.modFw fun d => { d with insts := d.insts.filter fun y => decide (¬ (y.entry = x.entry ∧ y.no = x.no)) }

/-- An instance leaves cores within a beat: its share of the beat's cycles there stays its entry's (R439). -/
def State.noteLeft (s : State) (x : Inst) (cs : List Nat) : State :=
  s.modFw fun d => { d with left := d.left ++ cs.map fun c => (c, x.charge) }

/-- The ENDINST record of an instance: its exit code, or STOPPED with the slot's cause (R482). -/
def State.logEnd (s : State) (x : Inst) (stopped : Option Nat) : State :=
  s.logEvt 0 x.job 2 (s.entry x.entry).tag 0 (w64 x.entry) (w64 x.no)
    (match stopped with | none => w64 (x.exit % 4096) | some cause => w64 (at' 1 63 + cause % 16)) 0

/-- The slot becomes READY once none of its entries is VALID and no instance of it remains, where JOB.STOP asked for
that (R436). -/
def State.jobIdle (s : State) (slot : Nat) : Bool :=
  !(s.fw.insts.any fun x => x.job == slot) && !(s.sched.any fun p => p.2.valid && p.2.job == slot)

/-- Every engine of a core has ended (R138, R146). -/
def State.enginesEnded (s : State) (c : Nat) : Bool :=
  (List.range 16).all fun j => (s.eng (16 * c + j)).st == .halted

/-- A core whose sequencer has halted and whose sixteen engines have ended is released; the instance ends with its last
core (R138). Its exit code is that of its lowest-numbered core. -/
def State.releaseCore (s : State) (c : Nat) : State :=
  match s.instOn c with
  | none => s
  | some x =>
    if (s.core c).st = .halted ∧ s.enginesEnded c = true then
      let s1 := (s.keepRegs c x.job).noteLeft x [c]
      let y := { x with released := x.released ++ [c],
                        exit := if x.cores.headD c = c then (s.core c).exitCode else x.exit }
      if x.cores.all (fun k => y.released.contains k) then (s1.dropInst x).logEnd y none
      else s1.modFw fun d => { d with insts := d.insts.map fun z => if z = x then y else z }
    else s

/-! Stopping a job slot (R436, R437). -/

def jobStateCode : JobState → Nat
  | .empty => 0 | .loading => 1 | .ready => 2 | .active => 3 | .stopping => 4 | .faulted => 5 | .failedByMgr => 6

def maskOfCores (l : List Nat) : Nat := ((List.range 4).filter fun c => l.contains c).foldl (fun a c => a + 2 ^ c) 0

/-- FW_JOBj (R454). -/
def State.fwJob (s : State) (j : Nat) : W64 :=
  let b := s.job j
  let mine := s.fw.insts.filter fun x => x.job == j
  let run := mine.filter fun x => x.st != .saved
  let kept := mine.filter fun x => x.st == .saved
  w64 (at' (jobStateCode b.st) 60 + at' (b.cause % 16) 56 + at' (b.sem % 256) 48 +
    at' (maskOfCores (run.flatMap Inst.needs)) 44 + at' (maskOfCores (kept.flatMap Inst.needs)) 40 +
    at' (b.cls % 4) 38 + at' (b2n b.free) 37 + at' (b2n b.cntrd) 36 + at' (b2n b.keyed) 35 + leNat (b.digest.take 4))

/-- Serves the waiters of every semaphore. -/
def State.serveAll (s : State) : State :=
  s.sems.foldl (fun t p => t.semServe p.1 p.2.waiters.length) s

/-- The units of a core stop at their next instruction boundary for good: what is handed to memory or to a link goes on,
what a pass has still to drain is dropped, with the packets not yet whole and the slots its rows reserved (R234, R437).
A faulted unit stays as it is, and one that has ended stays HALTED (R138, R146). -/
def State.stopUnits (s : State) (c : Nat) : State :=
  let s1 := (s.modCore c fun k =>
    { k with st := if k.st = .fault ∨ k.st = .halted then k.st else .idle, reserved := 0,
             staged := k.staged.filter fun p => match p.2 with | some q => decide (q.filled = 64) | none => false,
             ctx := { k.ctx with drnq := [], held := .none,
                                 drainWrites := k.ctx.drainWrites.filter (s.writeReady c ·),
                                 passes := (k.ctx.passes.filter fun p => p.issued).map fun p =>
                                   { p with binds := [] } } }).semLeave (.core c)
  (List.range 16).foldl (fun t i =>
    (t.modEng (16 * c + i) fun k =>
      { k with st := if k.st = .fault ∨ k.st = .halted then k.st else .idle,
               ctx := { k.ctx with held := .none } }).semLeave (.eng (16 * c + i))) s1

/-- An instance ends STOPPED with a cause: a running one's units stop, a saved one's state is discarded. -/
def State.endInst (s : State) (x : Inst) (cause : Nat) : State :=
  let s1 := if x.st = .saved then s
    else (x.needs.foldl (fun t c => (t.keepRegs c x.job).stopUnits c) s).noteLeft x x.needs
  ((s1.dropInst x).logEnd x (some cause)).serveAll

def State.clearValid (s : State) (p : Nat → SchedEntry → Bool) : State :=
  { s with sched := s.sched.map fun q => (q.1, if p q.1 q.2 then { q.2 with valid := false } else q.2) }

/-- Darkel stops a slot (R437): causes as FW_JOB.CAUSE numbers them. -/
def State.stopSlot (s : State) (j cause : Nat) : State :=
  let s1 := (s.fw.insts.filter fun x => x.job == j).foldl (fun t x => t.endInst x cause) s
  let s2 := (s1.clearValid fun _ e => e.job == j).modJob j fun b =>
    { b with st := if cause = 4 then .failedByMgr else .faulted, cause := cause }
  let s3 := if cause = 1 then s2.fwEvt 0 else s2
  s3.logEvt 3 j 0x12 0 0 (s3.fwJob j) 0 0 0

/-- A slot that holds work and has not been stopped. -/
def State.slotLive (s : State) (j : Nat) : Bool :=
  match (s.job j).st with | .ready => true | .active => true | .stopping => true | _ => false

/-- A unit of the slot stands faulted. -/
def State.unitFaulted (s : State) (j : Nat) : Bool :=
  (List.range 4).any (fun c => (s.core c).faultCode != .none && (s.core c).job == j) ||
    (List.range 64).any fun e => (s.eng e).code != .none && (s.eng e).job == j

/-- An operation of the slot has ended with an error (R339). -/
def State.opFailed (s : State) (j : Nat) : Bool :=
  s.lnk.ops.any fun p => match p.2 with | some o => o.job == some j && o.failedWith.isSome | none => false

def stopCauseCode : StopCause → Nat
  | .unit => 1 | .deadlock => 2 | .link => 3 | .manager => 4 | .trip => 5 | .stop => 6 | .service => 7

/-- A JOB.STOP from a manager for the whole of a slot has been read and is not complete (R385). -/
def State.mgrStops (s : State) (j : Nat) : Bool :=
  s.fw.cmds.any fun p =>
    let w (k : Nat) : W64 := SMap.get 0 p.2.taken k
    p.2.phase != .free && fld (w 0) 55 48 == 3 && fld (w 0) 62 60 == 2 && fld (w 1) 1 0 == j && fld (w 2) 10 0 == 0x7FF

/-- The event that stops a slot has come about. A manager's stop takes effect at a step boundary. A deadlock fault
stops its slot as it is raised, a thermal trip and JOB.STOP in their own steps. -/
def State.stopDue (s : State) (j : Nat) (cause : StopCause) : Bool :=
  s.slotLive j &&
    match cause with
    | .unit => s.unitFaulted j
    | .link => s.opFailed j
    | .manager => s.mgrStops j && !s.fw.insts.any fun x => x.job == j && x.st == .running
    | .service => s.sched.any fun p => p.2.valid && p.2.job == j && (coresOf p.2.cores).any fun c => s.fw.oos.getLsbD c
    | .deadlock => false
    | .trip => false
    | .stop => false

end Sys2Proof.Machine
end

