-- ==== Sys2Proof/Machine/DarkelOps.lean ====
section
/-! DEFINITION. Darkel's command table (R417 to R422): posting, the poll, completion and the answers that commands of
sessions and managers get (R387, R471). -/

namespace Sys2Proof.Machine

/-! Command records (R418, R421). -/

def CmdEntry.word (e : CmdEntry) (k : Nat) : W64 := SMap.get 0 e.w k
/-- The words Darkel read. -/
def CmdEntry.took (e : CmdEntry) (k : Nat) : W64 := SMap.get 0 e.taken k
def CmdEntry.arg (e : CmdEntry) (k : Nat) : W64 := e.took (k + 1)
def CmdEntry.code (e : CmdEntry) : Nat := fld (e.took 0) 55 48
def CmdEntry.flag (e : CmdEntry) (k : Nat) : Bool := bit (e.took 0) (32 + k)
def CmdEntry.tag (e : CmdEntry) : W32 := BitVec.ofNat 32 (fld (e.took 0) 31 0)

def cmdReserved (code : Nat) : Bool := code == 0 || decide (0x10 ≤ code)
def cmdLong (code : Nat) : Bool := [1, 3, 5, 8, 9, 0xA, 0xB, 0xD, 0xE].contains code
/-- Flags a command defines. -/
def cmdFlags (code : Nat) : Nat := match code with | 3 => 3 | 5 => 1 | 6 => 1 | 8 => 1 | 0xA => 1 | 0xD => 1 | _ => 0
/-- Kinds of test, calibration and repair that exist (R450, R452, R453). -/
def cmdKindOk (code kind : Nat) : Bool :=
  match code with
  | 8 => decide (kind ≤ 5)
  | 9 => decide (kind ≤ 3)
  | 0xA => decide (2 ≤ kind ∧ kind ≤ 5)
  | _ => true

/-- Status codes (R422). -/
def csOk : Nat := 0
def csPending : Nat := 1
def csRunning : Nat := 2
def csBadCmd : Nat := 0x10
def csBadArg : Nat := 0x11
def csDenied : Nat := 0x12
def csBusy : Nat := 0x13
def csModel : Nat := 0x14
def csImage : Nat := 0x15
def csOverlap : Nat := 0x16
def csGrant : Nat := 0x17
def csLayout : Nat := 0x18
def csPlan : Nat := 0x19
def csNoSpare : Nat := 0x1A
def csState : Nat := 0x1B
def csFail : Nat := 0x1C
def csTimeout : Nat := 0x1D

/-- The slot, entry, core, link or stack a command names (R419). -/
inductive CmdKey where
  | slot (j : Nat)
  | entry (i : Nat)
  | core (c : Nat)
  | link (l : Nat)
  | stack (t : Nat)
  deriving DecidableEq, Repr

def State.cmdKeys (s : State) (e : CmdEntry) : List CmdKey :=
  let a (k : Nat) := e.arg k
  let kind := fld (a 0) 63 56
  match e.code with
  | 1 => [.slot (fld (a 2) 1 0)]
  | 2 => [.slot (fld (a 3) 33 32), .entry (fld (a 0) 9 0)]
  | 3 => .slot (fld (a 0) 1 0) :: (if fld (a 1) 10 0 < 1024 then [.entry (fld (a 1) 10 0)] else [])
  | 4 => [.entry (fld (a 0) 9 0), .slot (s.entry (fld (a 0) 9 0)).job]
  | 9 => if kind = 0 then [.link (fld (a 0) 54 48)] else if kind = 2 then [] else [.core (fld (a 0) 49 48)]
  | 8 => (match kind with
    | 1 => [.core (fld (a 0) 49 48)] | 2 => [.core (fld (a 0) 49 48)] | 3 => [.core (fld (a 0) 53 52)]
    | 4 => [.stack (fld (a 0) 52 48)] | 5 => [.link (fld (a 0) 54 48)] | _ => [])
  | 0xA => (match kind with
    | 2 => [.core (fld (a 0) 49 48)] | 3 => [.core (fld (a 0) 53 52)]
    | 4 => [.stack (fld (a 0) 52 48)] | 5 => [.link (fld (a 0) 54 48)] | _ => [])
  | _ => []

def CmdPhase.no : CmdPhase → Option Nat
  | .free => none
  | .ready n => some n
  | .running n => some n
  | .pending n => some n

/-- A command read earlier and not complete names something that this one names. -/
def State.cmdBlocked (s : State) (i no : Nat) (longOnly : Bool) : Bool :=
  let keys := s.cmdKeys (s.cmd i)
  s.fw.cmds.any fun p =>
    p.1 != i && (match p.2.phase.no with | some n => decide (n < no) | none => false) &&
      (!longOnly || cmdLong p.2.code) && (s.cmdKeys p.2).any fun k => keys.contains k

def State.longRunning (s : State) : Nat :=
  (s.fw.cmds.filter fun p => match p.2.phase with | .running _ => true | _ => false).length

/-- Posted commands not complete (FW_STATUS.PEND). -/
def State.cmdsOut (s : State) : Nat := (s.fw.cmds.filter fun p => bit (p.2.word 0) 63 || p.2.phase != .free).length

/-! Digests (R423, R425, R466). -/

/-- First 32 bytes of SHAKE256. -/
def digest32 (l : List Byte) : List Byte :=
  let d := Config.shake256 l 32
  (List.range 32).map fun i => d[i]?.getD 0

def State.measure (s : State) (k : Nat) (m : List Byte) : State :=
  s.modSec fun c => { c with meas := SMap.set [] c.meas k m,
                             loads := SMap.set 0 c.loads k (min 65535 (SMap.get 0 c.loads k + 1)) }

def zero32 : List Byte := List.replicate 32 0

/-- A bank's 32 bytes; an unlisted bank is zero. -/
def State.bankBytes (s : State) (k : Nat) : List Byte :=
  match SMap.get [] s.sec.meas k with | [] => zero32 | l => l

/-- Extends a bank by a digest. -/
def State.extend (s : State) (k : Nat) (d : List Byte) : State := s.measure k (digest32 (s.bankBytes k ++ d))

/-- A list cut or filled with zeros to a length. -/
def fixLen (n : Nat) (l : List Byte) : List Byte := (List.range n).map fun i => l[i]?.getD 0

def ascii (t : String) : List Byte := t.toList.map fun c => BitVec.ofNat 8 c.toNat

/-! Identity and quotes (R465, R467). -/

/-- SK.seed, SK.prf and PK.seed. -/
def idSeeds (f : Fuses) : List Byte := fixLen 96 (Config.shake256 (f.secret ++ ascii "OZT8-ID") 96)

/-- A signature by the identity key, in the pure form of FIPS 205 with a context string. -/
def State.idSign (s : State) (ctx : String) (m : List Byte) : List Byte :=
  fixLen 29792 (Config.slhSign (idSeeds s.sec.fuses) ([0, BitVec.ofNat 8 (ascii ctx).length] ++ ascii ctx ++ m))

/-- Bytes 0x000 to 0x17F of a quote for a nonce at an address. -/
def State.quoteBody (s : State) (nonce : Nat) : List Byte :=
  let slots := (List.range 4).foldl (fun a j => a + b2n ((s.job j).st != .empty) * 2 ^ (4 + j)) 0
  let flags := b2n s.sec.debug + 2 * b2n ((List.range 4).any fun c => (s.pcore c).replost) +
    4 * b2n s.fw.model.isSome + slots
  toLe 8 0x4F5A543851554F54 ++ toLe 4 1 ++ toLe 2 s.grp.chip.toNat ++ toLe 1 2 ++ toLe 1 3 ++
    w64Bytes s.sec.fuses.serial0 ++ w64Bytes s.sec.fuses.serial1 ++ w64Bytes s.mer.now ++
    toLe 4 s.sec.fuses.secver ++ toLe 4 flags ++ s.bytes nonce 32 ++ fixLen 64 s.sec.idpk ++
    ((List.range 7).flatMap fun k => fixLen 32 (s.bankBytes k)) ++
    ((List.range 7).flatMap fun k => toLe 2 (SMap.get 0 s.sec.loads k)) ++ toLe 2 0

/-! Log records (R481). -/

def LogRec.bytes (r : LogRec) (seq chip : Nat) : List Byte :=
  toLe 8 seq ++ w64Bytes r.now ++
    toLe 8 (at' (r.cls % 256) 56 + at' (r.slot % 256) 48 + at' (r.code % 65536) 32 + r.tag.toNat) ++
    toLe 8 (at' (chip % 65536) 48 + at' (r.unit % 65536) 32) ++ w64Bytes r.a0 ++ w64Bytes r.a1 ++ w64Bytes r.a2 ++
    w64Bytes r.a3

/-! Answers. -/

/-- The record as it stands in the table. -/
def CmdEntry.record (e : CmdEntry) : List Byte := (List.range 8).flatMap fun k => w64Bytes (e.word k)

/-- Header of a port message in one datagram (R468). -/
def portHeader (type len : Nat) (session seq : W32) : List Byte :=
  toLe 2 0x5A4F ++ toLe 1 type ++ toLe 1 0 ++ toLe 1 1 ++ toLe 1 0 ++ toLe 2 len ++ toLe 4 session.toNat ++
    toLe 4 seq.toNat

/-- Customisation strings of KMAC256 (R470). -/
def kmKeys : Nat := 1
def kmReady : Nat := 2
def kmCmd : Nat := 3
def kmBulk : Nat := 4
def kmClose : Nat := 5

/-- The 32 bytes of a tag (R470). -/
def msgTag (key m : List Byte) (custom : Nat) : List Byte := fixLen 32 (Config.kmac256 key m 32 custom)

/-- A message of a session with its tag, under the device key. -/
def Session.signed (q : Session) (type custom : Nat) (seq : W32) (body : List Byte) : PortOut :=
  ⟨type, q.id, seq, body ++ msgTag q.kd (portHeader type (body.length + 32) q.id seq ++ body) custom⟩

def State.portSend (s : State) (m : PortOut) : State := s.modSec fun c => { c with portOut := c.portOut ++ [m] }

/-- RESP for the command in entry i (R471); the completed one is kept for a repeat. -/
def State.portReply (s : State) (i : Nat) (final : Bool) : State :=
  match s.sec.portCmds.find? fun p => p.1 == i with
  | none => s
  | some (_, sid, seq) =>
    let s1 := if final then s.modSec fun c => { c with portCmds := c.portCmds.filter fun p => p.1 != i } else s
    match s.sec.sessions.find? fun q => q.id == sid with
    | none => s1
    | some q =>
      let m := q.signed 0x21 kmCmd seq (s.cmd i).record
      let keep (x : Session) : Session :=
        if x.id = sid ∧ final = true then
          { x with answers := x.answers.map fun a => if a.1 = seq then (seq, m.payload) else a } else x
      (s1.modSec fun c => { c with sessions := c.sessions.map keep }).portSend m

/-- CMDRESP for the command in entry i (R387). -/
def State.mgrReply (s : State) (i : Nat) : State :=
  match s.grp.mgrCmds.find? fun p => p.1 == i with
  | none => s
  | some (_, chip, mseq) =>
    let e := s.cmd i
    let body := s.mgmtHeader (chipGroup chip != chipGroup s.me) ++ toLe 4 mseq.toNat ++ toLe 4 0 ++ w64Bytes (e.word 0) ++ w64Bytes (e.word 6) ++
      w64Bytes (e.word 7)
    (s.modGrp fun g => { g with mgrCmds := g.mgrCmds.filter fun p => p.1 != i }).sendMgmt chip 6 body

/-! Completion (R418, R419). -/

def statusWord (status result : Nat) : W64 := w64 (at' status 56 + result % 2 ^ 48)

/-- STATUS of a command that has been read and is not complete. -/
def State.cmdStatus (s : State) (i status : Nat) (ph : CmdPhase) : State :=
  s.modCmd i fun e => { e with w := SMap.set 0 e.w 6 (statusWord status 0), phase := ph }

/-- Words 6 and 7, then word 0 with OWN clear. A status from 0x10 up sets REFUSED and is logged. -/
def State.finishCmd (s : State) (i status result : Nat) : State :=
  let e := s.cmd i
  let w0 := clrBit (e.took 0) 63
  let w6 := statusWord status result
  let s1 := s.modCmd i fun e =>
    { e with w := SMap.set 0 (SMap.set 0 (SMap.set 0 e.w 6 w6) 7 s.mer.now) 0 w0, phase := .free, taken := [], quote := [] }
  let s2 := if 0x10 ≤ status then (s1.fwEvt 5).logEvt 2 255 0x60 e.tag 0 w0 w6 0 0 else s1
  (s2.portReply i true).mgrReply i

/-- What a command comes to: completed with a status and a result, or not yet complete. -/
inductive CmdOut where
  | fin (s : State) (status result : Nat)
  /-- Refused after reads of memory, whose events stand. -/
  | bad (s : State) (status : Nat)
  | more (s : State)

def CmdOut.err (status : Nat) (s : State) : CmdOut := .fin s status 0

/-- The command in entry i may take its effect: it has this code, its poll has read it, it has started if it is long,
and no earlier one that names the same thing is incomplete (R419). -/
def State.cmdRuns (s : State) (i code : Nat) : Bool :=
  let e := s.cmd i
  e.code == code &&
    (match e.phase with
     | .ready n => !s.cmdBlocked i n false &&
         !(s.fw.cmds.any fun p => match p.2.phase with | .ready k => decide (k < n) | _ => false)
     | .running n => !s.cmdBlocked i n false
     | _ => false)

/-- Runs a command's effect. A status from 0x10 up leaves everything else as it was, but for FAIL (R422). -/
def State.runCmd (s : State) (i code : Nat) (f : CmdEntry → State → CmdOut) : State :=
  if s.cmdRuns i code then
    match f (s.cmd i) s with
    | .more t => t
    | .bad t status => t.finishCmd i status 0
    | .fin t status result => (if status < 0x10 ∨ status = csFail then t else s).finishCmd i status result
  else s

/-- A command whose kind, ARG0[63:56], has a step of its own. -/
def State.runKind (s : State) (i code kind : Nat) (f : CmdEntry → State → CmdOut) : State :=
  if fld ((s.cmd i).arg 0) 63 56 = kind then s.runCmd i code f else s

/-! Posting (R417, R419). -/

/-- A store to the command table from a control core: ORIGIN is LOCAL, and reserved bits stay 0 (R9, R418). -/
def State.cmdStore (s : State) (i k : Nat) (v : W64) : State :=
  let v := if k = 0 then putFld v 62 56 0 else if k = 6 then putFld v 55 48 0 else v
  s.modCmd i fun e => { e with w := SMap.set 0 e.w k v }

def State.accessFault (s : State) (cc addr : Nat) (store : Bool) : State :=
  s.modHart cc fun h =>
    if store then { h with storeFault := some (BitVec.ofNat 48 addr) }
    else { h with loadFault := some (BitVec.ofNat 48 addr) }

def cmdAddr (i : Nat) : Nat := 0xE01810000 + 64 * i

/-- Words 1 to 5, then word 0 (R419); Darkel's own entries take no store (R417). -/
def execCommandPost (cc : CcId) (i : BitVec 8) (w0 : W64) (args : List W64) (s : State) : Result :=
  .next (if 192 ≤ i.toNat then s.accessFault cc (cmdAddr i.toNat + 8) true
    else ((List.range 5).foldl (fun t k => t.cmdStore i.toNat (k + 1) (args[k]?.getD 0)) s).cmdStore i.toNat 0 w0)

/-- Darkel places a command in a free entry from 192 up; none is free otherwise. -/
def State.placeCmd (s : State) (origin : Nat) (words : List W64) : State × Option Nat :=
  match (List.range 64).find? fun k => (s.cmd (192 + k)).phase == .free && !bit ((s.cmd (192 + k)).word 0) 63 with
  | none => (s, none)
  | some k =>
    let w0 := setBit (putFld (words.headD 0) 62 60 origin) 63
    let tail := (List.range 5).map fun n => words[n + 1]?.getD 0
    let w := (w0 :: tail).zipIdx.foldl (fun m p => SMap.set 0 m p.2 p.1) ([] : SMap W64)
    (s.modCmd (192 + k) fun e => { e with w := w, phase := .free, taken := [] }, some (192 + k))

/-- A command Darkel gives itself. -/
def State.internalCmd (s : State) (w0 : W64) (args : List W64) : State := (s.placeCmd 3 (w0 :: args)).1

/-! The poll (R419 to R421). -/

/-- A long command starts: a quote's body is fixed (R467). -/
def State.startLong (s : State) (i no : Nat) : State :=
  let q := if (s.cmd i).code = 0xB then s.quoteBody ((s.cmd i).arg 0).toNat else []
  (s.modCmd i fun e => { e with quote := q }).cmdStatus i csRunning (.running no)

/-- An intrusive test without FORCE waits while a WHOLE instance holds its core (R451). -/
def State.testWaits (s : State) (e : CmdEntry) : Bool :=
  match testCore (e.took 0) (e.arg 0) with
  | some c => !e.flag 0 && (match s.instOn c with | some x => x.whole | none => false)
  | none => false

/-- It waits as PENDING, and nothing launches on its core. -/
def State.holdTest (s : State) (i no : Nat) : State :=
  (s.modCmd i fun e => { e with waits := true }).cmdStatus i csPending (.pending no)

/-- A command just read: refused, completed by its own step, started or kept waiting. -/
def State.takeUp (s : State) (i no : Nat) : State :=
  let e := s.cmd i
  let code := e.code
  if cmdReserved code then s.finishCmd i csBadCmd 0
  else if i < 192 ∧ bit s.fw.auth code = false then s.finishCmd i csDenied 0
  else if fld (e.took 0) 47 32 % 65536 / (cmdFlags code + 1) ≠ 0 ∨ cmdKindOk code (fld (e.arg 0) 63 56) = false then
    s.finishCmd i csBadArg 0
  else if s.cmdBlocked i no true then
    let s1 := s.cmdStatus i csPending (.pending no)
    if cmdLong code then s1.portReply i false else s1
  else if s.testWaits e then (s.holdTest i no).portReply i false
  else if cmdLong code then
    (if s.longRunning < 4 then s.startLong i no else s.cmdStatus i csPending (.pending no)).portReply i false
  else s.modCmd i fun e => { e with phase := .ready no }

/-- Reads one entry if it is posted. -/
def State.pollOne (s : State) (i : Nat) : State :=
  let e := s.cmd i
  if e.phase = .free ∧ bit (e.word 0) 63 = true then
    let no := s.fw.nextRead
    let taken := (List.range 6).foldl (fun m k => SMap.set 0 m k (e.word k)) ([] : SMap W64)
    ((s.modFw fun d => { d with nextRead := no + 1 }).modCmd i fun e =>
      { e with taken := taken, phase := .ready no, waits := false
               since := if fld (e.word 0) 55 48 = 8 then some (s.now / 2 ^ 20) else none }).takeUp i no
  else s

/-- A waiting command starts once it may. -/
def State.startPending (s : State) (i : Nat) : State :=
  match (s.cmd i).phase with
  | .pending no =>
    if s.cmdBlocked i no true then s
    else if s.testWaits (s.cmd i) then s.holdTest i no
    else if cmdLong (s.cmd i).code then
      if s.longRunning < 4 then s.startLong i no else s
    else s.modCmd i fun e => { e with phase := .ready no }
  | _ => s

/-- Waiting commands in the order they were read. -/
def State.pendingOrder (s : State) : List Nat :=
  let l := s.fw.cmds.filterMap fun p => match p.2.phase with | .pending n => some (n, p.1) | _ => none
  (l.foldl (fun (m : SMap Nat) p => SMap.insert p.1 p.2 m) []).map (·.2)

/-- The poll of a beat. -/
def State.poll (s : State) : State :=
  let s1 := s.pendingOrder.foldl (fun t i => t.startPending i) s
  (List.range 256).foldl (fun t i => t.pollOne i) s1

end Sys2Proof.Machine
end

