-- ==== Sys2Proof/Machine/MerOps.lean ====
section
/-! DEFINITION. Meridian's offset, its correction by step or slew, its lock states (R22 to R30). -/

namespace Sys2Proof.Machine

/-- 10 microseconds, in picoseconds (R28). -/
def offsetLimit : Int := 10000000

/-- A time in picoseconds as ticks, to the nearest. -/
def psTicks (ps : Int) : Int := (ps + 500) / 1000

/-- A signed number of picoseconds as MER_OFFSET holds it. -/
def offsetWord (ps : Int) : W64 := BitVec.ofInt 64 ps

/-- The boundary whose event is due next when the count steps to n: the last one that the step reaches or passes, whose event
fires once and at once (R22), else the first after the new count. -/
def boundaryAfter (next n unit : Nat) : Nat := if next ≤ n then n / unit * unit else (n / unit + 1) * unit

/-- The count is set by a step (R22, R27). The step may set it back, also on a chip that has been LOCKED before: R27 gives the
step to ACQUIRE, and R20's count that never decreases is read as that of a chip that stays locked (DESIGN CHOICE, log
entry 73). The events of boundaries that several at once a step passes are one event of the last; those that a step back
comes before fire again. -/
def State.setCount (s : State) (n : Nat) : State :=
  s.modMer fun m =>
    { m with now := w64 n, nextBeat := boundaryAfter m.nextBeat (n % 2 ^ 64) 1024,
             nextEpoch := boundaryAfter m.nextEpoch (n % 2 ^ 64) (2 ^ 20), slew := 0, lastSlew := n % 2 ^ 64, measured := true,
             refAt := n % 2 ^ 64, ptp := .none }

/-- A change of lock state: leaving LOCKED sets LOCK_LOST, entering it clears HOLD_EP (R42). -/
def State.setLock (s : State) (st : LockState) : State :=
  let s1 := if s.mer.st = .locked ∧ st ≠ .locked then s.merEvt 0 else s
  s1.modMer fun m =>
    if st = .locked then { m with st := st, holdEp := 0, extOnly := false, returning := false }
    else { m with st := st, returning := false }

/-- ACQUIRE is entered: no offset has been measured yet. -/
def State.enterAcquire (s : State) : State :=
  (s.setLock .acquire).modMer fun m => { m with measured := false, slew := 0, altSince := none }

/-- The system manager's state depends on its external reference (R30). -/
def State.onReference (s : State) : Bool := s.grp.role == 2 && (s.mer.source == 1 || s.mer.source == 2)

/-- An offset of the own count over upstream or the reference, in picoseconds, has been measured: a step in ACQUIRE;
slew up to 10 microseconds in LOCKED and HOLDOVER, FAULT beyond (R27 to R30). -/
def State.takeOffset (s : State) (off : Int) : State :=
  let s0 := s.modMer fun m => { m with offset := offsetWord off }
  match s0.mer.st with
  | .acquire => s0.setCount ((s0.now : Int) - psTicks off).toNat
  | .free => s0
  | .fault => s0
  | st =>
    if off.natAbs ≤ offsetLimit.natAbs then
      let s1 := s0.modMer fun m => { m with slew := - psTicks off, returning := m.returning || st == .holdover }
      if s1.mer.slew = 0 ∧ st = .holdover then s1.setLock .locked else s1
    else
      ((s0.setLock .fault).merEvt 2).modMer fun m => { m with extOnly := s.onReference, slew := 0 }

/-- The Meridian states in which a schedule entry or an instance forbids a step (R27). -/
def State.workPlanned (s : State) : Bool := (s.sched.any fun p => p.2.valid) || !s.fw.insts.isEmpty

/-! Time frames (R24, R331). -/

/-- Payload of a TIME packet as its fields give it. -/
def frameBytes (f : TimeFrame) : List Byte :=
  toLe 8 f.txTick.toNat ++ toLe 8 f.txPs.toNat ++ toLe 8 f.echoTick.toNat ++
    toLe 8 (at' f.resid.toNat 32 + f.echoPs.toNat)

/-- A tick count and picoseconds past it, in picoseconds. -/
def psOf (tick : W64) (ps : W16) : Int := 1000 * (tick.toNat : Int) + ps.toNat

/-- The own count over the sender's: the frame's arrival less its departure and less the way, which is half of the
round trip corrected by the link's asymmetry (R24). -/
def frameOffset (f : TimeFrame) (asym : Int) : Int :=
  let trip := psOf f.rxTick f.rxPs - psOf f.echoTick f.echoPs - f.resid.toNat
  psOf f.rxTick f.rxPs - psOf f.txTick f.txPs - (trip / 2 - asym)

/-- The time frame a link sends at this tick. -/
def State.timePayload (s : State) (l : Nat) : List Byte :=
  let t := SMap.get TimeLink.none s.mer.frames l
  let resid : Int := if t = .none then 0 else psOf s.mer.now 0 - psOf t.rxTick t.rxPs
  frameBytes ⟨s.mer.now, 0, t.txTick, BitVec.ofInt 32 resid, t.txPs, 0, 0⟩

/-- A TIME packet for the link partner, its payload filled in as it is sent. -/
def State.timePacket (s : State) (l : Nat) : Packet :=
  { dchip := BitVec.ofNat 16 (s.link l).partner, daddr := 0, schip := s.grp.chip, flow := 0, hops := 0,
    kind := BitVec.ofNat 4 pkTime, last := true, status := 0, fseq := 0, lseq := 0, karg := 0, payload := List.replicate 32 0 }

/-- Every link in use is given a time frame to send (R24). -/
def State.sendTime (s : State) : State :=
  (List.range 96).foldl (fun t l => if (t.link l).up then t.enqueue l ownSource (t.timePacket l) else t) s

end Sys2Proof.Machine
end

