-- ==== Sys2Proof/Machine/VeInt.lean ====
section
/-! DEFINITION. Vector integer, logic, selection and movement instructions (R151), and their scalar-operand
forms. -/

namespace Sys2Proof.Machine

/-- Lane by lane over two vectors. -/
def State.veVV (s : State) (e : Nat) (vd va vb : BitVec 6) (pm : BitVec 3) (f : W32 → W32 → W32) : State :=
  s.veVector e vd pm fun x i => f (x.lane va i) (x.lane vb i)

def execVAddI32 (e : EngId) (vd va vb : BitVec 6) (pm : BitVec 3) (s : State) : Result :=
  .next (s.veVV e vd va vb pm (· + ·))
def execVSubI32 (e : EngId) (vd va vb : BitVec 6) (pm : BitVec 3) (s : State) : Result :=
  .next (s.veVV e vd va vb pm (· - ·))
def execVMulI32 (e : EngId) (vd va vb : BitVec 6) (pm : BitVec 3) (s : State) : Result :=
  .next (s.veVV e vd va vb pm (· * ·))
def execVAnd (e : EngId) (vd va vb : BitVec 6) (pm : BitVec 3) (s : State) : Result :=
  .next (s.veVV e vd va vb pm (· &&& ·))
def execVOr (e : EngId) (vd va vb : BitVec 6) (pm : BitVec 3) (s : State) : Result :=
  .next (s.veVV e vd va vb pm (· ||| ·))
def execVXor (e : EngId) (vd va vb : BitVec 6) (pm : BitVec 3) (s : State) : Result :=
  .next (s.veVV e vd va vb pm (· ^^^ ·))
def execVShlI32 (e : EngId) (vd va vb : BitVec 6) (pm : BitVec 3) (s : State) : Result :=
  .next (s.veVV e vd va vb pm fun a b => a <<< (b.toNat % 32))
/-- Arithmetic. -/
def execVShrI32 (e : EngId) (vd va vb : BitVec 6) (pm : BitVec 3) (s : State) : Result :=
  .next (s.veVV e vd va vb pm fun a b => a.sshiftRight (b.toNat % 32))

/-- Two 16-bit sums in one lane. -/
def add16 (a b : W32) : W32 :=
  (a.extractLsb' 16 16 + b.extractLsb' 16 16) ++ (a.extractLsb' 0 16 + b.extractLsb' 0 16)

def execVAddI16 (e : EngId) (vd va vb : BitVec 6) (pm : BitVec 3) (s : State) : Result :=
  .next (s.veVV e vd va vb pm add16)

def execVCmpLtI32 (e : EngId) (pd : BitVec 3) (va vb : BitVec 6) (pm : BitVec 3) (s : State) : Result :=
  .next (s.vePred e pd pm fun x i => (x.lane va i).slt (x.lane vb i))

/-- v.sel writes all lanes: va where the bit of pm is 1, vb elsewhere. -/
def execVSel (e : EngId) (vd va vb : BitVec 6) (pm : BitVec 3) (s : State) : Result :=
  .next (s.veVector e vd 0 fun x i => if (x.preg pm).getLsbD i then x.lane va i else x.lane vb i)

def execVMov (e : EngId) (vd va : BitVec 6) (pm : BitVec 3) (s : State) : Result :=
  .next (s.veVector e vd pm fun x i => x.lane va i)

def execVPerm (e : EngId) (vd va vb : BitVec 6) (pm : BitVec 3) (s : State) : Result :=
  .next (s.veVector e vd pm fun x i => x.lane va ((x.lane vb i).toNat % 32))

/-- sb[31:0], the scalar operand of a vector-scalar instruction. -/
def VeCtx.slane (x : VeCtx) (sb : BitVec 5) : W32 := (x.sreg sb).truncate 32

def execVAddI32S (e : EngId) (vd va : BitVec 6) (sb : BitVec 5) (pm : BitVec 3) (s : State) : Result :=
  .next (s.veVector e vd pm fun x i => x.lane va i + x.slane sb)
def execVBcast (e : EngId) (vd : BitVec 6) (sb : BitVec 5) (pm : BitVec 3) (s : State) : Result :=
  .next (s.veVector e vd pm fun x _ => x.slane sb)
def execVLane (e : EngId) (vd : BitVec 6) (sb : BitVec 5) (pm : BitVec 3) (s : State) : Result :=
  .next (s.veVector e vd pm fun x i => x.slane sb + BitVec.ofNat 32 i)

/-- v.pmov: predicate vd[2:0] := sa[31:0], in the lanes whose bit of pm is 1 (R148). -/
def execVPmov (e : EngId) (pd : BitVec 3) (sa : BitVec 5) (s : State) (pm : BitVec 3 := 0) : Result :=
  .next (s.vePred e pd pm fun x i => (x.slane sa).getLsbD i)

end Sys2Proof.Machine
end

