-- ==== Sys2Proof/Machine/VeF32.lean ====
section
/-! DEFINITION. Vector F32 instructions (R151 to R153, R173): each result is one rounding of the exact value; a NaN
result is the canonical NaN (R47). -/

namespace Sys2Proof.Machine

def f32Add (a b : W32) : W32 := (FVal.add (f32 a) (f32 b)).toF32
def f32Sub (a b : W32) : W32 := (FVal.add (f32 a) (f32 b).neg).toF32
def f32Mul (a b : W32) : W32 := (FVal.mul (f32 a) (f32 b)).toF32
/-- rn(c + a * b). -/
def f32Fma (c a b : W32) : W32 := (FVal.add (f32 c) (FVal.mul (f32 a) (f32 b))).toF32
def f32Div (a b : W32) : W32 := (FVal.divSticky 30 (f32 a) (f32 b)).toF32
def f32Sqrt (a : W32) : W32 := (FVal.sqrtSticky 30 (f32 a)).toF32

def nan32 : W32 := 0x7FC00000#32

/-- Maximum: NaN where either is; +0 above -0. -/
def f32Max (a b : W32) : W32 :=
  let x := f32 a
  let y := f32 b
  if x.isNan || y.isNan then nan32
  else if FVal.lt x y then b
  else if FVal.lt y x then a
  else a &&& b

def f32Min (a b : W32) : W32 :=
  let x := f32 a
  let y := f32 b
  if x.isNan || y.isNan then nan32
  else if FVal.lt x y then a
  else if FVal.lt y x then b
  else a ||| b

def execVAddF32 (e : EngId) (vd va vb : BitVec 6) (pm : BitVec 3) (s : State) : Result :=
  .next (s.veVV e vd va vb pm f32Add)
def execVSubF32 (e : EngId) (vd va vb : BitVec 6) (pm : BitVec 3) (s : State) : Result :=
  .next (s.veVV e vd va vb pm f32Sub)
def execVMulF32 (e : EngId) (vd va vb : BitVec 6) (pm : BitVec 3) (s : State) : Result :=
  .next (s.veVV e vd va vb pm f32Mul)
def execVFmaF32 (e : EngId) (vd va vb : BitVec 6) (pm : BitVec 3) (s : State) : Result :=
  .next (s.veVector e vd pm fun x i => f32Fma (x.lane vd i) (x.lane va i) (x.lane vb i))
def execVMaxF32 (e : EngId) (vd va vb : BitVec 6) (pm : BitVec 3) (s : State) : Result :=
  .next (s.veVV e vd va vb pm f32Max)
def execVMinF32 (e : EngId) (vd va vb : BitVec 6) (pm : BitVec 3) (s : State) : Result :=
  .next (s.veVV e vd va vb pm f32Min)

/-! The approximations of R152. Within the normal range a result is one of the F32 values within 1 ulp of the exact
value; outside it the manual bounds nothing. Which value it is, is free. -/

def opExp : Nat := 0
def opRcp : Nat := 1
def opRsqrt : Nat := 2

/-- A value the manual leaves open; a NaN among them is the canonical one (R47). -/
def approxFree (op : Nat) (w : W32) : W32 :=
  let v := BitVec.ofNat 32 (Config.approxPick op w)
  if (f32 v).isNan then nan32 else v

/-- A result whose magnitude lies in [mag, mag + 1) * 2^exp with mag of 24 bits; `exact` where it is mag * 2^exp. -/
def approxNear (op : Nat) (w : W32) (neg : Bool) (mag : Nat) (exp : Int) (exact : Bool) : W32 :=
  let lead := exp + 23
  if -126 ≤ lead ∧ lead ≤ 127 ∧ (exact = true ∨ lead < 127 ∨ mag + 1 < 2 ^ 24) then
    let c := (lead + 127).toNat * 2 ^ 23 + (mag - 2 ^ 23)
    let pick := Config.approxPick op w
    let c' := if exact then c + pick % 3 - 1 else c + pick % 2
    BitVec.ofNat 32 ((if neg then 2 ^ 31 else 0) + c')
  else approxFree op w

/-- A positive value n * 2^exp, or a little more where not exact, cut to 24 bits. -/
def approxCut (op : Nat) (w : W32) (neg : Bool) (n : Nat) (exp : Int) (exact : Bool) : W32 :=
  let d := Nat.log2 n - 23
  approxNear op w neg (n / 2 ^ d) (exp + d) (exact && n % 2 ^ d == 0)

/-- ln 2 in units of 2^-96. -/
def ln2Fixed : Nat := 54916777467707473351141471128

/-- 1 + r (1 + r/2 (1 + r/3 (...))) for r in units of 2^-96, `k` terms, from the n-th on. -/
def expSeries (r : Nat) : Nat → Nat → Nat
  | 0, _ => 2 ^ 96
  | k + 1, n => 2 ^ 96 + r * expSeries r k (n + 1) / 2 ^ 96 / n

/-- e^x of a finite non-zero x = (-1)^neg * m * 2^e. -/
def approxExp (w : W32) (neg : Bool) (m : Nat) (e : Int) : W32 :=
  let lead := (Nat.log2 m : Int) + e
  if 7 ≤ lead then approxFree opExp w
  else if lead < -30 then
    if neg then approxNear opExp w false (2 ^ 24 - 1) (-24) false else approxNear opExp w false (2 ^ 23) (-23) false
  else
    let x : Int := (if neg then -1 else 1) * (m * 2 ^ (e + 96).toNat : Nat)
    let k := x / (ln2Fixed : Nat)
    let r := (x % (ln2Fixed : Nat)).toNat
    approxCut opExp w false (expSeries r 30 1) (k - 96) false

def f32Exp (w : W32) : W32 :=
  match f32 w with
  | .nan => nan32
  | .inf neg => if neg then 0 else 0x7F800000#32
  | .fin neg m e => if m = 0 then approxNear opExp w false (2 ^ 23) (-23) true else approxExp w neg m e

def f32Rcp (w : W32) : W32 :=
  let sign : W32 := w &&& 0x80000000#32
  match f32 w with
  | .nan => nan32
  | .inf _ => sign
  | .fin neg m e =>
    if m = 0 then sign ||| 0x7F800000#32
    else
      let k := 60 + Nat.log2 m
      approxCut opRcp w neg (2 ^ k / m) (-e - k) (2 ^ k % m == 0)

def f32Rsqrt (w : W32) : W32 :=
  match f32 w with
  | .nan => nan32
  | .inf neg => if neg then nan32 else 0
  | .fin neg m e =>
    if m = 0 then (w &&& 0x80000000#32) ||| 0x7F800000#32
    else if neg then nan32
    else
      let m2 := if e % 2 = 0 then m else 2 * m
      let h := if e % 2 = 0 then e / 2 else (e - 1) / 2
      let t := 60 + Nat.log2 m2
      let r := isqrtBits (2 ^ (2 * t) / m2) (t + 1) 0
      approxCut opRsqrt w false r (-h - t) (r * r * m2 == 2 ^ (2 * t))

/-- Lane by lane over one vector. -/
def State.veV1 (s : State) (e : Nat) (vd va : BitVec 6) (pm : BitVec 3) (f : W32 → W32) : State :=
  s.veVector e vd pm fun x i => f (x.lane va i)

def execVExp (e : EngId) (vd va : BitVec 6) (pm : BitVec 3) (s : State) : Result := .next (s.veV1 e vd va pm f32Exp)
def execVRcp (e : EngId) (vd va : BitVec 6) (pm : BitVec 3) (s : State) : Result := .next (s.veV1 e vd va pm f32Rcp)
def execVRsqrt (e : EngId) (vd va : BitVec 6) (pm : BitVec 3) (s : State) : Result :=
  .next (s.veV1 e vd va pm f32Rsqrt)

/-! Conversions and comparisons. -/

/-- rn of a signed integer. -/
def i32ToF32 (w : W32) : W32 := (esValue w.toInt 0).toF32

/-- Nearest integer, ties to even, saturating; NaN to 0. -/
def f32ToI32 (w : W32) : W32 :=
  match f32 w with
  | .nan => 0
  | .inf neg => if neg then 0x80000000#32 else 0x7FFFFFFF#32
  | .fin neg m e =>
    let q := rneShift m e
    if neg then BitVec.ofInt 32 (-(min q (2 ^ 31) : Nat)) else BitVec.ofNat 32 (min q (2 ^ 31 - 1))

/-- v.cvt.f32.i32: F32 from integer. -/
def execVCvtF32I32 (e : EngId) (vd va : BitVec 6) (pm : BitVec 3) (s : State) : Result :=
  .next (s.veV1 e vd va pm i32ToF32)
/-- v.cvt.i32.f32: integer from F32. -/
def execVCvtI32F32 (e : EngId) (vd va : BitVec 6) (pm : BitVec 3) (s : State) : Result :=
  .next (s.veV1 e vd va pm f32ToI32)

def execVCmpLtF32 (e : EngId) (pd : BitVec 3) (va vb : BitVec 6) (pm : BitVec 3) (s : State) : Result :=
  .next (s.vePred e pd pm fun x i => FVal.lt (f32 (x.lane va i)) (f32 (x.lane vb i)))
def execVCmpEqF32 (e : EngId) (pd : BitVec 3) (va vb : BitVec 6) (pm : BitVec 3) (s : State) : Result :=
  .next (s.vePred e pd pm fun x i => FVal.numEq (f32 (x.lane va i)) (f32 (x.lane vb i)))

/-! Wide multiply-add (R173). -/

/-- The new head and tail of an accumulator. -/
def fmaw (h l a b : W32) : W32 × W32 :=
  let v := FVal.add (FVal.add (f32 h) (f32 l)) (FVal.mul (f32 a) (f32 b))
  let h' := v.toF32
  match f32 h' with
  | .fin _ _ _ => (h', (FVal.add v (f32 h').neg).toF32)
  | _ => (h', h')

/-- An instruction on a register pair: an instruction fault where the register is odd. -/
def State.veEven (s : State) (e : Nat) (r : BitVec 6) (f : State) : State :=
  if r.toNat % 2 = 1 then s.veFault e .instr else f

def execVFmaw (e : EngId) (vd va vb : BitVec 6) (pm : BitVec 3) (s : State) : Result :=
  .next (s.veIssue e fun t => t.veEven e vd (t.veDo e fun x =>
    let f i := fmaw (x.lane vd i) (x.lane1 vd i) (x.lane va i) (x.lane vb i)
    (x.setVec vd.toNat (x.preg pm) fun i => (f i).1).setVec (vd.toNat + 1) (x.preg pm) fun i => (f i).2))

/-! Across lanes (R153). -/

/-- One level of the tree: adjacent pairs. -/
def pairUp (f : W32 → W32 → W32) : List W32 → List W32
  | a :: b :: t => f a b :: pairUp f t
  | l => l

/-- Five levels over 32 lanes. -/
def laneTree (f : W32 → W32 → W32) (l : List W32) : W32 :=
  (pairUp f (pairUp f (pairUp f (pairUp f (pairUp f l))))).headD 0

def VeCtx.lanes (x : VeCtx) (r : BitVec 6) : List W32 := (List.range 32).map (x.lane r)

def execVHsumF32 (e : EngId) (vd va : BitVec 6) (pm : BitVec 3) (s : State) : Result :=
  .next (s.veVector e vd pm fun x _ => laneTree f32Add (x.lanes va))
def execVHmaxF32 (e : EngId) (vd va : BitVec 6) (pm : BitVec 3) (s : State) : Result :=
  .next (s.veVector e vd pm fun x _ => laneTree f32Max (x.lanes va))

/-! Vector-scalar forms: sb[31:0] in every lane in place of vb. -/

def execVAddF32S (e : EngId) (vd va : BitVec 6) (sb : BitVec 5) (pm : BitVec 3) (s : State) : Result :=
  .next (s.veVector e vd pm fun x i => f32Add (x.lane va i) (x.slane sb))
def execVMulF32S (e : EngId) (vd va : BitVec 6) (sb : BitVec 5) (pm : BitVec 3) (s : State) : Result :=
  .next (s.veVector e vd pm fun x i => f32Mul (x.lane va i) (x.slane sb))
def execVFmaF32S (e : EngId) (vd va : BitVec 6) (sb : BitVec 5) (pm : BitVec 3) (s : State) : Result :=
  .next (s.veVector e vd pm fun x i => f32Fma (x.lane vd i) (x.lane va i) (x.slane sb))

end Sys2Proof.Machine
end

