-- ==== Sys2Proof/Machine/VeMem.lean ====
section
/-! DEFINITION. Vector loads and stores in the six CV forms (R155 to R158), and MX packing (R51, R61). -/

namespace Sys2Proof.Machine

/-- Access size of a CV code, none where reserved. -/
def cvSize (cv : Nat) : Option Nat :=
  match cv with | 0 => some 128 | 1 => some 64 | 2 => some 64 | 3 => some 64 | 4 => some 32 | 5 => some 32 | _ => none

/-- The format a CV code converts, none for W32 and I16. -/
def cvFmt (cv : Nat) : Option Nat :=
  match cv with | 2 => some fmtD16 | 3 => some fmtH16 | 4 => some fmtE4M3 | 5 => some fmtE5M2 | _ => none

/-- A lane from its bytes. -/
def cvLoad (cv : Nat) (bs : List Byte) : W32 :=
  match cvFmt cv with
  | some f => (elemDecode f (leNat bs)).toF32
  | none => if cv = 1 then (BitVec.ofNat 16 (leNat bs)).signExtend 32 else BitVec.ofNat 32 (leNat bs)

/-- A lane's bytes. -/
def cvStore (cv : Nat) (w : W32) : List Byte :=
  match cvFmt cv with
  | some f => toLe (if cv ≤ 3 then 2 else 1) (fmtRound f false (f32 w)).1
  | none => if cv = 1 then toLe 2 w.toNat else toLe 4 w.toNat

/-- Address of a vector access (R155). -/
def VeCtx.vaddr (x : VeCtx) (sa : BitVec 5) (imm : BitVec 8) (size : Nat) : Nat :=
  addrAt (x.sreg sa) (imm.toInt * size)

def State.loadVector (s : State) (e : Nat) (v : BitVec 6) (sa : BitVec 5) (pm : BitVec 3) (cv size : Nat)
    (imm : BitVec 8) : State :=
  let a := (s.eng e).ctx.vaddr sa imm size
  s.veAccess e a size
    (match s.veRead e a size with
     | (s1, some bs) =>
       let w := size / 32
       s1.veDo e fun x => x.setVec v.toNat (x.preg pm) fun i => cvLoad cv ((bs.drop (w * i)).take w)
     | (s1, none) => s1.veFault e .mem)

/-- v.ld. -/
def execVLd (e : EngId) (v : BitVec 6) (sa : BitVec 5) (pm : BitVec 3) (cv : BitVec 4) (imm : BitVec 8) (s : State) :
    Result :=
  .next (s.veIssue e fun t =>
    match cvSize cv.toNat with
    | none => t.veFault e .instr
    | some n => t.loadVector e v sa pm cv.toNat n imm)

/-- The active lanes of a store: whole in one access, else lane by lane. -/
def State.storeLanes (s : State) (e a w : Nat) (mask : W32) (f : Nat → List Byte) : State :=
  if mask = allLanes then s.veWrite e a ((List.range 32).flatMap f)
  else (List.range 32).foldl (fun t i => if mask.getLsbD i then t.veWrite e (a + w * i) (f i) else t) s

def State.storeVector (s : State) (e : Nat) (v : BitVec 6) (sa : BitVec 5) (pm : BitVec 3) (cv size : Nat)
    (imm : BitVec 8) : State :=
  let x := (s.eng e).ctx
  let a := x.vaddr sa imm size
  s.veAccess e a size
    ((s.storeLanes e a (size / 32) (x.preg pm) fun i => cvStore cv (x.lane v i)).veAdvance e)

/-- v.st. -/
def execVSt (e : EngId) (v : BitVec 6) (sa : BitVec 5) (pm : BitVec 3) (cv : BitVec 4) (imm : BitVec 8) (s : State) :
    Result :=
  .next (s.veIssue e fun t =>
    match cvSize cv.toNat with
    | none => t.veFault e .instr
    | some n => t.storeVector e v sa pm cv.toNat n imm)

/-! MX blocks. -/

/-- The register's 1,024 bits as a number. -/
def VeCtx.wide (x : VeCtx) (r : BitVec 6) : Nat :=
  (List.range 32).foldl (fun a i => a + (x.lane r i).toNat * 2 ^ (32 * i)) 0

/-- v.unpack: the 32 values of the block in the low bytes of va, its scale in sb[7:0]. -/
def State.veUnpack (s : State) (e : Nat) (f : Nat) (vd va : BitVec 6) (sb : BitVec 5) (pm : BitVec 3) : State :=
  s.veVector e vd pm fun x i =>
    (mxDecode f ((x.sreg sb).toNat % 256) (x.wide va / 2 ^ (fmtBits f * i) % 2 ^ fmtBits f)).toF32

def execVUnpackMxfp4 (e : EngId) (vd va : BitVec 6) (sb : BitVec 5) (pm : BitVec 3) (s : State) : Result :=
  .next (s.veUnpack e fmtMXFP4 vd va sb pm)
def execVUnpackMxfp6E2m3 (e : EngId) (vd va : BitVec 6) (sb : BitVec 5) (pm : BitVec 3) (s : State) : Result :=
  .next (s.veUnpack e fmtE2M3 vd va sb pm)
def execVUnpackMxfp6E3m2 (e : EngId) (vd va : BitVec 6) (sb : BitVec 5) (pm : BitVec 3) (s : State) : Result :=
  .next (s.veUnpack e fmtE3M2 vd va sb pm)
def execVUnpackMxint8 (e : EngId) (vd va : BitVec 6) (sb : BitVec 5) (pm : BitVec 3) (s : State) : Result :=
  .next (s.veUnpack e fmtMXINT8 vd va sb pm)

/-- The element codes of a block as one number. -/
def packBits (f : Nat) (l : List (Nat × Bool)) : Nat :=
  (List.range 32).foldl (fun a i => a + ((l[i]?).getD (0, false)).1 % 2 ^ fmtBits f * 2 ^ (fmtBits f * i)) 0

/-- v.pack: element bytes in the low bytes of vd; the scale in sd[7:0], whose other bits the manual does not give
and are a function of the block, so that no timing enters them (R17). -/
def State.vePack (s : State) (e : Nat) (f : Nat) (vd va : BitVec 6) (sd : BitVec 5) (pm : BitVec 3) : State :=
  s.veIssue e fun t =>
    t.veDo e fun x =>
      let r := mxPack f ((x.lanes va).map f32)
      let n := packBits f r.2
      (x.setVec vd.toNat (x.preg pm) fun i => BitVec.ofNat 32 (n / 2 ^ (32 * i))).setSreg sd
        (putFld (Config.packUpper f (x.lanes va)) 7 0 r.1)

def execVPackMxfp4 (e : EngId) (vd va : BitVec 6) (sd : BitVec 5) (pm : BitVec 3) (s : State) : Result :=
  .next (s.vePack e fmtMXFP4 vd va sd pm)
def execVPackMxfp6E2m3 (e : EngId) (vd va : BitVec 6) (sd : BitVec 5) (pm : BitVec 3) (s : State) : Result :=
  .next (s.vePack e fmtE2M3 vd va sd pm)
def execVPackMxfp6E3m2 (e : EngId) (vd va : BitVec 6) (sd : BitVec 5) (pm : BitVec 3) (s : State) : Result :=
  .next (s.vePack e fmtE3M2 vd va sd pm)
def execVPackMxint8 (e : EngId) (vd va : BitVec 6) (sd : BitVec 5) (pm : BitVec 3) (s : State) : Result :=
  .next (s.vePack e fmtMXINT8 vd va sd pm)

end Sys2Proof.Machine
end

