-- ==== Sys2Proof/Machine/VeRed.lean ====
section
/-! DEFINITION. Reduction adders (R166 to R168), the generators' instruction (R163 to R165), the update context and
the update instructions with their gate (R170 to R172, R251 to R253). -/

namespace Sys2Proof.Machine

/-! Reduction adders. -/

/-- The residue of a list of integers: 1 q0 + 2 q1 + ... mod 65,535 (R166). -/
def residue65535 (qs : List Int) : Nat :=
  (((List.range qs.length).zipWith (fun (i : Nat) (q : Int) => ((i : Int) + 1) * q) qs).foldl (· + ·) 0 % 65535).toNat

/-- The 64 integers of an accumulator pair. -/
def VeCtx.pair (x : VeCtx) (r : BitVec 6) : List Int :=
  ((List.range 32).map fun i => (x.lane r i).toInt) ++ (List.range 32).map fun i => (x.lane1 r i).toInt

/-- The integers an ES16 packet's 128 bytes hold. -/
def es16Ints (bs : List Byte) : List Int :=
  (List.range 64).map fun i => (BitVec.ofNat 16 (leNat ((bs.drop (2 * i)).take 2))).toInt

/-- The integers 1 - 2b of an S1 packet's 8 bytes. -/
def s1Ints (bs : List Byte) : List Int :=
  (List.range 64).map fun i => 1 - 2 * (bitsAt bs i 1 : Nat)

/-- The status of adding a packet (R168), and the sum. -/
def redStatus (es16 : Bool) (acc qs : List Int) (carried : Nat) : Nat × List Int :=
  let sum := List.zipWith (· + ·) acc qs
  if es16 && qs.any (fun q => decide (q = -32768)) then (2, sum)
  else if residue65535 qs ≠ carried then (1, sum)
  else if sum.any (fun q => decide (q < -(2 ^ 31 : Int) ∨ (2 ^ 31 : Int) ≤ q)) then (3, sum)
  else if residue65535 sum ≠ (residue65535 acc + residue65535 qs) % 65535 then (4, sum)
  else (0, sum)

/-- The bit of VE_EVT a status sets. -/
def redEvtBit (st : Nat) : Option Nat := match st with | 1 => some 0 | 2 => some 1 | 3 => some 2 | 4 => some 3 | _ => none

/-- v.red: the packet is read from memory, past the data cache. -/
def State.redAdd (s : State) (e : Nat) (es16 : Bool) (vd : BitVec 6) (sa sb : BitVec 5) (pm : BitVec 3) : State :=
  if pm ≠ 0 ∨ vd.toNat % 2 = 1 then s.veFault e .instr
  else
    let x := (s.eng e).ctx
    let a := (x.sreg sa).toNat
    let n := if es16 then 128 else 8
    s.veAccess e a n
      (let (s1, ok) := s.checkRange rdEng (s.eng e).job a n
       if ok then
         let bs := s1.bytes a n
         let r := redStatus es16 (x.pair vd) (if es16 then es16Ints bs else s1Ints bs) ((x.sreg sb).toNat % 65536)
         let put (i : Nat) : W32 := BitVec.ofInt 32 ((r.2[i]?).getD 0)
         let s2 := s1.veDo e fun y =>
           ((if r.1 = 0 then
               (y.setVec vd.toNat allLanes put).setVec (vd.toNat + 1) allLanes fun i => put (32 + i)
             else y).setSreg sb (w64 r.1))
         match redEvtBit r.1 with
         | some b => s2.modEng e fun k => { k with evt := setBit k.evt b }
         | none => s2
       else s1.veFault e .mem)

def execVRedEs16 (e : EngId) (vd : BitVec 6) (sa sb : BitVec 5) (pm : BitVec 3) (s : State) : Result :=
  .next (s.veIssue e fun t => t.redAdd e true vd sa sb pm)
def execVRedS1 (e : EngId) (vd : BitVec 6) (sa sb : BitVec 5) (pm : BitVec 3) (s : State) : Result :=
  .next (s.veIssue e fun t => t.redAdd e false vd sa sb pm)

/-- v.res: the residue of the accumulator pair va, va + 1, whose first register is even. -/
def execVRes (e : EngId) (sd : BitVec 5) (va : BitVec 6) (s : State) : Result :=
  .next (s.veIssue e fun t => t.veEven e va
    (t.veDo e fun x => x.setSreg sd (w64 (residue65535 (x.pair va)))))

/-! Generators. -/

/-- The output for element index x and draw d of each lane: keyed by the context given, or the lane's own generator as
it stands. -/
def State.drawOf (s : State) (e t x d : Nat) (i : Nat) : W32 :=
  let k := s.eng e
  if k.keyed then keyGen (s.job k.job).seed k.ctx.step t ((x + i) % 2 ^ 48) d else k.genOut i

/-- In free-running mode time has passed since the last draw. -/
def State.beforeDraw (s : State) (e : Nat) : State := if (s.eng e).keyed then s else s.advanceGens e

/-- v.rand (R165). -/
def State.randLanes (s : State) (e : Nat) (vd : BitVec 6) (sa sb : BitVec 5) (pm : BitVec 3) : State :=
  let s1 := s.beforeDraw e
  let x := (s1.eng e).ctx
  let a := (x.sreg sa).toNat
  s1.veDo e fun y =>
    y.setVec vd.toNat (y.preg pm) fun i => s1.drawOf e (a % 2 ^ 32) (x.sreg sb).toNat (a / 2 ^ 32 % 16) i

def execVRand (e : EngId) (vd : BitVec 6) (sa sb : BitVec 5) (pm : BitVec 3) (s : State) : Result :=
  .next (s.veIssue e fun t => t.randLanes e vd sa sb pm)

/-! The update context (R170). -/

/-- The context's fields from its 64 bytes, none where a reserved bit is set or WFMT is out of range. -/
def uctxOf (bs : List Byte) : Option UCtx :=
  let w (o : Nat) : W32 := BitVec.ofNat 32 (leNat ((bs.drop o).take 4))
  let b (o : Nat) : Nat := leNat ((bs.drop o).take 1)
  let elem := leNat ((bs.drop 0x28).take 8)
  if 2 ^ 48 ≤ elem ∨ 3 < b 0x34 ∨ 1 < b 0x35 ∨ leNat ((bs.drop 0x37).take 9) ≠ 0 then none
  else some ⟨w 0, w 4, w 8, w 12, w 16, w 20, w 24, w 28, w 32, w 36, BitVec.ofNat 48 elem, w 0x30, b 0x34,
    b 0x35 == 1, sext 8 (b 0x36)⟩

/-- v.uctx. R170 and R174 name no code for an address outside the own local store or off a 64-byte boundary: RANGE, then
ALIGN, as for the other accesses of R174 (DESIGN CHOICE, log 77). -/
def State.loadUctx (s : State) (e : Nat) (sa : BitVec 5) : State :=
  let a := ((s.eng e).ctx.sreg sa).toNat
  if !ownStore e a 64 then s.veFault e .range
  else if a % 64 ≠ 0 then s.veFault e .align
  else
    let (s1, ok) := s.checkRange rdEng (s.eng e).job a 64
    if ok then
      match uctxOf (s1.bytes a 64) with
      | some u => s1.veDo e fun x => { x with uctx := u }
      | none => s1.veFault e .instr
    else s1.veFault e .mem

def execVUctx (e : EngId) (sa : BitVec 5) (s : State) : Result := .next (s.veIssue e fun t => t.loadUctx e sa)

/-! Update instructions. -/

/-- What the gate says (R251). -/
inductive Gate where
  | apply
  | skip
  | wait
  | stale
  deriving DecidableEq, Repr

def State.updGate (s : State) (e : Nat) : Gate :=
  let st := (s.bank (s.eng e).job).state
  let d : W32 := (s.eng e).ctx.step - BitVec.ofNat 32 (fld st 63 32)
  if d = 0 then (if bit st 16 then .skip else .apply)
  else if (0 : W32).slt d then .wait
  else .stale

/-- Stochastic rounding of an F32 value to a format, with the low 16 bits of a generator's output, back as F32. -/
def srTo (f : Nat) (x draw : W32) : W32 :=
  match fmtSpec f with
  | some sp => (sp.decode (sp.stochastic (f32 x) (draw.toNat % 65536))).toF32
  | none => x

/-- WFMT's format. -/
def wfmtOf (w : Nat) : Nat := match w with | 0 => fmtD16 | 1 => fmtH16 | 2 => fmtE4M3 | _ => fmtE5M2

/-- v.upd.adam on one lane: w1, m1, v1 (R171). -/
def adamLane (u : UCtx) (w m v gin : W32) : W32 × W32 × W32 :=
  let g := f32Mul gin u.gscale
  let m1 := f32Fma (f32Mul u.omb1 g) u.b1 m
  let v1 := f32Fma (f32Mul (f32Mul u.omb2 g) g) u.b2 v
  let den := f32Add (f32Sqrt (f32Mul v1 u.c2r)) u.eps
  let r := f32Div (f32Mul m1 u.c1r) den
  (f32Sub w (f32Mul u.lr (f32Fma r u.wd w)), m1, v1)

/-- v.upd.sgdm on one lane: w1, m1. -/
def sgdmLane (u : UCtx) (w m gin : W32) : W32 × W32 :=
  let g := f32Mul gin u.gscale
  let m1 := f32Fma g u.b1 m
  let q := if u.nesterov then f32Fma g u.b1 m1 else m1
  (f32Sub w (f32Mul u.lr (f32Fma q u.wd w)), m1)

/-- v.upd.ef on one lane: the error before its stochastic rounding. -/
def efLane (u : UCtx) (c : W32) (b : Bool) : W32 :=
  (FVal.add (f32 c) (.fin (!b) 1 u.expo)).toF32

/-- The registers an update writes, in the order of its assignment lines. -/
def VeCtx.updRegs (x : VeCtx) (k : UpdKind) (vd va vb : BitVec 6) (pm : BitVec 3) (draw : Nat → Nat → W32) : VeCtx :=
  let u := x.uctx
  match k with
  | .adam =>
    let f i := adamLane u (x.lane vd i) (x.lane va i) (x.lane1 va i) (x.lane vb i)
    let m := x.preg pm
    (((x.setVec vd.toNat m fun i => (f i).1).setVec va.toNat m fun i => srTo fmtD16 (f i).2.1 (draw 0 i)).setVec
      (va.toNat + 1) m fun i => srTo fmtD16 (f i).2.2 (draw 1 i)).setVec vb.toNat m
        fun i => srTo (wfmtOf u.wfmt) (f i).1 (draw 2 i)
  | .sgdm =>
    let f i := sgdmLane u (x.lane vd i) (x.lane va i) (x.lane vb i)
    let m := x.preg pm
    ((x.setVec vd.toNat m fun i => (f i).1).setVec va.toNat m fun i => srTo fmtD16 (f i).2 (draw 0 i)).setVec vb.toNat m
      fun i => srTo (wfmtOf u.wfmt) (f i).1 (draw 2 i)
  | .ef =>
    x.setVec vd.toNat allLanes fun i => srTo fmtD16 (efLane u (x.lane va i) ((x.preg pm).getLsbD i)) (draw 3 i)

/-- The draws of one instruction: in free-running mode time passes between them. -/
def State.updDraws (s : State) (e : Nat) : State × (Nat → Nat → W32) :=
  let s0 := s.beforeDraw e
  let s1 := s0.beforeDraw e
  let s2 := s1.beforeDraw e
  let u := (s.eng e).ctx.uctx
  (s2, fun d i =>
    (match d with | 0 => s0 | 1 => s1 | _ => s2).drawOf e u.tensor.toNat u.elem.toNat d i)

/-- ELEM advances by 32 whatever the outcome, a stall apart. -/
def VeCtx.nextElem (x : VeCtx) : VeCtx := { x with uctx := { x.uctx with elem := x.uctx.elem + 32 } }

/-- An update instruction at its gate. -/
def State.update (s : State) (e : Nat) (k : UpdKind) (vd va vb : BitVec 6) (pm : BitVec 3) : State :=
  match s.updGate e with
  | .wait => s.veHold e .stall (.upd k vd va vb pm)
  | .apply =>
    let d := s.updDraws e
    d.1.veDo e fun x => (x.updRegs k vd va vb pm d.2).nextElem
  | .skip => (s.updDraws e).1.veDo e VeCtx.nextElem
  | .stale => ((s.updDraws e).1.veDo e VeCtx.nextElem).numEvt (s.eng e).job 4

/-- An update stalled by the gate is re-tested (R253). -/
def State.retestUpdate (s : State) (e : Nat) : State :=
  match (s.eng e).st, (s.eng e).ctx.held with
  | .stall, .upd k vd va vb pm => s.update e k vd va vb pm
  | _, _ => s

def execVUpdAdam (e : EngId) (vd va vb : BitVec 6) (pm : BitVec 3) (s : State) : Result :=
  .next (s.veIssue e fun t => t.veEven e va (t.update e .adam vd va vb pm))
def execVUpdSgdm (e : EngId) (vd va vb : BitVec 6) (pm : BitVec 3) (s : State) : Result :=
  .next (s.veIssue e fun t => t.update e .sgdm vd va vb pm)
def execVUpdEf (e : EngId) (vd va : BitVec 6) (pm : BitVec 3) (s : State) : Result :=
  .next (s.veIssue e fun t => t.update e .ef vd va 0 pm)

end Sys2Proof.Machine
end

