-- ==== Sys2Proof/Machine/RedOps.lean ====
section
/-! DEFINITION. The reduction receive unit (R355 to R367): bucket-table entries, landing, posting, resolution,
completion, forwarding, and the finite lap. -/

namespace Sys2Proof.Machine

/-! Entries of the bucket table (R355). -/

/-- An entry as it stands in memory. -/
structure BEnt where
  addr : Nat
  bucket : Nat
  role : Nat
  fmt1 : Nat
  satskip : Bool
  masked : Bool
  nsrc : Nat
  npall : Nat
  eng0 : Nat
  neng : Nat
  flow : Nat
  next : Nat
  dloff : Nat
  slist : Nat
  lbase : Nat
  abase : Nat
  crec : Nat
  step : W32
  expl : Int
  latch : Bool
  deriving DecidableEq, Repr

def State.bent (s : State) (j n : Nat) : BEnt :=
  let a := fld (s.redSlot j).btab 47 0 + 64 * n
  let w (i : Nat) : W64 := s.word64 (a + 8 * i)
  { addr := a, bucket := fld (w 0) 63 48, role := fld (w 0) 47 46, fmt1 := fld (w 0) 45 44, satskip := bit (w 0) 43,
    masked := bit (w 0) 42, nsrc := fld (w 0) 35 24, npall := fld (w 0) 23 0, eng0 := fld (w 1) 63 58,
    neng := max 1 (fld (w 1) 57 51), flow := fld (w 1) 50 38, next := fld (w 1) 37 22, dloff := fld (w 2) 63 32,
    slist := fld (w 3) 47 0, lbase := fld (w 4) 47 0, abase := fld (w 5) 47 0, crec := fld (w 6) 47 0,
    step := BitVec.ofNat 32 (fld (w 7) 63 32), expl := sext 8 (fld (w 7) 31 24), latch := bit (w 7) 23 }

/-- Word 7 of an entry. -/
def bentWord7 (step : W32) (e : Int) (latch : Bool) : W64 :=
  w64 (at' step.toNat 32 + at' (wrapN 8 e) 24 + at' (b2n latch) 23)

def State.rent (s : State) (j n : Nat) : RruEntry := SMap.get .empty (s.redSlot j).entries n
def State.modRent (s : State) (j n : Nat) (f : RruEntry → RruEntry) : State :=
  s.modRed j fun r => { r with entries := SMap.set .empty r.entries n (f (s.rent j n)) }

def State.bentCount (s : State) (j : Nat) : Nat := fld (s.redSlot j).btab 63 52

/-- Entry index of a bucket number, by RED_BIDX. -/
def State.bentOf (s : State) (j bucket : Nat) : Option Nat :=
  let i := leNat (s.bytes (fld (s.redSlot j).bidx 47 0 + 2 * bucket) 2)
  if i < s.bentCount j then some i else none

def State.redEn (s : State) (j : Nat) : Bool := bit (s.redSlot j).ctl 63
def State.rxBase (s : State) (j : Nat) : Nat := fld (s.redSlot j).ctl 47 0

/-! The landing area (R356). -/

/-- Bytes of a packet of a format: ES16, S1, ES32. -/
def packetBytes (fmt : Nat) : Nat := match fmt with | 0 => 128 | 1 => 8 | _ => 256
/-- Format of a source's packets. -/
def BEnt.fmtOf (b : BEnt) (r : SrcRec) : Nat := if r.kind = 2 then 2 else b.fmt1
def BEnt.regionSizes (b : BEnt) (l : List SrcRec) : List Nat := l.map fun r => b.npall * packetBytes (b.fmtOf r)
def BEnt.packetAt (b : BEnt) (l : List SrcRec) (i p : Nat) : Nat :=
  b.lbase + ((b.regionSizes l).take i).sum + p * packetBytes (match l[i]? with | some r => b.fmtOf r | none => 0)
def BEnt.residueAt (b : BEnt) (l : List SrcRec) (i p : Nat) : Nat :=
  b.lbase + (b.regionSizes l).sum + 2 * (i * b.npall + p)
def BEnt.stateAt (b : BEnt) (l : List SrcRec) (i p : Nat) : Nat :=
  b.lbase + (b.regionSizes l).sum + 2 * l.length * b.npall + i * b.npall + p
/-- Accumulator packet of a step (R356). -/
def BEnt.accAt (b : BEnt) (step : W32) (p : Nat) : Nat := b.abase + 256 * b.npall * (step.toNat % 2) + 256 * p

def pkKey (src p : Nat) : Nat := src * 65536 + p
def RruEntry.pkt (r : RruEntry) (src p : Nat) : PkState := SMap.get .none r.pk (pkKey src p)
def RruEntry.takenFor (r : RruEntry) (src p : Nat) : Bool := SMap.get false r.taken (pkKey src p)
/-- Index of the halo of a contribution. -/
def RruEntry.haloOf (r : RruEntry) (src : Nat) : Option Nat :=
  r.srcs.findIdx? fun x => x.kind == 1 && x.prim == src

/-- Column groups of a bucket's rows as the job's own BUCKET descriptors of this chip give them. -/
def State.ownGroups (s : State) (j bucket : Nat) : Option Nat :=
  (List.range 4).findSome? fun c =>
    let k := s.core c
    let r := SMap.get JRange.none k.jrange j
    if !r.valid then none
    else
      k.desc.findSome? fun q =>
        let i := q.1 / 4
        let w1 := SMap.get 0 k.desc (4 * i + 1)
        if q.1 % 4 = 2 ∧ r.dbase ≤ i ∧ i ≤ r.dlim ∧ fld q.2 63 48 = bucket ∧ fld w1 7 4 = 2 then some (fld w1 39 26 / 64)
        else none

/-- Column groups of a bucket's rows. The entry does not hold COLS: a descriptor of the chip gives it, and where no
descriptor names the bucket the value is free (log 83). -/
def State.bucketGroups (s : State) (j bucket : Nat) : Nat :=
  max 1 ((s.ownGroups j bucket).getD (Config.bucketGroups bucket % 6 + 1))

/-- Packets expected of a bucket: all, or the unsuppressed ones of a MASKED entry (R241, R242, R357, R363). -/
def State.expected (s : State) (j : Nat) (b : BEnt) (p : Nat) : Bool :=
  if b.masked && bit (s.redSlot j).mask 63 then
    let g := s.bucketGroups j b.bucket
    !(maskBit (s.bytes (fld (s.redSlot j).mask 47 0 + 128 * b.bucket) 128) (p / g / 64 * g + p % g))
  else true

/-! Posting (R359). -/

/-- Local-store address of an engine's HEAD; TAIL and COMPLETED follow it. -/
def State.headAt (s : State) (j e : Nat) : Nat := lsBase e + fld (s.redSlot j).wqcfg 19 0

/-- Address of descriptor i of an engine's queue. -/
def State.wqAt (s : State) (j e i : Nat) : Nat :=
  let q := max 1 (fld (s.redSlot j).wqcfg 63 40)
  fld (s.redSlot j).wqbase 47 0 + 32 * (e * q + i % q)

/-- Events of a taken copy's header (R373). -/
def State.takenEvents (s : State) (j n src p : Nat) : State :=
  match (s.rent j n).kept.find? fun h => h.src == src && h.pks.contains p with
  | none => s
  | some h =>
    let s1 := if 0 < h.nthr then s.redEvt j 0 else s
    let s2 := if h.nonfin then s1.redEvt j 1 else s1
    let s3 := if 0 < h.sat then s2.redEvt j 2 else s2
    if h.halo then s3.redEvt j 3 else s3

/-- Posts a landed packet to its adding engine. -/
def State.post (s : State) (j n src p : Nat) : State :=
  let b := s.bent j n
  let r := s.rent j n
  match r.srcs[src]? with
  | none => s
  | some q =>
    let e := b.eng0 + p % b.neng
    let i := SMap.get 0 (s.redSlot j).heads e
    let words : List W64 :=
      [w64 (at' b.bucket 48 + at' src 32 + p), w64 (at' (b.fmtOf q) 62 + b.packetAt r.srcs src p),
       w64 (b.accAt b.step p), w64 (at' 0xFF 56 + leNat (s.bytes (b.residueAt r.srcs src p) 2))]
    let s1 := (s.writeWords (s.wqAt j e i) words).modRed j fun x => { x with heads := SMap.set 0 x.heads e (i + 1) }
    let s2 := (s1.writeW64 (s1.headAt j e) (w64 (i + 1))).bump (cntRed j 1)
    (s2.modRent j n fun x => { x with pk := SMap.set .none x.pk (pkKey src p) .posted }).takenEvents j n src p

def State.setPk (s : State) (j n src p : Nat) (v : PkState) : State :=
  s.modRent j n fun x => { x with pk := SMap.set .none x.pk (pkKey src p) v }

/-- A packet resolved as broken (R360). -/
def State.breakPk (s : State) (j n src p : Nat) : State :=
  ((s.setPk j n src p .broken).redEvt j 4).bump (cntRed j 10)

/-- Takes a packet of contribution `src` from its halo `h`: posted at once if its copy has landed, else awaited (R360,
R361). -/
def State.takeHalo (s : State) (j n src h p : Nat) : State :=
  let s1 := ((s.modRent j n fun x =>
      { x with taken := SMap.set false x.taken (pkKey src p) true }).setPk j n src p .passed).redEvt j 3
  let chip := (((s.rent j n).srcs[src]?).map (·.chip)).getD 0
  let s2 := (if s.grp.role = 0 then s1 else s1.modMember chip fun m =>
    { m with took := SMap.set none m.took j (some (s.bent j n).step) }).bump (cntRed j 9)
  match (s.rent j n).pkt h p with
  | .held => s2.post j n h p
  | _ => s2

/-- A packet that cannot be used: the halo's copy where there is one not tried, else broken (R357, R360). -/
def State.failPk (s : State) (j n src p : Nat) : State :=
  let r := s.rent j n
  match r.srcs[src]? with
  | none => s
  | some q =>
    if q.kind = 1 then
      if r.takenFor q.prim p then s.breakPk j n src p else s.setPk j n src p .passed
    else
      match r.haloOf src with
      | some h =>
        if r.takenFor src p || r.pkt h p == .passed then s.breakPk j n src p else s.takeHalo j n src h p
      | none => s.breakPk j n src p

/-! Completion (R363, R364, R366). -/

/-- The packet of contribution or group sum `src` is resolved, by its own copy or its halo's. -/
def RruEntry.resolved (r : RruEntry) (src p : Nat) : Bool :=
  let done (x : PkState) : Bool := x == .added || x == .broken
  if r.takenFor src p then (match r.haloOf src with | some h => done (r.pkt h p) | none => false)
  else done (r.pkt src p)

/-- Last committed step of a slot. -/
def State.committed (s : State) (j : Nat) : W32 := BitVec.ofNat 32 (fld (s.bank j).state 63 32)

/-- Every expected packet of every source of KIND 0 or 2 is resolved. A step in which no packet is expected would complete as
it is armed, and so would every later one: it completes once the step before it is committed (DESIGN CHOICE, log 83). -/
def State.entryDone (s : State) (j n : Nat) : Bool :=
  let b := s.bent j n
  let r := s.rent j n
  let some' := (r.srcs.any fun q => q.kind != 1) && (List.range b.npall).any (s.expected j b)
  r.armed && (some' || b.step == s.committed j + 1) && (List.range r.srcs.length).all fun i =>
    match r.srcs[i]? with
    | some q => q.kind == 1 || (List.range b.npall).all fun p => !s.expected j b p || r.resolved i p
    | none => true

/-- Headers of the chunks from which some packet was taken. -/
def RruEntry.takenHdrs (r : RruEntry) : List ChunkHdr :=
  r.kept.filter fun h => h.pks.any fun p =>
    match r.pkt h.src p with
    | .posted => true | .added => true | .broken => true | _ => false

/-- What a completion record and a forward carry of an entry's step. -/
structure EntrySum where
  nonfin : Bool
  broken : Bool
  halo : Bool
  nthr : Nat
  sat : Nat
  topx : Int
  fbchip : Nat
  fbelem : Nat
  ncon : Nat
  nbroken : Nat
  nhalo : Nat
  nprim : Nat
  deriving DecidableEq, Repr

/-- The first non-finite element: the smallest index, ties to the lowest chip. -/
def firstBad : List ChunkHdr → Nat × Nat
  | [] => (0, 0xFFFFFFFF)
  | h :: t =>
    let r := firstBad t
    if h.fbelem = 0xFFFFFFFF then r
    else if h.fbelem < r.2 ∨ (h.fbelem = r.2 ∧ h.fbchip < r.1) then (h.fbchip, h.fbelem) else r

/-- A source's counts over its chunks taken, its halo's among them: a contribution's saturations add up and it counts once; every chunk of a
group sum carries the whole sum's counts (R353, R363). -/
def srcCounts (q : SrcRec) (hs : List ChunkHdr) : Nat × Nat × Nat :=
  if hs.isEmpty then (0, 0, 0)
  else if q.kind = 2 then
    ((hs.map (·.nthr)).foldl max 0, (hs.map (·.sat)).foldl max 0, (hs.map (·.ncon)).foldl max 0)
  else (if hs.any (fun h => decide (0 < h.nthr)) then 1 else 0, (hs.map (·.sat)).sum, 1)

def RruEntry.summary (r : RruEntry) : EntrySum :=
  let hs := r.takenHdrs
  let per := (List.range r.srcs.length).filterMap fun i =>
    match r.srcs[i]? with
    | some q => if q.kind = 1 then none
        else some (srcCounts q (hs.filter fun h => h.src == i || (q.kind == 0 && r.haloOf i == some h.src)))
    | none => none
  let fb := firstBad hs
  let nb := (r.pk.filter fun x => x.2 == .broken).length
  let haloSrcs := (List.range r.srcs.length).filter fun i => r.taken.any fun x => x.1 / 65536 == i
  { nonfin := hs.any (·.nonfin), broken := decide (0 < nb) || hs.any (·.broken),
    halo := !haloSrcs.isEmpty || hs.any (·.halo), nthr := (per.map (·.1)).sum,
    sat := min ((per.map (·.2.1)).sum) 0xFFFFFFFF, topx := (hs.map (·.topx)).foldl max (-32768),
    fbchip := fb.1, fbelem := fb.2, ncon := (per.map (·.2.2)).sum, nbroken := nb, nhalo := haloSrcs.length,
    nprim := (r.srcs.filter fun q => q.kind != 1).length }

/-- The deadline of the armed step, none without one (R361). -/
def RruEntry.deadline (r : RruEntry) (b : BEnt) : Option Nat :=
  if b.dloff = 0xFFFFFFFF then none else r.t0.map fun t => t.toNat + b.dloff

/-- The lap bits of a completed entry (R366). -/
def lapFlags (x : EntrySum) (satskip late : Bool) : Nat :=
  b2n x.nonfin + 2 * b2n (satskip && decide (0 < x.sat)) + 4 * b2n x.broken + 8 * b2n (decide (0 < x.nthr)) +
    16 * b2n x.halo + 32 * b2n (decide (0 < x.sat)) + 64 * b2n late

/-- ES32 integers of an accumulator packet. -/
def State.accInts (s : State) (a : Nat) : List Int := (List.range 64).map fun i => (s.word32 (a + 4 * i)).toInt

/-- Splits a rising list into runs of consecutive numbers of at most n (R352). -/
def runsOf (n : Nat) : List Nat → List (List Nat)
  | [] => []
  | p :: t =>
    match runsOf n t with
    | (q :: r) :: rest => if q = p + 1 ∧ (q :: r).length < n then (p :: q :: r) :: rest else [p] :: (q :: r) :: rest
    | rest => [p] :: rest

/-- A chunk of a forwarded sum (R353, R363). -/
def State.sumChunk (s : State) (b : BEnt) (x : EntrySum) (ps : List Nat) : List Byte :=
  let ints := ps.map fun p => s.accInts (b.accAt b.step p)
  let w0 := at' b.step.toNat 32 + ps.headD 0
  let w1 := at' ps.length 56 + at' (b2n x.nonfin) 55 + at' (b2n x.broken) 54 + at' (b2n x.halo) 53 +
    at' (x.nthr % 65536) 32 + x.sat
  let w2 := at' (wrapN 16 x.topx) 48 + at' (x.fbchip % 65536) 32 + x.fbelem
  let head := toLe 8 w0 ++ toLe 8 w1 ++ toLe 8 w2 ++ toLe 8 x.ncon
  let res := ints.flatMap fun l => toLe 2 (residue65535 l)
  head ++ List.replicate 32 0 ++ res ++ List.replicate (64 - res.length) 0 ++
    ps.flatMap fun p => s.bytes (b.accAt b.step p) 256

/-- Forwards an entry's sum as ES32 chunks with SLICE 63 (R363). -/
def State.forwardSum (s : State) (j next : Nat) (b : BEnt) (x : EntrySum) : State :=
  let ps := (List.range b.npall).filter (s.expected j b)
  let chunks := runsOf 15 ps
  let karg := BitVec.ofNat 56 (at' b.bucket 40 + at' (wrapN 8 b.expl) 32 + at' 63 26 + at' 2 24)
  chunks.foldl (fun t c =>
    t.addOp (mkOp (.rru j) b.flow (some j) next [⟨pkReduce, t.rxBase j, s.sumChunk b x c, [], karg, true⟩] 0 0)) s

/-- Reads an entry's source list (R355). -/
def State.readSrcs (s : State) (b : BEnt) : List SrcRec :=
  (List.range b.nsrc).map fun i =>
    let w := s.word64 (b.slist + 8 * i)
    ⟨fld w 63 48, fld w 47 42, fld w 41 40, fld w 39 28⟩

/-! Halo and role plans in the tables (R382, R384, R389). -/

def srcWord (r : SrcRec) : W64 := w64 (at' (r.chip % 65536) 48 + at' (r.slice % 64) 42 + at' (r.kind % 4) 40 + at' (r.prim % 4096) 28)

/-- A halo record that no chunk matches. -/
def State.nullHalo (s : State) : SrcRec := ⟨s.grp.chip.toNat, 63, 1, 0⟩

/-- The source list with its halo records as the plan of a step gives them: one for each contribution whose chip the plan
lists, null records in the other places. -/
def State.haloList (s : State) (l : List SrcRec) (step : W32) : List SrcRec :=
  let plan := ((s.grp.haloPlans.find? fun q => q.1 == step).map (·.2)).getD []
  let want := l.zipIdx.filterMap fun q =>
    if q.1.kind = 0 then (plan.find? fun x => x.primary == q.1.chip).map fun x => (⟨x.pool, q.1.slice, 1, q.2⟩ : SrcRec)
    else none
  let places := (l.zipIdx.filter fun q => q.1.kind == 1).map (·.2)
  l.zipIdx.map fun q =>
    if q.1.kind = 1 then (want[places.idxOf q.2]?).getD s.nullHalo else q.1

/-- The changes of the role plans up to a step in a source list. -/
def State.roleList (s : State) (l : List SrcRec) (step : W32) : List SrcRec :=
  let xs := (s.grp.rolePlans.filter fun q => !(step - q.1).slt 0).flatMap (·.2)
  xs.foldl (fun l x => l.map fun r =>
    if x.new ≠ x.former ∧ r.chip = x.former ∧ ((x.kind = 0 ∧ r.kind = 0) ∨ (x.kind = 3 ∧ r.kind = 2)) then
      { r with chip := x.new } else r) l

/-- ROLE and NEXT of an entry after the role plans up to a step (R384). A HALOOWN entry becomes OWN where its sources name the
failed owner's total; an owner whose halo has failed has its own number in NEXT, or the halo's successor. -/
def State.roleEntry (s : State) (srcs : List SrcRec) (role next : Nat) (step : W32) : Nat × Nat :=
  let me := s.grp.chip.toNat
  let xs := (s.grp.rolePlans.filter fun q => !(step - q.1).slt 0).flatMap (·.2)
  xs.foldl (fun (a : Nat × Nat) x =>
    match x.kind with
    | 1 =>
      if a.1 = 2 ∧ x.new = me ∧ (srcs.any fun r => r.kind == 2 && r.chip == x.former) = true then (1, me) else if a.1 = 0 ∧ a.2 = x.former then (0, x.new) else a
    | 2 => if a.1 = 1 ∧ a.2 = x.former then (1, if x.new = x.former then me else x.new) else a
    | _ => a) (role, next)

/-- Darkel writes an entry's records for the step after the one armed, in the window of R382. -/
def State.writeWindow (s : State) (j n : Nat) : State :=
  let b := s.bent j n
  let t := b.step + 1
  let old := s.readSrcs b
  let new := s.haloList (s.roleList old t) t
  let r := s.roleEntry old b.role b.next t
  let s1 := (old.zip new).zipIdx.foldl (fun u q =>
    if q.1.1 = q.1.2 then u else u.writeW64 (b.slist + 8 * q.2) (srcWord q.1.2)) s
  let w0 := s.word64 b.addr
  let w1 := s.word64 (b.addr + 8)
  let s2 := if r.1 = b.role then s1 else s1.writeW64 b.addr (putFld w0 47 46 r.1)
  if r.2 = b.next then s2 else s2.writeW64 (b.addr + 8) (putFld w1 37 22 r.2)

/-- Arms a step: STEP written, LATCH cleared, the step's bank and the state bytes zeroed, the sources read (R363). -/
def State.armEntry (s : State) (j n : Nat) (step : W32) : State :=
  let b := s.bent j n
  let srcs := s.readSrcs b
  let s1 := (s.writeW64 (b.addr + 56) (bentWord7 step 0 false)).writeDone (b.accAt step 0)
    (List.replicate (256 * b.npall) 0)
  let s2 := s1.writeDone (b.stateAt srcs 0 0) (List.replicate (srcs.length * b.npall) 0)
  (s2.modRent j n fun r =>
    { r with armed := true, srcs := srcs, pk := [], kept := [], taken := [], discard := 0, t0 := none,
             deadlinePassed := false, role := b.role, next := b.next }).writeWindow j n

/-- COMPLETED of an engine: one below the lowest step still armed among the entries it serves (R359). -/
def State.writeCompleted (s : State) (j e : Nat) : State :=
  let mine := (List.range (s.bentCount j)).filter fun n =>
    let b := s.bent j n
    decide (b.eng0 ≤ e ∧ e < b.eng0 + b.neng)
  match mine.map fun n => (s.bent j n).step with
  | [] => s
  | x :: t =>
    let low := t.foldl (fun (a y : W32) => if y.slt a || (y - a).slt 0 then y else a) x
    s.writeW64 (s.headAt j e + 16) ((low - 1).zeroExtend 64)

/-! The lap (R366, R367). -/

/-- The chip's word for a step: the OR of its OWN and HALOOWN entries' flags, none until all have completed it. -/
def State.lapWord (s : State) (j : Nat) (step : W32) : Option Nat :=
  let mine := (List.range (s.bentCount j)).filter fun n => (s.rent j n).role != 0
  if mine.all fun n => (s.rent j n).doneStep == some step then
    some ((mine.map fun n => (s.rent j n).flags.toNat).foldl (· ||| ·) 0)
  else none

/-- Sends a LAP packet of a stage. -/
def State.sendLap (s : State) (j : Nat) (step : W32) (stage word dchip : Nat) : State :=
  let body := toLe 8 (step.toNat + at' stage 32) ++ toLe 8 word ++ toLe 8 s.grp.chip.toNat ++ List.replicate 8 0
  s.addOp (mkOp (.rru j) (fld (s.redSlot j).lapcfg 39 27) (some j) dchip [⟨pkLap, s.rxBase j, body, [], 0, true⟩] 0 0)

/-- Chip of the group's lap leader for a slot. -/
def State.lapLeader (s : State) (j : Nat) : Nat :=
  chipGroup s.grp.chip.toNat * 64 + fld (s.redSlot j).lapcfg 63 58

/-- Sends the chip's word for the next step once it may. -/
def State.lapSend (s : State) (j : Nat) : State :=
  let t := s.committed j + 1
  if s.redEn j && (s.redSlot j).lapSent != some t then
    match s.lapWord j t with
    | none => s
    | some w =>
      (s.modRed j fun r => { r with lapSent := some t, sentWord := w64 w }).sendLap j t 1 w (s.lapLeader j)
  else s

/-- An entry that has every packet resolved completes its step (R363). -/
def State.completeEntry (s : State) (j n : Nat) : State :=
  if s.entryDone j n then
    let b := s.bent j n
    let r := s.rent j n
    let x := r.summary
    let dl := r.deadline b
    let late := match dl with | some d => decide (d < s.now) | none => false
    let flags := lapFlags x b.satskip late
    let nz := (List.range b.npall).any fun p => s.expected j b p && (s.accInts (b.accAt b.step p)).any (· != 0)
    let t := b.step
    let recAt := b.crec + 64 * (t.toNat % 2)
    let words : List W64 :=
      [w64 (at' b.bucket 48 + at' r.role 46 + t.toNat),
       w64 (at' (wrapN 8 b.expl) 56 + at' flags 48 + at' (b2n nz) 47 + at' (x.nprim % 4096) 24 +
         at' (x.nhalo % 4096) 12 + x.nthr % 4096),
       w64 (at' x.sat 32 + x.nbroken), w64 (at' (x.fbchip % 65536) 48 + x.fbelem),
       w64 (at' (wrapN 16 x.topx) 48), w64 (at' (x.ncon % 2 ^ 32) 32 + r.discard % 2 ^ 32), s.mer.now,
       match dl with | some d => w64 d | none => BitVec.allOnes 64]
    let s1 := s.writeWords recAt words
    let s2 := if late then s1.redEvt j 8 else s1
    let s3 := if r.role = 0 then s2 else s2.modBank j fun k =>
      { k with completed := SMap.set false k.completed b.bucket true,
               nonzero := if nz then SMap.set false k.nonzero b.bucket true else k.nonzero }
    let s4 := if r.role = 0 ∨ (r.role = 1 ∧ r.next ≠ s.grp.chip.toNat) then s3.forwardSum j r.next b x else s3
    let s5 := (s4.modRent j n fun y => { y with flags := BitVec.ofNat 8 flags, doneStep := some t }).armEntry j n (t + 1)
    let s6 := if flags / 2 % 4 ≠ 0 then s5.logEvt 2 j 0x42 0 0 (w64 recAt) (w64 x.nbroken) (w64 x.sat) 0 else s5
    ((List.range b.neng).foldl (fun u i => u.writeCompleted j (b.eng0 + i)) s6).lapSend j
  else s

/-- Entries of which no packet is expected complete the step after the one committed. -/
def State.emptySteps (s : State) (j : Nat) : State :=
  if s.redEn j then (List.range (s.bentCount j)).foldl (fun t n => t.completeEntry j n) s else s

/-! Landing of a REDUCE packet (R357, R358). -/

/-- The slot whose RXBASE a packet names. -/
def State.redSlotOf (s : State) (daddr : Nat) : Option Nat :=
  (List.range 4).find? fun j => s.redEn j && s.rxBase j == daddr

/-- Index of a chunk's first packet, and how many it holds. -/
def chunkPidx (pl : List Byte) : Nat := fld (w64OfBytes pl) 31 0
def chunkNpkt (pl : List Byte) : Nat := fld (w64OfBytes (pl.drop 8)) 63 56

/-- A chunk's header. -/
def chunkHdrOf (src : Nat) (pks : List Nat) (pl : List Byte) : ChunkHdr :=
  let w (i : Nat) : W64 := w64OfBytes (pl.drop (8 * i))
  { src := src, pks := pks, nonfin := bit (w 1) 55, broken := bit (w 1) 54,
    halo := bit (w 1) 53, nthr := fld (w 1) 47 32, sat := fld (w 1) 31 0, topx := sext 16 (fld (w 2) 63 48),
    fbchip := fld (w 2) 47 32, fbelem := fld (w 2) 31 0, ncon := fld (w 3) 31 0 }

/-- A packet that has landed and passed its checks: posted, or held for a halo's (R358, R361). -/
def State.landedPk (s : State) (j n src p : Nat) : State :=
  let r := s.rent j n
  match r.srcs[src]? with
  | none => s
  | some q =>
    if q.kind = 1 then
      let s1 := s.setPk j n src p .held
      if r.takenFor q.prim p then s1.post j n src p
      else if r.deadlinePassed ∧ r.pkt q.prim p = .none then s1.takeHalo j n q.prim src p
      else s1
    else s.post j n src p

/-- A packet of a chunk may still land: not resolved, nor taken from another source (R357). -/
def RruEntry.wanted (r : RruEntry) (src p : Nat) : Bool :=
  match r.srcs[src]? with
  | none => false
  | some q =>
    r.pkt src p == .none &&
      (if q.kind = 1 then !(r.resolved q.prim p) else !(r.takenFor src p))

/-- Writes the packets of a chunk that are wanted, and their residues, to their places. -/
def State.placePackets (s : State) (j n src w : Nat) (pl : List Byte) (ps : List Nat) : State :=
  let b := s.bent j n
  let l := (s.rent j n).srcs
  ps.foldl (fun t p =>
    let i := p - chunkPidx pl
    (t.writeDone (b.packetAt l src p) ((pl.drop (128 + i * w)).take w)).writeDone (b.residueAt l src p)
      ((pl.drop (64 + 2 * i)).take 2)) s

def State.redUnknown (s : State) (j : Nat) : State := (s.redEvt j 6).bump (cntRed j 7)

/-- A landed REDUCE packet (R357). -/
def State.landReduce (s : State) (p : Packet) : State :=
  match s.redSlotOf p.daddr.toNat with
  | none => s.lnkEvt 5
  | some j =>
    let s0 := s.bump (cntRed j 0)
    let ka := p.karg.toNat
    let bucket := ka / 2 ^ 40 % 65536
    let e := sext 8 (ka / 2 ^ 32)
    let slice := ka / 2 ^ 26 % 64
    let fmt := ka / 2 ^ 24 % 4
    match s.bentOf j bucket with
    | none => s0.redUnknown j
    | some n =>
      let b := s.bent j n
      let r := s.rent j n
      match r.srcs.findIdx? fun q => q.chip == p.schip.toNat && q.slice == slice && b.fmtOf q == fmt with
      | none => s0.redUnknown j
      | some src =>
        let first := chunkPidx p.payload
        let np := chunkNpkt p.payload
        let w := packetBytes fmt
        let ps := (List.range np).map (first + ·)
        let step : W32 := BitVec.ofNat 32 (fld (w64OfBytes p.payload) 63 32)
        let fits := decide (128 + np * w ≤ p.payload.length ∧ 1 ≤ np ∧
          np ≤ (if fmt = 2 then 15 else 31) ∧ first + np ≤ b.npall) && ps.all (s.expected j b)
        if !fits then s0.redUnknown j
        else if step ≠ b.step then
          if (step - b.step).slt 0 then (s0.redEvt j 7).bump (cntRed j 8) else s0.redUnknown j
        else
          let good := ps.filter fun q => r.wanted src q
          let s1 := s0.modRent j n fun x => { x with discard := x.discard + (ps.length - good.length) }
          let s2 := s1.placePackets j n src w p.payload good
          if b.latch && e != b.expl then
            (good.foldl (fun t q => t.failPk j n src q) (s2.redEvt j 5)).completeEntry j n
          else
            let s3 := s2.writeW64 (b.addr + 56) (bentWord7 b.step e true)
            let s4 := s3.modRent j n fun x => { x with kept := x.kept ++ [chunkHdrOf src good p.payload] }
            (good.foldl (fun t q => t.landedPk j n src q) s4).completeEntry j n

/-! Landing of a LAP packet (R367). -/

def LapAcc.zero (step : W32) : LapAcc := ⟨step, [], 0, [], 0, false, false⟩

def State.lapAcc (s : State) (j : Nat) (step : W32) : LapAcc :=
  ((s.redSlot j).laps.find? fun a => a.step == step).getD (.zero step)
def State.setLapAcc (s : State) (j : Nat) (a : LapAcc) : State :=
  s.modRed j fun r => { r with laps := (r.laps.filter fun x => x.step != a.step) ++ [a] }

/-- Chip numbers of the lap lists: the members, then the leaders. -/
def State.lapList (s : State) (j first n : Nat) : List Nat :=
  let a := fld (s.redSlot j).laplist 47 0
  (List.range n).map fun i => leNat (s.bytes (a + 2 * (first + i)) 2)

def State.nmem (s : State) (j : Nat) : Nat := fld (s.redSlot j).lapcfg 57 51
def State.ngrp (s : State) (j : Nat) : Nat := fld (s.redSlot j).lapcfg 50 40

/-- Stage 1 at a leader: a member's word. -/
def State.lapStage1 (s : State) (j : Nat) (step : W32) (word : W64) (chip : Nat) : State :=
  let a := s.lapAcc j step
  if a.members.contains chip ∨ a.groupSent then s
  else
    let a1 := { a with members := a.members ++ [chip], word := a.word ||| word }
    if a1.members.length = s.nmem j then
      (s.lapList j (s.nmem j) (s.ngrp j)).foldl (fun t d => t.sendLap j step 2 a1.word.toNat d)
        (s.setLapAcc j { a1 with groupSent := true })
    else s.setLapAcc j a1

/-- Stage 2 at a leader: a group's word. -/
def State.lapStage2 (s : State) (j : Nat) (step : W32) (word : W64) (chip : Nat) : State :=
  let a := s.lapAcc j step
  if a.groups.contains chip ∨ a.finalSent then s
  else
    let a1 := { a with groups := a.groups ++ [chip], gword := a.gword ||| word }
    if a1.groups.length = s.ngrp j then
      (s.lapList j 0 (s.nmem j)).foldl (fun t d => t.sendLap j step 3 a1.gword.toNat d)
        (s.setLapAcc j { a1 with finalSent := true })
    else s.setLapAcc j a1

/-- Stage 3: the final word, held until its step is committed (R245). -/
def State.lapStage3 (s : State) (j : Nat) (step : W32) (word : W64) : State :=
  let s1 := (s.modRed j fun r => { r with lapReg := w64 (at' step.toNat 32 + fld word 7 0) }).bump (cntRed j 11)
  if (s.bank j).held.any fun h => h.1 == step then s1
  else s1.modBank j fun k => { k with held := k.held ++ [(step, word, s.mer.now)] }

/-- A landed LAP packet. -/
def State.landLap (s : State) (p : Packet) : State :=
  match s.redSlotOf p.daddr.toNat with
  | none => s.lnkEvt 5
  | some j =>
    let w0 := w64OfBytes p.payload
    let step : W32 := BitVec.ofNat 32 (fld w0 31 0)
    let word := w64OfBytes (p.payload.drop 8)
    let chip := fld (w64OfBytes (p.payload.drop 16)) 15 0
    let d := step - s.committed j
    if d = 1 ∨ d = 2 then
      match fld w0 33 32 with
      | 1 => s.lapStage1 j step word chip
      | 2 => s.lapStage2 j step word chip
      | 3 => s.lapStage3 j step word
      | _ => s.redEvt j 6
    else s.redEvt j 6

/-! Deadlines (R361). -/

/-- A launch of a schedule entry gives T0 to the entries armed since (R361). -/
def State.giveT0 (s : State) (i : Nat) (nominal : W64) : State :=
  (List.range 4).foldl (fun t j =>
    if t.redEn j && fld (t.redSlot j).ctl 57 48 == i then
      t.modRed j fun r => { r with entries := r.entries.map fun x =>
        (x.1, if x.2.armed && x.2.t0.isNone then { x.2 with t0 := some nominal } else x.2) }
    else t) s

/-- The deadline of an entry: every packet of a contribution with a halo that is neither resolved nor posted is taken from
a halo whose copy has landed. -/
def State.deadlineAt (s : State) (j n : Nat) : State :=
  let b := s.bent j n
  let r := s.rent j n
  match r.deadline b with
  | none => s
  | some d =>
    if !r.armed || r.deadlinePassed || decide (s.now < d) then s
    else
      let s1 := s.modRent j n fun x => { x with deadlinePassed := true }
      let todo := (List.range r.srcs.length).flatMap fun i =>
        match r.srcs[i]?, r.haloOf i with
        | some q, some h =>
          if q.kind = 0 then
            (List.range b.npall).filterMap fun p =>
              if s.expected j b p && r.pkt i p == .none && r.pkt h p == .held then some (i, h, p) else none
          else []
        | _, _ => []
      (todo.foldl (fun t x => t.takeHalo j n x.1 x.2.1 x.2.2) s1).completeEntry j n

/-! Statuses (R360). -/

/-- One descriptor that TAIL has passed: its status resolves its packet. -/
def State.readStatus (s : State) (j e i : Nat) : State :=
  let a := s.wqAt j e i
  let w0 := s.word64 a
  let st := fld (s.word64 (a + 24)) 63 56
  let src := fld w0 43 32
  let p := fld w0 31 0
  match s.bentOf j (fld w0 63 48) with
  | none => s
  | some n =>
    if (s.rent j n).pkt src p ≠ .posted then s
    else
      let s1 := if st ≤ 4 then s.bump (cntRed j (2 + st)) else s
      let s2 := match st with
        | 0 => s1.setPk j n src p .added
        | 1 => s1.failPk j n src p
        | 2 => s1.failPk j n src p
        | 4 => (s1.failPk j n src p).logEvt 4 j 0x43 0 e 0 0 0 0
        | _ => s1.breakPk j n src p
      s2.completeEntry j n

/-- An engine's TAIL write: every descriptor newly passed, in order. -/
def State.tailWrite (s : State) (j e : Nat) : State :=
  let old := SMap.get 0 (s.redSlot j).tails e
  let upto := min (s.word64 (s.headAt j e + 8)).toNat (SMap.get 0 (s.redSlot j).heads e)
  (List.range (upto - old)).foldl (fun t k => t.readStatus j e (old + k))
    (s.modRed j fun r => { r with tails := SMap.set 0 r.tails e (max old upto) })

end Sys2Proof.Machine
end

