-- ==== Sys2Proof/Machine/GroupOps.lean ====
section
/-! DEFINITION. What a manager does for its group (R377 to R385): the chips it serves, shadow priorities and halo plans,
messages with their headers (R387, R389). -/

namespace Sys2Proof.Machine

/-- The chip's own group. -/
def State.myGroup (s : State) : Nat := chipGroup s.me

/-- Members of the own group a manager has heard of. -/
def State.groupMembers (s : State) : List Nat :=
  s.grp.members.filterMap fun p => if p.2.heard && chipGroup p.1 == s.myGroup && p.1 != s.me then some p.1 else none

/-- Group managers that the system manager has heard of. -/
def State.groupManagers (s : State) : List Nat :=
  s.grp.members.filterMap fun p => if p.2.heard && chipGroup p.1 != s.myGroup then some p.1 else none

def State.sendAll (s : State) (dst : List Nat) (mtype : Nat) (body : List Byte) : State :=
  dst.foldl (fun t d => t.sendMgmt d mtype body) s

/-! Halo plans (R381, R389). -/

/-- A member in HOLDOVER below the limit (R378). -/
def Member.holds (m : Member) : Bool := m.state == 3 && !m.holdLimit

/-- SPRI after the commit of a step: a member throttled in it, or one whose halo's copy was taken here or elsewhere, moves up;
one in HOLDOVER is at the top (R378, R381). -/
def Member.nextSpri (m : Member) (j : Nat) (step : W32) (elsewhere : Bool) : Nat :=
  let thr := match m.thr.find? fun p => p.1 == j with
    | some (_, f, mask) => let k := (step - f).toNat; decide (k < 64) && mask.getLsbD k
    | none => false
  let took := elsewhere || SMap.get none m.took j == some step
  let spri := SMap.get 0 m.spri j
  if m.holds then 255 else if thr || took then min (spri + 64) 255 else spri - 8

/-- `a` is backed before `b`: SPRI, then the most steps since it was last backed, then the lower chip. -/
def backedBefore (s : State) (j : Nat) (step : W32) (a b : Nat × Nat) : Bool :=
  let spri (c : Nat) : Nat := SMap.get 0 (s.member c).spri j
  let age (c : Nat) : Nat :=
    match SMap.get none (s.member c).lastBacked j with | none => 2 ^ 32 | some t => (step - t).toNat
  decide (spri b.1 < spri a.1 ∨
    (spri a.1 = spri b.1 ∧ (age b.1 < age a.1 ∨ (age a.1 = age b.1 ∧ a.1 < b.1))))

def insertBy {α : Type} (lt : α → α → Bool) (a : α) : List α → List α
  | [] => [a]
  | b :: t => if lt a b then a :: b :: t else b :: insertBy lt a t
def sortBy {α : Type} (lt : α → α → Bool) (l : List α) : List α := l.foldl (fun acc a => insertBy lt a acc) []

/-- Each pool member takes the first primary of its list that is still unbacked. -/
def assign : List Cover → List (Nat × Nat) → List (Nat × Nat × Nat)
  | [], _ => []
  | c :: t, ps =>
    match ps.find? fun p => c.prims.contains p with
    | none => assign t ps
    | some p => (c.pool, p.1, p.2) :: assign t (ps.filter (· != p))

/-- Slices a chip sends in the job, as this chip's source lists name them. -/
def State.slicesOf (s : State) (j chip : Nat) : W64 :=
  (List.range (s.bentCount j)).foldl (fun a n =>
    (s.rent j n).srcs.foldl (fun a r => if r.kind = 0 ∧ r.chip = chip ∧ r.slice < 48 then setBit a r.slice else a) a) 0

/-- The member has failed, or counts as failed for the job of a slot (R378). -/
def Member.failedIn (m : Member) (j : Nat) : Bool := m.failed || m.failedFor.contains j

/-- A pool member holds a primary's role of the job, which a role plan gave it for good (R384). -/
def State.promoted (s : State) (j pool : Nat) : Bool :=
  s.grp.covers.any fun c => c.slot == j && c.prims.any fun p => p.1 == pool

/-- A primary's role goes to another chip in the cover sets. -/
def Cover.promote (c : Cover) (p : Nat × Nat) (new : Nat) : Cover :=
  { c with prims := c.prims.map fun q => if q = p then (new, p.2) else q }

/-- A pool member that a plan formed at the commit of a step may name: a new one no earlier than two steps after it reported
the job loaded (R385). -/
def State.poolReady (s : State) (j pool : Nat) (t : W32) : Bool :=
  let m := s.member pool
  !m.failedIn j && !s.promoted j pool && !m.joining.contains j &&
    match SMap.get none m.poolFrom j with | none => true | some e => !(t - e).slt 0

/-- SLICEMASK of a primary: the slices that this chip's lists name, and those it sends to owners elsewhere (log 85). -/
def State.sliceMask (s : State) (j chip : Nat) : W64 :=
  s.slicesOf j chip ||| (Config.slicesElsewhere s.fresh chip &&& 0xFFFFFFFFFFFF)

/-- The halo plan a manager forms for a step. -/
def State.formPlan (s : State) (j : Nat) (step : W32) : List HaloEntry :=
  let ours := s.grp.covers.filter fun c => c.slot == j && s.poolReady j c.pool (step - 2)
  ((ours.map (·.set)).eraseDups).flatMap fun k =>
    let pool := sortBy (fun (a b : Cover) => decide (a.pool < b.pool)) (ours.filter fun c => c.set == k)
    let prims := ((pool.flatMap (·.prims)).eraseDups).filter fun p => !(s.member p.1).failedIn j
    (assign pool (sortBy (backedBefore s j step) prims)).map fun a => ⟨a.1, a.2.1, a.2.2, s.sliceMask j a.2.1⟩

def haloPlanBody (step : W32) (l : List HaloEntry) : List Byte :=
  toLe 4 step.toNat ++ toLe 4 l.length ++
    l.flatMap fun x => toLe 2 x.pool ++ toLe 2 x.primary ++ toLe 2 x.ridx ++ toLe 2 0 ++ w64Bytes x.slices

/-- Darkel's window for every entry that waits for a plan's step. -/
def State.openWindows (s : State) (step : W32) : State :=
  (List.range 4).foldl (fun t j =>
    (List.range (t.bentCount j)).foldl (fun u n =>
      if (u.rent j n).armed ∧ !((u.bent j n).step + 1 - step).slt 0 then u.writeWindow j n else u) t) s

/-- The entries held for a step: those of a new plan, and those of another job's plan for the same step. -/
def joinPlans (old new : List HaloEntry) : List HaloEntry :=
  (old.filter fun x => !new.any fun y => y.pool == x.pool) ++ new

/-- A halo plan is held for its step. -/
def State.holdPlan (s : State) (step : W32) (l : List HaloEntry) : State :=
  let old := ((s.grp.haloPlans.find? fun q => q.1 == step).map (·.2)).getD []
  (s.modGrp fun g =>
    { g with haloPlans := (g.haloPlans.filter fun q => q.1 != step) ++ [(step, joinPlans old l)] }).openWindows step

/-- Chips of the job in this group, as the lap list names them. -/
def State.jobChips (s : State) (j : Nat) : List Nat := if s.redEn j then s.lapList j 0 (s.nmem j) else []

/-- Owners and group owners that this chip knows of: those of its HALO section, and the chips its own entries forward to. -/
def State.planOwners (s : State) (j : Nat) : List Nat :=
  let pairs (l : List (Nat × Nat × Nat)) : List Nat := (l.filter fun x => x.1 == j).flatMap fun x => [x.2.1, x.2.2]
  pairs s.grp.backupGo ++ pairs s.grp.ownHalo ++ (List.range (s.bentCount j)).map fun n => (s.bent j n).next

/-- At the commit of step t with a final word a manager updates its members' priorities and forms the plan for step t + 2
(R381). Where the word shows that a halo copy was taken, it may have been for any primary: the word does not name it (log 85).
Without cover sets it plans nothing. -/
def State.commitPlans (s : State) (j : Nat) (t : W32) (word : W64) : State :=
  if s.grp.role = 0 ∨ (s.grp.covers.any fun c => c.slot == j) = false then s
  else
    let prims := ((s.grp.covers.filter fun c => c.slot == j).flatMap fun c => c.prims.map (·.1)).eraseDups
    let took (p : Nat) : Bool := bit word 4 && Config.takenElsewhere s.fresh p
    let s1 := (prims.foldl (fun u p => u.modMember p fun m =>
      { m with spri := SMap.set 0 m.spri j (m.nextSpri j t (took p)) }) s).tick
    let step := t + 2
    let plan := s1.formPlan j step
    let s2 := (plan.foldl (fun u x => u.modMember x.primary fun m =>
      { m with lastBacked := SMap.set none m.lastBacked j (some step) }) s1).tick
    let dst := ((s2.groupMembers ++ s2.jobChips j ++ s2.planOwners j).eraseDups).filter (· != s2.me)
    dst.foldl (fun u c => u.sendMgmt c 7 (u.mgmtHeader (chipGroup c != u.myGroup) ++ haloPlanBody step plan))
      (s2.holdPlan step plan)

end Sys2Proof.Machine
end

