-- ==== Sys2Proof/Machine/Routes.lean ====
section
/-! DEFINITION. Wiring and routing tables (R340, R341), lanes (R326, R328), the loss of a link (R342). -/

namespace Sys2Proof.Machine

/-! The wiring rule (R340). -/

/-- Groups of the system, 1 to 1,024. -/
def systemGroups : Nat := max 1 (min 1024 Config.systemGroups)

/-- Copies of the links between two groups. -/
def copies (ng : Nat) : Nat := min (2112 / (ng - 1)) 4

/-- Global port of a link L63 to L95 at a position. -/
def globalPort (pos l : Nat) : Nat := 33 * pos + (l - 63)

/-- The group and port a global port leads to, none where the rule leaves it uncabled. -/
def farPort (ng g port : Nat) : Option (Nat × Nat) :=
  if ng < 2 ∨ copies ng * (ng - 1) ≤ port then none
  else
    let n := ng - 1
    some ((g + 1 + port % n) % ng, port / n * n + ng - 2 - port % n)

/-- Position of the far end of a global link. -/
def farPosition (ng p l : Nat) : Nat := ((farPort ng 0 (globalPort p l)).map fun q => q.2 / 33).getD 0

/-- The chip and link a link of a chip leads to by the rule. -/
def wiredTo (ng chip l : Nat) : Option (Nat × Nat) :=
  if l ≤ 62 then some (64 * chipGroup chip + (chipPos chip + l + 1) % 64, 62 - l)
  else (farPort ng (chipGroup chip) (globalPort (chipPos chip) l)).map fun q => (64 * q.1 + q.2 / 33, 63 + q.2 % 33)

/-- The link from position p to position q of one group. -/
def localLink (p q : Nat) : Nat := (q + 63 - p) % 64

/-! Routing tables (R341). -/

/-- A link of a chip is up, as Darkel knows it: by the registers where an end of it is this chip's, else a free value, since
the manual does not say how the states of other chips' links reach Darkel (log 84). -/
def State.hopUp (s : State) (chip l : Nat) : Bool :=
  match wiredTo systemGroups chip l with
  | none => false
  | some (far, back) =>
    if chip = s.me then (s.link l).alive
    else if far = s.me then (s.link back).alive
    else Config.linkElsewhere s.fresh (min (96 * chip + l) (96 * far + back))

/-- Positions p and q of a chip's group have their link up. -/
def State.pairUp (s : State) (chip p q : Nat) : Bool := s.hopUp (64 * chipGroup chip + p) (localLink p q)

/-- The entry for a position: its own link, else a detour by the lowest position whose links are up. -/
def State.lrtEntry (s : State) (q : Nat) : W64 :=
  let me := chipPos s.me
  let up (p : Nat) : Bool := s.pairUp s.me me p
  let word (next : Nat) : W64 := w64 (at' 1 63 + at' next 57 + at' (localLink me next) 50)
  if q = me then 0
  else if up q then word q
  else match (List.range 64).find? fun p => p != me && p != q && up p && s.pairUp s.me p q with
    | some p => word p
    | none => 0

/-- The port of one copy toward a group: its position and link, if that link is up. -/
def State.copyPort (s : State) (ng h copy : Nat) : Option (Nat × Nat) :=
  if copies ng ≤ copy then none
  else
    let port := copy * (ng - 1) + (h + ng - chipGroup s.grp.chip.toNat) % ng - 1
    let pos := port / 33
    let l := 63 + port % 33
    if s.hopUp (64 * chipGroup s.me + pos) l then some (pos, l) else none

/-- The entry for a destination group: slots 0 and 1, each by its copy or the one two further on. -/
def State.grtEntry (s : State) (ng h : Nat) : W64 :=
  if h = chipGroup s.grp.chip.toNat ∨ ng ≤ h then 0
  else
    let slot (k : Nat) : Option (Nat × Nat) := (s.copyPort ng h k).or (s.copyPort ng h (k + 2))
    let field (o : Option (Nat × Nat)) (v p l : Nat) : Nat :=
      match o with | some q => at' 1 v + at' q.1 p + at' q.2 l | none => 0
    w64 (field (slot 1) 63 57 50 + field (slot 0) 47 41 34)

/-- Links that a packet crosses within a group from a chip to a position: none, its own link, or a detour's two. -/
def State.groupHops (s : State) (chip q : Nat) : Option Nat :=
  let p := chipPos chip
  if p = q then some 0
  else if s.pairUp chip p q then some 1
  else if (List.range 64).any fun m => m != p && m != q && s.pairUp chip p m && s.pairUp chip m q then some 2
  else none

/-- Links that a packet crosses to a chip by a port of the own group. -/
def State.portHops (s : State) (dest : Nat) (port : Nat × Nat) : Option Nat :=
  match wiredTo systemGroups (64 * chipGroup s.me + port.1) port.2 with
  | none => none
  | some (far, _) =>
    match s.groupHops s.me port.1, s.groupHops far (chipPos dest) with
    | some a, some b => some (a + 1 + b)
    | _, _ => none

/-- A route of at most four links leads to a chip. -/
def State.reaches (s : State) (dest : Nat) : Bool :=
  let short (o : Option Nat) : Bool := match o with | some n => decide (n ≤ 4) | none => false
  let h := chipGroup dest
  if h = chipGroup s.me then short (s.groupHops s.me (chipPos dest))
  else (List.range 4).any fun k =>
    match s.copyPort systemGroups h k with
    | some port => short (s.portHops dest port)
    | none => false

/-- Darkel's tables from the wiring rule and the link states; chips that no route of four links reaches are noted for the
manager, those of the own group first. -/
def State.installRoutes (s : State) : State :=
  let lrt := (List.range 64).foldl (fun m q => SMap.set 0 m q (s.lrtEntry q)) ([] : SMap W64)
  let grt := (List.range systemGroups).foldl (fun m h => SMap.set 0 m h (s.grtEntry systemGroups h)) ([] : SMap W64)
  let near := (List.range 64).map fun q => 64 * chipGroup s.me + q
  let away := (List.range (64 * systemGroups)).filter fun q => chipGroup q != chipGroup s.me
  let lost := (near ++ away).filter fun q => q != s.me && !s.reaches q
  (s.modLnk fun n => { n with lrt := lrt, grt := grt, unreach := lost }).tick

/-! Lanes (R326, R328). -/

/-- The link has a cabled spare that serves neither of its lanes. -/
def Link.spareFree (k : Link) : Bool := k.spcab != 15 && k.src0 != k.spcab + 2 && k.src1 != k.spcab + 2

/-- After a pause the sender resends from the last acknowledged packet. -/
def Link.resent (k : Link) : Link := { k with toResend := k.replay.length }

/-- A lane takes a source, 63 for none; the link has both lanes, one, or is as it was. -/
def Link.setLane (k : Link) (lane1 : Bool) (src : Nat) : Link :=
  let a : Link := if lane1 then { k with src1 := src, failed1 := src != 1 } else { k with src0 := src, failed0 := src != 0 }
  { a with st := if a.up then (if a.src0 ≠ 63 ∧ a.src1 ≠ 63 then .up2 else .up1) else a.st }

/-! Loss (R342). -/

/-- A link enters HOLD: every packet in its replay buffer or queued for it is discarded, with a LOST acknowledgement to
its source. -/
def State.holdLink (s : State) (l : Nat) : State :=
  let k := s.link l
  let s1 := s.modLink l fun k => { k with st := .hold, heldAt := s.mer.now, replay := [], sentAt := [], queue := [], toResend := 0, resends := 0 }
  let gone := k.replay ++ k.queue.map (·.pkt)
  ((gone.foldl (fun t p => t.lose p) s1).lnkEvt 3).logEvt 4 255 0x31 0 l 0 0 0 0

end Sys2Proof.Machine
end

