-- ==== Sys2Proof/Machine/MgmtOps.lean ====
section
/-! DEFINITION. Heartbeats and their answers, the manager of a chip and its upstream in Meridian (R24, R376 to R379,
R387, R388). -/

namespace Sys2Proof.Machine

def lockCode : LockState → Nat
  | .free => 0 | .acquire => 1 | .locked => 2 | .holdover => 3 | .fault => 4

/-- The first step of a throttle report: it covers the committed step and the one in progress (R388). -/
def State.thrFirst (s : State) (j : Nat) : W32 := s.committed j - 62

/-- THRMASK of a slot from its first step. -/
def State.thrMask (s : State) (j : Nat) : W64 :=
  (s.job j).thrSteps.foldl (fun a t => let k := (t - s.thrFirst j).toNat; if k < 64 then setBit a k else a) 0

/-- The 24 bytes of a slot in a heartbeat. -/
def State.slotReport (s : State) (j : Nat) : List Byte :=
  toLe 4 (jobStateCode (s.job j).st) ++ toLe 4 (s.committed j).toNat ++ toLe 4 (s.thrFirst j).toNat ++ toLe 4 0 ++
    w64Bytes (s.thrMask j)

/-- A HEARTBEAT body after its header (R388). -/
def State.heartbeatBody (s : State) : List Byte :=
  let flags := b2n (bit s.mer.evt 1) + 2 * b2n (bit s.mer.evt 4) +
    4 * b2n ((List.range 4).any fun c => (s.pcore c).replost) + 8 * b2n s.pwr.thermalEpoch
  let unr := s.lnk.unreach.take 64
  toLe 1 (lockCode s.mer.st) ++ toLe 1 flags ++ toLe 1 s.fw.oos.toNat ++ toLe 5 0 ++ w64Bytes s.mer.offset ++
    ((List.range 4).flatMap s.slotReport) ++ toLe 2 unr.length ++ toLe 6 0 ++ unr.flatMap (toLe 2)

/-- The chip a chip reports to: a worker to its group manager, a group manager to the system manager; the system
manager to none (R377). -/
def State.manager (s : State) : Option (Nat × Bool) :=
  if !s.grp.formed then none
  else if s.grp.role = 0 then some (s.grp.gmgr, false)
  else if s.grp.role = 1 ∧ s.grp.sformed = true ∧ s.grp.smgr ≠ s.me then some (s.grp.smgr, true)
  else none

/-- The heartbeat of an epoch, and with it the log copies that wait (R377, R484). A tripped chip, whose links are down,
sends none (R409). -/
def State.sendHeartbeat (s : State) : State :=
  match (if s.pwr.tripped then none else s.manager) with
  | none => s
  | some (chip, sys) =>
    let s1 := s.sendMgmt chip 2 (s.mgmtHeader sys ++ s.heartbeatBody)
    let s2 := s.grp.copyDue.foldl (fun t r => t.sendMgmt chip 9 (t.mgmtHeader sys ++ r)) s1
    s2.modGrp fun g => { g with copyDue := [] }

/-- A RAMPSHARE body after its header (R387). -/
def shareBody (l : List (Nat × Nat × Nat)) : List Byte :=
  toLe 4 l.length ++ toLe 4 0 ++ l.flatMap fun x => toLe 8 x.1 ++ toLe 2 x.2.1 ++ toLe 2 x.2.2 ++ toLe 4 0

/-- The system manager gives every group manager its share, its own group's among them (R402). The manual does not say how the
operator's limit reaches it, nor when it is divided: the shares of an epoch are free, none among what they may be (DESIGN
CHOICE, log 85). -/
def State.sendShares (s : State) : State :=
  if s.grp.role = 2 ∧ s.pwr.tripped = false then
    ((s.me :: s.groupManagers).foldl (fun t c =>
      let l := (Config.rampShares s.fresh (chipGroup c)).take 16
      if l.isEmpty then t else t.sendMgmt c 0xC (t.mgmtHeader (c != t.me) ++ shareBody l)) s).tick
  else s

/-! The upstream in time (R24, R42). -/

/-- Links from this chip to another along the installed routes, for an even flow. -/
def State.hopsTo (s : State) (chip : Nat) : Nat :=
  if chip = s.me then 0
  else if chipGroup chip = s.myGroup then
    (match SMap.get 0 s.lnk.lrt (chipPos chip) with | e => if fld e 62 57 = chipPos chip then 1 else 2)
  else
    let e : W64 := SMap.get 0 s.lnk.grt (chipGroup chip)
    let slot0 := bit e 47
    let pos := if slot0 then fld e 46 41 else fld e 62 57
    let lnk := if slot0 then fld e 40 34 else fld e 56 50
    b2n (pos != chipPos s.me) + 1 + b2n (farPosition systemGroups pos lnk != chipPos chip)

/-- Meridian follows a new upstream chip: the link toward it, its hops, the source number for a link (R24, R42). -/
def State.followUpstream (s : State) (chip hops : Nat) : State :=
  s.modMer fun m =>
    { m with upstream := (s.route chip 0).map fun l => ⟨l % 96, Nat.mod_lt _ (by decide)⟩, hops := min 4 hops,
             source := 3, altSince := none }

end Sys2Proof.Machine
end

