-- ==== Sys2Proof/Machine/PowerOps.lean ====
section
/-! DEFINITION. The power and thermal controller (R392 to R415): clocks and throttling, the draw window, hints,
ramp entries and caps, load classes and voltages. -/

namespace Sys2Proof.Machine

/-! Clocks (R396, R404, R406, R411, R414). -/

def down8 (n : Nat) : Nat := n / 8 * 8

/-- The MC clock that the guard band, a lost repeatable clock and a deep droop leave. -/
def PwrCore.limit (p : PwrCore) : Nat :=
  let a := if p.guard then down8 (p.fset * 96 / 100) else p.fset
  let b := if p.replost ∧ p.free = false then min a p.fcap else a
  if 0 < p.droopBeats then min b (down8 (p.fset * 90 / 100)) else b

/-- The MC clock as it runs: PWR_MODEc.FNOW. -/
def PwrCore.clock (p : PwrCore) : Nat := min p.fnow p.limit

/-- The clock lies below FSET or the arrays run at reduced duty (R396). -/
def PwrCore.slowed (p : PwrCore) : Bool := decide (p.clock < p.fset ∨ p.duty < 8)

/-- PWR_MODEc and PWR_AGEc (R415). -/
def State.pwrMode (s : State) (c : Nat) : W64 :=
  let p := s.pcore c
  w64 (at' (b2n p.free) 63 + at' (b2n p.thr) 62 + at' (p.cls % 4) 60 + at' (b2n p.guard) 59 +
    at' (p.clock % 4096) 32 + at' (p.fset % 4096) 16 + p.fmax % 4096)
def State.pwrAge (s : State) (c : Nat) : W64 :=
  let p := s.pcore c
  w64 (at' (b2n p.replost) 63 + at' p.validRec.toNat 56 + at' (p.replans % 256) 48 + at' (p.vaddH % 1024) 32 +
    at' (p.vaddM % 1024) 16 + p.vaddL % 1024)

/-- A core is throttled in the current beat: its bindings in progress take the bit (R354, R396). -/
def State.markThr (s : State) (c : Nat) : State :=
  let mark (r : RedOut) : RedOut := { r with thr := true }
  let bind (b : Binding) : Binding := { b with redA := b.redA.map mark, redB := b.redB.map mark }
  let live (k : Core) (q : StagedPacket) : Bool := k.ctx.passes.any fun p => p.binds.any fun b =>
    [b.redA, b.redB].any fun r => match r with | some x => x.slice == q.slice && x.step == q.step | none => false
  let open' (k : Core) (n : Nat) : Bool := k.chunks.any fun x => x.stages.contains n
  let stage (k : Core) (n : Nat) (q : StagedPacket) : StagedPacket :=
    if (q.chunked = false ∨ open' k n = true) ∧ live k q = true then { q with thr := true } else q
  (s.modPcore c fun p => { p with thr := true }).modCore c fun k =>
    { k with staged := k.staged.map fun q => (q.1, q.2.map (stage k q.1)),
             ctx := { k.ctx with passes := k.ctx.passes.map fun p => { p with binds := p.binds.map bind } } }

/-- After a change of clock or duty within a beat. -/
def State.checkThr (s : State) (c : Nat) : State := if (s.pcore c).slowed then s.markThr c else s

/-- At a beat, PWR_MODEc.THR takes the new beat's value. -/
def State.beatThr (s : State) (c : Nat) : State :=
  (s.modPcore c fun p => { p with thr := false }).checkThr c

/-- One step down: 8 or 40 MHz to 1,200 MHz, then the duty halved to one cycle in eight (R398, R408). -/
def PwrCore.stepDown (p : PwrCore) (mhz : Nat) : PwrCore :=
  if 1200 < p.clock then { p with fnow := max 1200 (p.clock - mhz) } else { p with duty := max 1 (p.duty / 2) }

/-- One step up: duty first, then clock, up to FSET. -/
def PwrCore.stepUp (p : PwrCore) (mhz : Nat) : PwrCore :=
  if p.duty < 8 then { p with duty := min 8 (p.duty * 2) } else { p with fnow := min p.fset (p.fnow + mhz) }

/-- The core runs an instance. -/
def State.coreRuns (s : State) (c : Nat) : Bool := (s.instOn c).isSome

/-! The draw window (R394 to R398). -/

/-- SLEW over one beat, microwatts: SLEW W/ms for 1.024 microseconds. -/
def Power.slewStep (p : Power) : Nat := p.slew * 1024

/-- CEIL of the beat that begins: a lowered cap comes down at SLEW (R397). -/
def Power.nextCeil (p : Power) : Nat :=
  let cap := p.cap * 1000000
  if cap < p.ceil then max cap (p.ceil - p.slewStep) else cap

/-- Levels of the hints in force, with core c's replaced. -/
def State.zenLevels (s : State) : List Nat := (List.range 4).map fun c => (s.pcore c).zen

/-- Chip draw that levels announce, no more than CEIL (R403). -/
def State.announced (s : State) (levels : List Nat) : Nat :=
  if levels.all (· == 0) then 0 else min s.pwr.ceil (Config.announcedDraw s.fresh levels)

/-- SLEW restrains a rise: the event, and the beat counted once (R395, R475). -/
def State.holdSlew (s : State) : State :=
  let s1 := s.pwrEvt 7
  if s.pwr.slewBeat then s1 else (s1.modPwr fun p => { p with slewBeat := true }).bump (cntPwr 1)

/-- A hint falls due: its level is in force, and a lead that was too short restrains the core (R395, R403). -/
def State.hintDue (s : State) (d c : Nat) (h : Nat × Nat) : State :=
  let s1 := s.modPcore c fun p => { p with zen := h.1, hints := p.hints.filter (· != h) }
  if 0 < h.1 ∧ d + s.pwr.slewStep < s1.announced s1.zenLevels then
    ((s1.modPcore c fun p => { p.stepDown 8 with restrained := true }).pwrEvt 6).holdSlew
  else s1

def State.hintsDue (s : State) (d : Nat) : State :=
  (List.range 4).foldl (fun t c =>
    ((t.pcore c).hints.filter fun h => decide (h.2 ≤ t.now)).foldl (fun u h => u.hintDue d c h) t) s

/-- Draw that ballast aims at for hints: those in force, and those whose ramp has to start by now (R403). -/
def State.zenTarget (s : State) (d : Nat) : Nat :=
  let ahead := (List.range 4).flatMap fun c => (s.pcore c).hints.map fun h =>
    let a := s.announced (s.zenLevels.set c h.1)
    if d + (h.2 - s.now) / 1024 * s.pwr.slewStep ≤ a then a else 0
  ahead.foldl max (s.announced s.zenLevels)

/-- Ballast runs on cores with no pass and no thermal throttle (R395, R401). -/
def State.ballastCores (s : State) : List Bool :=
  (List.range 4).map fun c => (s.core c).ctx.passes.isEmpty && !(s.pcore c).ballastOff

/-- Module draw that ballast reaches over what work draws: at least 1,300 W where every core may run it, no more than the
work's where none may (R395). -/
def State.reach (s : State) (demand : Nat) : Nat :=
  let r := Config.ballastReach s.ballastCores
  if s.ballastCores.all id then max (max 1300000000 r) demand
  else if s.ballastCores.any id then max r demand
  else demand

/-- A thermal throttle takes ballast from a core at once: what is left is what the other cores give, none where none may run
it (R401). -/
def State.suspendBallast (s : State) (c : Nat) : State :=
  let s1 := s.modPcore c fun p => { p with ballastOff := true }
  if s1.ballastCores = s.ballastCores then s1
  else s1.modPwr fun p =>
    { p with ballast := if s1.ballastCores.any id then min p.ballast (Config.ballastReach s1.ballastCores) else 0 }

/-- A thermal throttle or trip, or a deep droop acts: the window does not bind (R394). -/
def State.unbound (s : State) : Bool :=
  s.pwr.tripped || decide (0 < s.pwr.socDroopBeats) ||
    (List.range 4).any fun c => (s.pcore c).thermal || decide (0 < (s.pcore c).droopBeats)

/-- Restrains every running core, or gives back what a cap or SLEW took (R395, R398). -/
def State.trimCores (s : State) (lower raise : Bool) : State :=
  (List.range 4).foldl (fun t c =>
    if t.coreRuns c ∧ lower = true then t.modPcore c fun p => { p.stepDown 8 with restrained := true }
    else if raise ∧ (t.pcore c).restrained = true ∧ (t.pcore c).thermal = false then
      t.modPcore c fun p => let q := p.stepUp 8; { q with restrained := decide (q.fnow < q.fset ∨ q.duty < 8) }
    else t) s

/-- No running core can be slowed further. -/
def State.atFloor (s : State) : Bool :=
  (List.range 4).all fun c => !s.coreRuns c || decide ((s.pcore c).clock ≤ 1200 ∧ (s.pcore c).duty ≤ 1)

/-- The control of one beat, after the estimate of the beat before (R393 to R398, R403). Cores are given back what was taken
once D, ballast included, lies below 98 % of CEIL. -/
def State.drawControl (s : State) (m : BeatMeas) : State :=
  let s0 := (s.modPwr fun p =>
    { p with ceil := p.nextCeil, drawBeat := min 2047 (m.draw / 1000000), slewBeat := false }).hintsDue m.draw
  let ceil := s0.pwr.ceil
  let up := m.draw + s0.pwr.slewStep
  let above := decide (ceil < m.demand)
  let hold := !s0.unbound && decide (up < m.demand)
  let s1 := s0.trimCores (above || hold) (decide (100 * max m.draw m.demand < 98 * ceil) && !hold)
  let s2 := if above && s0.atFloor then s1.pwrEvt 9 else s1
  let s3 := if hold then s2.holdSlew else s2
  let floor := min (1000000 * s3.pwr.floor) ceil
  let want := max (max m.demand floor) (s3.zenTarget m.draw)
  let bound := if s3.unbound then want else max (min want up) (m.draw - s3.pwr.slewStep)
  let aim := min bound ceil
  let s4 := if s3.reach m.demand < floor then s3.pwrEvt 8 else s3
  s4.modPwr fun p => { p with ballast := min aim (s4.reach m.demand) - m.demand }

/-! Ramp entries and caps (R397, R399). -/

def State.epochNo (s : State) : Nat := s.now / 2 ^ 20

/-- Applies plan entry n if it is valid and its epoch has come. -/
def State.rampEntry (s : State) (n : Nat) : State :=
  let w : W64 := SMap.get 0 s.pwr.ramp n
  if bit w 0 ∧ fld w 63 20 ≤ s.epochNo then
    s.modPwr fun p => { p with floor := 4 * fld w 19 11, slew := fld w 10 3, ramp := SMap.set 0 p.ramp n 0 }
  else s

def State.applyRamp (s : State) : State := (List.range 16).foldl (fun t n => t.rampEntry n) s

def State.applyCap (s : State) : State :=
  if s.pwr.capPend then
    (s.modPwr fun p =>
      { p with capPend := false, capImm := false, cap := p.capNext,
               ceil := if p.capImm ∨ p.ceil ≤ 1000000 * p.capNext then 1000000 * p.capNext else p.ceil }).pwrEvt 0
  else s

/-! Voltages (R410, R411, R413, R414, R488). -/

/-- Boot voltage and commanded range of a rail, mV (R488): 0 to 3 VDD_MC, 4 VDD_SOC, 5 VDD_STK, 6 VDD_PHY. -/
def railBoot (r : Nat) : Nat := match r with | 5 => 700 | 6 => 850 | _ => 750
def railRange (r : Nat) : Nat × Nat :=
  match r with | 4 => (650, 850) | 5 => (620, 800) | 6 => (800, 920) | _ => (620, 900)

/-- The fused ceiling of a rail, inside its commanded range. -/
def State.railCeil (s : State) (r : Nat) : Nat := min (railRange r).2 (s.sec.fuses.ceilMv[r]?.getD (railRange r).2)

def PwrCore.vadd (p : PwrCore) (k : Nat) : Nat := match k with | 0 => p.vaddL | 1 => p.vaddM | _ => p.vaddH
def PwrCore.addV (p : PwrCore) (k n : Nat) : PwrCore :=
  match k with
  | 0 => { p with vaddL := p.vaddL + n }
  | 1 => { p with vaddM := p.vaddM + n }
  | _ => { p with vaddH := p.vaddH + n }

/-- The record of a core's class, mV. -/
def State.classMv (s : State) (c k : Nat) : Nat :=
  s.sec.fuses.factoryMv[3 * c + k]?.getD (railBoot c) + (s.pcore c).vadd k

/-- The nearest class with a valid record, the heavier of two as near; the class itself where none is valid. -/
def nearestClass (valid : Nat → Bool) (k : Nat) : Nat :=
  ([k, k + 1, k - 1, k + 2, k - 2].find? fun j => decide (j ≤ 2) && valid j).getD k

/-- What a rail is to stand at: the record of the class, or 30 mV over the nearest valid one under a guard band. -/
def State.railAim (s : State) (r : Nat) : Nat :=
  let v :=
    if r < 4 then
      let p := s.pcore r
      s.classMv r (if p.guard then nearestClass p.validRec.getLsbD p.cls else p.cls) + 30 * b2n p.guard
    else if r = 5 then railBoot 5 + s.pwr.stkAdd
    else if r = 6 then
      ((List.range 4).map fun q =>
        let k := SMap.get 0 s.pwr.quadCls q
        let g := SMap.get false s.pwr.quadGuard q
        let j := if g then nearestClass (fun n => (SMap.get 7 s.pwr.quadValid q).testBit n) k else k
        railBoot 6 + SMap.get 0 s.pwr.quadAdd (3 * q + j) + 30 * b2n g).foldl max 0
    else railBoot r
  max (railRange r).1 (min v (s.railCeil r))

/-- Commands every rail's voltage. -/
def State.aimRails (s : State) : State :=
  s.modPwr fun p => { p with railTarget := (List.range 7).foldl (fun m r => SMap.set 0 m r (s.railAim r)) p.railTarget }

/-- Every rail moves by at most 1 mV toward its command; one whose last frame failed stays (R413, R492). -/
def State.moveRails (s : State) : State :=
  let near (now aim : Nat) : Nat := if now < aim then now + 1 else if aim < now then now - 1 else now
  let one (m : SMap Nat) (r : Nat) : SMap Nat :=
    let now := match SMap.get 0 m r with | 0 => railBoot r | v => v
    let aim := match SMap.get 0 s.pwr.railTarget r with | 0 => now | v => v
    if s.pwr.avsRetry.contains r then m else SMap.set 0 m r (near now aim)
  s.modPwr fun p => { p with railMv := (List.range 7).foldl one p.railMv }

/-! Load classes (R410, R411). -/

/-- Light below 6/16 of full load, medium below 12/16, heavy otherwise. -/
def levelClass (n : Nat) : Nat := if n < 6 then 0 else if n < 12 then 1 else 2
/-- Light below 600 W, medium below 1,100 W, heavy otherwise. -/
def drawClass (w : Nat) : Nat := if w < 600 then 0 else if w < 1100 then 1 else 2

/-- Class and guard band of the epoch that begins, from the class wanted, the one before and its guard band: under a
guard band whose record is still missing the class may rise but not fall; entering a class without a valid record starts
one; a valid record ends it. -/
def nextClass (valid : Nat → Bool) (old : Nat) (guard : Bool) (k : Nat) : Nat × Bool :=
  let k1 := if guard && !valid old then max k old else k
  (k1, !valid k1 && (guard || k1 != old))

/-- Epochs in a class within which its missing record is gathered (R411). -/
def gatherEpochs : Nat := 20

/-- One more epoch of `n` spent in a class: its record is valid now, and the count that goes on. -/
def gatherStep (valid : Bool) (n : Nat) : Bool × Nat :=
  if valid then (true, 0) else if gatherEpochs ≤ n + 1 then (true, 0) else (false, n + 1)

/-- The epoch that ends was spent in the core's class: a record missing for twenty of them is valid. -/
def PwrCore.gathered (p : PwrCore) : PwrCore :=
  let r := gatherStep (p.validRec.getLsbD p.cls) (SMap.get 0 p.gathering p.cls)
  { p with validRec := if r.1 then p.validRec ||| BitVec.ofNat 3 (2 ^ p.cls) else p.validRec,
           gathering := SMap.set 0 p.gathering p.cls r.2 }

/-- A core's class: its draw in the epoch before, raised by hints due within the epoch. -/
def State.coreClass (s : State) (c level : Nat) : State :=
  let p := (s.pcore c).gathered
  let due := p.hints.filter fun h => decide (h.2 < s.now + 2 ^ 20)
  let k := (due.map fun h => levelClass h.1).foldl max (levelClass level)
  let r := nextClass p.validRec.getLsbD p.cls p.guard k
  let s1 := s.modPcore c fun _ => { p with cls := r.1, lastLevel := level, guard := r.2 }
  if r.2 ∧ p.guard = false then s1.pwrEvt 5 else s1

/-- The same count for a quadrant's class. -/
def Power.quadGathered (p : Power) (q : Nat) : Power :=
  let k := SMap.get 0 p.quadCls q
  let v := SMap.get 7 p.quadValid q
  let r := gatherStep (v.testBit k) (SMap.get 0 p.quadGathering (3 * q + k))
  { p with quadValid := if r.1 then SMap.set 7 p.quadValid q (v ||| 2 ^ k) else p.quadValid,
           quadGathering := SMap.set 0 p.quadGathering (3 * q + k) r.2 }

def State.quadClass (s0 : State) (q watts : Nat) : State :=
  let s := s0.modPwr fun p => p.quadGathered q
  let g := SMap.get false s.pwr.quadGuard q
  let r := nextClass (SMap.get 7 s.pwr.quadValid q).testBit (SMap.get 0 s.pwr.quadCls q) g (drawClass watts)
  let s1 := s.modPwr fun p =>
    { p with quadCls := SMap.set 0 p.quadCls q r.1, quadGuard := SMap.set false p.quadGuard q r.2 }
  if r.2 && !g then s1.pwrEvt 5 else s1

/-- Classes change at an epoch boundary, and the rails follow. -/
def State.classChange (s : State) (levels : List Nat) (watts : Nat) : State :=
  let s1 := (List.range 4).foldl (fun t c => t.coreClass c (levels[c]?.getD 0)) s
  let s2 := (List.range 4).foldl (fun t q => t.quadClass q watts) s1
  ((List.range 4).foldl (fun t c => t.checkThr c) s2).aimRails

/-! Telemetry (R492). -/

/-- Readings that came; a rail that did not answer is asked again in the next beat. -/
def State.takeTelemetry (s : State) (avs : List AvsReading) : State :=
  s.modPwr fun p =>
    { p with telemetry := avs.foldl (fun m r => SMap.insert r.rail r m) p.telemetry,
             avsRetry := (List.range 7).filter fun r => !(avs.any fun x => x.rail == r) }

end Sys2Proof.Machine
end

