-- ==== Sys2Proof/Machine/Formation.lean ====
section
/-! DEFINITION. Group formation and the takeover of a manager's role (R376, R379, R387). -/

namespace Sys2Proof.Machine

/-- A little-endian field of a body. -/
def bodyField (l : List Byte) (off n : Nat) : Nat := leNat ((l.drop off).take n)

/-! Announcements. -/

/-- Chips of the group that this chip's own links reach. -/
def State.groupLinks (s : State) : List Nat :=
  (List.range 64).filterMap fun q =>
    if q ≠ chipPos s.me ∧ (s.link (localLink (chipPos s.me) q)).up = true then some (64 * s.myGroup + q) else none

/-- Chips of every other group: a group manager's announcement reaches every manager among them. -/
def State.otherChips (s : State) : List Nat :=
  ((List.range systemGroups).filter (· != s.myGroup)).flatMap fun h => (List.range 64).map fun q => 64 * h + q

/-- An ANNOUNCE body (R387). -/
def State.announceBody (s : State) (sys : Bool) : List Byte :=
  s.mgmtHeader sys ++ toLe 1 s.grp.strap ++ toLe 1 s.grp.role ++ toLe 2 0 ++
    toLe 4 (if sys then s.grp.sterm else s.grp.term)

def State.announce (s : State) (dst : List Nat) (sys : Bool) : State := s.sendAll dst 1 (s.announceBody sys)

/-- A chip and its role strap, as announced. -/
def State.hear (s : State) (chip strap : Nat) : State :=
  s.modGrp fun g => { g with heard := (g.heard.filter fun h => h.1 != chip) ++ [(chip, strap)] }

/-! Election (R376). -/

/-- The lowest chip number. -/
def lowestChip : List (Nat × Nat) → Option Nat
  | [] => none
  | h :: t => some ((t.map (·.1)).foldl min h.1)

/-- The candidate with the lowest position, else the chip with the lowest position. -/
def electManager (l : List (Nat × Nat)) : Option Nat :=
  (lowestChip (l.filter fun h => decide (1 ≤ h.2))).or (lowestChip l)

/-- The group manager with strap value 2 in the lowest-numbered group, else that of the lowest-numbered group. -/
def electSystem (l : List (Nat × Nat)) : Option Nat :=
  (lowestChip (l.filter fun h => h.2 == 2)).or (lowestChip l)

/-- Chips of the own group heard of, and group managers elsewhere. -/
def State.heardHere (s : State) : List (Nat × Nat) := s.grp.heard.filter fun h => chipGroup h.1 == s.myGroup
def State.heardAway (s : State) : List (Nat × Nat) := s.grp.heard.filter fun h => chipGroup h.1 != s.myGroup

def without (l : List (Nat × Nat)) (c : Nat) : List (Nat × Nat) := l.filter fun h => h.1 != c

/-- A chip a manager serves from now on. -/
def State.serve (s : State) (chip strap : Nat) : State :=
  (s.modMember chip fun _ => { Member.empty with heard := true, lastEpoch := s.epochNo, strap := strap }).modGrp fun g =>
    { g with logCopies := g.logCopies.filter fun r => bodyField r 30 2 != chip }

/-! Formation. -/

/-- The upstream is a chip that many links away, and the count is to be acquired from it. -/
def State.acquireFrom (s : State) (chip hops : Nat) : State := (s.followUpstream chip hops).enterAcquire

/-- The system manager counts by itself, with source INTERNAL before any TIME.LOCK (R23). -/
def State.countAlone (s : State) : State :=
  (s.modMer fun m => { m with upstream := none, hops := 0, source := 0, altSince := none }).enterAcquire

/-- Once a group manager has heard one of every group, the system manager and its deputy are known. -/
def State.formSystem (s : State) : State :=
  let ms := s.heardAway ++ [(s.me, s.grp.strap)]
  if s.grp.role = 1 ∧ s.grp.sformed = false ∧
      ((List.range systemGroups).all fun g => ms.any fun h => chipGroup h.1 == g) = true then
    let m := (electSystem ms).getD s.me
    let d := (electSystem (without ms m)).getD s.me
    let s1 := s.modGrp fun g =>
      { g with sformed := true, smgr := m, sdeputyChip := d, sdeputy := d == s.me && m != s.me,
               role := if m = s.me then 2 else 1, mgrEpoch := s.epochNo }
    if m = s.me then (s.heardAway.foldl (fun t h => t.serve h.1 h.2) s1).countAlone
    else s1.acquireFrom m (s1.hopsTo m)
  else s

/-- Once every chip of the group that a link reaches has been heard, the group's manager and its deputy are known. -/
def State.formGroup (s : State) : State :=
  if s.grp.formed = false ∧ (s.groupLinks.all fun c => s.grp.heard.any fun h => h.1 == c) = true then
    let ms := s.heardHere ++ [(s.me, s.grp.strap)]
    let m := (electManager ms).getD s.me
    let d := (electManager (without ms m)).getD s.me
    let s1 := s.modGrp fun g =>
      { g with formed := true, gmgr := m, deputyChip := d, deputy := d == s.me && m != s.me,
               role := if m = s.me then 1 else 0, mgrEpoch := s.epochNo }
    if m = s.me then ((s.heardHere.foldl (fun t h => t.serve h.1 h.2) s1).announce s.otherChips true).formSystem
    else s1.acquireFrom m 1
  else s

/-- A chip joins a group that has formed: it takes the roles already made. -/
def State.joinGroup (s : State) (chip term : Nat) : State :=
  (s.modGrp fun g =>
    { g with formed := true, gmgr := chip, term := term, role := 0, deputy := false, mgrEpoch := s.epochNo }).acquireFrom chip 1

/-- A group manager joins the managers that have formed. -/
def State.joinSystem (s : State) (chip term : Nat) : State :=
  let s1 := s.modGrp fun g => { g with sformed := true, smgr := chip, sterm := term, mgrEpoch := s.epochNo }
  s1.acquireFrom chip (s1.hopsTo chip)

/-! Takeover (R374, R379). -/

/-- A TAKEOVER body (R387). -/
def State.takeoverBody (s : State) (sys : Bool) (deputy former : Nat) : List Byte :=
  s.mgmtHeader sys ++ toLe 4 (if sys then s.grp.sterm else s.grp.term) ++ toLe 2 s.me ++ toLe 2 deputy ++
    toLe 2 former ++ toLe 6 0

/-- A member as the deputy's copy of the manager's state has it: the manual gives no message that carries the copy, so what it
holds is free (log 85). -/
def State.copyMember (s : State) (m : Member) (chip : Nat) : Member :=
  let slots := List.range 4
  { m with
    spri := slots.foldl (fun a j => SMap.set 0 a j (Config.copiedSpri s.fresh chip j % 256)) []
    lastBacked := slots.foldl (fun a j => SMap.set none a j (Config.copiedBacked s.fresh chip j)) []
    failedFor := slots.filter (Config.copiedFailed s.fresh chip) }

/-- The deputy goes on from its copy: its members, the ramp shares and the log records. -/
def State.copyGroup (s : State) (chips : List Nat) : State :=
  ((chips.foldl (fun t c => t.modMember c fun m => s.copyMember m c) s).modGrp fun g =>
    { g with ramps := Config.copiedRamps s.fresh, logCopies := Config.copiedLogs s.fresh ++ g.logCopies }).tick

/-- Chips of the group that the manager served: those heard of and those a link reaches. -/
def State.servedHere (s : State) : List Nat := (s.groupLinks ++ (s.heardHere.map (·.1)).filter (· != s.me)).eraseDups

/-- This chip becomes its group's manager: TERM rises, every chip that its predecessor served is told, a deputy that has not
failed is named, the managers of other groups hear of it. The deputy of the former manager goes on from its copy. The count is
not stepped. -/
def State.takeGroup (s : State) : State :=
  let former := s.grp.gmgr
  let gone (c : Nat) : Bool := s.grp.failedMask.getLsbD (chipPos c)
  let rest := (without (without s.heardHere s.me) former).filter fun h => !gone h.1
  let d := (electManager rest).getD s.me
  let s1 := s.modGrp fun g =>
    { g with role := max 1 g.role, gmgr := s.me, term := g.term + 1, deputy := false, deputyChip := d, formed := true,
             sformed := true }
  let s2 := s.servedHere.foldl (fun t c => t.serve c ((s.heardHere.find? fun h => h.1 == c).map (·.2) |>.getD 0)) s1
  let s3 := (s.servedHere.filter gone).foldl (fun t c => t.modMember c fun m => { m with failed := true }) s2
  let s4 := if s.grp.deputy then s3.copyGroup s.servedHere else s3
  let s5 := (s4.sendAll s.servedHere 4 (s4.takeoverBody false d former)).announce (s.heardAway.map (·.1)) true
  if s.grp.smgr = former ∨ s.grp.role = 2 then s5 else s5.followUpstream s.grp.smgr (s5.hopsTo s.grp.smgr)

/-- This chip becomes the system manager: it keeps its own count and takes the reference that TIME.LOCK last gave it, else
INTERNAL. -/
def State.takeSystem (s : State) : State :=
  let former := s.grp.smgr
  let rest := without s.heardAway former
  let d := (electSystem rest).getD s.me
  let src := if s.mer.lockGiven then s.mer.lockSource else 0
  let s1 := s.modGrp fun g =>
    { g with role := 2, smgr := s.me, sterm := g.sterm + 1, sdeputy := false, sdeputyChip := d, sformed := true }
  let s2 := s.heardAway.foldl (fun t h => t.serve h.1 h.2) s1
  let s3 := s2.modMer fun m =>
    { m with upstream := none, hops := 0, source := src, altSince := none, ppsArmed := src == 1, refAt := s.now, ptp := .none }
  let s4 := if s.grp.sdeputy then s3.copyGroup (s.heardAway.map (·.1)) else s3
  s4.sendAll (s.heardAway.map (·.1)) 4 (s4.takeoverBody true d former)

/-! Messages as they are taken from the keeper's queue (R387). -/

def MgmtMsg.term (m : MgmtMsg) : Nat := bodyField m.body 4 4

/-- A message from another group: it carries the system manager's term. -/
def State.away (s : State) (m : MgmtMsg) : Bool := chipGroup m.schip != s.myGroup

/-- TERM lies below the term held: the group's, or between managers the system's. -/
def State.stale (s : State) (m : MgmtMsg) : Bool :=
  if s.away m then s.grp.role != 0 && decide (m.term < s.grp.sterm) else decide (m.term < s.grp.term)

/-- Takes the message at the front of the queue if it is of this type. -/
def State.takeMsg (s : State) (mtype : Nat) (f : MgmtMsg → State → State) : State :=
  match s.grp.inbox with
  | [] => s
  | m :: t => if m.mtype = mtype then f m (s.modGrp fun g => { g with inbox := t }) else s

/-- Types that only a manager sends. -/
def managerSends (mtype : Nat) : Bool := mtype ∈ [3, 5, 7, 8, 0xB, 0xC]

/-- A manager that sees a higher TERM than its own is a former one: it becomes a worker (R379), under the sender where only a
manager sends the type. TAKEOVER and ANNOUNCE say themselves who the manager is. -/
def State.yieldTo (s : State) (m : MgmtMsg) : State :=
  let sys := s.away m
  let follow (t : State) : State := if managerSends m.mtype then t.followUpstream m.schip (t.hopsTo m.schip) else t
  if m.mtype = 4 then s
  else if sys = false ∧ 1 ≤ s.grp.role ∧ s.grp.term < m.term then
    follow (s.modGrp fun g =>
      { g with role := 0, term := m.term, deputy := false, mgrEpoch := s.epochNo,
               gmgr := if managerSends m.mtype then m.schip else g.gmgr })
  else if sys = true ∧ s.grp.role = 2 ∧ s.grp.sterm < m.term then
    follow (s.modGrp fun g =>
      { g with role := 0, sterm := m.term, sdeputy := false, mgrEpoch := s.epochNo,
               smgr := if managerSends m.mtype then m.schip else g.smgr })
  else s

/-- The same for a type that a lower TERM makes void. -/
def State.takeCurrent (s : State) (mtype : Nat) (f : MgmtMsg → State → State) : State :=
  s.takeMsg mtype fun m t => if t.stale m then t else f m (t.yieldTo m)

/-- Places a command in one of Darkel's own entries, for a manager (R387). -/
def State.placeFor (s : State) (chip : Nat) (mseq : W32) (words : List W64) : Option State :=
  match s.placeCmd 2 words with
  | (s1, some i) => some (s1.modGrp fun g => { g with mgrCmds := g.mgrCmds ++ [(i, chip, mseq)] })
  | (_, none) => none

end Sys2Proof.Machine
end

