-- ==== Sys2Proof/Machine/BootOps.lean ====
section
/-! DEFINITION. The boot image as it is gathered and checked (R462 to R464, R469, R390) and the datagrams of the management
port (R468). -/

namespace Sys2Proof.Machine

/-! Ranges of bytes held. -/

/-- A range joined with those it touches, in rising order. -/
def addRange : Nat × Nat → List (Nat × Nat) → List (Nat × Nat)
  | r, [] => [r]
  | r, h :: t =>
    if h.2 < r.1 then h :: addRange r t
    else if r.2 < h.1 then r :: h :: t
    else addRange (min r.1 h.1, max r.2 h.2) t

/-- The highest offset up to which every byte is held. -/
def contiguous : List (Nat × Nat) → Nat
  | (0, b) :: _ => b
  | _ => 0

/-! The image (R462). -/

def imageBase : Nat := 0x4E0000000
def imageMax : Nat := 0x4000000
/-- Bytes of a signature (FIPS 205). -/
def sigBytes : Nat := 29792
/-- Bytes before the body. -/
def imageHead : Nat := 0x160

def State.imageByte (s : State) (off n : Nat) : Nat := leNat (s.bytes (imageBase + off) n)

/-- LENGTH is known from the header. -/
def State.lengthHeld (s : State) : Option Nat :=
  if 0x18 ≤ contiguous s.sec.imgHave then some (s.imageByte 0x10 8) else none

/-- Every byte that LENGTH counts is held, or LENGTH is beyond what an image may have. -/
def State.imageWhole (s : State) : Bool :=
  match s.sec.imgLen with
  | some n => decide (n ≤ contiguous s.sec.imgHave ∨ imageMax < n)
  | none => false

/-- Stages in which image bytes are taken (R469). -/
def State.wantsImage (s : State) : Bool := s.sec.boot == .links || s.sec.boot == .lock || s.sec.boot == .waitimg

/-- A chip that waits for its image verifies it once it is whole. -/
def State.checkWhole (s : State) : State :=
  if s.sec.boot = .waitimg ∧ s.imageWhole = true then s.modSec fun c => { c with boot := .verify } else s

/-- Bytes of the image placed at its copy in the carve-out; bytes past 64 MiB are discarded. -/
def State.takeImage (s : State) (off : Nat) (bs0 : List Byte) (len : Option Nat) : State :=
  let bs := bs0.take (imageMax - off)
  if bs.isEmpty then s
  else
    let s1 := (s.writeDone (imageBase + off) bs).modSec fun c =>
      { c with imgHave := addRange (off, off + bs.length) c.imgHave }
    let known := match len with | some n => some n | none => s1.lengthHeld
    (s1.modSec fun c => { c with imgLen := match known with | some n => some n | none => c.imgLen }).checkWhole

/-- A request to the upstream manager (R390): at most 1 MiB from the lowest offset not yet held. -/
def State.askImage (s : State) : State :=
  match s.manager with
  | none => s
  | some (chip, sys) =>
    let off := contiguous s.sec.imgHave
    let want := min 0x100000 ((s.sec.imgLen.getD imageMax) - off)
    (s.sendMgmt chip 0xA (s.mgmtHeader sys ++ toLe 8 off ++ toLe 4 want ++ toLe 4 0)).modGrp fun g =>
      { g with imgAsked := off + want, imgAskedAt := s.now }

/-- The port sends nothing while the flags byte of the address record is zero (R496). -/
def State.portCabled (s : State) : Bool := SMap.get 0 s.board.addr 0 != 0

/-- A chip whose count is locked waits for its image, or verifies the copy a warm reset left (R457, R461). -/
def State.awaitImage (s : State) : State :=
  if s.sec.boot = .lock then
    let s1 := (s.modSec fun c => { c with boot := .waitimg }).checkWhole
    if s1.sec.boot = .waitimg ∧ s1.portCabled = false then s1.askImage else s1
  else s

/-! Verification (R463, R464). -/

def zeroBytes (l : List Byte) : Bool := l.all (· == 0)

/-- A boot configuration: 256 bytes. -/
structure BootConfig where
  auth : W64
  sched : W64
  carve : Nat
  failep : Nat
  flags : Nat
  revoke : Nat
  ingBase : Nat
  ingSize : Nat
  opkeys : List (List Byte)
  /-- The bytes that must be zero are. -/
  clean : Bool
  deriving DecidableEq, Repr

def bootConfig (l : List Byte) : BootConfig :=
  let f := bodyField l
  { auth := w64 (f 0 8), sched := w64 (f 8 8), carve := f 0x10 1, failep := f 0x11 1, flags := f 0x12 1, revoke := f 0x13 1,
    ingBase := f 0x18 8, ingSize := f 0x20 8,
    opkeys := (List.range 4).map fun k => fixLen 32 (l.drop (0x40 + 32 * k)),
    clean := zeroBytes ((l.drop 0x14).take 4) && zeroBytes ((l.drop 0x28).take 24) && zeroBytes ((l.drop 0xC0).take 64) }

/-- Every field is within its range. -/
def BootConfig.ok (b : BootConfig) : Bool :=
  b.clean && decide (fld b.auth 63 17 = 0 ∧ fld b.auth 0 0 = 0 ∧ 1 ≤ fld b.sched 63 48) &&
    decide (2 ≤ b.carve ∧ b.carve ≤ 16 ∧ 2 ≤ b.failep ∧ b.failep ≤ 15 ∧ b.flags < 8 ∧ b.revoke < 16) &&
    decide (b.ingBase % 4096 = 0 ∧ b.ingSize % 4096 = 0 ∧
      b.ingBase + b.ingSize ≤ stackSize - b.carve * 0x10000000)

/-- The signer slot whose digest is that of a key: programmed and not revoked. -/
def signerOf (f : Fuses) (key : List Byte) : Option Nat :=
  (List.range 4).find? fun n => (signer f n) && f.signers[n]? == some (digest32 key)
where
  signer (f : Fuses) (n : Nat) : Bool := decide (n < f.signers.length) && !f.revoked.getLsbD n

/-- The first check that the image fails, 0 for none. A line of it that cannot be read fails the signature. -/
def State.imageFault (s : State) (readable : Bool) : Nat :=
  let len := s.imageByte 0x10 8
  let signer := s.bytes (imageBase + 0x20) 64
  if s.imageByte 0 8 ≠ 0x4F5A5438424F4F54 ∨ s.imageByte 8 4 ≠ 1 ∨ len < imageHead + sigBytes ∨ imageMax < len ∨
      s.imageByte 0x18 8 % 4 ≠ 0 ∨ len - sigBytes ≤ s.imageByte 0x18 8 ∨ 63 < s.imageByte 0xC 4 then 1
  else if (signerOf s.sec.fuses signer).isNone then 2
  else if s.imageByte 0xC 4 < s.sec.fuses.secver then 3
  else if !readable || !Config.slhVerify signer ([0, 9] ++ ascii "OZT8-BOOT" ++ s.bytes imageBase (len - sigBytes))
      (s.bytes (imageBase + len - sigBytes) sigBytes) then 4
  else if (bootConfig (s.bytes (imageBase + 0x60) 256)).ok then 0
  else 5

/-- All eight harts start in machine mode at the image's entry point, a0 (x10) their number and a1 (x11) the image base
(R456). -/
def State.releaseHarts (s : State) : State :=
  (List.range 8).foldl (fun t n => t.modHart n fun h =>
    (({ h with running := true, pc := w64 (imageBase + s.imageByte 0x18 8), mode := .machine }).setX 10 (w64 n)).setX 11
      (w64 imageBase)) s

/-- What follows a good image, in order: the configuration, the revoke fuses, the security version, the measurement, the
release of the control cores. -/
def State.applyImage (s : State) : State :=
  let b := bootConfig (s.bytes (imageBase + 0x60) 256)
  let own := (signerOf s.sec.fuses (s.bytes (imageBase + 0x20) 64)).getD 4
  let ver := s.imageByte 0xC 4
  let s1 := (s.modFw fun d => { d with auth := b.auth, sched := b.sched }).modMem fun m => { m with carve := b.carve }
  let s2 := (s1.modGrp fun g => { g with failep := b.failep }).modSec fun c =>
    { c with fuses := { c.fuses with
        revoked := c.fuses.revoked ||| BitVec.ofNat 4 (if b.revoke.testBit own then b.revoke - 2 ^ own else b.revoke)
        secver := if b.flags.testBit 1 then max c.fuses.secver ver else c.fuses.secver } }
  let s3 := s2.extend 1 (digest32 (s.bytes imageBase (s.imageByte 0x10 8)))
  s3.releaseHarts.modSec fun c =>
    { c with boot := .running, ccReleased := true, imgGood := true, debug := b.flags.testBit 0,
             portcmd := b.flags.testBit 2, ingBase := b.ingBase, ingSize := b.ingSize, opkeys := b.opkeys }

/-- A rejected image is discarded whole (R463, R390). -/
def State.rejectImage (s : State) (cause : Nat) : State :=
  (s.modSec fun c =>
    { c with boot := .waitimg, bfail := cause, bfails := min 255 (c.bfails + 1), imgHave := [], imgLen := none }).logEvt
      2 255 0x70 0 0 (w64 cause) 0 0 0

/-! Datagrams (R468). -/

/-- The header of a message's first datagram, which its tag covers. -/
def headerBytes (type fcnt len : Nat) (session seq : W32) : List Byte :=
  toLe 2 0x5A4F ++ toLe 1 type ++ toLe 1 0 ++ toLe 1 fcnt ++ toLe 1 0 ++ toLe 2 len ++ toLe 4 session.toNat ++
    toLe 4 seq.toNat

/-- A message that has arrived whole: the header of its first datagram and its payload. -/
structure PortWhole where
  src : Nat
  session : W32
  seq : W32
  header : List Byte
  body : List Byte
  deriving DecidableEq, Repr

/-- A datagram joins the others of its message, by source address, SESSION and SEQ; the message is handed on once whole. -/
def State.takePort (s : State) (type : Nat) (m : PortMsg) (f : PortWhole → State → State) : State :=
  let same (p : PortPart) : Bool := p.src == m.src && p.session == m.session && p.seq == m.seq
  let old := (s.sec.portParts.find? same).getD ⟨m.src, type, m.session, m.seq, [], m.fcnt, s.mer.now⟩
  let p : PortPart := { old with frags := SMap.insert m.fidx m.payload old.frags }
  let rest := s.sec.portParts.filter fun q => !same q
  if old.type ≠ type ∨ old.fcnt ≠ m.fcnt then s
  else if p.frags.length = p.fcnt then
    let first := SMap.get [] p.frags 0
    f ⟨m.src, m.session, m.seq, headerBytes type p.fcnt first.length m.session m.seq, p.frags.flatMap (·.2)⟩
      (s.modSec fun c => { c with portParts := rest })
  else s.modSec fun c => { c with portParts := rest ++ [p] }

end Sys2Proof.Machine
end

