-- ==== Sys2Proof/Machine/Kvp.lean ====
section
/-! DEFINITION. The key-value page unit (R296 to R303, R321): pops and pushes of the free list, which stands in the
page table in stack memory, and the enabling of the pool. -/

namespace Sys2Proof.Machine

/-- The number that means no page (R296). -/
def kvpNoPage : Nat := 0x3FFFFF

def Kvp.count (k : Kvp) : Nat := fld k.geom 41 20
def Kvp.slotBytes (k : Kvp) : Nat := fld k.geom 11 0 * 128
/-- Address of word w of the entry of page n (R298). -/
def Kvp.entryAt (k : Kvp) (n w : Nat) : Nat := fld k.ptab 47 0 + 32 * n + 8 * w

/-- Address of page n (R296). -/
def Kvp.pageAt (k : Kvp) (n : Nat) : Nat := fld k.pool 47 0 + n * k.slotBytes

def State.kvpWord (s : State) (n w : Nat) : W64 := s.word64 (s.kvp.entryAt n w)

/-- A page number as the free list holds it: none for the end of the list or a number the pool does not have. -/
def Kvp.pageRef (k : Kvp) (n : Nat) : Option Nat := if n < k.count then some n else none

/-- The control core takes the answer of its load. -/
def State.kvpAnswer (s : State) (cc : Nat) (w : W64) : State :=
  { s with kvp := { s.kvp with popped := SMap.set 0 s.kvp.popped cc w } }

/-- The words of an entry just popped (R300): one reference, RESERVE, no node, one more allocation, no NEXT. -/
def popWords (gen : W64) : List W64 :=
  [0x0001000000000000#64, 0x40000000FFFFFFFF#64, gen + 1, 0#64]

/-- A pop of page n, the head of the list (R300). -/
def State.kvpPop (s : State) (n : Nat) : State :=
  let next := s.kvp.pageRef (fld (s.kvpWord n 3) 21 0)
  let s1 := s.writeWords (s.kvp.entryAt n 0) (popWords (s.kvpWord n 2))
  { s1 with kvp := { s1.kvp with head := next, free := s.kvp.free - 1, low := min s.kvp.low (s.kvp.free - 1) } }

/-- A pop (R300). Pops before READY, or with the pool off, return VALID = 0 and set no event (R321). -/
def State.kvpAlloc (s : State) (cc : Nat) : State :=
  if s.kvp.en && s.kvp.ready then
    match s.kvp.head with
    | some n => (s.kvpPop n).kvpAnswer cc (w64 (2 ^ 63 + n))
    | none => (s.kvpEvt 0).kvpAnswer cc 0
  else s.kvpAnswer cc 0

def execKvpAlloc (cc : CcId) (s : State) : Result := .next (s.kvpAlloc cc.val)

/-- A push of page n (R301): its STATE becomes FREE and it heads the list. -/
def State.kvpPush (s : State) (n : Nat) : State :=
  let s1 := s.writeW64 (s.kvp.entryAt n 1) (putFld (s.kvpWord n 1) 63 62 0)
  let s2 := s1.writeW64 (s.kvp.entryAt n 3) (w64 (s.kvp.head.getD kvpNoPage))
  { s2 with kvp := { s2.kvp with head := some n, free := s.kvp.free + 1 } }

/-- A push (R301). With the pool off, or not built yet, no entry changes (R321). -/
def State.kvpFree (s : State) (v : W64) : State :=
  let n := fld v 21 0
  if s.kvp.count ≤ n then s.kvpEvt 3
  else if !(s.kvp.en && s.kvp.ready) then s
  else
    let isFree := fld (s.kvpWord n 1) 63 62 == 0
    let held := s.kvpWord n 0 != 0
    if isFree || held then
      let s1 := if held then s.kvpEvt 1 else s
      if isFree then s1.kvpEvt 2 else s1
    else s.kvpPush n

def execKvpFree (_cc : CcId) (v : W64) (s : State) : Result := .next (s.kvpFree v)

/-- The pool and the page table lie wholly in stack memory outside the carve-out (R296). -/
def State.kvpInRange (s : State) : Bool :=
  let pt := fld s.kvp.ptab 47 0
  let size := 32 * s.kvp.count
  decide (fld s.kvp.pool 47 0 + s.kvp.count * s.kvp.slotBytes ≤ s.carveBase) &&
    (match locate pt with | .stack _ _ => true | _ => false) && s.jobRange pt size

/-- R321, R296: EN is set and the list is to be built; out of range the write is ignored. -/
def State.kvpEnable (s : State) : State :=
  if s.kvpInRange then
    { s with kvp := { s.kvp with en := true, ready := false, head := none, free := 0, low := 0 } }
  else s.kvpEvt 3

def execKvpEnable (_cc : CcId) (s : State) : Result := .next s.kvpEnable

/-- R321: EN and READY clear; no entry changes. -/
def State.kvpDisable (s : State) : State := { s with kvp := { s.kvp with en := false, ready := false } }

def execKvpDisable (_cc : CcId) (s : State) : Result := .next s.kvpDisable

/-- The words of a fresh entry: FREE, counts and GEN zero, linked to the next page. FILL, LAYER and NODE of a FREE entry
are not given: they are free values. -/
def freshWords (count fresh n : Nat) : List W64 :=
  [0#64, Config.freeWide fresh n &&& 0x007FFFFFFFFFFFFF#64, 0#64,
   w64 (if n + 1 < count then n + 1 else kvpNoPage)]

/-- Writes the entries of pages [0, n). -/
def State.kvpBuild (s : State) (count fresh : Nat) : Nat → State
  | 0 => s
  | n + 1 =>
    (State.kvpBuild s count fresh n).writeWords (s.kvp.entryAt n 0) (freshWords count fresh n)

/-- R321: the entries are written, the list pops in ascending order and READY is set. -/
def execKvpReady (s : State) : Result :=
  .next (
    if s.kvp.en && !s.kvp.ready then
      let n := s.kvp.count
      let s1 := (s.kvpBuild n s.fresh n).tick
      { s1 with kvp := { s1.kvp with ready := true, head := s.kvp.pageRef 0, free := n, low := n } }
    else s)

/-- R321: LOW starts again from FREE. -/
def State.kvpRelow (s : State) : State := { s with kvp := { s.kvp with low := s.kvp.free } }

def execRelow (_cc : CcId) (s : State) : Result := .next s.kvpRelow

end Sys2Proof.Machine
end

