-- ==== Sys2Proof/Machine/SeqPass.lean ====
section
/-! DEFINITION. Passes and drains: JET, ATS, ATX, ATV, DRN and the events of a pass in the arrays and the drain
unit (R121 to R124, R276 to R282). -/

namespace Sys2Proof.Machine

/-- Whole-job stopping: the sequencers of the instance dispatch no further pass (R136). -/
def State.noMorePasses (s : State) (c : Nat) : Bool :=
  match s.instOn c with
  | some i => i.whole && decide (i.st = .stopping)
  | none => false

/-- A pass-starting instruction at issue (R111, R121). -/
def State.issuePassOp (s : State) (c : Nat) (kind : PassKind) (a mask : BitVec 12) (part : BitVec 3) (swap : Bool)
    (m : BitVec 13) : State :=
  if (partShape part.toNat).isNone then s.sqFault c .instr (s.core c).ctx.pc 0
  else if (s.core c).ctx.waiting || s.noMorePasses c || s.sqStopped c then s.sqHold c .stall (.pass kind a mask part swap m)
  else s.dispatchPass c kind a.toNat mask.toNat part.toNat (m.toNat + 1) swap

/-- JET; the operand m is M - 1, as ROWHI and IMM give it (R110). -/
def execJet (c : CoreId) (a : BitVec 12) (part : BitVec 3) (swap : Bool) (m : BitVec 13) (s : State) : Result :=
  .next (s.sqIssue c (s.issuePassOp c .jet a 0 part swap m))

/-- ATS (R276 to R281). -/
def execAts (c : CoreId) (a mask : BitVec 12) (part : BitVec 3) (swap : Bool) (m : BitVec 13) (s : State) : Result :=
  .next (s.sqIssue c (s.issuePassOp c .ats a mask part swap m))

/-- ATX (R282, R304, R305). -/
def execAtx (c : CoreId) (a : BitVec 12) (part : BitVec 3) (swap : Bool) (m : BitVec 13) (s : State) : Result :=
  .next (s.sqIssue c (s.issuePassOp c .atx a 0 part swap m))

/-- ATV (R281). -/
def execAtv (c : CoreId) (a : BitVec 12) (part : BitVec 3) (swap : Bool) (m : BitVec 13) (s : State) : Result :=
  .next (s.sqIssue c (s.issuePassOp c .atv a 0 part swap m))

/-- A pass-starting instruction held behind a waiting pass is dispatched once none waits (R121). -/
def State.resumePass (s : State) (c : Nat) : State :=
  match (s.core c).ctx.held with
  | .pass kind a mask part swap m =>
    if (s.core c).ctx.waiting || s.noMorePasses c then s
    else s.dispatchPass c kind a.toNat mask.toNat part.toNat (m.toNat + 1) swap
  | _ => s

/-- The waiting pass issues once every earlier pass has entered whole; then a stalled pass-starting instruction is
dispatched (R121). -/
def State.passIssues (s : State) (c : Nat) : State :=
  let k := s.core c
  if k.ctx.waiting && !s.frozen c && !((k.ctx.passes.filter fun p => p.issued).any Pass.entering) then
    ((s.issuePass c).tryStream c).resumePass c
  else s

def execPassIssue (c : CoreId) (s : State) : Result := .next (s.passIssues c)

def execPrescanEnd (c : CoreId) (s : State) : Result := .next (s.endPrescan c)

def execRowEntry (c : CoreId) (s : State) : Result := .next (s.tryStream c)

def execDrainOutput (c : CoreId) (arrB : Bool) (sub : BitVec 4) (row col : Nat) (s : State) : Result :=
  .next (s.drainOutput c arrB sub.toNat row col)

def execDrainWriteComplete (c : CoreId) (k : Nat) (s : State) : Result := .next (s.finishWrite c k)

def execChunkCloseTimeout (c : CoreId) (k : Nat) (s : State) : Result := .next (s.closeChunk c k)

/-- DRN is queued at issue (R123). -/
def State.issueDrn (s : State) (c : Nat) (a b dest : BitVec 12) (sub : BitVec 4) (fl : DrnFlags) : State :=
  if 16 ≤ (s.core c).ctx.drnq.length then s.sqFault c .drain (s.core c).ctx.pc 0
  else
    match s.drnOperands c a.toNat b.toNat dest.toNat sub.toNat fl with
    | .error e => s.sqOperandFault c e
    | .ok p => (s.modCore c fun k =>
        { k with nextDrn := k.nextDrn + 1, ctx := { k.ctx with drnq := k.ctx.drnq ++ [p] } }).sqAdvance c

def execDrn (c : CoreId) (a b dest : BitVec 12) (sub : BitVec 4) (flags : DrnFlags) (s : State) : Result :=
  .next (s.sqIssue c (s.issueDrn c a b dest sub flags))

/-- A pending column repair takes effect at a tile boundary with both arrays empty and no load in progress: the
planes keep their logical contents, and the arrays are held for 400 cycles (R101, R476). -/
def State.switchColumns (s : State) (c : Nat) : State :=
  let k := s.core c
  let pend := k.arrA.pendCol.isSome || k.arrB.pendCol.isSome
  if pend && k.tileBoundary && k.ctx.loads.isEmpty then
    let app (a : ArrayState) : ArrayState :=
      match a.pendCol with
      | some col => { a with retired := a.retired ++ [col], pendCol := none }
      | none => a
    let s1 := s.modCore c fun q => { q with arrA := app q.arrA, arrB := app q.arrB }
    if k.st = .run ∨ k.st = .stall then s1.bumpBy (cntMc c 1) 800 else s1
  else s

def execColumnSteeringSwitch (c : CoreId) (s : State) : Result := .next (s.switchColumns c)

end Sys2Proof.Machine
end

