-- ==== Sys2Proof/Machine/Sched.lean ====
section
/-! DEFINITION. Launch, save and restore of instances (R33 to R37, R382, R404, R441 to R446), the yield-back and the
deadlock fault (R447, R448), the stop of a slot (R437). -/

namespace Sys2Proof.Machine

/-! Bytes that claims share (R434, R445, R446). -/

def Region.covers (r : Region) (line : Nat) : Bool := decide (r.base ≤ line ∧ line + 128 ≤ r.base + r.size)

/-- A line lies in a claim of the job. -/
def Job.claimsLine (b : Job) (line : Nat) : Bool :=
  b.layout.any fun r => (r.kind == 2 || r.kind == 3) && r.covers line

/-- The line belongs to core c: its core buffer, or a local store of its cluster. -/
def lineOfCore (c line : Nat) : Bool :=
  match locate line with
  | .cbuf k _ => k == c
  | .lstore e _ => coreOfEng e == c
  | _ => false

/-- The other job whose own bytes a line of memory holds. -/
def State.lineHolder (s : State) (slot line : Nat) : Option Nat :=
  (List.range 4).find? fun k => k != slot && (s.job k).claimsLine line && (SMap.get [] (s.job k).aside line).isEmpty

/-- A line's kept bytes come back to memory, and those of the job that held it are kept instead. -/
def State.swapLine (s : State) (slot line : Nat) (bs : List (Option Byte)) : State :=
  let s0 := s.flushLine line
  let s1 := match s0.lineHolder slot line with
    | some k => s0.modJob k fun b => { b with aside := SMap.set [] b.aside line ((s0.bytes line 128).map some) }
    | none => s0
  let given := (List.range 128).filterMap fun i => (bs[i]?.join).map fun b => (i, b)
  let s2 := if given.length = 128 then s1.writeLine line (given.map (·.2)) else s1.mergeLine line given
  s2.modJob slot fun b => { b with aside := SMap.erase line b.aside }

/-- The incoming job's overlapping bytes of a core (R446). -/
def State.swapIn (s : State) (slot c : Nat) : State :=
  ((s.job slot).aside.filter fun p => lineOfCore c p.1).foldl (fun t p => t.swapLine slot p.1 p.2) s

/-- The clock mode of a core, as its job asks at each launch; a rise to a new FSET follows SLEW, which then restrains the clock
(R395, R404). -/
def State.takeMode (s : State) (slot c : Nat) : State :=
  let f := if (s.job slot).free then (s.pcore c).fmax else 2400
  let rises := decide (min (s.pcore c).fnow f < f)
  let s1 := s.modPcore c fun p =>
    let q : PwrCore := { p with free := (s.job slot).free, fset := f, fnow := min p.fnow f }
    { q with restrained := q.restrained || rises, thr := q.thr || q.slowed }
  if rises && !(s.pcore c).restrained then s1.holdSlew else s1

/-- What a core's units take up in a beat in which it is throttled is throttled (R354, R396). -/
def State.joinBeat (s : State) (c : Nat) : State := if (s.pcore c).thr then s.markThr c else s

/-! Launch. -/

/-- The sequencer of a core starts at the entry point; its sixteen engines start at VE_ENTRY, and an engine without a
program counts as ended (R33, R146, R243). -/
def State.startCore (s : State) (slot entry c : Nat) : State :=
  let b := s.job slot
  let img := SMap.get (0, 0) b.redImg c
  let s1 := s.modCore c fun k =>
    { k with st := .run, job := slot, exitCode := 0, lastJob := some slot,
             ctx := { k.ctx.setAts (SMap.get (false, 0, [], 0) b.atsRegs c) with
                      pc := entry, loops := [], calls := [], drnq := [], held := .none,
                      redstg := img.1, gmask := img.2 } }
  (List.range 16).foldl (fun t i =>
    let e := 16 * c + i
    let r := SMap.get (0, UCtx.zero) b.engRegs e
    t.modEng e fun k =>
      match SMap.get none b.veEntry e with
      | some w => { k with st := .run, job := slot, entry := w, hasProg := true, keyed := b.keyed,
                           ctx := { k.ctx with pc := w, held := .none, step := r.1, uctx := r.2 } }
      | none => { k with st := .halted, job := slot, hasProg := false, keyed := b.keyed,
                         ctx := { k.ctx with held := .none, step := r.1, uctx := r.2 } }) s1

/-- FW_HALO for a step: the role plan that gave this chip a primary for good, else the halo plan of the step, else
nothing (R382, R384). -/
def State.haloWord (s : State) (step : W32) : W64 :=
  let me := s.grp.chip.toNat
  let word (p r : Nat) := w64 (at' 1 63 + at' (step.toNat % 65536) 32 + at' (p % 65536) 16 + r % 65536)
  let roles := s.grp.rolePlans.filterMap fun q =>
    if (step - q.1).slt 0 then none else q.2.find? fun x => x.kind == 0 && x.new == me && x.former != me
  match roles.getLast? with
  | some x => word x.former x.ridx
  | none =>
    match s.grp.haloPlans.find? fun q => q.1 == step with
    | some q => (match q.2.find? fun x => x.pool == me with | some x => word x.primary x.ridx | none => 0)
    | none => 0

/-- At the launch of a step's instance a pool member takes the plan it holds (R382). -/
def State.applyHalo (s : State) (i : Nat) : State :=
  let j := (s.entry i).job
  if s.redEn j && fld (s.redSlot j).ctl 57 48 == i then
    s.modGrp fun g => { g with halo := s.haloWord (s.committed j + 1) }
  else s

/-- Ticks from a launch on a core to its first instruction where the core has to take the job's bytes back first: 1.6 µs,
640 bytes a ns, then 40 ns (R33, R445, R446). -/
def State.switchTicks (s : State) (slot c : Nat) : Nat :=
  let lines := ((s.job slot).aside.filter fun p => lineOfCore c p.1).length
  if lines = 0 then 0 else 1600 + (128 * lines + 16 * 8192) / 640 + 40

/-- Lateness of a launch: an ASAP instance 0 has none (R35); a switch ends with its slowest core (R445, R446). -/
def State.launchLag (s : State) (i no nominal : Nat) : Nat :=
  let e := s.entry i
  if e.asap ∧ no = 0 then 0
  else s.now - nominal + ((coresOf e.cores).map fun c => s.switchTicks e.job c).foldl max 0

/-- A late launch (R35). -/
def State.noteLate (s : State) (i no late skipped : Nat) : State :=
  let t := s.mer.lateCount.toNat + 1
  let s1 := (s.modMer fun m =>
    { m with lateCount := BitVec.ofNat 48 t, lateOvf := m.lateOvf || decide (2 ^ 48 ≤ t) }).merEvt 3
  s1.logEvt 0 (s.entry i).job 1 (s.entry i).tag 0 (w64 i) (w64 no) (w64 late) (w64 skipped)

def mkInst (i no : Nat) (e : SchedEntry) (cores : List Nat) (nominal : W64) : Inst :=
  { entry := i, no := no, job := e.job, cores := cores, whole := e.whole, nominal := nominal, st := .running,
    discard := false, takes := [], adds := [], released := [], exit := 0, savedCores := [], savedPlanes := [],
    savedEngines := [], savedEngSt := [], savedSqSt := [], saveNo := 0, charge := i, backFor := none,
    yielded := false, savedStage := [] }

/-- The pending instance of an entry launches (R33, R35, R36). -/
def State.launch (s : State) (i no nominal : Nat) : State :=
  let e := s.entry i
  let cores := coresOf e.cores
  let s1 := s.modEntry i fun e =>
    { e with start := if e.asap ∧ no = 0 then w64 nominal else e.start, nextNo := no + 1, inst := e.inst + 1 }
  let s2 := s1.modFw fun d => { d with insts := d.insts ++ [mkInst i no e cores (w64 nominal)] }
  let s3 := cores.foldl (fun t c => ((t.swapIn e.job c).takeMode e.job c).startCore e.job e.entry c) s2
  let s4 := (s3.giveT0 i (w64 nominal)).applyHalo i
  let lag := s.launchLag i no nominal
  if 64 < lag then s4.noteLate i no lag (no - e.nextNo) else s4

/-- A waiting instance that is first for its cores and outranks every holder of them has them stopped, to be saved
(R441). -/
def State.preemptFor (s : State) (w : Waiter) : State :=
  let hs := s.fw.insts.filter fun h => decide (h.st ≠ .saved) && w.cores.any fun c => h.needs.contains c
  if s.firstFor w && !(w.cores.any s.coreBarred) && hs.all (fun h => s.outranks w h false) then
    let stop (x : Inst) : Inst := if hs.contains x ∧ x.st = .running then { x with st := .stopping } else x
    s.modFw fun d => { d with insts := d.insts.map stop }
  else s

/-- Darkel's decision for every waiting instance (R441). -/
def State.decideAll (s : State) : State := s.waiting.foldl (fun t w => t.preemptFor w) s

/-- A due instance launches where its cores are free and no higher claim waits for them; else it pre-empts or waits
(R33, R37, R441). -/
def State.tryLaunch (s : State) (i : Nat) : State :=
  let e := s.entry i
  match e.due s.now with
  | none => s
  | some (no, nominal) =>
    if (s.instsOf i).isEmpty then
      let w : Waiter := ⟨i, coresOf e.cores, e.job, false, false⟩
      if s.mayTake w then s.launch i no nominal else s.preemptFor w
    else s

/-- The epoch and beat actions of a cycle come before its launches (R38). -/
def State.boundaryDue (s : State) : Bool := decide (s.mer.nextEpoch ≤ s.now) || decide (s.mer.nextBeat ≤ s.now)

def execInstanceLaunch (i : BitVec 10) (s : State) : Result :=
  .next (if s.boundaryDue then s else s.tryLaunch i.toNat)

/-- Launch evaluation of the entries named, before Darkel writes to them in the same cycle (R38). -/
def State.launchFirst (s : State) (p : Nat → SchedEntry → Bool) : State :=
  (s.sched.filter fun q => p q.1 q.2).foldl (fun t q => t.tryLaunch q.1) s

/-! Save (R443, R444). -/

/-- A line's write that a frozen pass has yet to fill: it is drain work not handed to memory (R443). -/
def State.partFilled (s : State) (c : Nat) (w : DrainWrite) : Bool := w.line?.isSome && !s.writeReady c w

/-- Every outstanding operation of a core and its engines has completed; in whole-job configuration, and at a YIELD, its
passes too. -/
def State.coreSaveReady (s : State) (whole : Bool) (c : Nat) : Bool :=
  let k := s.core c
  k.ctx.loads.isEmpty && k.ctx.moves.isEmpty && k.ctx.puts.isEmpty && k.ctx.drainWrites.all (s.partFilled c) &&
    k.chunks.isEmpty && (k.staged.all fun p => match p.2 with | some q => decide (q.filled < 64) | none => true) &&
    (!(whole || k.ctx.held == .yieldPt) || k.ctx.passes.isEmpty) &&
    (List.range 16).all fun i => (s.eng (16 * c + i)).ctx.dmas.isEmpty

def State.saveReady (s : State) (x : Inst) : Bool := x.needs.all (s.coreSaveReady x.whole)

/-- Net amount an instance has taken from a semaphore (R447). -/
def Inst.net (x : Inst) (n : Nat) : Int := ((SMap.get 0 x.takes n : Nat) : Int) - ((SMap.get 0 x.adds n : Nat) : Int)

/-- A save is asked for: a stop for a claim or a test, a YIELD that is wanted, a holder whose yield-back is over. -/
def State.saveWanted (s : State) (x : Inst) : Bool :=
  (x.st == .stopping && !x.discard) ||
    (x.st == .running && x.needs.any (fun c => (s.core c).ctx.held == .yieldPt) &&
      (s.preempted x true || s.testFor x)) ||
    (x.st == .running && match x.backFor with | some q => decide (x.net q.2 ≤ 0) | none => false)

/-- Sequencer, planes, chains and staging of a core go to the instance (R444). At a YIELD the save stands past it. -/
def State.saveCore (s : State) (x : Inst) (c : Nat) : State × Inst :=
  let s0 := if (s.core c).ctx.held = .yieldPt then s.sqAdvance c else s
  let k := s0.core c
  let y := { x with
    savedSqSt := SMap.insert c k.st x.savedSqSt
    savedCores := SMap.insert c k.ctx x.savedCores
    savedPlanes := SMap.insert c ([k.arrA.active, k.arrA.shadow, k.arrB.active, k.arrB.shadow], k.arrA.vacated) x.savedPlanes
    savedStage := SMap.insert c (k.staged, k.reserved) x.savedStage }
  let s1 := (s0.modCore c fun q =>
    { q with st := if q.st = .halted then .halted else .saved, staged := [], reserved := 0,
             arrA := { q.arrA with vacated := false }, arrB := { q.arrB with vacated := false },
             ctx := { q.ctx with loops := [], calls := [], drnq := [], passes := [], drainWrites := [], held := .none } }).semLeave (.core c)
  (s1, y)

/-- Registers of an engine go to the instance; its stores have completed. An engine that has ended stays HALTED until its
core's next launch (R146). -/
def State.saveEng (s : State) (x : Inst) (e : Nat) : State × Inst :=
  let s0 := s.veFlush e
  let k := s0.eng e
  let y := { x with savedEngSt := SMap.insert e k.st x.savedEngSt, savedEngines := SMap.insert e k.ctx x.savedEngines }
  ((s0.modEng e fun q => { q with st := if q.st = .halted then .halted else .saved, ctx := { q.ctx with held := .none } }).semLeave (.eng e), y)

/-- What a save writes to the SAVE region of a core: the manual gives its bytes no layout, so they are free (R444, log 18). -/
def State.writeSave (s : State) (slot c : Nat) : State :=
  match (s.job slot).layout.find? fun r => r.kind == 4 && r.unit == c with
  | none => s
  | some r => (s.writeDone r.base ((List.range r.size).map fun i => Config.freeByte s.fresh (r.base + i))).tick

/-- The whole instance is saved. -/
def State.saveInst (s : State) (x : Inst) (yielded : Bool) : State :=
  let r := x.needs.foldl (fun (a : State × Inst) c =>
    (List.range 16).foldl (fun (a : State × Inst) i => a.1.saveEng a.2 (16 * c + i))
      ((a.1.keepRegs c x.job).saveCore a.2 c)) (s.noteLeft x x.needs, x)
  let t := x.needs.foldl (fun u c => u.writeSave x.job c) r.1
  let y := { r.2 with st := .saved, saveNo := s.fw.nextSave, backFor := none, charge := x.entry, yielded := yielded }
  ((t.modInst x.entry x.no fun _ => y).modFw fun d => { d with nextSave := d.nextSave + 1 }).serveAll

/-- The instance of an entry that is not saved, and the one that is. -/
def State.liveInst (s : State) (i : Nat) : Option Inst := s.fw.insts.find? fun x => x.entry == i && decide (x.st ≠ .saved)
def State.keptInst (s : State) (i : Nat) : Option Inst := s.fw.insts.find? fun x => x.entry == i && decide (x.st = .saved)

/-- A wanted save stops the instance, and is made once its operations have completed (R443). -/
def State.trySave (s : State) (i : Nat) : State :=
  match s.liveInst i with
  | none => s
  | some x =>
    if s.saveWanted x then
      if s.saveReady x then s.saveInst x false else s.modInst x.entry x.no fun y => { y with st := .stopping }
    else s

def execInstanceSave (i : BitVec 10) (s : State) : Result := .next (s.trySave i.toNat)

/-! Restore (R444 to R446). -/

/-- A unit that was saved in its wait joins the queue again, at its tail (R220). -/
def State.rejoin (s : State) (u : SemUnit) : State :=
  match u with
  | .core c => (match (s.core c).ctx.held with | .semw n amt => s.semJoin u n amt | _ => s)
  | .eng e => (match (s.eng e).ctx.held with | .semW n amt => s.semJoin u n amt | _ => s)

def restorePlane (cur old : Plane) : Plane := if old.written then old else cur

def State.restoreCore (s : State) (x : Inst) (c : Nat) : State :=
  let ps := SMap.get ([], false) x.savedPlanes c
  let st := SMap.get ([], 0) x.savedStage c
  let plane (i : Nat) := ps.1[i]?.getD .empty
  let s1 := (s.swapIn x.job c).takeMode x.job c
  ((s1.modCore c fun k =>
    { k with st := SMap.get .idle x.savedSqSt c, job := x.job, ctx := SMap.get .empty x.savedCores c,
             staged := st.1, reserved := st.2, lastJob := some x.job,
             arrA := { k.arrA with active := plane 0, shadow := restorePlane k.arrA.shadow (plane 1), vacated := ps.2 },
             arrB := { k.arrB with active := plane 2, shadow := restorePlane k.arrB.shadow (plane 3), vacated := ps.2 }
    }).joinBeat c).rejoin (.core c)

/-- An engine's registers come back and its data cache is emptied (R159, R444). -/
def State.restoreEng (s : State) (x : Inst) (e : Nat) : State :=
  (s.modEng e fun k =>
    { k with st := SMap.get .halted x.savedEngSt e, job := x.job, ctx := SMap.get .empty x.savedEngines e, dcache := [],
             keyed := (s.job x.job).keyed }).rejoin (.eng e)

/-- What a unit of a restored core was stalled on is tested again. -/
def State.resumeCore (s : State) (c : Nat) : State :=
  let s1 := ((((s.resumeLoad c).resumeMove c).tryStream c).passIssues c).resumePass c
  (List.range 16).foldl (fun t i => (t.retestUpdate (16 * c + i)).resumeDma (16 * c + i)) s1

/-- Units that were saved waiting on one semaphore rejoin its queue core by core, the sequencer of a core before its
engines, these in rising number: the manual gives no order (R220; DESIGN CHOICE, log 79). -/
def State.restoreInst (s : State) (x : Inst) (backFor : Option (Nat × Nat)) (charge : Nat) : State :=
  let s1 := x.needs.foldl (fun t c =>
    (List.range 16).foldl (fun t i => t.restoreEng x (16 * c + i)) (t.restoreCore x c)) s
  let s2 := s1.modInst x.entry x.no fun y =>
    { y with st := .running, yielded := false, backFor := backFor, charge := charge, savedCores := [],
             savedPlanes := [], savedEngines := [], savedEngSt := [], savedSqSt := [], savedStage := [] }
  x.needs.foldl (fun t c => t.resumeCore c) s2.serveAll

/-- A saved instance resumes under the rules of a waiting one (R441), once what a stopped holder of its cores had issued
has completed, which R142 and R174 promise it does (DESIGN CHOICE, log 79). -/
def State.tryRestore (s : State) (i : Nat) : State :=
  match s.waiting.find? fun w => w.saved && w.entry == i, s.keptInst i with
  | some w, some x =>
    if s.mayTake w then (if x.needs.all (s.coreSaveReady true) then s.restoreInst x none x.entry else s)
    else s.preemptFor w
  | _, _ => s

def execInstanceRestore (i : BitVec 10) (s : State) : Result := .next (s.tryRestore i.toNat)

/-! Yield-back (R447, R448). -/

/-- A semaphore on which a unit of the instance has waited for longer than a beat, and the saved holder of it saved
earliest. -/
def State.blockedOn (s : State) (w : Inst) : Option (Nat × Inst) :=
  s.sems.findSome? fun p =>
    if p.2.waiters.any fun q => w.needs.contains (unitCore q.1) && decide (q.2.2.toNat + 1024 < s.now) then
      let hs := s.fw.insts.filter fun h => h.st == .saved && h.job == w.job && decide (0 < h.net p.1)
      let best := hs.foldl (fun (a : Option Inst) h =>
        match a with | none => some h | some b => if h.saveNo < b.saveNo then some h else some b) none
      best.map fun h => (p.1, h)
    else none

/-- Entries of the chain of yield-backs that ends with an instance. -/
def State.chainOf (s : State) (i : Nat) : Nat → List Nat
  | 0 => [i]
  | k + 1 =>
    match s.liveInst i with
    | some x => (match x.backFor with | some q => i :: State.chainOf s q.1 k | none => [i])
    | none => [i]

/-- Semaphores a saved instance waits on. -/
def Inst.waitsOn (x : Inst) : List Nat :=
  (x.savedCores.filterMap fun p => match p.2.held with | .semw n _ => some n | _ => none) ++
    x.savedEngines.filterMap fun p => match p.2.held with | .semW n _ => some n | _ => none

/-- The holder waits for a holder already in the chain (R448). -/
def State.inChain (s : State) (i : Nat) (h : Inst) : Bool :=
  let ch := s.chainOf i s.fw.insts.length
  h.waitsOn.any fun n => s.fw.insts.any fun v => ch.contains v.entry && decide (0 < v.net n)

/-- A yield-back for the waiter of entry i, or the deadlock fault that replaces it. -/
def State.yieldBackFor (s : State) (i : Nat) : State :=
  match s.liveInst i with
  | none => s
  | some w =>
    match s.blockedOn w with
    | none => s
    | some (n, h) =>
      if (s.sem n).noinh || s.inChain i h then
        ((s.modJob w.job fun b => { b with sem := n }).fwEvt 1).stopSlot w.job 2
      else if h.needs.all fun c => w.needs.contains c || (!s.coreHeld c && !s.coreBarred c) then
        if s.saveReady w then
          let s1 := (s.saveInst w true).fwEvt 2
          s1.restoreInst h (some (i, n)) i
        else s.modInst w.entry w.no fun y => { y with st := .stopping }
      else s

def execYieldBack (i : BitVec 10) (s : State) : Result := .next (s.yieldBackFor i.toNat)

/-! The stop of a slot (R437). -/

def execJobSlotStop (j : SlotId) (cause : StopCause) (s : State) : Result :=
  .next (if s.stopDue j cause then s.stopSlot j (stopCauseCode cause) else s)

end Sys2Proof.Machine
end

