-- ==== Sys2Proof/Machine/Meridian.lean ====
section
/-! DEFINITION. Meridian's events (R20 to R30): the beat and its actions (R38, R393 to R398, R439 to R441, R476), the epoch
and its actions (R377, R397, R399, R410, R477, R492), time frames, slew, holdover and the external reference. -/

namespace Sys2Proof.Machine

/-! Beats. -/

/-- Slots of the beat that no row took: what held the arrays back, and the rest (R476). -/
def State.countSlots (s : State) (m : BeatMeas) (c : Nat) : State :=
  let k := s.core c
  let all := 2 * m.cycles[c]?.getD 0
  let back := m.sback[c]?.getD 0
  let held := m.held[c]?.getD 0
  ((((s.bumpBy (cntMc c 1) held).bumpBy (cntMc c 3) back).bumpBy (cntMc c 2)
    (all - k.retired - k.wasted - held - back)).bumpBy (cntMc c 8) (b2n (s.pcore c).thr)).modCore c fun q =>
      { q with retired := 0, wasted := 0 }

/-- BANKWAIT of each stack port and CREDWAIT of each link (R475). -/
def State.countWaits (s : State) (m : BeatMeas) : State :=
  let s1 := (m.bankWait.take 20).zipIdx.foldl (fun t q => t.bumpBy (cntStk q.2 3) q.1) s
  (m.credWait.take 96).zipIdx.foldl (fun t q => t.bumpBy (cntLnk q.2 3) q.1) s1

/-- Cycles of a core under instances that have left it in the beat, of those entries that a predicate selects. -/
def State.leftCycles (s : State) (m : BeatMeas) (c : Nat) (p : Nat → Bool) : Nat :=
  ((m.left.filter fun q => q.1 == c && p q.2.1 && s.fw.left.contains (c, q.2.1)).map (·.2.2)).sum

/-- Slots of the beat charged to an entry: those of each core under an instance that is charged to it, its switches among
them (R439, R445, R447). -/
def State.chargedTo (s : State) (m : BeatMeas) (i : Nat) : Nat :=
  ((List.range 4).map fun c =>
    let gone := s.leftCycles m c
    let own := match s.instOn c with
      | some x => if x.charge = i then m.cycles[c]?.getD 0 - gone (fun _ => true) + m.switching[c]?.getD 0 else 0
      | none => 0
    2 * (own + gone (· == i))).sum

/-- An entry is contending (R440): it has a running, saved or due instance, and another entry's holds or waits for one
of the same cores. -/
def State.contending (s : State) (i : Nat) : Bool :=
  let e := s.entry i
  let own := coresOf e.cores
  let shares (l : List Nat) : Bool := l.any own.contains
  (!(s.instsOf i).isEmpty || (e.due s.now).isSome) &&
    ((s.fw.insts.any fun x => x.entry != i && shares x.needs) || s.waiting.any fun w => w.entry != i && shares w.cores)

/-- FW_DEFi at a beat (R440). -/
def State.updateDef (s : State) (m : BeatMeas) (i : Nat) : State :=
  let e := s.entry i
  let slots := s.chargedTo m i
  let cap : Int := (fld s.fw.sched 23 0 : Nat)
  let con := s.contending i
  let d := clampInt (-cap) cap (e.deficit + (e.share * fld s.fw.sched 63 48 : Nat) - (slots : Nat))
  s.modEntry i fun e => { e with slots := slots, cont := con, deficit := if con then d else 0 }

/-- Every entry's deficit, from the state as the beat finds it. -/
def State.updateDefs (s : State) (m : BeatMeas) : State :=
  { s with fw := { s.fw with left := [] }, sched := (s.sched.map (·.1)).foldl (fun (t : SMap SchedEntry) i =>
      SMap.set SchedEntry.empty t i ((s.updateDef m i).entry i)) s.sched }

/-- A YIELD that nothing waits for any more goes on (R137). -/
def State.releaseYield (s : State) (c : Nat) : State :=
  match s.instOn c with
  | some x =>
    if (s.core c).ctx.held = .yieldPt ∧ x.st = .running ∧ s.preempted x true = false ∧ s.testFor x = false then s.sqAdvance c
    else s
  | none => s

/-- Deep droops hold for the rest of a beat and the next (R406). -/
def State.ageDroops (s : State) : State :=
  (List.range 4).foldl (fun t c => t.modPcore c fun p => { p with droopBeats := p.droopBeats - 1 })
    (s.modPwr fun p => { p with socDroopBeats := p.socDroopBeats - 1 })

/-- The estimate of the beat that has ended joins its epoch; the last beat of an epoch joined at the boundary. -/
def State.noteDraw (s : State) (boundary draw : Nat) : State :=
  if boundary % 2 ^ 20 = 0 then s
  else
    let w := draw / 1000000
    s.modPwr fun p => { p with epSum := p.epSum + w, epCount := p.epCount + 1, epPeak := max p.epPeak w }

/-- The beat actions (R38): counters of the beat just ended, the poll, shares, claims, then the draw. -/
def State.beat (s : State) (m : BeatMeas) (boundary : Nat) : State :=
  let s1 := ((List.range 4).foldl (fun t c => t.countSlots m c) s).countWaits m
  let s2 := (s1.bumpBy (cntPwr 0) m.ballastMj).bumpBy (cntPwr 2) (b2n ((List.range 4).any fun c => (s1.pcore c).guard))
  let s3 := (s2.poll.updateDefs m).decideAll
  let s4 := (List.range 4).foldl (fun t c => t.releaseYield c) s3
  let s5 := ((s4.noteDraw boundary m.draw).ageDroops.drawControl m).moveRails
  (List.range 4).foldl (fun t c => t.beatThr c) s5

/-- The boundary event fires as the count reaches or passes the boundary, once; the epoch event of the same cycle
comes first (R22, R38). -/
def execBeatBoundary (m : BeatMeas) (s : State) : Result :=
  let b := s.mer.nextBeat
  let t := max s.now b
  .next (if s.mer.nextEpoch ≤ t then s
    else (s.modMer fun q => { q with now := w64 t, nextBeat := b + 1024 }).beat m b)

/-! Epochs. -/

/-- The snapshot of every counter, EPOCHEND last (R477). -/
def State.snapshot (s : State) : State :=
  let e := w64 s.epochNo
  let a := fld s.cnt.snap 47 0 + 8192 * (s.epochNo % max 1 (fld s.cnt.snap 63 48))
  let words := [e, s.mer.now, w64 s.me, 0, 0, 0, 0, 0] ++ (List.range 820).map s.cntr ++ List.replicate 195 0
  ((s.writeWords a words).writeW64 (a + 0x1FF8) e).modCnt fun c => { c with lastEpochTick := some s.mer.now }

/-- PWR_DRAW's mean and peak of the epoch that has ended (R415). -/
def State.closeDraw (s : State) (draw : Nat) : State :=
  s.modPwr fun p =>
    let w := draw / 1000000
    { p with drawMean := min 2047 ((p.epSum + w) / (p.epCount + 1)), drawPeak := min 2047 (max p.epPeak w),
             epSum := 0, epCount := 0, epPeak := 0 }

/-- Every unit that has path-margin monitors of its own (R412). -/
def ageUnits : List AgeUnit :=
  (List.finRange 4).map AgeUnit.core ++ (List.finRange 20).map AgeUnit.stack ++ (List.finRange 4).map AgeUnit.quadrant

/-- Epochs counted: those in HOLDOVER, those since a measurement, which falls due after PERIOD epochs (R42, R412). -/
def State.countEpoch (s : State) : State :=
  (s.modMer fun m => { m with holdEp := if m.st = .holdover then min 65535 (m.holdEp + 1) else m.holdEp }).modPwr fun p =>
      if p.agePeriod ≤ p.ageEpochs + 1 then { p with ageEpochs := 0, ageDue := ageUnits }
      else { p with ageEpochs := p.ageEpochs + 1 }

/-- The epoch actions (R38). -/
def State.epoch (s : State) (m : EpochMeas) : State :=
  let s1 := (((s.closeDraw m.draw).applyRamp).applyCap).snapshot
  let s2 := (s1.classChange m.levels s1.pwr.drawMean).takeTelemetry m.avs
  let s3 := (s2.modFw fun d => { d with maintUsed := m.maintUsed }).countEpoch
  (s3.sendTime.sendHeartbeat.sendShares).modPwr fun p => { p with thermalEpoch := false }

/-- Beats of earlier counts fire before the epoch. -/
def execEpochBoundary (m : EpochMeas) (s : State) : Result :=
  let b := s.mer.nextEpoch
  .next (if s.mer.nextBeat < b then s
    else (s.modMer fun q => { q with now := w64 (max s.now b), nextEpoch := b + 2 ^ 20 }).epoch m)

/-- A frame that failed or went unanswered is repeated in the next beat, without limit (R492). -/
def execAvsFrameRetry (r : Option AvsReading) (s : State) : Result :=
  .next (match r with
    | none => s
    | some x =>
      if s.pwr.avsRetry.head? = some x.rail then
        s.modPwr fun p => { p with avsRetry := p.avsRetry.tail, telemetry := SMap.insert x.rail x p.telemetry }
      else s)

/-! Slew and lock (R25 to R30). -/

/-- One step of 0 or 2, at most every 5,000 ticks. -/
def execSlewStep (s : State) : Result :=
  .next (if (s.mer.st = .locked ∨ s.mer.st = .holdover) ∧ s.mer.slew ≠ 0 ∧ s.mer.lastSlew + 5000 ≤ s.now then
      let fwd := decide (0 < s.mer.slew)
      let s1 := s.modMer fun m =>
        { m with now := m.now + (if fwd then 2 else 0), slew := m.slew + (if fwd then -1 else 1),
                 lastSlew := s.now + (if fwd then 2 else 0) }
      if s1.mer.slew = 0 ∧ s1.mer.returning = true ∧ s1.mer.st = .holdover then s1.setLock .locked else s1
    else s)

/-- A time frame at the front of the link's receive buffer, with the receiver's timestamps. -/
def execTime (l : LinkId) (f : TimeFrame) (s : State) : Result :=
  .next (match s.rxFront l 0 with
    | none => s
    | some p =>
      if p.kind.toNat = pkTime ∧ p.payload = frameBytes f then
        let s1 := (s.popRx l 0).modMer fun m =>
          { m with frames := SMap.set TimeLink.none m.frames l ⟨f.txTick, f.txPs, f.rxTick, f.rxPs⟩ }
        if s.mer.upstream = some l then
          let s2 := s1.modMer fun m => { m with altSince := none }
          if f.echoTick = 0 then s2 else s2.takeOffset (frameOffset f (s.link l).asym)
        else s1
      else s)

/-- ACQUIRE ends within the bounds of R25: an offset has been stepped away, or nothing is upstream of the count. A chip that
starts then turns to its image (R457). -/
def execLockAcquired (s : State) : Result :=
  .next (if s.mer.st = .acquire ∧ (s.mer.measured = true ∨ (s.grp.role = 2 ∧ s.mer.source = 0)) then
      (s.setLock .locked).awaitImage
    else s)

/-- The chip whose count this one follows: a worker's group manager, a group manager's system manager (R24). -/
def State.upstreamChip (s : State) : Nat := if s.grp.role = 0 then s.grp.gmgr else s.grp.smgr

/-- A link is a way to a chip: its partner is that chip or, for a group manager's upstream, which is at most three hops away
(R24), reaches it within two hops more. -/
def State.leadsTo (s : State) (l chip : Nat) : Bool :=
  let p := (s.link l).partner
  p == chip || (s.grp.role != 0 && (chipGroup p == chipGroup chip ||
    (List.range 33).any fun i => ((wiredTo systemGroups p (63 + i)).map fun q => chipGroup q.1) == some (chipGroup chip)))

/-- The upstream time link is down: another link to the same upstream chip is taken without leaving LOCKED, else
HOLDOVER (R25). -/
def execUpstreamLinkFail (alt : Option LinkId) (s : State) : Result :=
  .next (match s.mer.upstream with
    | none => s
    | some l =>
      if (s.link l).up then s
      else
        let good : Option LinkId := alt.filter fun k => k != l && (s.link k).up && s.leadsTo k s.upstreamChip
        match good with
        | some k => s.modMer fun m => { m with upstream := some k, altSince := some s.now }
        | none => if s.mer.st = .locked then s.setLock .holdover else s)

/-- No frame has come on the new link within 4 epochs (R25). -/
def execHoldoverTimeout (s : State) : Result :=
  .next (match s.mer.altSince with
    | none => s
    | some n =>
      if n + 4 * 2 ^ 20 ≤ s.now ∧ s.mer.st = .locked then (s.setLock .holdover).modMer fun m => { m with altSince := none }
      else s)

/-- HOLDOVER has lasted more than 100 epochs (R29). -/
def execHoldLimit (s : State) : Result :=
  .next (if s.mer.st = .holdover ∧ 100 < s.mer.holdEp then s.merEvt 1 else s)

/-- The reference has been absent for 2 s (R42): no 1PPS edge or PTP message since, or, as `tenMhz` says, no 10 MHz. -/
def State.refAbsent (s : State) (tenMhz : Bool) : Bool :=
  decide (s.mer.refAt + 2000000000 ≤ s.now) || (s.mer.source == 1 && tenMhz)

/-- The system manager's external reference is lost (R30). -/
def execRefLost (s : State) (tenMhz : Bool := false) : Result :=
  .next (if s.onReference ∧ s.refAbsent tenMhz = true then
      let s1 := s.merEvt 4
      if s.mer.st = .locked then (s1.setLock .holdover).modMer fun m => { m with extOnly := true } else s1
    else s)

/-- The external reference shows itself. -/
def State.heardReference (s : State) : State := s.modMer fun m => { m with refAt := s.now }

/-- The external reference is back with the count that far ahead of it, in picoseconds (R30). -/
def execReferenceReturn (offset : Int) (s : State) : Result :=
  .next (if s.onReference ∧ s.mer.st = .holdover ∧ s.mer.extOnly = true then s.heardReference.takeOffset offset else s)

/-- The rising edge of 1PPS: the first after TIME.LOCK marks the seconds it gave, each later one a whole second
(R23). -/
def execPpsEdge (s : State) : Result :=
  .next (if s.grp.role = 2 ∧ s.mer.source = 1 then
      let mark : Nat := if s.mer.ppsArmed then s.mer.lockSeconds.toNat * 1000000000 % 2 ^ 64
        else (s.now + 500000000) / 1000000000 * 1000000000
      (s.heardReference.modMer fun m => { m with ppsArmed := false }).takeOffset (1000 * ((s.now : Int) - mark))
    else s)

/-- A time of IEEE 1588 as a count of nanoseconds. -/
def ptpCount (t : PtpTime) : Nat := t.secs.toNat * 1000000000 + t.ns.toNat

/-- A message of the exchange (R23). A Sync is stamped as it arrives; its Follow_Up gives its origin, and a Delay_Req goes out,
stamped; the Delay_Resp gives the Delay_Req's arrival, and the mean of the two ways is the count's offset, in
picoseconds. -/
def State.takePtp (s : State) (m : PtpMsg) : State :=
  let x := s.mer.ptp
  match m with
  | .sync seq => s.modMer fun q => { q with ptp := { x with sync := some (seq, s.now) } }
  | .followUp seq origin =>
    (match x.sync with
    | some (n, t2) =>
      if n = seq then
        s.modMer fun q => { q with ptp := ⟨none, some (x.nextSeq, (t2 : Int) - (ptpCount origin : Int), s.now), x.nextSeq + 1, x.sent ++ [x.nextSeq]⟩ }
      else s
    | none => s)
  | .delayResp seq receive =>
    (match x.request with
    | some (n, down, t3) =>
      if n = seq then
        (s.modMer fun q => { q with ptp := { x with request := none } }).takeOffset
          (500 * (down - ((ptpCount receive : Int) - t3)))
      else s
    | none => s)

def execPtpMessage (m : PtpMsg) (s : State) : Result :=
  .next (if s.grp.role = 2 ∧ s.mer.source = 2 then s.heardReference.takePtp m else s)

/-! TIME.LOCK (R23, R27, R30). -/

/-- The system manager takes a source; with the step flag it enters ACQUIRE, and INTERNAL sets the count at once. -/
def State.lockManager (s : State) (src : Nat) (secs : W64) (stepped : Bool) : State :=
  let s1 := s.modMer fun m =>
    { m with source := src, lockSource := src, lockSeconds := secs, lockGiven := true, ppsArmed := src == 1, refAt := s.now,
             ptp := .none }
  if stepped then
    let s2 := s1.enterAcquire
    if src = 0 then s2.setCount (secs.toNat * 1000000000) else s2
  else if src = 0 ∧ s1.mer.st = .holdover ∧ s1.mer.extOnly = true then s1.setLock .locked
  else s1

def State.lockTime (s : State) (c : CmdEntry) : CmdOut :=
  let src := fld (c.arg 0) 1 0
  let secs := c.arg 1
  let stepped := c.flag 0
  if s.grp.role = 2 then
    if src = 3 then .err csBadArg s
    else if stepped ∧ s.workPlanned = true then .err csBusy s
    else .fin (s.lockManager src secs stepped) csOk 0
  else if s.grp.sdeputy ∧ src = 3 then .err csBadArg s
  else if stepped ∧ s.workPlanned = true then .err csBusy s
  else if !stepped ∧ s.grp.sdeputy = false then .err csBadArg s
  else
    let s1 := if s.grp.sdeputy then
        s.modMer fun m => { m with lockSource := src, lockSeconds := secs, lockGiven := true } else s
    .fin (if stepped then s1.enterAcquire else s1) csOk 0

def execTimeLock (i : BitVec 8) (s : State) : Result := .next (s.runCmd i.toNat 0xD fun e t => t.lockTime e)

end Sys2Proof.Machine
end

