-- ==== Sys2Proof/Machine/RegMap.lean ====
section
/-! DEFINITION. The control registers: which addresses hold one (R7) and what a load of each returns, by the maps of R31,
R42, R103, R143, R175, R199, R223, R243, R269, R295, R321, R345, R373, R391, R415, R417, R454, R473, R475, R486. -/

namespace Sys2Proof.Machine

/-- A populated word of the control-register range. Numbers are a unit, an entry or a word within it. -/
inductive Reg where
  | merNow | merStatus | merOffset | merEvt | merLate
  /-- Word w of schedule entry i. -/
  | sched (i w : Nat)
  | sqStatus (c : Nat) | sqPc (c : Nat) | sqFault (c : Nat) | sqJrange (c j : Nat)
  | sqColmap (c : Nat) (b : Bool) | sqArrevt (c : Nat) | sqRedstg (c : Nat) | sqRedocc (c : Nat) | sqGmask (c : Nat)
  | sqAtstat (c : Nat)
  /-- Word k of the descriptor window, word a of the instruction window. -/
  | descWin (c k : Nat) | instrWin (c a : Nat)
  | sem (n : Nat) | semop (n : Nat) | semres (k : Nat)
  | veStatus (e : Nat) | veEvt (e : Nat) | veEntry (e : Nat)
  | stkCarve | stkScrub | stkEvt | stkUeaddr | stkTemp (t : Nat) | stkCe (t : Nat) | stkUe (t : Nat) | stkSpare (t : Nat)
  /-- Register k of a numerics bank: CTL, STATE, STEPS, REC, TT, EVT. -/
  | num (j k : Nat)
  /-- Register k of a core's Contrail: CTRAIL, CBASE, CREC, CSAMP, CMISS, CALARM. -/
  | ctrail (c k : Nat)
  | kvpPool | kvpGeom | kvpPtab | kvpCtl | kvpAlloc | kvpFree | kvpFreecnt | kvpEvt
  /-- Register k of a link: STAT, FECC, FECU, RPLY. -/
  | lnk (l k : Nat) | lnkCtl | lnkEvt
  | flow (f w : Nat) | grt (g : Nat) | lrt (q : Nat)
  /-- Register k of a slot's reduction registers, in the order of R373. -/
  | red (j k : Nat)
  | fwRole | fwHalo | fwStatus | fwAuth | fwSched | fwMaint | fwEvt | fwJob (j : Nat)
  | cmdTable (i w : Nat) | fwDef (i : Nat)
  | pwrCap | pwrSlew | pwrFloor | pwrDraw | pwrEvt | pwrAgectl | pwrRamp (n : Nat) | pwrMode (c : Nat) | pwrAge (c : Nat)
  | thmCtl | thmDie | thmEvt
  | secStatus | secSerial (w : Nat) | secRstcause | secMeas (k w : Nat) | secIdpk (w : Nat)
  /-- Counter k, as the state numbers it. -/
  | cnt (k : Nat)
  | cntSnap | cntIrq | cntLog
  deriving DecidableEq, Repr

/-- A word of a bank of n units, `step` bytes apart, each with `words` words. -/
def bankAt (o step n words : Nat) : Option (Nat × Nat) :=
  if o / step < n ∧ o % step / 8 < words then some (o / step, o % step / 8) else none

/-- One of a list of registers at successive words. -/
def oneOf (l : List (Option Reg)) (o : Nat) : Option Reg := (l[o / 8]?).getD none

def sqRegAt (r : Nat) : Option Reg :=
  match bankAt r 0x10000 4 0x107 with
  | none => none
  | some (c, k) =>
    if k < 3 then oneOf [some (.sqStatus c), some (.sqPc c), some (.sqFault c)] (8 * k)
    else if 4 ≤ k ∧ k < 8 then some (.sqJrange c (k - 4))
    else if 0x100 ≤ k then
      oneOf [some (.sqColmap c false), some (.sqColmap c true), some (.sqArrevt c), some (.sqRedstg c), some (.sqRedocc c),
             some (.sqGmask c), some (.sqAtstat c)] (8 * (k - 0x100))
    else none

def semRegAt (r : Nat) : Option Reg :=
  if r < 0x800 then some (.sem (r / 8))
  else if r < 0x1000 then some (.semop ((r - 0x800) / 8))
  else if r < 0x1040 then some (.semres ((r - 0x1000) / 8))
  else none

def stkRegAt (r : Nat) : Option Reg :=
  if r < 0x20 then oneOf [some .stkCarve, some .stkScrub, some .stkEvt, some .stkUeaddr] r
  else if 0x1000 ≤ r then
    match bankAt (r - 0x1000) 0x40 20 4 with
    | some (t, k) => oneOf [some (.stkTemp t), some (.stkCe t), some (.stkUe t), some (.stkSpare t)] (8 * k)
    | none => none
  else none

def numRegAt (r : Nat) : Option Reg :=
  if r < 0x1000 then (bankAt r 0x40 4 6).map fun q => .num q.1 q.2
  else (bankAt (r - 0x1000) 0x40 4 6).map fun q => .ctrail q.1 q.2

def lnkRegAt (r : Nat) : Option Reg :=
  if r < 0x2000 then (bankAt r 0x40 96 4).map fun q => .lnk q.1 q.2
  else oneOf [some .lnkCtl, some .lnkEvt] (r - 0x2000)

def routeRegAt (r : Nat) : Option Reg :=
  if r < 0x2000 then some (.grt (r / 8)) else if r < 0x2200 then some (.lrt ((r - 0x2000) / 8)) else none

def fwRegAt (r : Nat) : Option Reg :=
  if r < 0x10000 then
    oneOf [some .fwRole, some .fwHalo, some .fwStatus, some .fwAuth, some .fwSched, some .fwMaint, some .fwEvt, none,
           some (.fwJob 0), some (.fwJob 1), some (.fwJob 2), some (.fwJob 3)] r
  else if r < 0x14000 then some (.cmdTable ((r - 0x10000) / 64) ((r - 0x10000) % 64 / 8))
  else if 0x20000 ≤ r ∧ r < 0x22000 then some (.fwDef ((r - 0x20000) / 8))
  else none

def pwrRegAt (r : Nat) : Option Reg :=
  if r < 0x100 then
    oneOf [some .pwrCap, some .pwrSlew, some .pwrFloor, some .pwrDraw, some .pwrEvt, some .pwrAgectl] r
  else if r < 0x180 then some (.pwrRamp ((r - 0x100) / 8))
  else if 0x200 ≤ r then
    match bankAt (r - 0x200) 0x40 4 2 with
    | some (c, k) => some (if k = 0 then .pwrMode c else .pwrAge c)
    | none => none
  else none

def secRegAt (r : Nat) : Option Reg :=
  if r < 0x100 then oneOf [some .secStatus, some (.secSerial 0), some (.secSerial 1), some .secRstcause] r
  else if r < 0x1E0 then some (.secMeas ((r - 0x100) / 32) ((r - 0x100) % 32 / 8))
  else if 0x200 ≤ r ∧ r < 0x240 then some (.secIdpk ((r - 0x200) / 8))
  else none

def cntRegAt (r : Nat) : Option Reg :=
  if r < 0x1000 then (bankAt r 0x100 4 12).map fun q => .cnt (cntMc q.1 q.2)
  else if r < 0x2000 then (bankAt (r - 0x1000) 0x40 20 4).map fun q => .cnt (cntStk q.1 q.2)
  else if r < 0x4000 then (bankAt (r - 0x2000) 0x40 96 4).map fun q => .cnt (cntLnk q.1 q.2)
  else if r < 0x6000 then (bankAt (r - 0x4000) 0x40 64 4).map fun q => .cnt (cntVe q.1 q.2)
  else if r < 0x7000 then (bankAt (r - 0x6000) 0x100 4 12).map fun q => .cnt (cntRed q.1 q.2)
  else if r < 0x8000 then (bankAt (r - 0x7000) 0x1000 1 4).map fun q => .cnt (cntPwr q.2)
  else oneOf [some .cntSnap, some .cntIrq, some .cntLog] (r - 0x8000)

/-- The register at offset o of the range, o a multiple of 8. -/
def regAtOffset (o : Nat) : Option Reg :=
  let r := o % 0x100000
  match o / 0x100000 with
  | 0 =>
    if r < 0x8000 then
      oneOf [some .merNow, some .merStatus, none, some .merOffset, some .merEvt, some .merLate] r
    else if r < 0x10000 then some (.sched ((r - 0x8000) / 32) (r % 32 / 8)) else none
  | 1 => sqRegAt r
  | 2 => if r < 0x80000 then some (.descWin (r / 0x20000) (r % 0x20000 / 8)) else none
  | 3 => semRegAt r
  | 4 => some (.instrWin (r / 0x40000) (r % 0x40000 / 8))
  | 6 =>
    match bankAt r 0x1000 64 3 with
    | some (e, k) => oneOf [some (.veStatus e), some (.veEvt e), some (.veEntry e)] (8 * k)
    | none => none
  | 8 => stkRegAt r
  | 0xA => numRegAt r
  | 0xC =>
    oneOf [some .kvpPool, some .kvpGeom, some .kvpPtab, some .kvpCtl, some .kvpAlloc, some .kvpFree, some .kvpFreecnt,
           some .kvpEvt] r
  | 0x10 => lnkRegAt r
  | 0x11 => if r < 0x20000 then some (.flow (r / 16) (r % 16 / 8)) else none
  | 0x12 => routeRegAt r
  | 0x14 => (bankAt r 0x100 4 11).map fun q => .red q.1 q.2
  | 0x18 => fwRegAt r
  | 0x1C => pwrRegAt r
  | 0x1D => oneOf [some .thmCtl, some .thmDie, some .thmEvt] r
  | 0x1E => secRegAt r
  | 0x20 => cntRegAt r
  | _ => none

def regBase : Nat := 0xE00000000
def inRegs (a : Nat) : Bool := decide (regBase ≤ a ∧ a < 0xF00000000)

/-- The register an aligned 64-bit access at a local address reaches. -/
def regAt (a : Nat) : Option Reg :=
  if inRegs a ∧ a % 8 = 0 then regAtOffset (a - regBase) else none

/-! What a load returns. -/

/-- SQ_STATUS (R143). -/
def Core.status (k : Core) : W64 :=
  let passq := (k.ctx.passes.filter fun p => decide (p.entered < p.ops.rows.length) || !p.issued).length
  w64 (at' (passq % 4) 29 + at' ((k.ctx.moves.length + k.ctx.puts.length) % 32) 24 + at' (k.ctx.drnq.length % 32) 16 +
    at' (k.ctx.calls.length % 16) 12 + at' (k.ctx.loops.length % 8) 8 + at' (b2n k.tileBoundary) 6 +
    at' (k.job % 4) 4 + sqStateCode k.st)

def JRange.word (r : JRange) : W64 :=
  w64 (at' (r.dlim % 4096) 52 + at' (r.dbase % 4096) 40 + at' (b2n r.valid) 39 + at' (r.ilim % 32768) 15 + r.ibase % 32768)

/-- SQ_ATSTAT (R295). -/
def Core.atstat (k : Core) : W64 :=
  let x := k.ctx
  let streamed := (x.atsGroups.filter id).length
  if x.atsValid then
    w64 (at' 1 48 + at' (x.atsM % 16384) 32 + at' (x.atsSkipBlk % 2048) 16 + at' (streamed % 256) 8 +
      (ceilDiv x.atsM 64 - streamed) % 256)
  else 0

/-- A word of a schedule entry (R32). -/
def SchedEntry.word (e : SchedEntry) (w : Nat) : W64 :=
  match w with
  | 0 => e.start
  | 1 => e.period.zeroExtend 64
  | 2 => w64 (at' (b2n e.valid) 63 + at' (b2n e.asap) 62 + at' (b2n e.whole) 61 + at' (e.share % 1024) 48 +
      at' (e.cores % 16) 40 + at' (e.job % 4) 32 + e.entry % 32768)
  | _ => w64 (at' e.inst.toNat 32 + e.tag.toNat)

def Sem.word (q : Sem) : W64 :=
  w64 (at' (b2n q.noinh) 27 + at' (b2n q.granted) 26 + at' (q.job % 4) 24 + at' (q.waiters.length % 128) 16 + q.count % 65536)

/-- STK_SPARE of a stack (R199). -/
def State.stkSpare (s : State) (t : Nat) : W64 :=
  let mine := s.mem.repaired.filter fun r => r.stack == t
  let most := (mine.map fun r => (mine.filter fun q => q.tier == r.tier && q.bank == r.bank).length).foldl max 0
  w64 (at' (mine.length % 65536) 16 + (16 - most) % 32)

def linkCode : LinkState → Nat
  | .down => 0 | .train => 1 | .up2 => 2 | .up1 => 3 | .hold => 4

def Link.reg (k : Link) (n : Nat) : W64 :=
  match n with
  | 0 => w64 (at' (linkCode k.st) 61 + at' (k.partner % 65536) 45 + at' (k.plink % 128) 38 + at' (k.src1 % 64) 26 +
      at' (k.src0 % 64) 20 + at' (k.spcab % 16) 16)
  | 1 => k.fecc
  | 2 => k.fecu
  | _ => k.rply

def Flow.word (f : Flow) (w : Nat) : W64 :=
  if w = 0 then w64 (at' (b2n f.valid) 63 + at' (f.job % 4) 61 + at' (f.cred % 256) 53 + at' (f.weight % 256) 45)
  else w64 (at' (f.dest % 65536) 48 + at' (f.infl % 256) 40 + at' (b2n f.failed) 33 + at' f.next.toNat 16 + f.acked.toNat)

def NumBank.reg (b : NumBank) (k : Nat) : W64 :=
  match k with
  | 0 => b.ctl | 1 => b.state | 2 => b.steps | 3 => b.recReg | 4 => b.tt | _ => b.evt

/-- NUM_CTRAIL.BUSY (R265). -/
def Core.busySlots (k : Core) : Nat :=
  (List.range 15).foldl (fun n i => if k.capture i = .free then n else n + 2 ^ i) 0

def Core.ctrailReg (k : Core) (n : Nat) : W64 :=
  match n with
  | 0 => putFld k.ctrail 14 0 k.busySlots
  | 1 => k.cbase | 2 => k.crec | 3 => k.csamp | 4 => k.cmiss | _ => k.calarm

def RedSlot.reg (r : RedSlot) (k : Nat) : W64 :=
  match k with
  | 0 => r.ctl | 1 => r.btab | 2 => r.xtab | 3 => r.wqbase | 4 => r.wqcfg | 5 => r.mask | 6 => r.lapcfg
  | 7 => r.laplist | 8 => r.lapReg | 9 => r.evt | _ => r.bidx

def State.fwRole (s : State) : W64 :=
  let g := s.grp
  w64 (at' (g.smgr % 65536) 48 + at' (g.gmgr % 65536) 32 + at' (g.term % 65536) 16 + at' (g.failep % 16) 12 +
    at' (g.strap % 4) 10 + at' (g.role % 4) 8 + at' (b2n g.deputy) 7 + at' (b2n g.sdeputy) 6 + at' (b2n g.failed) 5)

/-- FW_STATUS of revision D2.3 (R454). -/
def State.fwStatus (s : State) : W64 :=
  w64 (at' 2 56 + at' 3 48 + at' s.longRunning 32 + at' (s.cmdsOut % 512) 23 + at' (b2n s.fw.model.isSome) 16 +
    leNat ((s.fw.model.getD []).take 2))

/-- Tests that wait and tests that run (R454). -/
def State.testCount (s : State) (running : Bool) : Nat :=
  (s.fw.cmds.filter fun p => p.2.code == 8 && (match p.2.phase with
    | .pending _ => !running && p.2.waits | .running _ => running | _ => false)).length

def State.fwMaint (s : State) : W64 :=
  w64 (at' (s.fw.maintUsed % 65536) 32 + at' s.fw.oos.toNat 20 + at' s.fw.evac.toNat 16 +
    at' (s.testCount false % 256) 8 + s.testCount true % 256)

def SchedEntry.defWord (e : SchedEntry) : W64 :=
  w64 (at' (b2n e.cont) 63 + at' (e.slots % 2 ^ 31) 32 + wrapN 32 e.deficit)

def State.pwrCapWord (s : State) : W64 :=
  let p := s.pwr
  w64 (at' (b2n p.capPend) 63 + at' (b2n p.capImm) 62 + at' (p.capNext % 2048) 32 + p.cap % 2048)

def State.pwrDrawWord (s : State) : W64 :=
  w64 (at' (s.pwr.drawPeak % 2048) 48 + at' (s.pwr.drawMean % 2048) 32 + s.pwr.drawBeat % 2048)

def bootCode : BootStage → Nat
  | .fuse => 0 | .repair => 1 | .selftest => 2 | .links => 3 | .lock => 4 | .waitimg => 5 | .verify => 6
  | .running => 7 | .failed => 8

/-- Bit n: signer slot n is programmed and not revoked (R473). -/
def signerSlots (f : Fuses) : Nat :=
  (List.range 4).foldl (fun a n => if n < f.signers.length ∧ f.revoked.getLsbD n = false then a + 2 ^ n else a) 0

def State.secStatus (s : State) : W64 :=
  let q := s.sec
  w64 (at' (q.fuses.secver % 64) 52 + at' (signerSlots q.fuses) 48 + at' (q.bfails % 256) 40 + at' (q.bfail % 8) 32 +
    at' (q.sessions.length % 16) 16 + at' (b2n q.debug) 8 + bootCode q.boot)

def lockField (m : Mer) : W64 :=
  w64 (at' (m.holdEp % 65536) 20 + at' (m.hops % 8) 12 + at' (m.source % 4) 8 + lockCode m.st)

/-- CNT_LOG (R486). -/
def State.cntLog (s : State) : W64 :=
  w64 (at' (s.cnt.nextSeq % 2 ^ 32) 32 + (s.cnt.log.length - 1) % 16384)

/-- Defined fields of word k of a descriptor, by its kind (R113, R115, R116, R275, R304); a reserved kind defines none of its
own. -/
def descFlds (kind k : Nat) : List (Nat × Nat) :=
  match kind, k with
  | 0, 1 => [(63, 4)]
  | 0, 2 => [(47, 0)]
  | 1, 1 => [(63, 4)]
  | 1, 2 => [(47, 0)]
  | 2, 1 => [(63, 4)]
  | 2, 2 => [(63, 48), (12, 0)]
  | 3, 1 => [(46, 32), (12, 10), (7, 4)]
  | 3, 3 => [(63, 0)]
  | 3, _ => [(47, 0)]
  | 4, 0 => [(47, 0)]
  | 4, 1 => [(63, 4)]
  | 4, 2 => [(63, 56), (47, 0)]
  | 5, 1 => [(63, 40), (28, 24), (22, 16), (11, 4)]
  | 5, _ => [(47, 0)]
  | _, _ => [(63, 0)]

/-- A word of the descriptor window: the fields its descriptor's kind gives it, the reserved ones 0 (R9, R105). -/
def Core.descWindow (k : Core) (i : Nat) : W64 :=
  keepFlds (SMap.get 0 k.desc i) (descFlds (fld (SMap.get 0 k.desc (i / 4 * 4 + 1)) 7 4) (i % 4))

/-- What a load of a register returns. A write-only field reads as zero, and a pop is not made here: KVP_ALLOC shows no
page. -/
def State.readReg (s : State) : Reg → W64
  | .merNow => s.mer.now
  | .merStatus => lockField s.mer
  | .merOffset => s.mer.offset
  | .merEvt => s.mer.evt
  | .merLate => w64 (at' (b2n s.mer.lateOvf) 48 + s.mer.lateCount.toNat)
  | .sched i w => (s.entry i).word w
  | .sqStatus c => (s.core c).status
  | .sqPc c => w64 ((s.core c).ctx.pc % 32768)
  | .sqFault c => (s.core c).faultWord
  | .sqJrange c j => (SMap.get JRange.none (s.core c).jrange j).word
  | .sqColmap c b => ((s.core c).arr b).colmap
  | .sqArrevt c => (s.core c).arrevt
  | .sqRedstg c => (s.core c).ctx.redstg
  | .sqRedocc c => w64 (at' (b2n (s.core c).gate) 20 + (s.core c).redUsed % 2 ^ 19)
  | .sqGmask c => (s.core c).ctx.gmask
  | .sqAtstat c => (s.core c).atstat
  | .descWin c k => (s.core c).descWindow k
  | .instrWin c a => SMap.get 0 (s.core c).imem a
  | .sem n => (s.sem n).word
  | .semop _ => 0
  | .semres k => SMap.get 0 s.semres k
  | .veStatus e => (s.eng e).status
  | .veEvt e => (s.eng e).evt
  | .veEntry e => w64 ((s.eng e).entry % 2 ^ 18)
  | .stkCarve => w64 s.mem.carve
  | .stkScrub => w64 (at' (b2n s.mem.scrubEn) 31 + s.mem.scrubPeriod % 65536)
  | .stkEvt => s.mem.evt
  | .stkUeaddr => s.mem.ueAddr
  | .stkTemp t => SMap.get 0 s.mem.temps t
  | .stkCe t => SMap.get 0 s.mem.ce t
  | .stkUe t => SMap.get 0 s.mem.ue t
  | .stkSpare t => s.stkSpare t
  | .num j k => (s.bank j).reg k
  | .ctrail c k => (s.core c).ctrailReg k
  | .kvpPool => s.kvp.pool
  | .kvpGeom => s.kvp.geom
  | .kvpPtab => s.kvp.ptab
  | .kvpCtl => w64 (at' (b2n s.kvp.ready) 1 + b2n s.kvp.en)
  | .kvpAlloc => 0
  | .kvpFree => 0
  | .kvpFreecnt => w64 (at' (s.kvp.low % 2 ^ 22) 32 + s.kvp.free % 2 ^ 22)
  | .kvpEvt => s.kvp.evt
  | .lnk l k => (s.link l).reg k
  | .lnkCtl => w64 (at' (s.lnk.hold % 65536) 48 + at' (s.lnk.timeout % 65536) 32)
  | .lnkEvt => s.lnk.evt
  | .flow f w => (s.flow f).word w
  | .grt g => SMap.get 0 s.lnk.grt g
  | .lrt q => SMap.get 0 s.lnk.lrt q
  | .red j k => (s.redSlot j).reg k
  | .fwRole => s.fwRole
  | .fwHalo => s.grp.halo
  | .fwStatus => s.fwStatus
  | .fwAuth => s.fw.auth
  | .fwSched => s.fw.sched
  | .fwMaint => s.fwMaint
  | .fwEvt => s.fw.evt
  | .fwJob j => s.fwJob j
  | .cmdTable i w => (s.cmd i).word w
  | .fwDef i => (s.entry i).defWord
  | .pwrCap => s.pwrCapWord
  | .pwrSlew => w64 (s.pwr.slew % 2048)
  | .pwrFloor => w64 (s.pwr.floor % 2048)
  | .pwrDraw => s.pwrDrawWord
  | .pwrEvt => s.pwr.evt
  | .pwrAgectl => w64 (s.pwr.agePeriod % 2 ^ 32)
  | .pwrRamp n => SMap.get 0 s.pwr.ramp n
  | .pwrMode c => s.pwrMode c
  | .pwrAge c => s.pwrAge c
  | .thmCtl => s.pwr.thmCtl
  | .thmDie => s.pwr.thmDie
  | .thmEvt => s.pwr.thmEvt
  | .secStatus => s.secStatus
  | .secSerial w => if w = 0 then s.sec.fuses.serial0 else s.sec.fuses.serial1
  | .secRstcause => w64 (at' (s.sec.warms % 256) 8 + s.sec.cause % 4)
  | .secMeas k w => w64OfBytes ((s.bankBytes k).drop (8 * w))
  | .secIdpk w => w64OfBytes (fixLen 8 (s.sec.idpk.drop (8 * w)))
  | .cnt k => s.cntr k
  | .cntSnap => s.cnt.snap
  | .cntIrq => s.cnt.irq
  | .cntLog => s.cntLog

/-- A load by a control core of an aligned word, none where it faults (R7). -/
def State.loadReg (s : State) (a : Nat) : Option W64 := (regAt a).map s.readReg

/-- The interrupt lines of a control core (R485): machine, then supervisor. -/
def State.irqLines (s : State) (cc : Nat) : Bool × Bool :=
  let w := s.cnt.irq
  let mine := fld w 50 48 == cc
  let any (hi lo : Nat) : Bool := fld w 5 0 &&& fld w hi lo != 0
  (mine && any 37 32, mine && any 21 16)

end Sys2Proof.Machine
end

