-- ==== Sys2Proof/Machine/Tests.lean ====
section
/-! DEFINITION. TEST.RUN and REPAIR.APPLY (R101, R102, R145, R192 to R195, R328, R438, R450, R451, R453, R460). -/

namespace Sys2Proof.Machine

/-! Rows and their spares (R180, R192 to R195). -/

/-- Address of line n of a row. -/
def RowRepair.line (r : RowRepair) (n : Nat) : Nat :=
  stackAddr r.stack (at' r.row 20 + at' n 14 + at' r.bank 10 + at' r.tier 7)

/-- The row a target names: stack [52:48], tier [42:40], bank [35:32], row [9:0]. -/
def rowOf (w : W64) : RowRepair := ⟨fld w 52 48, fld w 42 40, fld w 35 32, fld w 9 0⟩

/-- The target word of a row (R453). -/
def RowRepair.target (r : RowRepair) : W64 :=
  w64 (at' 4 56 + at' (r.stack % 32) 48 + at' (r.tier % 8) 40 + at' (r.bank % 16) 32 + r.row % 1024)

/-- Spare rows in use in a bank. -/
def State.sparesUsed (s : State) (stack tier bank : Nat) : Nat :=
  (s.mem.repaired.filter fun r => r.stack == stack && r.tier == tier && r.bank == bank).length

/-- A line as its copy holds it: corrected, or poisoned where it cannot be (R193). -/
def State.copyLine (s : State) (line : Nat) : State :=
  match s.lineSt line with
  | .good => s
  | .poisoned => s
  | .lost => s
  | .correctable _ => s.setLine line .good
  | .uncorrectable => s.setLine line .lost
  | .beyond =>
    if Config.beyondDetected s.fresh line then s.setLine line .lost
    else (s.poke line ((List.range 128).map fun i => Config.freeByte s.fresh (line + i))).setLine line .good

/-- The 64 lines of a row copied in order. -/
def State.copyRow (s : State) (r : RowRepair) : State :=
  ((List.range 64).foldl (fun t n => t.copyLine (r.line n)) s).tick

/-- The row moves to a free spare of its bank; a bank left with two or fewer sets SPARELOW (R195). -/
def State.useSpareRow (s : State) (r : RowRepair) : State :=
  let s1 := s.modMem fun m => { m with repaired := m.repaired ++ [r], repairDue := m.repairDue.filter (· != r) }
  if 14 ≤ s1.sparesUsed r.stack r.tier r.bank then s1.stkEvt 4 else s1

/-! Results (R450). -/

def testResult (nfail : Nat) (lowest : W32) : Nat :=
  min nfail 65535 + at' (if nfail = 0 then 0xFFFFFFFF else lowest.toNat) 16

/-- A test has run: the log, and a repair by Darkel itself of what its own test found (R451). -/
def State.testDone (s : State) (e : CmdEntry) (nfail : Nat) (lowest : W32) : CmdOut :=
  let r := testResult nfail lowest
  let s1 := s.logEvt 0 255 0x61 e.tag 0 (e.arg 0) (w64 r) 0 0
  let kind := fld (e.arg 0) 63 56
  let s2 := if nfail ≠ 0 ∧ bit s.fw.auth 16 = true ∧ fld (e.took 0) 62 60 = 3 ∧ 2 ≤ kind then
      s1.internalCmd (w64 (at' 0xA 48)) [e.arg 0] else s1
  .fin s2 (if nfail = 0 then csOk else csFail) r

/-- The core of an intrusive test: evacuated if an instance holds it, then tested (R451). -/
def State.evacTest (s : State) (e : CmdEntry) (c nfail : Nat) (lowest : W32) : CmdOut :=
  match s.instOn c with
  | some x =>
    let s1 := s.modFw fun d => { d with evac := d.evac ||| BitVec.ofNat 4 (2 ^ c) }
    if x.st = .stopping then .more s1
    else .more ((s1.modInst x.entry x.no fun y => { y with st := .stopping }).fwEvt (if x.whole then 4 else 3))
  | none => (s.modFw fun d => { d with evac := d.evac &&& ~~~ BitVec.ofNat 4 (2 ^ c) }).testDone e nfail lowest

def execTestSpares (i : BitVec 8) (nfail : Nat) (lowest : W32) (s : State) : Result :=
  .next (s.runKind i.toNat 8 0 fun e t => t.testDone e nfail lowest)

def execTestArray (i : BitVec 8) (nfail : Nat) (lowest : W32) (s : State) : Result :=
  .next (s.runKind i.toNat 8 1 fun e t => t.evacTest e (fld (e.arg 0) 49 48) nfail lowest)

def execTestColumn (i : BitVec 8) (nfail : Nat) (lowest : W32) (s : State) : Result :=
  .next (s.runKind i.toNat 8 2 fun e t =>
    if 388 ≤ fld (e.arg 0) 8 0 then .err csBadArg t else t.evacTest e (fld (e.arg 0) 49 48) nfail lowest)

def execTestEngine (i : BitVec 8) (nfail : Nat) (lowest : W32) (s : State) : Result :=
  .next (s.runKind i.toNat 8 3 fun e t => t.evacTest e (fld (e.arg 0) 53 48 / 16) nfail lowest)

/-- The row's contents move to a spare and back. -/
def execTestRow (i : BitVec 8) (nfail : Nat) (lowest : W32) (s : State) : Result :=
  .next (s.runKind i.toNat 8 4 fun e t =>
    let r := rowOf (e.arg 0)
    if 20 ≤ r.stack then .err csBadArg t
    else if 16 ≤ t.sparesUsed r.stack r.tier r.bank then .err csNoSpare t
    else (t.copyRow r).testDone e nfail lowest)

/-- The spare takes the lane's place while it is tested; with FORCE and no spare the link runs on one lane. -/
def execTestLane (i : BitVec 8) (nfail : Nat) (lowest : W32) (s : State) : Result :=
  .next (s.runKind i.toNat 8 5 fun e t =>
    let l := fld (e.arg 0) 54 48
    if 96 ≤ l ∨ 1 < fld (e.arg 0) 33 32 then .err csBadArg t
    else if (t.link l).spareFree then
      ((t.modLink l Link.resent).lnkEvt 1).testDone e nfail lowest
    else if e.flag 0 then ((t.modLink l Link.resent).lnkEvt 0).testDone e nfail lowest
    else .err csNoSpare t)

/-- ARG1 epochs have passed since a test was read. -/
def State.testOver (s : State) (e : CmdEntry) : Bool :=
  match e.since with
  | some t0 => decide (e.code = 8 ∧ fld (e.arg 1) 15 0 ≠ 0 ∧ t0 + fld (e.arg 1) 15 0 ≤ s.now / 2 ^ 20)
  | none => false

/-- A test that still waits then, to start or for its core to be evacuated, runs no more (R451). -/
def execTestTimeout (i : BitVec 8) (s : State) : Result :=
  let e := s.cmd i.toNat
  .next (if s.testOver e then
      match e.phase, testCore (e.took 0) (e.arg 0) with
      | .pending _, _ => s.finishCmd i.toNat csTimeout 0
      | .running _, some c =>
        if s.coreHeld c then
          (s.modFw fun d => { d with evac := d.evac &&& ~~~ BitVec.ofNat 4 (2 ^ c) }).finishCmd i.toNat csTimeout 0
        else s
      | _, _ => s
    else s)

/-! REPAIR.APPLY (R453, R460). -/

/-- A core leaves service (R438). -/
def State.serviceOut (s : State) (c : Nat) : State :=
  let slots := (List.range 4).filter fun j =>
    s.slotLive j && s.sched.any fun p => p.2.valid && p.2.job == j && (coresOf p.2.cores).contains c
  (slots.foldl (fun t j => t.stopSlot j 7) s).modFw fun d => { d with oos := d.oos ||| BitVec.ofNat 4 (2 ^ c) }

def State.logRepair (s : State) (e : CmdEntry) (status : Nat) : State :=
  s.logEvt (if status = csNoSpare then 4 else 0) 255 0x21 e.tag 0 (e.arg 0) (w64 status) 0 0

/-- No spare is left, with what that does. -/
def State.noSpare (s : State) (e : CmdEntry) : CmdOut := .bad (s.logRepair e csNoSpare) csNoSpare

/-- One field entry of the repair map, taken whether or not the repair waits for a reset. -/
def State.mapRepair (s : State) (e : CmdEntry) : State :=
  let w := e.arg 0
  s.modSec fun q =>
    { q with fuses := { q.fuses with repairs := q.fuses.repairs ++ [w] }, fieldUsed := q.fieldUsed + 1,
             repairPend := if e.flag 0 then q.repairPend ++ [w] else q.repairPend }

def State.repairDone (s : State) (e : CmdEntry) : CmdOut := .fin (s.logRepair e csOk) csOk 0

/-- Pending reset repairs of a kind that satisfy a test. -/
def State.pendCount (s : State) (kind : Nat) (p : W64 → Bool) : Nat :=
  (s.sec.repairPend.filter fun w => fld w 63 56 == kind && p w).length

def Core.arrayOf (k : Core) (b : Bool) : ArrayState := if b then k.arrB else k.arrA
def Core.setArrayOf (k : Core) (b : Bool) (a : ArrayState) : Core := if b then { k with arrB := a } else { k with arrA := a }

/-- A column is retired at the next tile boundary (R101); a fifth takes the core out of service (R102). -/
def State.repairColumn (s : State) (e : CmdEntry) : CmdOut :=
  let w := e.arg 0
  let c := fld w 49 48
  let b := bit w 47
  let col := fld w 8 0
  let a := (s.core c).arrayOf b
  let waiting := s.pendCount 2 fun v => fld v 49 47 == fld w 49 47
  if 388 ≤ col then .err csBadArg s
  else if a.pendCol = some col then .more s
  else if a.retired.contains col then s.repairDone e
  else if 4 ≤ a.retired.length + waiting then (s.serviceOut c).noSpare e
  else if 512 ≤ s.sec.fieldUsed then s.noSpare e
  else if e.flag 0 then (s.mapRepair e).repairDone e
  else .more ((s.mapRepair e).modCore c fun k => k.setArrayOf b { a with pendCol := some col })

def execRepairColumn (i : BitVec 8) (s : State) : Result := .next (s.runKind i.toNat 0xA 2 fun e t => t.repairColumn e)

/-- The cluster's spare takes over a logical engine once it is idle or its job saved; a second spare takes the core out
of service (R145). -/
def State.repairEngine (s : State) (e : CmdEntry) : CmdOut :=
  let w := e.arg 0
  let n := fld w 53 48
  let c := n / 16
  let used := ((List.range 16).filter fun k => decide ((s.eng (16 * c + k)).phys = 16)).length
  let st := (s.eng n).st
  if 1 ≤ used + s.pendCount 3 (fun v => fld v 53 48 / 16 == c) then (s.serviceOut c).noSpare e
  else if 512 ≤ s.sec.fieldUsed then s.noSpare e
  else if e.flag 0 then (s.mapRepair e).repairDone e
  else if st = .idle ∨ st = .halted ∨ st = .saved then
    ((s.mapRepair e).modEng n fun k => { k with phys := 16 }).repairDone e
  else .more s

def execRepairEngine (i : BitVec 8) (s : State) : Result := .next (s.runKind i.toNat 0xA 3 fun e t => t.repairEngine e)

/-- A row is copied to a spare of its bank and switched (R193, R195). -/
def State.repairRow (s : State) (e : CmdEntry) : CmdOut :=
  let r := rowOf (e.arg 0)
  if 20 ≤ r.stack then .err csBadArg s
  else if 16 ≤ s.sparesUsed r.stack r.tier r.bank + s.pendCount 4 (fun v =>
      (rowOf v).stack == r.stack && (rowOf v).tier == r.tier && (rowOf v).bank == r.bank) then (s.stkEvt 5).noSpare e
  else if 512 ≤ s.sec.fieldUsed then s.noSpare e
  else if e.flag 0 then (s.mapRepair e).repairDone e
  else (((s.mapRepair e).copyRow r).useSpareRow r).repairDone e

def execRepairRow (i : BitVec 8) (s : State) : Result := .next (s.runKind i.toNat 0xA 4 fun e t => t.repairRow e)

/-- A lane is replaced by the cabled spare through a pause (R328). -/
def State.repairLane (s : State) (e : CmdEntry) : CmdOut :=
  let w := e.arg 0
  let l := fld w 54 48
  let k := s.link l
  if 96 ≤ l ∨ 1 < fld w 33 32 then .err csBadArg s
  else if !k.spareFree ∨ s.pendCount 5 (fun v => fld v 54 48 == l) ≠ 0 then s.noSpare e
  else if 512 ≤ s.sec.fieldUsed then s.noSpare e
  else if e.flag 0 then (s.mapRepair e).repairDone e
  else (((s.mapRepair e).modLink l fun q => (q.setLane (fld w 33 32 == 1) (k.spcab + 2)).resent).lnkEvt 1).repairDone e

def execRepairLane (i : BitVec 8) (s : State) : Result := .next (s.runKind i.toNat 0xA 5 fun e t => t.repairLane e)

end Sys2Proof.Machine
end

