-- ==== Sys2Proof/Machine/Boot.lean ====
section
/-! DEFINITION. Supply reset and cold start (R457 to R460, R490, R491), link training (R326, R327, R340), the boot image from
the management port (R463, R469), the I3C sideband (R495, R496) and warm reset (R461). -/

namespace Sys2Proof.Machine

/-! Supply reset (R491). -/

/-- A core's loss of its repeatable clock outlives a supply reset until self-test restores it (R415). -/
def keptPower (p : PwrCore) : PwrCore := { PwrCore.reset with replost := p.replost, fcap := p.fcap }

/-- What a supply reset leaves: fuses and the repair map, the rows scheduled for repair (R192), and the loss of a repeatable clock. Every clock stops. -/
def execSupplyResetAssert (s : State) : Result :=
  .next { State.reset with
    pending := s.pending
    fresh := s.fresh
    mem := { Mem.reset with repairDue := s.mem.repairDue }
    board := { Board.reset with supplyReset := true }
    sec := { Security.reset with fuses := s.sec.fuses, fieldUsed := s.sec.fieldUsed }
    pwr := { Power.reset with core := s.pwr.core.map fun q => (q.1, keptPower q.2) } }

/-! Elements of the repair map (R459, R460). -/

/-- Repairs of one kind in the map. -/
def State.mapped (s : State) (kind : Nat) : List W64 := s.sec.fuses.repairs.filter fun w => fld w 63 56 == kind

/-- An entry of the map takes effect at a start. A lane's does at link training, the spare's cabling being found there;
rows of core buffers and local stores change nothing that is kept here. -/
def State.applyEntry (s : State) (w : W64) : State :=
  match fld w 63 56 with
  | 2 =>
    let b := bit w 47
    s.modCore (fld w 49 48) fun k =>
      let a := k.arrayOf b
      if a.retired.contains (fld w 8 0) ∨ 4 ≤ a.retired.length then k
      else k.setArrayOf b { a with retired := a.retired ++ [fld w 8 0] }
  | 3 => s.modEng (fld w 53 48) fun k => { k with phys := 16 }
  | 4 => s.useSpareRow (rowOf w)
  | _ => s

/-- Self-test adds a repair to the map and applies it. -/
def State.selfRepair (s : State) (w : W64) : State :=
  (s.modSec fun q =>
    { q with fuses := { q.fuses with repairs := q.fuses.repairs ++ [w] }, fieldUsed := q.fieldUsed + 1 }).applyEntry w

/-- A core that cannot be steered leaves service (R438). -/
def State.startOut (s : State) (c : Nat) (w : W64) : State :=
  (s.serviceOut c).logEvt 4 255 0x21 0 0 w (w64 csNoSpare) 0 0

/-- A failing element found by self-test: repaired, or its unit leaves service (R102, R145, R195). -/
def State.takeFailing (s : State) (w : W64) : State :=
  let full := decide (512 ≤ s.sec.fieldUsed)
  match fld w 63 56 with
  | 2 =>
    let c := fld w 49 48
    let a := (s.core c).arrayOf (bit w 47)
    if a.retired.contains (fld w 8 0) then s
    else if full || decide (4 ≤ a.retired.length) then s.startOut c w else s.selfRepair w
  | 3 =>
    let c := fld w 53 48 / 16
    if full || (List.range 16).any fun k => (s.eng (16 * c + k)).phys == 16 then s.startOut c w else s.selfRepair w
  | 4 =>
    let r := rowOf w
    if full || decide (16 ≤ s.sparesUsed r.stack r.tier r.bank) then
      (s.stkEvt 5).logEvt 4 255 0x21 0 0 w (w64 csNoSpare) 0 0
    else s.selfRepair w
  | _ => if full then s else s.selfRepair w

/-! Cold start (R457). -/

/-- Nothing held before survives but the fuses and the rows to repair; every line is zero, and every counter, the log and
every measurement is clear. -/
def State.coldBase (s : State) (f : Fuses) (straps : BitVec 8) : State :=
  let fz := if s.sec.fuses = Fuses.blank then f else s.sec.fuses
  let role := straps.toNat / 64
  { State.reset with
    pending := s.pending
    fresh := s.fresh
    board := { s.board with straps := straps, mac := fz.mac, supplyReset := false, thermtripLow := false,
                            groupTaken := false, addrLocked := false, bootreqs := 0 }
    mem := { Mem.reset with repairDue := s.mem.repairDue }
    sec := { Security.reset with fuses := fz, fieldUsed := s.sec.fieldUsed }
    grp := { Group.reset with strap := if role = 3 then 0 else role }
    pwr := { Power.reset with core := s.pwr.core } }

/-- The fused maximum of a core's clock as the part can hold it: 2,400 to 2,640 MHz in steps of 40 (R16). -/
def fusedMax (n : Nat) : Nat := max 2400 (min 2640 (n / 40 * 40))

/-- A row scheduled before the start takes its spare at it (R192), every line being written anew. -/
def State.dueAtStart (s : State) (r : RowRepair) : State :=
  if s.mem.repaired.contains r then s.modMem fun m => { m with repairDue := m.repairDue.filter (· != r) }
  else if 16 ≤ s.sparesUsed r.stack r.tier r.bank then s.stkEvt 5
  else if 512 ≤ s.sec.fieldUsed then s
  else s.selfRepair r.target

/-- Calibration records and clocks of a core, from the fuses and self-test. -/
def startPower (f : Fuses) (t : SelfTest) (c : Nat) (p : PwrCore) : PwrCore :=
  let lost := p.replost && !(t.repOk[c]?.getD true)
  { PwrCore.reset with
    fmax := fusedMax (f.fmax[c]?.getD 2400)
    vaddL := t.vadd[3 * c]?.getD 0, vaddM := t.vadd[3 * c + 1]?.getD 0, vaddH := t.vadd[3 * c + 2]?.getD 0
    replost := lost, fcap := if lost then p.fcap else 2400 }

/-- A generator state of a lane: not zero, and no two of the chip alike (R163). -/
def seedLane (fresh e i : Nat) : W64 :=
  w64 (at' ((Config.freeWide fresh (32 * e + i)).toNat % 2 ^ 52) 12 + (32 * e + i + 1))

def State.seedEngines (s : State) : State :=
  ((List.range 64).foldl (fun t e => t.modEng e fun k =>
    { k with gen := (List.range 32).foldl (fun g i => SMap.set 0 g i (seedLane s.fresh e i)) [] }) s).tick

/-- Bank PLATFORM of a start (R466). -/
def State.measureStart (s : State) : State :=
  ((s.extend 0 (digest32 Config.darkelRom)).extend 0 (digest32 (Config.fuseImage s.sec.fuses))).extend 0
    (digest32 (s.sec.fuses.repairs.flatMap w64Bytes))

/-- The stages up to self-test. -/
def State.coldStart (s : State) (f : Fuses) (t : SelfTest) (straps : BitVec 8) : State :=
  let s1 := s.coldBase f straps
  let fz := s1.sec.fuses
  let s2 := (List.range 4).foldl (fun u c => u.modPcore c (startPower fz t c)) s1
  let s3 := s2.mem.repairDue.foldl (fun u r => u.dueAtStart r) (fz.repairs.foldl (fun u w => u.applyEntry w) s2)
  let s4 := (t.failing.foldl (fun u w => u.takeFailing w) s3).seedEngines.aimRails
  let s5 := s4.measureStart.modSec fun c => { c with idpk := fixLen 64 (Config.slhPublic (idSeeds fz)) }
  s5.modSec fun c =>
    if t.failCause = 0 then { c with boot := .links } else { c with boot := .failed, failCause := t.failCause }

/-- R457: on the release of the supply reset. -/
def execColdStart (f : Fuses) (t : SelfTest) (straps : BitVec 8) (s : State) : Result :=
  .next (if s.sec.boot = .fuse then s.coldStart f t straps else s)

/-! Link training (R326, R327, R340). -/

/-- A lane that the repair map replaces. -/
def State.laneMapped (s : State) (l lane : Nat) : Bool :=
  (s.mapped 5).any fun w => fld w 54 48 == l && fld w 33 32 == lane && !s.sec.repairPend.contains w

/-- Sources of the two lanes: their own, the cabled spare for one that fails, none. -/
def laneSources (ok0 ok1 : Bool) (spare : Option Nat) : Nat × Nat :=
  match ok0, ok1, spare with
  | true, true, _ => (0, 1)
  | false, true, some q => (q + 2, 1)
  | true, false, some q => (0, q + 2)
  | false, false, some q => (q + 2, 63)
  | false, true, none => (63, 1)
  | true, false, none => (0, 63)
  | false, false, none => (63, 63)

/-- One link's result: up with the partner the wiring rule gives it, else DOWN. -/
def State.trainLink (s : State) (r : TrainResult) : State :=
  let l := r.link.val
  match r.partner with
  | none => s
  | some (chip, far) =>
    if wiredTo systemGroups s.me l ≠ some (chip.toNat, far.toNat) then s.lnkEvt 6
    else
      let spare := r.spare.map BitVec.toNat
      let src := laneSources (r.lane0 && !s.laneMapped l 0) (r.lane1 && !s.laneMapped l 1) spare
      let up : LinkState := if src.1 ≠ 63 ∧ src.2 ≠ 63 then .up2 else if src.1 ≠ 63 ∨ src.2 ≠ 63 then .up1 else .down
      s.modLink l fun _ =>
        { Link.reset with
          st := up, partner := chip.toNat, plink := far.toNat, src0 := src.1, src1 := src.2, spcab := spare.getD 15
          asym := r.asym, failed0 := src.1 != 0, failed1 := src.2 != 1
          credits := [(0, 768), (1, 768), (2, 768), (3, 768)] }

/-- The chip number: the group the board wrote and the strapped position (R11, R375). -/
def State.chipNumber (s : State) : W16 :=
  BitVec.ofNat 16 (s.board.groupReg.toNat % 1024 * 64 + s.board.straps.toNat % 64)

/-- GROUP has VALID set (R496). -/
def State.groupKnown (s : State) : Bool := s.board.groupReg.getLsbD 15

/-- Training holds until the group number is known (R458); then links come up, routes are written, and the chip announces
itself to its group (R376). -/
def State.train (s : State) (rs : List TrainResult) : State :=
  let s1 := (s.modBoard fun b => { b with groupTaken := true }).modGrp fun g => { g with chip := s.chipNumber }
  let s2 := (rs.foldl (fun t r => t.trainLink r) s1).installRoutes
  let s3 := s2.modSec fun c => { c with boot := .lock }
  (s3.announce s3.groupLinks false).formGroup

def execLinkTraining (r : List TrainResult) (s : State) : Result :=
  .next (if s.sec.boot = .links ∧ s.groupKnown = true then s.train r else s)

/-! The sideband (R495, R496). -/

/-- One byte of a private write. -/
def Board.write (b : Board) (i : Nat) (v : Byte) : Board :=
  if i = 0x10 then
    if b.groupTaken then b else { b with groupReg := BitVec.ofNat 16 (b.groupReg.toNat / 256 * 256 + v.toNat) }
  else if i = 0x11 then
    if b.groupTaken then b
    else { b with groupReg := BitVec.ofNat 16 (b.groupReg.toNat % 256 + (v.toNat &&& 0x83) * 256) }
  else if 0x18 ≤ i ∧ i ≤ 0x57 then
    if b.addrLocked then b else { b with addr := SMap.set 0 b.addr (i - 0x18) v }
  else b

/-- An index byte, then bytes from it upward. Nothing is reached while the supply reset is held. -/
def execI3cWrite (index : BitVec 8) (bytes : List Byte) (s : State) : Result :=
  .next (if s.board.supplyReset then s
    else s.modBoard fun b =>
      { bytes.zipIdx.foldl (fun b q => b.write (index.toNat + q.2) q.1) b with index := index.toNat })

/-- The hottest tier or die reading (R495). -/
def State.hottest (s : State) : Nat :=
  let tier := (s.mem.temps.flatMap fun q => (List.range 8).map fun t => fld q.2 (8 * t + 7) (8 * t)).foldl max 0
  ((List.range 6).map fun k => fld s.pwr.thmDie (8 * k + 7) (8 * k)).foldl max tier

/-- A byte of a private read. -/
def State.i3cByte (s : State) (i : Nat) : Byte :=
  let b := s.board
  if i < 8 then BitVec.ofNat 8 (fld s.sec.fuses.serial0 (8 * i + 7) (8 * i))
  else if i < 16 then BitVec.ofNat 8 (fld s.sec.fuses.serial1 (8 * (i - 8) + 7) (8 * (i - 8)))
  else if i < 18 then BitVec.ofNat 8 (b.groupReg.toNat / 256 ^ (i - 16))
  else if i = 0x12 then b.straps
  else if i = 0x13 then BitVec.ofNat 8 (bootCode s.sec.boot)
  else if i = 0x14 then BitVec.ofNat 8 s.sec.failCause
  else if i = 0x15 then BitVec.ofNat 8 (fld s.pwr.thmEvt 1 0)
  else if i = 0x16 then BitVec.ofNat 8 s.hottest
  else if 0x18 ≤ i ∧ i ≤ 0x57 then SMap.get 0 b.addr (i - 0x18)
  else if 0x58 ≤ i ∧ i ≤ 0x5D then s.sec.fuses.mac[i - 0x58]?.getD 0
  else 0

/-! The boot image (R463, R469). -/

/-- A BOOTREQ payload: chip number, serial, state. -/
def State.bootreqBody (s : State) : List Byte :=
  toLe 2 s.me ++ w64Bytes s.sec.fuses.serial0 ++ w64Bytes s.sec.fuses.serial1 ++ toLe 1 (bootCode s.sec.boot)

/-- Every 100 ms without a verified image; the first locks the address record (R496). -/
def execBootreqTimer (s : State) : Result :=
  .next (if (s.sec.boot = .waitimg ∨ s.sec.boot = .failed) ∧ s.portCabled = true then
      (s.modBoard fun b => { b with addrLocked := true, bootreqs := b.bootreqs + 1 }).portSend
        ⟨1, 0, BitVec.ofNat 32 s.board.bootreqs, s.bootreqBody⟩
    else s)

/-- A BOOT message: bytes of the image, acknowledged up to the highest contiguous offset. -/
def State.bootMessage (s : State) (m : PortWhole) : State :=
  let s1 := s.takeImage (bodyField m.body 0 8) (m.body.drop 8) none
  s1.portSend ⟨3, m.session, m.seq, toLe 8 (contiguous s1.sec.imgHave)⟩

def execBoot (m : PortMsg) (s : State) : Result :=
  .next (if s.wantsImage then s.takePort 2 m fun w t => t.bootMessage w else s)

/-- The whole image is checked, then applied or discarded. -/
def execBootVerify (s : State) : Result :=
  .next (if s.sec.boot = .verify then
      let (s1, ok) := s.checkRange rdKeeper 255 imageBase (min imageMax (s.sec.imgLen.getD 0))
      let n := s1.imageFault ok
      if n = 0 then s1.applyImage else s1.rejectImage n
    else s)

/-! Warm reset (R461). -/

/-- A sensor reads at or above its throttle limit (R409). -/
def State.tooHot (s : State) : Bool :=
  (s.mem.temps.any fun q => (List.range 8).any fun t => decide (fld s.pwr.thmCtl 55 48 ≤ fld q.2 (8 * t + 7) (8 * t))) ||
    (List.range 6).any fun k => decide (fld s.pwr.thmCtl 39 32 ≤ fld s.pwr.thmDie (8 * k + 7) (8 * k))

/-- Every entry of every write-combining buffer is written (R190). -/
def State.flushAll (s : State) : State :=
  (List.range 24).foldl (fun t p => (t.wcbAt p).foldl (fun u w => u.flushEntry p w) t) s

/-- A row switched at a warm reset: no copy is made and its lines are poisoned (R194). -/
def State.switchRow (s : State) (r : RowRepair) : State :=
  ((List.range 64).foldl (fun t n => t.setLine (r.line n) .lost) s).useSpareRow r

/-- A repair that waited for the reset. -/
def State.applyPending (s : State) (w : W64) : State :=
  if fld w 63 56 = 4 then s.switchRow (rowOf w) else s.applyEntry w

/-- A row that Darkel had scheduled and no command has repaired: it takes a spare if its bank has one and the map has
room. -/
def State.applyDueRow (s : State) (r : RowRepair) : State :=
  if 16 ≤ s.sparesUsed r.stack r.tier r.bank then s.stkEvt 5
  else if 512 ≤ s.sec.fieldUsed then s
  else
    (s.modSec fun q =>
      { q with fuses := { q.fuses with repairs := q.fuses.repairs ++ [r.target] }, fieldUsed := q.fieldUsed + 1 }).switchRow r

/-- Error counts of the banks, which a warm reset keeps (R474). -/
def errorCounter (k : Nat) : Bool :=
  (decide (k < 48) && decide (10 ≤ k % 12)) || (decide (512 ≤ k ∧ k < 768) && (k % 4 == 1 || k % 4 == 2))

/-- A plane that stays, its tiles no longer captured. -/
def warmPlane (p : Plane) : Plane := { p with tiles := p.tiles.map fun t => { t with slot := none } }

/-- An array after a warm reset; a steering change that waited for a tile boundary has one. -/
def warmArray (a : ArrayState) : ArrayState :=
  ⟨warmPlane a.active, warmPlane a.shadow, false, a.retired ++ a.pendCol.toList, none⟩

/-- A core after a warm reset: its planes and steering, and the number of loads since cold start. -/
def warmCore (c : Nat) (k : Core) : Core :=
  { Core.reset c with arrA := warmArray k.arrA, arrB := warmArray k.arrB, loadCount := k.loadCount }

/-- An engine after a warm reset: its physical engine and its generators, which run on. -/
def warmEngine (e : Nat) (k : Engine) : Engine := { Engine.reset e with phys := k.phys, gen := k.gen }

/-- Calibration records, FMAX and PWR_AGEc stay. -/
def warmPower (p : PwrCore) : PwrCore :=
  { PwrCore.reset with
    fmax := p.fmax, replost := p.replost, validRec := p.validRec, replans := p.replans, vaddH := p.vaddH, vaddM := p.vaddM
    vaddL := p.vaddL, fcap := p.fcap, gathering := p.gathering }

/-- What R461 leaves in place, and everything else as a reset leaves it. -/
def State.warmBase (s : State) : State :=
  { State.reset with
    pending := s.pending
    fresh := s.fresh
    mer := { Mer.reset with now := s.mer.now, nextBeat := s.mer.nextBeat, nextEpoch := s.mer.nextEpoch }
    cores := s.cores.map fun q => (q.1, warmCore q.1 q.2)
    engines := s.engines.map fun q => (q.1, warmEngine q.1 q.2)
    mem := { Mem.reset with
      cells := s.mem.cells, lines := s.mem.lines, scrubAt := s.mem.scrubAt, scrubCe := s.mem.scrubCe
      repairDue := s.mem.repairDue, repaired := s.mem.repaired, temps := s.mem.temps, ce := s.mem.ce, ue := s.mem.ue }
    grp := { Group.reset with
      chip := s.grp.chip, strap := s.grp.strap, failed := s.grp.failed, mseqOut := s.grp.mseqOut, taken := s.grp.taken
      copyDue := s.grp.copyDue }
    pwr := { Power.reset with
      core := s.pwr.core.map fun q => (q.1, warmPower q.2), quadValid := s.pwr.quadValid, quadAdd := s.pwr.quadAdd
      quadGathering := s.pwr.quadGathering
      stkAdd := s.pwr.stkAdd, railMv := s.pwr.railMv, telemetry := s.pwr.telemetry, thmDie := s.pwr.thmDie
      thmEvt := w64 (fld s.pwr.thmEvt 1 0) }
    fw := { Darkel.reset with nextRead := s.fw.nextRead, oos := s.fw.oos }
    sec := { Security.reset with
      fuses := s.sec.fuses, fieldUsed := s.sec.fieldUsed, idpk := s.sec.idpk, repairPend := s.sec.repairPend
      imgHave := s.sec.imgHave, imgLen := s.sec.imgLen
      cause := if s.pwr.tripped then 2 else 1, warms := min 255 (s.sec.warms + 1), boot := .links }
    board := { s.board with addrLocked := false, bootreqs := 0, thermtripLow := false }
    cnt := { Counters.reset with
      cnt := s.cnt.cnt.filter fun q => errorCounter q.1, log := s.cnt.log, nextSeq := s.cnt.nextSeq, due := s.cnt.due } }

/-- The reset, with the repairs that waited for it. -/
def State.warmReset (s : State) : State :=
  let s1 := s.flushAll.warmBase
  let s2 := s1.sec.repairPend.foldl (fun t w => t.applyPending w) s1
  let s3 := s2.mem.repairDue.foldl (fun t r => t.applyDueRow r) s2
  (s3.modSec fun c => { c with repairPend := [] }).measureStart.aimRails

/-- RESET.WARM: refused while a sensor is too hot; it completes after the reset, in the table the reset has cleared. -/
def State.warmCommand (s : State) (i : Nat) : State :=
  if s.tooHot then s.finishCmd i csState 0
  else
    let e := s.cmd i
    let mine := s.grp.mgrCmds.filter fun p => p.1 == i
    let s1 := (s.warmReset.modCmd i fun _ => e).modGrp fun g => { g with mgrCmds := mine }
    s1.finishCmd i csOk 0

def execResetWarm (i : BitVec 8) (s : State) : Result :=
  .next (if s.cmdRuns i.toNat 0xE then s.warmCommand i.toNat else s)

end Sys2Proof.Machine
end

