-- ==== Sys2Proof/Machine/JobLoad.lean ====
section
/-! DEFINITION. Models and job images (R423 to R434): MODEL.LOAD, JOB.LOAD. -/

namespace Sys2Proof.Machine

/-- A check with the status of its failure. -/
def chk (ok : Bool) (status : Nat) : Except Nat Unit := if ok then .ok () else .error status

/-- Bytes of an image, and words and fields at an offset. -/
def part (l : List Byte) (off len : Nat) : List Byte := (l.drop off).take len
def word (l : List Byte) (off : Nat) : W64 := w64OfBytes (l.drop off)
def leAt (l : List Byte) (off n : Nat) : Nat := leNat (part l off n)
def zeros (l : List Byte) : Bool := l.all (· == 0)

/-- [a, a + n) lies in [b, b + m). -/
def within (a n b m : Nat) : Bool := decide (b ≤ a ∧ a + n ≤ b + m)

/-- Stack memory clear of the carve-out (R176, R181). -/
def State.stackRange (s : State) (a n : Nat) : Bool :=
  (match locate a with | .stack _ _ => true | _ => false) && s.jobRange a (max n 1)

/-- The 4 KiB granules that a stack range touches, by their interleaved addresses (R178, R179). -/
def granules (a n : Nat) : List (Nat × Nat) :=
  if a + n ≤ stackSize then [(a, n)]
  else (List.range ((a % 4096 + n + 4095) / 4096)).map fun i =>
    let g := a - a % 4096 + 4096 * i
    let lo := max a g
    (canon lo, min (a + n) (g + 4096) - lo)

def meets (a n b m : Nat) : Bool := decide (0 < n ∧ 0 < m ∧ a < b + m ∧ b < a + n)

/-- Two stack ranges share a byte. -/
def overlaps (a n b m : Nat) : Bool := (granules a n).any fun p => (granules b m).any fun q => meets p.1 p.2 q.1 q.2

/-- [a, a + n) lies in the stack range [b, b + m), by whichever names (R179). -/
def inside (a n b m : Nat) : Bool :=
  within a n b m || (granules a n).all fun p => (granules b m).any fun q => within p.1 p.2 q.1 q.2

/-- Placement blocks (R429): a header of 16 bytes, then the bytes; none where a block runs past the end. -/
def blocksOf (l : List Byte) : Nat → Option (List (Nat × List Byte))
  | 0 => if l.isEmpty then some [] else none
  | k + 1 =>
    if l.isEmpty then some []
    else
      let a := fld (word l 0) 47 0
      let n := (word l 8).toNat
      if l.length < 16 ∨ fld (word l 0) 63 48 ≠ 0 ∨ a % 16 ≠ 0 ∨ n % 16 ≠ 0 ∨ l.length < 16 + n then none
      else (blocksOf (l.drop (16 + n)) k).map fun t => (a, part l 16 n) :: t

def blocks (l : List Byte) : Option (List (Nat × List Byte)) := blocksOf l (l.length / 16 + 1)

def State.writeBlocks (s : State) (bs : List (Nat × List Byte)) : State :=
  bs.foldl (fun t b => t.writeDone b.1 b.2) s

/-! Models (R423, R424). -/

def State.allEmpty (s : State) : Bool := (List.range 4).all fun j => (s.job j).st == .empty

def modelMagic : Nat := 0x4F5A54384D440001

/-- The regions and blocks of a model descriptor, or the status of the first check that fails. -/
def State.modelPlan (s : State) (d : List Byte) : Except Nat (List (Nat × Nat) × List (Nat × List Byte)) := do
  let n := leAt d 0xC 4
  chk (decide (64 ≤ d.length) && leAt d 0 8 == modelMagic && leAt d 8 4 == 1 && leAt d 0x10 8 == d.length &&
    decide (1 ≤ n ∧ n ≤ 64 ∧ 64 + 16 * n ≤ d.length) && zeros (part d 0x18 40)) csImage
  let regs := (List.range n).map fun k => (fld (word d (64 + 16 * k)) 47 0, fld (word d (72 + 16 * k)) 47 0)
  match blocks (d.drop (64 + 16 * n)) with
  | none => .error csImage
  | some bs =>
    chk (regs.all fun r => r.1 % 4096 == 0 && r.2 % 4096 == 0 && s.stackRange r.1 r.2) csLayout
    chk (regs.zipIdx.all fun p => regs.zipIdx.all fun q =>
      p.2 == q.2 || !overlaps p.1.1 p.1.2 q.1.1 q.1.2) csLayout
    chk (bs.all fun b => regs.any fun r => inside b.1 b.2.length r.1 r.2) csLayout
    .ok (regs, bs)

/-- The bytes a command's address and length name, none where they are not stack memory. -/
def cmdSource (a n : Nat) : Bool :=
  (match locate a with | .stack _ _ => true | _ => false) && decide (0 < n) && inMemory a n

def State.loadModel (s : State) (e : CmdEntry) : CmdOut :=
  let a := (e.arg 0).toNat
  let n := (e.arg 1).toNat
  if !cmdSource a n then .err csBadArg s
  else if !s.allEmpty then .err csState s
  else
    let (s1, ok) := s.checkRange rdKeeper 255 a n
    if !ok then .bad s1 csImage
    else
      let d := s1.bytes a n
      match s1.modelPlan d with
      | .error st => .bad s1 st
      | .ok (regs, bs) =>
        let g := digest32 d
        .fin (((s1.writeBlocks bs).modFw fun f => { f with model := some g, modelRegions := regs }).measure 2 g) csOk 0

def execModelLoad (i : BitVec 8) (s : State) : Result :=
  .next (if (s.cmd i.toNat).flag 0 then s else s.runCmd i.toNat 5 fun e t => t.loadModel e)

def State.unloadModel (s : State) : CmdOut :=
  if !s.allEmpty then .err csState s
  else if s.fw.model = none then .err csModel s
  else .fin ((s.modFw fun f => { f with model := none, modelRegions := [] }).measure 2 []) csOk 0

def execModelUnload (i : BitVec 8) (s : State) : Result :=
  .next (if (s.cmd i.toNat).flag 0 then s.runCmd i.toNat 5 fun _ t => t.unloadModel else s)

/-! Job images: header and directory (R425, R426). -/

structure Sect where
  type : Nat
  unit : Nat
  body : List Byte
  deriving DecidableEq, Repr

/-- A job image with its header read. -/
structure Image where
  all : List Byte
  carve : Nat
  cls : Nat
  keyed : Bool
  free : Bool
  cntrd : Bool
  seed : W64
  model : List Byte
  digest : List Byte
  sects : List Sect
  deriving DecidableEq, Repr

def imageMagic : Nat := 0x4F5A54384A420001

def Image.ofType (m : Image) (t : Nat) : List Sect := m.sects.filter fun x => x.type == t

/-- Sections that one unit may have but once. -/
def onePer (t : Nat) : Bool := t == 1 || t == 2 || t == 8 || t == 9 || t == 0xA

/-- UNIT names a core for SEQCODE and DESC, an engine for VECPROG, and is zero else. -/
def unitOk (t u : Nat) : Bool :=
  match t with | 1 => decide (u < 4) | 2 => decide (u < 4) | 3 => decide (u < 64) | _ => u == 0

/-- Records of a HALO body (R431). -/
def haloRecs (slot : Nat) (l : List Byte) : Nat → Option (List Cover × List (Nat × Nat × Nat) × List (Nat × Nat × Nat))
  | 0 => if l.isEmpty then some ([], [], []) else none
  | k + 1 =>
    if l.isEmpty then some ([], [], [])
    else if l.length < 16 then none
    else
      let w0 := word l 0
      match fld w0 63 60 with
      | 0 =>
        let n := fld (word l 8) 15 0
        if l.length < 16 + 8 * n then none
        else
          let ps := (List.range n).map fun i =>
            (fld (word l (16 + 8 * i)) 63 48, fld (word l (16 + 8 * i)) 47 32)
          (haloRecs slot (l.drop (16 + 8 * n)) k).map fun r =>
            (⟨slot, fld w0 47 32, fld w0 31 16, ps⟩ :: r.1, r.2.1, r.2.2)
      | 1 => (haloRecs slot (l.drop 16) k).map fun r => (r.1, (slot, fld w0 31 16, fld w0 15 0) :: r.2.1, r.2.2)
      | 2 => (haloRecs slot (l.drop 16) k).map fun r => (r.1, r.2.1, (slot, fld w0 31 16, fld w0 15 0) :: r.2.2)
      | _ => none

def Image.halo (m : Image) (slot : Nat) : Option (List Cover × List (Nat × Nat × Nat) × List (Nat × Nat × Nat)) :=
  (m.ofType 0xB).foldl (fun a x =>
    match a, haloRecs slot x.body (x.body.length / 16 + 1) with
    | some p, some q => some (p.1 ++ q.1, p.2.1 ++ q.2.1, p.2.2 ++ q.2.2)
    | _, _ => none) (some ([], [], []))

/-- A body whose length matches its counts and whose fields are in range (R427 to R432). NWORDS goes to 32,768 in a field
of 15 bits; 32,768 words are given by 0. -/
def Sect.wellFormed (x : Sect) : Bool :=
  let b := x.body
  let w0 := word b 0
  match x.type with
  | 1 =>
    let n := (b.length - 16) / 8
    decide (16 ≤ b.length ∧ 1 ≤ n ∧ b.length = 16 + 8 * n ∧ fld w0 46 32 = n % 32768 ∧ fld w0 14 0 + n ≤ 32768)
  | 2 =>
    let n := fld w0 27 16
    decide (16 ≤ b.length ∧ 1 ≤ n ∧ n ≤ 4095 ∧ b.length = 16 + 32 * n ∧ fld w0 11 0 + n ≤ 4096)
  | 3 => decide (16 ≤ b.length ∧ fld (word b 8) 19 0 % 128 = 0)
  | 4 => b.length % 16 == 0 && (List.range (b.length / 16)).all fun k => decide (fld (word b (16 * k)) 63 60 ≤ 5)
  | 5 => b.length % 4 == 0
  | 6 => b.length % 4 == 0
  | 7 => b.length % 4 == 0
  | 8 => decide (64 ≤ b.length ∧ b.length = 64 + 16 * fld (word b 0x10) 63 51)
  | 9 => decide (0xA0 ≤ b.length) && (blocks (b.drop 0xA0)).isSome
  | 0xA => decide (16 ≤ b.length ∧ b.length = 16 + 32 * (word b 8).toNat)
  | 0xB => (haloRecs 0 b (b.length / 16 + 1)).isSome
  | 0xC => decide (16 ≤ b.length)
  | _ => false

/-- Reads header and directory; IMAGE where they are malformed. -/
def imageOf (l : List Byte) : Except Nat Image := do
  let nsect := leAt l 8 4
  let fl := word l 0x18
  chk (decide (256 ≤ l.length) && leAt l 0 8 == imageMagic && leAt l 0xC 4 == 1 && decide (1 ≤ nsect ∧ nsect ≤ 4096 ∧ 256 + 16 * nsect ≤ l.length) && leAt l 0x10 8 == l.length &&
    fld fl 63 13 == 0 && fld fl 7 6 == 0 && fld fl 3 3 == 0 && zeros (part l 0x28 24) && zeros (part l 0x80 128)) csImage
  let dir := (List.range nsect).map fun k => (word l (256 + 16 * k), (word l (264 + 16 * k)).toNat)
  chk (dir.all fun d => decide (fld d.1 47 0 + d.2 ≤ l.length) && unitOk (fld d.1 63 56) (fld d.1 55 48)) csImage
  let sects : List Sect := dir.map fun d => ⟨fld d.1 63 56, fld d.1 55 48, part l (fld d.1 47 0) d.2⟩
  chk (sects.all Sect.wellFormed) csImage
  chk (sects.zipIdx.all fun p => sects.zipIdx.all fun q =>
    p.2 == q.2 || !(onePer p.1.type && p.1.type == q.1.type && p.1.unit == q.1.unit)) csImage
  let dg := part l 0x60 32
  chk (dg == digest32 (spliceAt l 0x60 zero32)) csImage
  .ok { all := l, carve := fld fl 12 8, cls := fld fl 5 4, keyed := bit fl 2, free := bit fl 1, cntrd := bit fl 0,
        seed := word l 0x20, model := part l 0x40 32, digest := dg, sects := sects }

/-! Regions (R432). -/

def Image.regions (m : Image) : List Region :=
  (m.ofType 4).flatMap fun x => (List.range (x.body.length / 16)).map fun k =>
    let w0 := word x.body (16 * k)
    ⟨fld w0 63 60, fld w0 59 48, fld w0 47 0, fld (word x.body (16 * k + 8)) 47 0⟩

def Region.inStack (r : Region) : Bool := r.kind == 0 || r.kind == 4 || r.kind == 5

/-- Bytes of a kind of claim on the units that a predicate selects. -/
def claimBytes (rs : List Region) (kind : Nat) (p : Nat → Bool) : Nat :=
  ((rs.filter fun r => r.kind == kind && p r.unit).map (·.size)).sum

def State.regionOk (s : State) (r : Region) : Bool :=
  match r.kind with
  | 1 => s.fw.modelRegions.any fun q => inside r.base r.size q.1 q.2
  | 2 => decide (r.unit < 4) && r.base % 128 == 0 && r.size % 128 == 0 && within r.base r.size (cbufBase r.unit) cbufSize
  | 3 => decide (r.unit < 64) && r.base % 4096 == 0 && r.size % 4096 == 0 &&
      within r.base r.size (lsBase r.unit) 0x100000
  | _ => (r.kind != 4 || decide (r.unit < 4)) && s.stackRange r.base r.size

/-- A region of the job in stack memory collides with another, with the model's, or with a resident job's. -/
def State.regionsClash (s : State) (slot : Nat) (rs : List Region) : Bool :=
  let mine := rs.filter Region.inStack
  let others := (List.range 4).flatMap fun k =>
    if k = slot ∨ (s.job k).st = .empty then [] else (s.job k).layout.filter Region.inStack
  mine.zipIdx.any fun p =>
    (mine.zipIdx.any fun q => p.2 != q.2 && overlaps p.1.base p.1.size q.1.base q.1.size) ||
    (s.fw.modelRegions.any fun q => overlaps p.1.base p.1.size q.1 q.2) ||
    others.any fun q => overlaps p.1.base p.1.size q.base q.size

/-- Bytes the SAVE region of a core holds at least. -/
def saveNeed (rs : List Region) (c : Nat) : Nat :=
  3014656 + claimBytes rs 2 (· == c) + 16 * 8192 + claimBytes rs 3 (fun e => coreOfEng e == c)

/-- In one PRIVATE region of the job. -/
def inPrivate (rs : List Region) (a n : Nat) : Bool := rs.any fun r => r.kind == 0 && inside a n r.base r.size

/-- The region a DATA section fills. -/
def dataRegion (rs : List Region) (x : Sect) : Option Region := rs[(word x.body 0).toNat]?

def Image.dataOk (m : Image) : Bool :=
  (m.ofType 0xC).all fun x =>
    match dataRegion m.regions x with
    | some r => (r.kind == 0 || r.kind == 2 || r.kind == 3) && decide (x.body.length - 16 ≤ r.size)
    | none => false

def Image.vecOk (m : Image) : Bool :=
  (m.ofType 3).all fun x =>
    let a := lsBase x.unit + fld (word x.body 8) 19 0
    decide (x.body.length = 16) ||
      m.regions.any fun r => r.kind == 3 && r.unit == x.unit && within a (x.body.length - 16) r.base r.size

/-! Numerics (R244, R428). -/

structure NumSec where
  ctl : W64
  recReg : W64
  tt : W64
  step0 : W32
  lsexp : Int
  clean : Nat
  skips : Nat
  applied : Nat
  tensors : List Byte
  deriving DecidableEq, Repr

def Image.numerics (m : Image) : Option NumSec :=
  (m.ofType 8).head?.map fun x =>
    let b := x.body
    ⟨word b 0, word b 8, word b 0x10, BitVec.ofNat 32 (leAt b 0x18 4), sext 8 (leAt b 0x1C 1), leAt b 0x1E 2, leAt b 0x20 4,
      leAt b 0x24 4, b.drop 64⟩

def NumSec.placed (n : NumSec) (rs : List Region) : Bool :=
  let r := fld n.recReg 47 0
  let t := fld n.tt 47 0
  let c := fld n.tt 63 51
  r % 64 == 0 && t % 128 == 0 && inPrivate rs r 64 && (c == 0 || inPrivate rs t (16 * c))

/-- Ranges of R269; SEM a semaphore the image is granted. -/
def NumSec.inRange (n : NumSec) (sems : List Nat) : Bool :=
  let hi := sext 8 (fld n.ctl 47 40)
  let lo := sext 8 (fld n.ctl 39 32)
  decide (-64 ≤ lo ∧ lo ≤ hi ∧ hi ≤ 63 ∧ lo ≤ n.lsexp ∧ n.lsexp ≤ hi ∧ fld n.ctl 63 48 ≠ 0 ∧ fld n.ctl 31 16 ≠ 0 ∧
    fld n.tt 63 51 ≤ 4096) && sems.contains (fld n.ctl 15 8)

/-! Semaphores and flow contexts (R426). -/

def Image.sems (m : Image) : List W32 :=
  (m.ofType 6).flatMap fun x => (List.range (x.body.length / 4)).map fun k => BitVec.ofNat 32 (leAt x.body (4 * k) 4)
def semNo (w : W32) : Nat := w.toNat % 256
def Image.flows (m : Image) : List W32 :=
  (m.ofType 7).flatMap fun x => (List.range (x.body.length / 4)).map fun k => BitVec.ofNat 32 (leAt x.body (4 * k) 4)
def flowNo (w : W32) : Nat := w.toNat % 8192
def flowCred (w : W32) : Nat := w.toNat / 65536 % 256
def flowWeight (w : W32) : Nat := w.toNat / 16777216 % 256

def State.grantOk (s : State) (m : Image) : Bool :=
  (m.sems.all fun w => !(s.sem (semNo w)).granted) &&
    (m.flows.all fun w => !(s.flow (flowNo w)).valid && decide (flowNo w < 8176)) &&
    (m.sems.map semNo).eraseDups.length == m.sems.length && (m.flows.map flowNo).eraseDups.length == m.flows.length

/-! Reduction plans (R347, R359, R429). -/

/-- Defined fields of the reduction registers that a plan gives, by their place in it (R373). -/
def redFlds : Nat → List (Nat × Nat)
  | 0 => [(63, 63), (57, 48), (47, 0)]
  | 1 => [(63, 52), (47, 0)]
  | 4 => [(63, 40), (19, 0)]
  | 5 => [(63, 63), (47, 0)]
  | 6 => [(63, 58), (57, 51), (50, 40), (39, 27)]
  | _ => [(47, 0)]

/-- The plan's registers and blocks in place, as a state on which its tables can be read. -/
def State.planState (s : State) (slot : Nat) (b : List Byte) : State :=
  let w (k : Nat) : W64 := keepFlds (word b (8 * k)) (redFlds k)
  (s.writeBlocks ((blocks (b.drop 0xA0)).getD [])).modRed slot fun _ =>
    { RedSlot.reset with ctl := w 0, btab := w 1, xtab := w 2, wqbase := w 3, wqcfg := w 4, mask := w 5, lapcfg := w 6,
                         laplist := w 7, bidx := w 10 }

/-- The areas a bucket-table entry names: landing area, rounded up to whole lines (R356), accumulator banks, completion
records. -/
def State.entryAreas (s : State) (slot n : Nat) : List (Nat × Nat) :=
  let b := s.bent slot n
  let srcs := s.readSrcs b
  [(b.lbase, ceilDiv ((b.regionSizes srcs).sum + 3 * srcs.length * b.npall) 128 * 128), (b.abase, 512 * b.npall), (b.crec, 128)]

/-- Engines that add for some entry. -/
def State.planEngines (s : State) (slot : Nat) : List Nat :=
  (List.range 64).filter fun e => (List.range (s.bentCount slot)).any fun n =>
    let b := s.bent slot n
    decide (b.eng0 ≤ e ∧ e < b.eng0 + b.neng)

def State.queueLen (s : State) (slot : Nat) : Nat := fld (s.redSlot slot).wqcfg 63 40

def State.planAreas (s : State) (slot : Nat) : List (Nat × Nat) :=
  ((List.range (s.bentCount slot)).flatMap fun n => s.entryAreas slot n) ++
    (s.planEngines slot).map fun e => (s.wqAt slot e 0, 32 * s.queueLen slot)

/-- R347 and R359: at most 65,536 contributions to a bucket, and no engine gets more posts in a step than its queue
holds. -/
def State.planOk (s : State) (slot : Nat) : Bool :=
  let ns := List.range (s.bentCount slot)
  (ns.all fun n => decide (((s.readSrcs (s.bent slot n)).filter fun r => r.kind != 1).length ≤ 65536)) &&
    (s.planEngines slot).all fun e =>
      decide (((ns.filter fun n => decide ((s.bent slot n).eng0 ≤ e ∧ e < (s.bent slot n).eng0 + (s.bent slot n).neng)).map
        fun n => (s.bent slot n).nsrc * ceilDiv (s.bent slot n).npall (s.bent slot n).neng).sum ≤ s.queueLen slot)

/-- Staging lies in the core's own core buffer (R243, R433). -/
def stagingOk (b : List Byte) : Bool :=
  (List.range 4).all fun c =>
    let w := word b (0x60 + 16 * c)
    fld w 63 48 == 0 || (fld w 47 0 % 8192 == 0 && within (fld w 47 0) (8192 * fld w 63 48) (cbufBase c) cbufSize)

/-! The checks, in the order of R433. -/

def Image.seqRange (x : Sect) : Nat × Nat :=
  let w0 := word x.body 0
  (fld w0 14 0, fld w0 14 0 + (x.body.length - 16) / 8 - 1)
def Image.descRange (x : Sect) : Nat × Nat :=
  let w0 := word x.body 0
  (fld w0 11 0, fld w0 11 0 + (x.body.length - 16) / 32 - 1)

def Core.jr (k : Core) (j : Nat) : JRange := SMap.get .none k.jrange j

def apart (a b : Nat × Nat) : Bool := decide (a.2 < b.1 ∨ b.2 < a.1)

def State.rangesFree (s : State) (slot : Nat) (m : Image) : Bool :=
  let others (c : Nat) : List JRange :=
    ((List.range 4).filter fun k => k != slot).map (fun k => (s.core c).jr k)
  ((m.ofType 1).all fun x => (others x.unit).all fun r => !r.valid || apart (Image.seqRange x) (r.ibase, r.ilim)) &&
    (m.ofType 2).all fun x => decide (1 ≤ (Image.descRange x).1) &&
      (others x.unit).all fun r => decide (r.dlim < r.dbase) || apart (Image.descRange x) (r.dbase, r.dlim)

def State.layoutOk (s : State) (slot : Nat) (m : Image) : Bool :=
  let rs := m.regions
  m.carve == s.mem.carve && rs.all s.regionOk && !s.regionsClash slot rs &&
    ((m.ofType 1).all fun x => rs.any fun r => r.kind == 4 && r.unit == x.unit && decide (saveNeed rs x.unit ≤ r.size)) &&
    (rs.any fun r => r.kind == 5 && decide (m.all.length ≤ r.size)) && m.dataOk && m.vecOk &&
    ((m.numerics.map fun n => n.placed rs).getD true) &&
    ((m.ofType 0xA).all fun x =>
      let a := fld (word x.body 0) 47 0
      a % 32 == 0 && inPrivate rs a (x.body.length - 16)) &&
    (m.ofType 9).all fun x =>
      let t := s.planState slot x.body
      (((blocks (x.body.drop 0xA0)).getD []).all fun b => inPrivate rs b.1 b.2.length) &&
        (t.planAreas slot).all fun a => inPrivate rs a.1 a.2

def State.plansOk (s : State) (slot : Nat) (m : Image) : Bool :=
  (m.flows.all fun w => decide (flowCred w ≠ 0 ∧ flowWeight w ≠ 0)) &&
    ((m.numerics.map fun n => n.inRange (m.sems.map semNo)).getD true) &&
    (m.ofType 9).all fun x => (s.planState slot x.body).planOk slot && stagingOk x.body

def State.imageChecks (s : State) (slot : Nat) (l : List Byte) : Except Nat Image := do
  let m ← imageOf l
  chk (s.fw.model == some m.model) csModel
  chk (s.layoutOk slot m) csLayout
  chk (s.rangesFree slot m) csOverlap
  chk (s.grantOk m) csGrant
  chk (s.plansOk slot m) csPlan
  .ok m

/-! What a load does (R434). -/

def setWords (m : SMap W64) (a : Nat) (l : List Byte) : SMap W64 :=
  (List.range (l.length / 8)).foldl (fun m k => SMap.set 0 m (a + k) (word l (8 * k))) m

/-- Instruction words, descriptors and ranges. A core with a SEQCODE section and no DESC section gets DBASE 1 and DLIM 0,
an empty range: the manual gives none for that case (DESIGN CHOICE, log 74). -/
def State.loadCode (s : State) (slot : Nat) (m : Image) : State :=
  let s1 := (m.ofType 1).foldl (fun t x =>
    let r := Image.seqRange x
    t.modCore x.unit fun k =>
      { k with imem := setWords k.imem r.1 (x.body.drop 16),
               jrange := SMap.set .none k.jrange slot ⟨true, r.1, r.2, 1, 0⟩ }) s
  (m.ofType 2).foldl (fun t x =>
    let r := Image.descRange x
    t.modCore x.unit fun k =>
      { k with desc := setWords k.desc (4 * r.1) (x.body.drop 16),
               jrange := SMap.set .none k.jrange slot { k.jr slot with dbase := r.1, dlim := r.2 } }) s1

/-- Another resident job claims the line. -/
def State.sharedLine (s : State) (slot line : Nat) : Bool :=
  (List.range 4).any fun k => k != slot && (s.job k).st != .empty && (s.job k).claimsLine line

def Region.lines (r : Region) : List Nat := (List.range (r.size / 128)).map fun i => r.base + 128 * i

/-- Lines of the job's claims that another's claims share are kept aside until its first launch. -/
def State.layAside (s : State) (slot : Nat) (rs : List Region) : State :=
  let ls := (rs.filter fun r => r.kind == 2 || r.kind == 3).flatMap fun r => r.lines.filter (s.sharedLine slot)
  s.modJob slot fun b => { b with aside := ls.foldl (fun m l => SMap.set [] m l (List.replicate 128 none)) b.aside }

/-- Contents of a claim: to memory, or to what is kept aside. -/
def State.placeClaim (s : State) (slot a : Nat) (bs : List Byte) : State :=
  (cutLines a bs (bs.length / 128 + 2)).foldl (fun t p =>
    let line := lineOf p.1
    match SMap.get [] (t.job slot).aside line with
    | [] => t.writeDone p.1 p.2
    | old => t.modJob slot fun b => { b with aside := SMap.set [] b.aside line (spliceAt old (p.1 % 128) (p.2.map some)) }) s

def State.loadData (s : State) (slot : Nat) (m : Image) (claims : Bool) : State :=
  (m.ofType 0xC).foldl (fun t x =>
    match dataRegion m.regions x with
    | some r =>
      if claims = (r.kind != 0) then
        if claims then t.placeClaim slot r.base (x.body.drop 16) else t.writeDone r.base (x.body.drop 16)
      else t
    | none => t) s

def State.loadVec (s : State) (slot : Nat) (m : Image) : State :=
  (m.ofType 3).foldl (fun t x =>
    (t.placeClaim slot (lsBase x.unit + fld (word x.body 8) 19 0) (x.body.drop 16)).modEng x.unit fun k =>
      { k with entry := fld (word x.body 0) 17 0, hasProg := true }) s

def State.grantAll (s : State) (slot : Nat) (m : Image) : State :=
  let s1 := m.sems.foldl (fun t w => t.modSem (semNo w) fun q =>
    { q with granted := true, job := slot, noinh := w.getLsbD 8, count := w.toNat / 65536 }) s
  m.flows.foldl (fun t w => t.modFlow (flowNo w) fun q =>
    { q with valid := true, job := slot, cred := flowCred w, weight := flowWeight w, failed := false }) s1

/-- The numerics bank (R244, R252). -/
def State.loadNum (s : State) (slot : Nat) (m : Image) : State :=
  match m.numerics with
  | none => s.modBank slot fun _ => NumBank.reset
  | some n =>
    (s.writeDone (fld n.tt 47 0) n.tensors).modBank slot fun _ =>
      { NumBank.reset with
        ctl := keepFlds n.ctl [(63, 8)], recReg := keepFlds n.recReg [(63, 52), (47, 0)],
        tt := keepFlds n.tt [(63, 51), (47, 0)], hasSection := true, steps := w64 (at' n.applied 32 + n.skips),
        state := w64 (at' (n.step0 - 1).toNat 32 + at' (wrapN 8 n.lsexp) 24 + at' 1 17 + n.clean) }

/-- Areas zeroed, queues emptied, entries armed for the first step, the first lap word sent (R363, R367, R429). -/
def State.loadRed (s : State) (slot : Nat) (m : Image) : State :=
  match (m.ofType 9).head? with
  | none => s.modRed slot fun _ => RedSlot.reset
  | some x =>
    let step0 : W32 := (m.numerics.map (·.step0)).getD 0
    let t := s.planState slot x.body
    let t1 := (t.planAreas slot).foldl (fun u a => u.writeDone a.1 (List.replicate a.2 0)) t
    let t2 := (List.range (t.bentCount slot)).foldl (fun u n => u.armEntry slot n step0) t1
    let t3 := (t.planEngines slot).foldl (fun u e =>
      u.placeClaim slot (u.headAt slot e) (List.replicate 16 0 ++ toLe 8 (step0 - 1).toNat)) t2
    (t3.emptySteps slot).lapSend slot

def State.loadGather (s : State) (m : Image) : State :=
  (m.ofType 0xA).foldl (fun t x => t.writeDone (fld (word x.body 0) 47 0) (x.body.drop 16)) s

def State.loadHalo (s : State) (slot : Nat) (m : Image) : State :=
  match m.halo slot with
  | none => s
  | some h => s.modGrp fun g =>
    { g with covers := g.covers ++ h.1, backupGo := g.backupGo ++ h.2.1, ownHalo := g.ownHalo ++ h.2.2,
             members := g.members.map fun p =>
               (p.1, if h.1.any fun c => c.prims.any fun q => q.1 == p.1 then
                   { p.2 with spri := SMap.erase slot p.2.spri, lastBacked := SMap.erase slot p.2.lastBacked } else p.2) }

def Image.redImg (m : Image) : SMap (W64 × W64) :=
  match (m.ofType 9).head? with
  | none => []
  | some x => (List.range 4).foldl (fun t c =>
      SMap.set (0, 0) t c (word x.body (0x60 + 16 * c), keepFlds (word x.body (0x68 + 16 * c)) [(63, 63), (47, 0)])) []

def Image.veEntries (m : Image) : SMap (Option Nat) :=
  (m.ofType 3).foldl (fun t x => SMap.set none t x.unit (some (fld (word x.body 0) 17 0))) []

def Image.layers (m : Image) : List Bool :=
  (m.ofType 5).flatMap fun x => (List.range (x.body.length / 4)).map fun k => leAt x.body (4 * k) 1 % 2 == 1

def Image.copyBase (m : Image) : Nat :=
  ((m.regions.find? fun r => r.kind == 5 && decide (m.all.length ≤ r.size)).map (·.base)).getD 0

/-- The job as resident. -/
def Image.jobOf (m : Image) : Job :=
  { Job.empty with
    st := .ready, cls := m.cls, free := m.free, cntrd := m.cntrd, keyed := m.keyed, seed := m.seed,
    digest := m.digest, layout := m.regions, cores := (m.ofType 1).map (·.unit), copyAt := m.copyBase,
    length := m.all.length, layers := m.layers, redImg := m.redImg, veEntry := m.veEntries,
    flows := m.flows.map flowNo, hasNum := m.numerics.isSome }

/-- Each core of the job shows the job's SQ_REDSTG and SQ_GMASK, and an SQ_ATSTAT with no ATS since JOB.LOAD, unless an
instance of another job has the core: then they are that job's until the launch (R233, R243, R281). The bindings of a job
that had the slot before count no more (R348). -/
def State.loadSeqRegs (s : State) (slot : Nat) (m : Image) : State :=
  let s1 := (List.range 4).foldl (fun t c => t.modCore c fun k =>
    { k with bindNo := k.bindNo.filter fun x => x.1 / 65536 != slot }) s
  ((m.ofType 1).map (·.unit)).foldl (fun t c =>
    if t.coreHeld c then t
    else
      let r := SMap.get (0, 0) m.redImg c
      t.modCore c fun k =>
        { k with ctx := { k.ctx.setAts (false, 0, [], 0) with redstg := r.1, gmask := r.2 } }) s1

/-- Fault codes of the job's units are cleared. -/
def State.clearFaults (s : State) (m : Image) : State :=
  (m.ofType 1).foldl (fun t x =>
    (List.range 16).foldl (fun u i => u.modEng (16 * x.unit + i) fun k => { k with code := .none })
      (t.modCore x.unit fun k => { k with faultCode := .none })) s

def State.install (s : State) (slot : Nat) (m : Image) : State :=
  let s1 := (s.modJob slot fun _ => m.jobOf).writeDone m.copyBase m.all
  let s2 := ((s1.loadCode slot m).loadData slot m false).layAside slot m.regions
  let s3 := (((s2.loadVec slot m).loadData slot m true).grantAll slot m).loadNum slot m
  let s4 := ((s3.loadGather m).loadHalo slot m).loadRed slot m
  ((s4.loadSeqRegs slot m).clearFaults m).measure (3 + slot) m.digest

/-- JOB.LOAD (R433, R434). -/
def State.loadJob (s : State) (e : CmdEntry) : CmdOut :=
  let a := (e.arg 0).toNat
  let n := (e.arg 1).toNat
  let slot := fld (e.arg 2) 1 0
  if !cmdSource a n then .err csBadArg s
  else if (s.job slot).st ≠ .empty then .err csState s
  else
    let (s1, ok) := s.checkRange rdKeeper 255 a n
    if !ok then .bad s1 csImage
    else
      match s1.imageChecks slot (s1.bytes a n) with
      | .error st => .bad s1 st
      | .ok m => .fin (s1.install slot m) csOk (leNat (m.digest.take 6))

def execJobLoad (i : BitVec 8) (s : State) : Result := .next (s.runCmd i.toNat 1 fun e t => t.loadJob e)

end Sys2Proof.Machine
end

