-- ==== Sys2Proof/Machine/Jobs.lean ====
section
/-! DEFINITION. Darkel's commands on jobs, the log and quotes (R435, R436, R421, R467, R480). -/

namespace Sys2Proof.Machine

/-! JOB.START (R435). -/

/-- Word 2 of an entry as R32 lays it out. -/
def entryOf (start period w2 tag : W64) : SchedEntry :=
  { start := start, period := period.truncate 48, valid := true, asap := bit w2 62, whole := bit w2 61,
    share := fld w2 57 48, cores := fld w2 43 40, job := fld w2 33 32, entry := fld w2 14 0, inst := 0,
    tag := tag.truncate 32, nextNo := 0, deficit := 0, slots := 0, cont := false }

def State.startChecks (s : State) (i : Nat) (e : SchedEntry) : Nat :=
  let b := s.job e.job
  let cs := coresOf e.cores
  if b.st ≠ .ready ∧ b.st ≠ .active then csState
  else if (s.entry i).valid = true ∧ (s.entry i).job ≠ e.job then csBusy
  else if e.whole then
    (if e.cores ≠ 15 then csBadArg else 0)
  else if cs.length = 0 ∨ 2 < cs.length then csBadArg
  else 0

/-- The checks on the cores an entry names, and its share. -/
def State.startCores (s : State) (e : SchedEntry) : Nat :=
  let b := s.job e.job
  let cs := coresOf e.cores
  if cs.any (fun c => !b.cores.contains c) then csBadArg
  else if cs.any (fun c => decide (e.entry < ((s.core c).jr e.job).ibase ∨ ((s.core c).jr e.job).ilim < e.entry)) then csBadArg
  else if cs.any s.fw.oos.getLsbD then csState
  else if e.share < 1 ∨ 1000 < e.share then csBadArg
  else 0

def State.startJob (s : State) (c : CmdEntry) : CmdOut :=
  let i := fld (c.arg 0) 9 0
  let e := entryOf (c.arg 1) (c.arg 2) (c.arg 3) (c.arg 4)
  let st := if s.startChecks i e = 0 then s.startCores e else s.startChecks i e
  if st ≠ 0 then .err st s
  else
    let s1 := s.launchFirst fun k _ => k == i
    .fin ((s1.modEntry i fun _ => e).modJob e.job fun b => { b with st := .active }) csOk 0

def execJobStart (i : BitVec 8) (s : State) : Result := .next (s.runCmd i.toNat 2 fun e t => t.startJob e)

/-! JOB.STOP (R436). -/

/-- The entries a stop names. -/
def stopNames (arg slot : Nat) (i : Nat) (e : SchedEntry) : Bool := e.job == slot && (arg == 0x7FF || arg == i)

def stopNamesInst (arg slot : Nat) (x : Inst) : Bool :=
  x.job == slot && (arg == 0x7FF || arg == x.entry)

/-- The slot's grants are revoked, its ranges freed, its reduction path closed, and it is EMPTY. -/
def State.unloadJob (s : State) (slot : Nat) : State :=
  let noSem (q : Sem) : Sem := if q.granted && q.job == slot then { q with granted := false } else q
  let noFlow (q : Flow) : Flow := if q.valid && q.job == slot then { q with valid := false } else q
  let sems : SMap Sem := s.sems.map fun p => (p.1, noSem p.2)
  let flows : SMap Flow := s.lnk.flow.map fun p => (p.1, noFlow p.2)
  let ops : SMap (Option LinkOp) := s.lnk.ops.filter fun p =>
    match p.2 with | some o => o.job != some slot | none => false
  let s2 := { s with sems := sems, lnk := { s.lnk with flow := flows, ops := ops } }
  let alive (n : Nat) : Bool := (SMap.get none ops n).isSome
  let s3 := (List.range 4).foldl (fun t c => t.modCore c fun k =>
    { k with jrange := SMap.erase slot k.jrange, ctx := { k.ctx with puts := k.ctx.puts.filter alive } }) s2
  let s3 := (List.range 64).foldl (fun t e => t.modVctx e fun x =>
    { x with dmas := x.dmas.filter fun d => match d with | .put n => alive n | .copy _ _ _ _ _ => true }) s3
  let s4 := (s3.modRed slot fun r => { r with ctl := clrBit r.ctl 63 }).modJob slot fun _ => Job.empty
  (s4.modGrp fun g =>
    { g with covers := g.covers.filter fun c => c.slot != slot, backupGo := g.backupGo.filter fun c => c.1 != slot,
             ownHalo := g.ownHalo.filter fun c => c.1 != slot,
             haloPlans := if (List.range 4).any s4.redEn then g.haloPlans else [],
             rolePlans := if (List.range 4).any s4.redEn then g.rolePlans else [] }).measure (3 + slot) []

/-- Instances named are stopped: a saved one is discarded at once, a running one at its next pre-emption point once its
operations have completed. -/
def State.stopInsts (s : State) (arg slot : Nat) : State :=
  (s.fw.insts.filter fun x => stopNamesInst arg slot x).foldl (fun t x =>
    if x.st = .saved then t.endInst x 6
    else
      let y := { x with st := .stopping, discard := true }
      let t1 := t.modInst x.entry x.no fun _ => y
      if t1.saveReady y then t1.endInst y 6 else t1) s

/-- Once none of the named instances remains, the slot is READY, ACTIVE or, with UNLOAD, EMPTY. One that a manager stops
as a whole is FAILED (R385, R437). -/
def State.stopEnds (s : State) (slot : Nat) (unload byMgr : Bool) : CmdOut :=
  if unload then
    if s.jobIdle slot then .fin (s.unloadJob slot) csOk 0 else .more s
  else if byMgr then .fin (s.stopSlot slot 4) csOk 0
  else
    .fin (s.modJob slot fun b => { b with st := if s.jobIdle slot then .ready else .active }) csOk 0

/-- An instance of a named entry that is due in this cycle launches and is stopped with the rest (R38). -/
def State.stopJob (s : State) (c : CmdEntry) : CmdOut :=
  let slot := fld (c.arg 0) 1 0
  let arg := fld (c.arg 1) 10 0
  let drain := c.flag 0
  let unload := c.flag 1
  let byMgr := fld (c.took 0) 62 60 == 2
  let st := (s.job slot).st
  let down := st == .faulted || st == .failedByMgr
  if arg ≠ 0x7FF ∧ (1024 ≤ arg ∨ ((s.entry arg).valid = true ∧ (s.entry arg).job ≠ slot)) then .err csBadArg s
  else if byMgr && st == .failedByMgr && !unload then .fin s csOk 0
  else if st = .empty ∨ (down = true ∧ unload = false) then .err csState s
  else if unload ∧ arg ≠ 0x7FF ∧ (s.sched.any fun p => p.2.valid && p.2.job == slot && p.1 != arg) = true then
    .err csState s
  else
    let s0 := s.launchFirst (stopNames arg slot)
    let s1 := (s0.clearValid (stopNames arg slot)).modJob slot fun b =>
      { b with st := if down then b.st else .stopping, cause := if drain || down then b.cause else 6 }
    let s2 := if drain then s1 else s1.stopInsts arg slot
    if s2.fw.insts.any (fun x => stopNamesInst arg slot x) then .more s2 else s2.stopEnds slot unload (byMgr && arg == 0x7FF)

def execJobStop (i : BitVec 8) (s : State) : Result := .next (s.runCmd i.toNat 3 fun e t => t.stopJob e)

/-! JOB.SHARE (R421). -/

def State.shareJob (s : State) (c : CmdEntry) : CmdOut :=
  let i := fld (c.arg 0) 9 0
  let n := fld (c.arg 1) 9 0
  if n < 1 ∨ 1000 < n then .err csBadArg s
  else if (s.entry i).valid = false then .err csState s
  else .fin (s.modEntry i fun e => { e with share := n }) csOk 0

def execJobShare (i : BitVec 8) (s : State) : Result := .next (s.runCmd i.toNat 4 fun e t => t.shareJob e)

/-! LOG.READ (R480). -/

/-- The records a read copies. -/
def State.logFrom (s : State) (first count : Nat) : List (Nat × LogRec) :=
  (s.cnt.log.filter fun p => decide (first ≤ p.1)).take count

def State.readLog (s : State) (c : CmdEntry) : CmdOut :=
  let rs := s.logFrom (c.arg 0).toNat (fld (c.arg 2) 15 0)
  let a := (c.arg 1).toNat
  if a % 64 ≠ 0 ∨ s.stackRange a (64 * rs.length) = false then .err csBadArg s
  else .fin (s.writeDone a (rs.flatMap fun p => p.2.bytes p.1 s.grp.chip.toNat)) csOk rs.length

def execLogRead (i : BitVec 8) (s : State) : Result := .next (s.runCmd i.toNat 0xF fun e t => t.readLog e)

/-! ATTEST.QUOTE (R467). -/

def State.attest (s : State) (c : CmdEntry) : CmdOut :=
  let a := (c.arg 0).toNat
  let b := (c.arg 1).toNat
  if a % 16 ≠ 0 ∨ b % 16 ≠ 0 ∨ cmdSource a 32 = false ∨ cmdSource b 30176 = false then .err csBadArg s
  else
    let (s1, ok) := s.checkRange rdKeeper 255 a 32
    if !ok then .bad s1 csBadArg
    else .fin (s1.writeDone b (fixLen 384 c.quote ++ s1.idSign "OZT8-QUOTE" (fixLen 384 c.quote))) csOk 30176

def execAttestQuote (i : BitVec 8) (s : State) : Result := .next (s.runCmd i.toNat 0xB fun e t => t.attest e)

end Sys2Proof.Machine
end

