-- ==== Sys2Proof/Machine/Landing.lean ====
section
/-! DEFINITION. Landing of packets and end-to-end acknowledgement (R331, R337 to R339, R357, R367, R386). -/

namespace Sys2Proof.Machine

/-! Where a packet lies whole. -/

def State.landFront (s : State) : LandSrc → Option Packet
  | .link l vc => s.rxFront l vc.toNat
  | .localPath => s.lnk.localQ.head?

def State.landPop (s : State) : LandSrc → State
  | .link l vc => s.popRx l vc.toNat
  | .localPath => s.modLnk fun n => { n with localQ := n.localQ.tail }

/-- The packet at the front, if it is for this chip and of a kind; it leaves its buffer. -/
def State.landing (s : State) (src : LandSrc) (kind : Nat) (f : Packet → State → State) : State :=
  match s.landFront src with
  | none => s
  | some p => if p.dchip = s.grp.chip ∧ p.kind.toNat = kind then f p (s.landPop src) else s

/-! Acknowledgement at the destination (R338). -/

def pairKey (schip flow : Nat) : Nat := schip * 8192 + flow

/-- One ACK for everything landed of a source and flow since the last. -/
def State.ackPair (s : State) (schip flow : Nat) : State :=
  let r := SMap.get Landed.none s.lnk.landed (pairKey schip flow)
  if r.count = 0 then s
  else
    (s.modLnk fun n => { n with landed := SMap.set Landed.none n.landed (pairKey schip flow) .none }).sendAck schip flow
      r.fseq stOk

/-- A packet has landed: the ACK goes at once for one with LAST and for the eighth since the last ACK. -/
def State.noteLanded (s : State) (p : Packet) : State :=
  let key := pairKey p.schip.toNat p.flow.toNat
  let r := SMap.get Landed.none s.lnk.landed key
  let s1 := s.modLnk fun n => { n with landed := SMap.set Landed.none n.landed key ⟨r.count + 1, p.fseq, if r.count = 0 then s.mer.now else r.since⟩ }
  if p.last ∨ 8 ≤ r.count + 1 then s1.ackPair p.schip.toNat p.flow.toNat else s1

/-- A discarded packet is acknowledged RANGE, after what landed before it. -/
def State.ackRange (s : State) (p : Packet) : State :=
  (s.ackPair p.schip.toNat p.flow.toNat).sendAck p.schip.toNat p.flow.toNat p.fseq stRange

/-- 200 ns after the oldest landing that has not been acknowledged. -/
def execAckTimer (schip : W16) (flow : BitVec 13) (s : State) : Result :=
  .next (if (SMap.get Landed.none s.lnk.landed (pairKey schip.toNat flow.toNat)).since.toNat + 200 ≤ s.now then
      s.ackPair schip.toNat flow.toNat
    else s)

/-! Landing. -/

/-- DADDR, and for a packet that is stored every byte from it on, lies where a landing may write (R338). The rule speaks of
DADDR alone: that a stored packet that runs out of its memory is RANGE too is a DESIGN CHOICE (log 82). -/
def State.landOk (s : State) (p : Packet) (n : Nat) : Bool := s.jobRange p.daddr.toNat (max 1 n)

def execData (src : LandSrc) (s : State) : Result :=
  .next (s.landing src pkData fun p t =>
    if t.landOk p p.payload.length then (t.writeDone p.daddr.toNat p.payload).noteLanded p else t.ackRange p)

def execReduce (src : LandSrc) (s : State) : Result :=
  .next (s.landing src pkReduce fun p t => if t.landOk p 1 then (t.landReduce p).noteLanded p else t.ackRange p)

def execLap (src : LandSrc) (s : State) : Result :=
  .next (s.landing src pkLap fun p t => if t.landOk p 1 then (t.landLap p).noteLanded p else t.ackRange p)

/-! Management packets (R386). -/

def kargMtype (p : Packet) : Nat := p.karg.toNat / 2 ^ 48 % 256
def kargFidx (p : Packet) : Nat := p.karg.toNat / 2 ^ 40 % 256
def kargFcnt (p : Packet) : Nat := p.karg.toNat / 2 ^ 32 % 256
def kargMseq (p : Packet) : W32 := BitVec.ofNat 32 p.karg.toNat

/-- Message types that exist (R387). -/
def mtypeOk (n : Nat) : Bool := decide (1 ≤ n ∧ n ≤ 0xC)

/-- A message is whole: taken once per sender and number; a reserved type is discarded. -/
def State.takeMgmt (s : State) (m : MgmtPart) : State :=
  let body := (List.range m.fcnt).flatMap fun i => SMap.get [] m.frags i
  s.modGrp fun g =>
    { g with parts := g.parts.filter fun q => !(q.schip == m.schip && q.mseq == m.mseq),
             taken := SMap.set [] g.taken m.schip (SMap.get [] g.taken m.schip ++ [m.mseq.toNat]),
             inbox := if mtypeOk m.mtype then g.inbox ++ [⟨m.mtype, m.schip, m.mseq, body⟩] else g.inbox }

/-- A fragment joins its message. An announcement numbered 0 comes from a cold start: its sender numbers anew. -/
def State.landMgmt (s : State) (p : Packet) : State :=
  let chip := p.schip.toNat
  let mseq := kargMseq p
  let s := if kargMtype p = 1 ∧ mseq = 0 then
      s.modGrp fun g => { g with taken := SMap.erase chip g.taken, parts := g.parts.filter fun q => q.schip != chip }
    else s
  if (SMap.get [] s.grp.taken chip).contains mseq.toNat ∨ kargFcnt p ≤ kargFidx p then s
  else
    let old := (s.grp.parts.find? fun q => q.schip == chip && q.mseq == mseq).getD ⟨chip, mseq, kargMtype p, kargFcnt p, [], s.mer.now⟩
    let m : MgmtPart := { old with frags := SMap.insert (kargFidx p) p.payload old.frags }
    if m.frags.length = m.fcnt then s.takeMgmt m
    else
      s.modGrp fun g => { g with parts := (g.parts.filter fun q => !(q.schip == chip && q.mseq == mseq)) ++ [m] }

def execMgmt (src : LandSrc) (s : State) : Result :=
  .next (s.landing src pkMgmt fun p t => (t.landMgmt p).noteLanded p)

/-- A message whose fragments are not all present 1 ms after the first is discarded (R386). -/
def execMgmtFragmentTimeout (schip : W16) (mseq : W32) (s : State) : Result :=
  .next (s.modGrp fun g =>
    { g with parts := g.parts.filter fun q => !(q.schip == schip.toNat && q.mseq == mseq &&
      decide (q.since.toNat + 1000000 ≤ s.now)) })

/-! Acknowledgement at the source (R337 to R339). -/

/-- A link number for the log: the first of the route, 0xFFFF for the local path (R482). -/
def State.firstLink (s : State) (dchip flow : Nat) : Nat :=
  if dchip = s.grp.chip.toNat then 0xFFFF else (s.route dchip flow).getD 0xFFFF

/-- An operation ends in error (R339): nothing more of it is sent. What is in flight stays so until it is acknowledged
(R337). -/
def State.failOp (s : State) (n : Nat) (o : LinkOp) (fseq : W16) (status : Nat) : State :=
  let s1 := s.setOp n (if o.job.isSome then some { o with todo := [], unacked := [], failedWith := some status } else none)
  let s2 := (s1.modFlow o.flow fun w => { w with failed := true }).lnkEvt 4
  s2.logEvt 3 (o.job.getD 255) 0x30 0 (s.firstLink o.dchip o.flow) (w64 o.flow) (w64 fseq.toNat) (w64 status) 0

/-- An operation every packet of which has been acknowledged: complete. Staged packets are so reported sent: their slots
return to the ring and their drain writes complete (R124, R235, R338). -/
def State.opAcked (s : State) (n : Nat) (o : LinkOp) : State :=
  match o.owner with
  | .core _ => s.setOp n (some { o with finished := true })
  | .eng _ => s.setOp n (some { o with finished := true })
  | .chunk c stages =>
    (s.setOp n none).modCore c fun k =>
      { k with
        staged := stages.foldl (fun m i => SMap.set none m i none) k.staged
        ctx := { k.ctx with drainWrites := k.ctx.drainWrites.filter fun w => !(stages.any fun i => w == .packet i) } }
  | .rru _ => s.setOp n none
  | .keeper => s.setOp n none

/-- FSEQs an acknowledgement covers: every one up to its own; a LOST one its own alone. -/
def ackCovers (fseq : W16) (status : Nat) (u : W16) : Bool :=
  if status = stLost then u == fseq else !(fseq - u).slt 0

/-- One operation takes an acknowledgement of its flow. -/
def State.ackOp (s : State) (n : Nat) (fseq : W16) (status : Nat) : State :=
  match s.op n with
  | none => s
  | some o =>
    if o.finished ∨ o.failedWith.isSome then s
    else if status ≠ stOk ∧ o.unacked.contains fseq = true then s.failOp n o fseq status
    else
      let left := o.unacked.filter fun u => !ackCovers fseq status u
      let o1 : LinkOp := { o with unacked := left }
      if left.isEmpty ∧ o.todo.isEmpty then s.opAcked n o1 else s.setOp n (some o1)

/-- An acknowledgement of a flow of this chip returns its credits. -/
def State.takeAck (s : State) (p : Packet) : State :=
  let f := p.flow.toNat
  let st := p.status.toNat
  let mine := s.lnk.ops.filterMap fun q => match q.2 with | some o => if o.flow = f then some (q.1, o) else none | none => none
  let s1 := s.modFlow f fun w =>
    { w with flight := w.flight.filter fun u => !ackCovers p.fseq st u,
             acked := if st = stLost then w.acked else p.fseq }
  let s2 := mine.foldl (fun t q => t.ackOp q.1 p.fseq st) s1
  s2.pumpLocal f ((s2.flowOps f).map fun q => q.2.todo.length).sum

def execAck (src : LandSrc) (s : State) : Result := .next (s.landing src pkAck fun p t => t.takeAck p)

/-- An operation is not complete within LNK_CTL.TIMEOUT of its first sending. -/
def State.timeoutOp (s : State) (n : Nat) : State :=
  match s.op n with
  | none => s
  | some o =>
    match o.t0 with
    | some t0 =>
      if o.finished = false ∧ o.failedWith = none ∧ t0.toNat + 1000 * s.lnk.timeout ≤ s.now then
        s.failOp n o (o.unacked.headD 0) Config.timeoutStatus
      else s
    | none => s

def execOperationTimeout (op : Nat) (s : State) : Result := .next (s.timeoutOp op)

end Sys2Proof.Machine
end

