-- ==== Sys2Proof/Machine/Links.lean ====
section
/-! DEFINITION. The hops of the links (R324, R328 to R334, R341 to R343): sending and receiving packets, control cells,
replay, forwarding, failing lanes and links. -/

namespace Sys2Proof.Machine

/-! Sending (R332, R334, R343). -/

/-- Payload bytes of a packet not yet formed. -/
def OutPacket.size (p : OutPacket) : Nat := p.bytes.length + (p.src.map (·.2)).sum

def cellsFor (bytes : Nat) : Nat := 1 + ceilDiv bytes 32

/-- Cells of the packet that source k has to send on a virtual channel of a link, none where it has none: a flow's oldest
packet that is routed there and may go, or what is queued. -/
def State.txCells (s : State) (l vc k : Nat) : Option Nat :=
  if k < 8192 then
    match s.flowOps k with
    | (_, o) :: _ =>
      (match o.todo with
      | p :: _ =>
        if vc = 0 ∧ o.dchip ≠ s.grp.chip.toNat ∧ s.flowMaySend k = true ∧ s.route o.dchip k = some l then
          some (cellsFor p.size) else none
      | [] => none)
    | [] => none
  else ((s.link l).queue.find? fun q => q.source == k && q.vc == vc).map fun q => pktCells q.pkt

/-- Every source that may have packets for a port. -/
def State.txSources (s : State) (l : Nat) : List Nat :=
  ((s.lnk.ops.filterMap fun p => p.2.map (·.flow)) ++ (s.link l).queue.map (·.source)).eraseDups

/-- A source that has a packet with credits for all its cells (R334). -/
def State.txReady (s : State) (l vc k : Nat) : Bool :=
  match s.txCells l vc k with
  | some n => decide (n ≤ SMap.get 0 (s.link l).credits vc)
  | none => false

/-- The virtual channel served next: the highest with a source that is ready (R343). -/
def State.txChannel (s : State) (l : Nat) : Option Nat :=
  [3, 2, 1, 0].find? fun vc => (s.txSources l).any (s.txReady l vc)

/-- Quantum of a source in cells: 129 times a flow's WEIGHT, or 129 times 16 (R343). -/
def State.quantum (s : State) (k : Nat) : Nat := if k < 8192 then 129 * max 1 (s.flow k).weight else 129 * 16

def defKey (vc k : Nat) : Nat := 32768 * vc + k

/-- A round of the deficit round-robin begins when no ready source has a deficit for its packet. -/
def State.txRound (s : State) (l vc : Nat) : State :=
  let ready := (s.txSources l).filter (s.txReady l vc)
  let can (k : Nat) : Bool := decide ((s.txCells l vc k).getD 0 ≤ SMap.get 0 (s.link l).deficits (defKey vc k))
  if ready.any can then s
  else
    s.modLink l fun q =>
      { q with deficits := ready.foldl (fun m k => SMap.set 0 m (defKey vc k) (SMap.get 0 m (defKey vc k) + s.quantum k))
                 q.deficits }

/-- A packet is sent: it takes the next LSEQ, a place in the replay buffer and its credits. A TIME packet is stamped. -/
def State.transmit (s : State) (l vc : Nat) (p : Packet) : State :=
  let stamped : Packet := if p.kind.toNat = pkTime then { p with payload := s.timePayload l } else p
  let q : Packet := { stamped with lseq := BitVec.ofNat 8 (s.link l).txSeq }
  let s1 := s.modLink l fun k =>
    { k with txSeq := (k.txSeq + 1) % 256, replay := k.replay ++ [q], sentAt := k.sentAt ++ [s.mer.now],
             credits := SMap.set 0 k.credits vc (SMap.get 0 k.credits vc - pktCells q) }
  (s1.bumpBy (cntLnk l 0) q.payload.length).bumpBy (cntLnk l 2) (pktCells q)

/-- Removes the first queued packet of a source and channel. -/
def unqueue (vc k : Nat) : List TxItem → List TxItem
  | [] => []
  | q :: t => if q.source = k ∧ q.vc = vc then t else q :: unqueue vc k t

/-- Takes the packet of a source. -/
def State.txTake (s : State) (l vc k : Nat) : State × Option Packet :=
  if k < 8192 then s.takePacket k
  else
    match (s.link l).queue.find? fun q => q.source == k && q.vc == vc with
    | some q => (s.modLink l fun x => { x with queue := unqueue vc k x.queue }, some q.pkt)
    | none => (s, none)

/-- The deficit a source has left; one with nothing more to send keeps none. -/
def State.txPay (s : State) (l vc k cells : Nat) : State :=
  let left := if (s.txCells l vc k).isSome then SMap.get 0 (s.link l).deficits (defKey vc k) - cells else 0
  s.modLink l fun q => { q with deficits := SMap.set 0 q.deficits (defKey vc k) left }

/-- The next packet of the replay buffer is sent again (R332). -/
def State.resend (s : State) (l : Nat) : State :=
  let k := s.link l
  match k.replay[k.replay.length - k.toResend]? with
  | some p =>
    ((s.modLink l fun q =>
      { q with toResend := q.toResend - 1, rply := cntAdd q.rply 1,
               sentAt := q.sentAt.set (q.replay.length - q.toResend) s.mer.now }).bumpBy (cntLnk l 2) (pktCells p))
  | none => s.modLink l fun q => { q with toResend := 0 }

/-- A link's retrain is over (R332): a lane that it has repaired is brought back (R328), and packets go on from the last one
acknowledged. -/
def State.endRetrain (s : State) (l : Nat) : State :=
  if (s.link l).st = .train then
    (s.modLink l fun q =>
      let a : Link := { q with st := if q.src0 ≠ 63 ∧ q.src1 ≠ 63 then .up2 else .up1 }
      let b := if a.failed0 && Config.retrainHeals s.fresh l false then a.setLane false 0 else a
      if b.failed1 && Config.retrainHeals s.fresh l true then b.setLane true 1 else b).tick
  else s

/-- The oldest packet of a flow is for another chip and has no route. -/
def State.routeless (s : State) (f : Nat) : Bool :=
  match s.flowOps f with
  | (_, o) :: _ => o.dchip != s.me && (s.route o.dchip f).isNone
  | [] => false

/-- Source k's packet starts on the link: after any resends, with a place in the replay buffer, from the channel to be
served and within its deficit. A link in HOLD discards what is routed to it (R342); a packet without a route goes nowhere
(R341). -/
def State.sendFrom (s0 : State) (l k : Nat) : State :=
  let s := s0.endRetrain l
  let q := s.link l
  if k < 8192 ∧ s.routeless k = true then s.pumpLocal k 1
  else if q.st = .hold then
    (if (s.txCells l 0 k).isSome ∧ k < 8192 then
      match s.takePacket k with
      | (s1, some p) => s1.lose p
      | (s1, none) => s1
     else s)
  else if !q.up then s
  else if 0 < q.toResend then s.resend l
  else if 64 ≤ q.replay.length then s
  else
    match s.txChannel l with
    | none => s
    | some vc =>
      if s.txReady l vc k then
        let s1 := s.txRound l vc
        let n := (s1.txCells l vc k).getD 0
        if n ≤ SMap.get 0 (s1.link l).deficits (defKey vc k) then
          match s1.txTake l vc k with
          | (s2, some p) => (s2.transmit l vc p).txPay l vc k n
          | (s2, none) => s2
        else s
      else s

def execPacketSend (l : LinkId) (k : Nat) (s : State) : Result := .next (s.sendFrom l k)

/-! Receiving (R332, R333). -/

/-- A packet of reserved kind for this chip is discarded at landing and counted as a route fault (R331). -/
def State.reservedKind (s : State) (p : Packet) : Bool := decide (5 < p.kind.toNat) && p.dchip == s.grp.chip

/-- Cells have come in: a retrain is over, and LNK_FECC counts the codewords that were corrected (R345). -/
def State.hearCells (s : State) (l : Nat) : State :=
  let s1 := s.endRetrain l
  if (s1.link l).up then
    (s1.modLink l fun k => { k with fecc := cntAdd k.fecc (Config.correctedWords s1.fresh l) }).tick
  else s1

/-- A packet has arrived whole: taken when its CRC checks and its LSEQ is the one expected, else discarded with one NAK
for the gap. -/
def State.receive (s : State) (l : Nat) (p : Packet) (crc : W32) : State :=
  let k := s.link l
  if !k.up then s
  else if crc == packetCrc p && p.lseq.toNat == k.rxSeq then
    let vc := p.hops.toNat
    let s1 := ((s.modLink l fun q =>
      { q with rxSeq := (q.rxSeq + 1) % 256, nakSent := false,
               rx := SMap.set [] q.rx vc (SMap.get [] q.rx vc ++ [p]) }).bumpBy (cntLnk l 1) p.payload.length)
    if s.reservedKind p then
      let s2 := s1.modLink l fun q => { q with rx := SMap.set [] q.rx vc (SMap.get [] q.rx vc).dropLast }
      ((s2.sendCtl l false vc (pktCells p)).lnkEvt 5).lose p
    else s1.sendCtl l false 0 0
  else if k.nakSent then s
  else (s.sendCtl l true 0 0).modLink l fun q => { q with nakSent := true }

def execPacketReceive (l : LinkId) (p : Packet) (crc : W32) (s : State) : Result := .next ((s.hearCells l).receive l p crc)

/-! Forwarding (R333, R341, R342). -/

/-- A whole packet that is not for this chip goes to the transmit port of its next link. -/
def State.forward (s : State) (l vc : Nat) : State :=
  match s.rxFront l vc with
  | none => s
  | some p =>
    if p.dchip = s.grp.chip ∨ p.kind.toNat = pkTime then s
    else
      let s1 := s.popRx l vc
      if 3 ≤ p.hops.toNat then s1.noRoute p
      else
        match s.route p.dchip.toNat p.flow.toNat with
        | none => s1.noRoute p
        | some n =>
          match (s.link n).st with
          | .hold => s1.lose p
          | .down => s1.noRoute p
          | _ => s1.enqueue n (8192 + l) { p with hops := p.hops + 1 }

def execPacketForward (l : LinkId) (vc : BitVec 2) (s : State) : Result := .next (s.forward l vc.toNat)

/-! Control cells and replay (R329, R332). -/

/-- Packets of the replay buffer from the one after an LSEQ on; all of them where the LSEQ is none of theirs. -/
def ackedTo (q : List Packet) (lseq : Nat) : List Packet :=
  match q.findIdx? fun p => p.lseq.toNat == lseq with
  | some i => q.drop (i + 1)
  | none => q

/-- What an LSEQ acknowledges leaves the replay buffer. -/
def Link.ackTo (k : Link) (lseq : Nat) : Link :=
  let r := ackedTo k.replay lseq
  { k with replay := r, sentAt := k.sentAt.drop (k.replay.length - r.length) }

/-- After eight resends of one LSEQ the link retrains, keeping its replay buffer; else it resends from its oldest packet. -/
def State.replayFrom (s : State) (l : Nat) : State :=
  let k := s.link l
  if 8 ≤ k.resends then
    (s.modLink l fun q => { q with st := .train, resends := 0, toResend := q.replay.length }).lnkEvt 2
  else s.modLink l fun q => { q with resends := q.resends + 1, toResend := q.replay.length }

/-- A LINK cell: what LACK acknowledges leaves the replay buffer, credits come back, a NAK asks for a replay. -/
def State.control (s : State) (l : Nat) (w : W64) : State :=
  let give (m : SMap Nat) (vc : Nat) : SMap Nat := SMap.set 0 m vc (SMap.get 0 m vc + fld w (10 * vc + 9) (10 * vc))
  let s1 := s.modLink l fun k =>
    let r := k.ackTo (fld w 55 48)
    { r with toResend := min k.toResend r.replay.length,
             resends := if r.replay.length < k.replay.length then 0 else k.resends,
             credits := [0, 1, 2, 3].foldl give k.credits }
  if bit w 59 then
    let s2 := s1.modLink l fun k => k.ackTo ((fld w 47 40 + 255) % 256)
    if (s2.link l).replay.isEmpty then s2 else s2.replayFrom l
  else s1

/-- A control cell whose CRC does not check is ignored, and one that is no LINK cell. -/
def State.takeCell (s : State) (l : Nat) (w0 w1 : W64) : State :=
  if (s.link l).up && fld w1 31 0 == (cellCrc w0).toNat && fld w0 63 60 == 1 then s.control l w0 else s

def execControlCell (l : LinkId) (w0 w1 : W64) (s : State) : Result := .next ((s.hearCells l).takeCell l w0 w1)

/-- The oldest packet of the replay buffer has been sent, or sent again, and no LACK has come for a microsecond. -/
def State.replayDue (s : State) (l : Nat) : Bool :=
  let k := s.link l
  decide (k.toResend < k.replay.length) && match k.sentAt.head? with
    | some t => decide (t.toNat + 1000 ≤ s.now)
    | none => false

def execReplayTimeout (l : LinkId) (s : State) : Result :=
  .next (if (s.link l).up && s.replayDue l then s.replayFrom l else s)

/-- A codeword that the FEC cannot correct (R324). -/
def execUncorrectableCodeword (l : LinkId) (s : State) : Result :=
  .next (if (s.link l).up then s.modLink l fun k => { k with fecu := cntAdd k.fecu 1 } else s)

/-! Failing lanes and links (R328, R342). -/

/-- A failing lane: its cabled spare takes its place, else the other lane goes on alone, else the link is lost. -/
def State.failLane (s0 : State) (l : Nat) (lane1 : Bool) : State :=
  let s := s0.endRetrain l
  let k := s.link l
  if !k.up then s
  else if k.spareFree then (s.modLink l fun q => (q.setLane lane1 (q.spcab + 2)).resent).lnkEvt 1
  else if (if lane1 then k.src0 else k.src1) ≠ 63 then (s.modLink l fun q => (q.setLane lane1 63).resent).lnkEvt 0
  else s.holdLink l

def execLaneFail (l : LinkId) (lane1 : Bool) (s : State) : Result := .next (s.failLane l lane1)

def execLinkLost (l : LinkId) (s : State) : Result :=
  .next (if (s.link l).up ∨ (s.link l).st = .train then s.holdLink l else s)

/-- LNK_CTL.HOLD microseconds later Darkel installs tables that avoid the link, which is DOWN. -/
def execLinkHoldExpire (l : LinkId) (s : State) : Result :=
  .next (if (s.link l).st = .hold ∧ (s.link l).heldAt.toNat + 1000 * s.lnk.hold ≤ s.now then (s.modLink l fun k => { k with st := .down }).installRoutes else s)

end Sys2Proof.Machine
end

