-- ==== Sys2Proof/Machine/Memory.lean ====
section
/-! DEFINITION. What the memory does on its own: scrubbing (R191, R192) and the write-combining entries that are written
because nothing wrote them for a while (R188). -/

namespace Sys2Proof.Machine

def portNo : MemPort → Nat
  | .stack t => t.val
  | .cbuf c => 20 + c.val

/-- Lines of a sweep: a stack, or a core buffer and the sixteen local stores of its engines (R191). -/
def sweepLines : MemPort → Nat
  | .stack _ => 2 ^ 23
  | .cbuf _ => 393216 + 16 * 8192

/-- Line n of a sweep, in address order, by its canonical address. -/
def sweepLine : MemPort → Nat → Nat
  | .stack t, n => stackAddr t.val (128 * n)
  | .cbuf c, n =>
    if n < 393216 then cbufBase c.val + 128 * n
    else lsBase (16 * c.val + (n - 393216) / 8192) + (n - 393216) % 8192 * 128

/-- The row that holds a stack line (R180). -/
def rowAt (line : Nat) : Option RowRepair :=
  match locate line with
  | .stack t o => some ⟨t, o / 128 % 8, o / 1024 % 16, o / 2 ^ 20⟩
  | _ => none

def RowRepair.key (r : RowRepair) : Nat := ((r.stack * 8 + r.tier) * 16 + r.bank) * 1024 + r.row

/-- Darkel schedules a row's repair once (R192): logged, and issued by itself where it repairs on its own (R451). -/
def State.scheduleRow (s : State) (r : RowRepair) : State :=
  if s.mem.repairDue.contains r then s
  else
    let s1 := (s.modMem fun m => { m with repairDue := m.repairDue ++ [r] }).logEvt 0 255 0x21 0 0 r.target (w64 csOk) 0 0
    if bit s.fw.auth 16 then s1.internalCmd (w64 (at' 0xA 48)) [r.target] else s1

def State.scheduleRowOf (s : State) (line : Nat) : State :=
  match rowAt line with
  | some r => s.scheduleRow r
  | none => s

/-- A row gave a corrected error on a sweep: the second in a row schedules its repair. -/
def State.noteScrubCe (s : State) (sweep line : Nat) : State :=
  match rowAt line with
  | none => s
  | some r =>
    let last := SMap.get 0 s.mem.scrubCe r.key
    let s1 := s.modMem fun m => { m with scrubCe := SMap.set 0 m.scrubCe r.key (sweep + 1) }
    if last = sweep ∧ sweep ≠ 0 then s1.scheduleRow r else s1

/-- The scrubber has read a line: a corrected one is written back, an uncorrectable one is left as it is. -/
def State.scrub (s : State) (sweep line : Nat) : State :=
  let (s1, ok) := s.checkLine rdScrub 255 line
  match s.lineSt line with
  | .good => s1
  | .correctable _ => ((s1.setLine line .good).countPort line 1 1).noteScrubCe sweep line
  | .uncorrectable => s1.scheduleRowOf line
  | .lost => s1.scheduleRowOf line
  | .poisoned => s1
  | .beyond =>
    if !ok then s1.scheduleRowOf line
    else if Config.beyondCorrects s.fresh line then
      ((((s1.poke line ((List.range 128).map fun i => Config.freeByte s.fresh (line + i))).setLine line
        .good).countPort line 1 1).noteScrubCe sweep line).tick
    else s1.tick

/-- R191. With EN clear nothing is scrubbed. -/
def execScrubLine (p : MemPort) (s : State) : Result :=
  .next (
    if s.mem.scrubEn then
      let n := SMap.get 0 s.mem.scrubAt (portNo p)
      (s.modMem fun m => { m with scrubAt := SMap.set 0 m.scrubAt (portNo p) (n + 1) }).scrub (n / sweepLines p)
        (sweepLine p (n % sweepLines p))
    else s)

/-- An entry of the port is written to the array (R188). That 256 cycles have passed is the command's to say. -/
def execWcbTimeoutFlush (p : MemPort) (line : Nat) (s : State) : Result :=
  .next (match wcbFind (s.wcbAt (portNo p)) line with
    | some w => s.flushEntry (portNo p) w
    | none => s)

end Sys2Proof.Machine
end

