-- ==== Sys2Proof/Machine/LogRec.lean ====
section
/-! DEFINITION. Darkel's log (R480 to R484). -/

namespace Sys2Proof.Machine

/-- Records the ring holds (R480). -/
def logSize : Nat := 16384

/-- The ring with one more record: the oldest makes room. -/
def logPush (l : List (Nat × LogRec)) (seq : Nat) (r : LogRec) : List (Nat × LogRec) :=
  (l.drop (l.length + 1 - logSize)) ++ [(seq, r)]

/-- Classes whose records are copied to the manager (R484). -/
def copiedClass (cls : Nat) : Bool := decide (3 ≤ cls)

/-- Darkel writes a record: its number, the time, the class's pending bit, the copy. -/
def State.writeRecord (s : State) (r0 : LogRec) : State :=
  let r : LogRec := { r0 with now := s.mer.now }
  let seq := s.cnt.nextSeq
  let s1 := s.modCnt fun c =>
    { c with log := logPush c.log seq r, nextSeq := seq + 1, irq := setBit c.irq (r.cls % 6) }
  if copiedClass r.cls && !(s.grp.formed && s.grp.role == 2) then
    s1.modGrp fun g => { g with copyDue := g.copyDue ++ [r.bytes seq s.grp.chip.toNat] }
  else s1

/-- A line found uncorrectable, and not by a partial write's poisoning, has its row repaired (R192). -/
def State.repairRead (s : State) (r : LogRec) : State :=
  let st := s.lineSt r.a0.toNat
  if r.code = 0x20 ∧ (st = .uncorrectable ∨ st = .lost) then s.scheduleRowOf r.a0.toNat else s

/-- The next event that Darkel takes: the oldest, and of one cycle the lowest CODE (R484). -/
def execLogRecord (s : State) : Result :=
  .next (match s.cnt.due with
    | [] => s
    | r :: t => ((s.modCnt fun c => { c with due := t }).writeRecord r).repairRead r)

end Sys2Proof.Machine
end

