-- ==== Sys2Proof/Machine/Mgmt.lean ====
section
/-! DEFINITION. Management messages taken from the keeper's queue (R376, R377, R379, R380, R387 to R390, R402, R484), members
that fail (R378, R384, R385) and takeovers (R379, ROLE.SET of R421). -/

namespace Sys2Proof.Machine

/-! Announcements (R376). -/

/-- A command record sent to a chip (R387). -/
def State.sendCmd (s : State) (chip : Nat) (words : List W64) : State :=
  s.sendMgmt chip 5 (s.mgmtHeader (chipGroup chip != s.myGroup) ++
    (List.range 8).flatMap fun k => w64Bytes (words[k]?.getD 0))

/-- Image of PWR_RAMPn for a share entry (R402, R415). -/
def rampImage (x : Nat × Nat × Nat) : W64 :=
  w64 (at' (x.1 % 2 ^ 44) 20 + at' (min (x.2.1 / 4) 511) 11 + at' (min x.2.2 255) 3 + 1)

/-- RAMP.PLAN commands for the entries of a share, four plan entries each. -/
def rampCmds (l : List (Nat × (Nat × Nat × Nat))) : List (List W64) :=
  (List.range 4).filterMap fun q =>
    let xs := l.filter fun e => e.1 / 4 == q
    if xs.isEmpty then none
    else some (w64 (at' 7 48) :: w64 (xs.foldl (fun a e => a + 2 ^ e.1) 0) :: xs.map fun e => rampImage e.2)

/-- Entries of the share that are still to come, with their places. -/
def State.rampsToCome (s : State) : List (Nat × (Nat × Nat × Nat)) :=
  (s.grp.ramps.zipIdx.filter fun q => decide (s.epochNo < q.1.1)).map fun q => (q.2, q.1)

/-- JOB.LOAD of a slot's image, which the manager holds a copy of (R385, log 85). -/
def State.loadWords (s : State) (j : Nat) : List W64 := [w64 (at' 1 48), w64 (s.job j).copyAt, w64 (s.job j).length, w64 j]

/-- The chip takes a place in the halo pool of a cover set (R385). -/
def State.enterPool (s : State) (chip j set : Nat) : State :=
  let mine (c : Cover) : Bool := c.slot == j && c.set == set
  (s.modGrp fun g =>
    { g with covers := (g.covers.filter fun c => !(mine c && c.pool == chip)) ++
               [⟨j, set, chip, ((g.covers.filter mine).flatMap (·.prims)).eraseDups⟩] }).modMember chip fun m =>
    { m with joining := (j :: m.joining).eraseDups }

/-- A chip in place of one that failed is given the jobs it had a part in, and the pool places of their cover sets (R385). -/
def State.refill (s : State) (chip : Nat) : State :=
  let lost := s.grp.lostSets.filter fun x => x.2.1 == chip
  let s1 := ((lost.map (·.1)).eraseDups).foldl (fun t j => t.sendCmd chip (t.loadWords j)) s
  (lost.foldl (fun t x => t.enterPool chip x.1 x.2.2) s1).modGrp fun g =>
    { g with lostSets := g.lostSets.filter fun x => x.2.1 != chip }

/-- A chip joins a group that has formed: its manager serves it, answers with its own announcement, sends the plan entries
still to come and gives it the jobs of a chip it replaces (R376, R385, R402). -/
def State.welcome (s : State) (chip strap : Nat) : State :=
  let s1 := (s.serve chip strap).modGrp fun g => { g with failedMask := clrBit g.failedMask (chipPos chip) }
  ((rampCmds s1.rampsToCome).foldl (fun t w => t.sendCmd chip w) (s1.announce [chip] false)).refill chip

/-- An announcement, before or after the group has formed. Once it has, one of a lower TERM is ignored, but for one that claims
TERM 0: its sender is forming (R387, log 84). -/
def State.onAnnounce (s : State) (m : MgmtMsg) : State :=
  let chip := m.schip
  let strap := bodyField m.body 16 1
  let role := bodyField m.body 17 1
  let term := bodyField m.body 20 4
  let s1 := s.hear chip strap
  if s.grp.formed = true ∧ s.stale m = true ∧ term ≠ 0 then s
  else if s.away m then
    if s.grp.formed = true ∧ 1 ≤ s.grp.role then
      if s.grp.sformed = false then (if role = 2 then s1.joinSystem chip term else s1.formSystem)
      else if s.grp.role = 2 ∧ role = 1 then (s1.serve chip strap).announce [chip] true
      else s1
    else s1
  else if s.grp.formed = false then (if 1 ≤ role then s1.joinGroup chip term else s1.formGroup)
  else if 1 ≤ role ∧ s.grp.term < term then
    (s1.modGrp fun g => { g with role := 0, gmgr := chip, term := term, deputy := false }).followUpstream chip 1
  else if 1 ≤ s.grp.role ∧ role = 0 then s1.welcome chip strap
  else s1

def execAnnounce (s : State) : Result := .next (s.takeMsg 1 fun m t => t.onAnnounce m)

/-! Heartbeats and status (R377, R388). -/

/-- What a heartbeat says of its sender. -/
def Member.report (m : Member) (epoch : Nat) (b : List Byte) : Member :=
  let f := bodyField b
  let slot (j : Nat) := 32 + 24 * j
  { m with
    heard := true
    lastEpoch := epoch
    state := f 16 1
    holdLimit := (f 17 1).testBit 0
    refLost := (f 17 1).testBit 1
    oos := f 18 1 % 16
    slots := (List.range 4).map fun j => (j, (f (slot j) 1, BitVec.ofNat 32 (f (slot j + 4) 4)))
    thr := (List.range 4).map fun j => (j, (BitVec.ofNat 32 (f (slot j + 8) 4), w64 (f (slot j + 16) 8)))
    unreach := (List.range (min 64 (f 128 2))).map fun k => f (136 + 2 * k) 2 }

/-- A heartbeat: in HOLDOVER below the limit every primary role has SPRI 255 (R378); a new pool member that reports its job
loaded may be named in plans formed two commits later (R385). -/
def Member.beat (m : Member) (epoch : Nat) (next : Nat → W32) (b : List Byte) : Member :=
  let x := m.report epoch b
  let loaded := x.joining.filter fun j =>
    match x.slots.find? fun p => p.1 == j with | some p => p.2.1 == 2 || p.2.1 == 3 | none => false
  { x with
    spri := if x.holds then (List.range 4).map fun j => (j, 255) else x.spri
    joining := x.joining.filter fun j => !loaded.contains j
    poolFrom := loaded.foldl (fun a j => SMap.set none a j (some (next j))) x.poolFrom }

/-- A STATUS body in answer to a heartbeat. -/
def State.statusBody (s : State) (sys : Bool) (epoch : Nat) : List Byte :=
  s.mgmtHeader sys ++ toLe 2 s.grp.gmgr ++ toLe 2 s.grp.deputyChip ++ toLe 2 s.grp.smgr ++ toLe 2 s.grp.sdeputyChip ++
    toLe 1 s.grp.failep ++ toLe 7 0 ++ toLe 8 epoch ++ w64Bytes s.grp.failedMask

/-- A manager takes a heartbeat and answers it. The epoch answered is that of its word 1. -/
def State.onHeartbeat (s : State) (m : MgmtMsg) : State :=
  let sys := s.away m
  if (if sys then s.grp.role = 2 else 1 ≤ s.grp.role) then
    (s.modMember m.schip fun x => x.beat s.epochNo (fun j => s.committed j + 2) m.body).sendMgmt m.schip 3
      (s.statusBody sys (bodyField m.body 8 8 / 2 ^ 20))
  else s

def execHeartbeat (s : State) : Result := .next (s.takeCurrent 2 fun m t => t.onHeartbeat m)

/-- A manager's status. FAILED stays once set (R391). -/
def State.onStatus (s : State) (m : MgmtMsg) : State :=
  let f := bodyField m.body
  let smgr := f 20 2
  let sdep := f 22 2
  if s.away m then
    if s.grp.role = 1 then
      s.modGrp fun g =>
        { g with sterm := m.term, smgr := smgr, sdeputyChip := sdep, sdeputy := sdep == s.me && smgr != s.me,
                 mgrEpoch := s.epochNo }
    else s
  else if s.grp.role = 0 then
    s.modGrp fun g =>
      { g with gmgr := f 16 2, deputyChip := f 18 2, deputy := f 18 2 == s.me, smgr := smgr, sdeputyChip := sdep,
               failep := f 24 1, failedMask := w64 (f 40 8), failed := g.failed || (w64 (f 40 8)).getLsbD (chipPos s.me),
               term := m.term, mgrEpoch := s.epochNo }
  else s

def execStatus (s : State) : Result := .next (s.takeCurrent 3 fun m t => t.onStatus m)

/-! Takeovers (R379). -/

/-- A chip sees the new manager's higher term: it follows it in time by slew; a former manager, of the group or of the system,
becomes a worker. -/
def State.onTakeover (s : State) (m : MgmtMsg) : State :=
  let f := bodyField m.body
  let term := f 16 4
  let new := f 20 2
  let dep := f 22 2
  if s.away m then
    if 1 ≤ s.grp.role ∧ s.grp.sterm < term then
      let s1 := s.modGrp fun g =>
        { g with sterm := term, smgr := new, sdeputyChip := dep, sdeputy := dep == s.me, sformed := true,
                 role := if g.role = 2 then 0 else g.role, mgrEpoch := s.epochNo }
      s1.followUpstream new (s1.hopsTo new)
    else s
  else if s.grp.formed = false then s.joinGroup new term
  else if s.grp.term < term then
    (s.modGrp fun g =>
      { g with term := term, gmgr := new, deputyChip := dep, deputy := dep == s.me, role := 0,
               mgrEpoch := s.epochNo }).followUpstream new 1
  else s

def execTakeover (s : State) : Result := .next (s.takeCurrent 4 fun m t => t.onTakeover m)

/-- The manager of the group, or of the system, has been silent for FAILEP epochs. -/
def State.managerSilent (s : State) : Bool := decide (s.grp.failep ≤ s.epochNo - s.grp.mgrEpoch)

/-- A deputy takes over from a silent manager. -/
def execDeputyTakeover (s : State) : Result :=
  .next (if s.managerSilent then
      if s.grp.deputy ∧ s.grp.role = 0 then s.takeGroup else if s.grp.sdeputy ∧ s.grp.role = 1 then s.takeSystem else s
    else s)

/-- ROLE.SET: a role is taken by takeover; one that the chip holds stays. -/
def State.setRole (s : State) (c : CmdEntry) : CmdOut :=
  let r := fld (c.arg 0) 1 0
  if r = 0 ∨ r = 3 then .err csBadArg s
  else if s.grp.formed = false then .err csState s
  else
    let s1 := if s.grp.role = 0 then s.takeGroup else s
    .fin (if r = 2 ∧ s1.grp.role = 1 then s1.takeSystem else s1) csOk 0

def execRoleSet (i : BitVec 8) (s : State) : Result := .next (s.runCmd i.toNat 0xC fun e t => t.setRole e)

/-! Commands and their answers (R387). -/

/-- A command of a manager takes a free entry. While none is free the message waits. -/
def execMgmtCmd (s : State) : Result :=
  .next (match s.grp.inbox with
    | [] => s
    | m :: t =>
      if m.mtype = 5 then
        let s1 := s.modGrp fun g => { g with inbox := t }
        let s2 := s1.yieldTo m
        if s.stale m ∨ (m.schip ≠ s2.grp.gmgr ∧ m.schip ≠ s2.grp.smgr) then s1
        else (s2.placeFor m.schip m.mseq ((List.range 6).map fun k => w64OfBytes (m.body.drop (16 + 8 * k)))).getD s
      else s)

/-- The completion of a command: the MSEQ it had and words 0, 6 and 7 of its record. -/
def execCmdresp (s : State) : Result :=
  .next (s.takeCurrent 6 fun m t => t.modGrp fun g =>
    { g with answers := g.answers ++ [(m.schip, BitVec.ofNat 32 (bodyField m.body 16 4), (m.body.drop 24).take 24)] })

/-! Plans (R380, R389). -/

def readHalo (b : List Byte) (k : Nat) : HaloEntry :=
  let f (off n : Nat) := bodyField b (24 + 16 * k + off) n
  ⟨f 0 2, f 2 2, f 4 2, w64 (f 8 8)⟩

def readRole (b : List Byte) (k : Nat) : RoleEntry :=
  let f (off n : Nat) := bodyField b (24 + 16 * k + off) n
  ⟨f 0 1, f 2 2, f 4 2, f 6 2, f 8 2⟩

/-- Entries of a plan that its message holds whole. -/
def planCount (b : List Byte) : Nat := min (bodyField b 20 4) ((b.length - 24) / 16)

def execHaloplan (s : State) : Result :=
  .next (s.takeCurrent 7 fun m t =>
    t.holdPlan (BitVec.ofNat 32 (bodyField m.body 16 4)) ((List.range (planCount m.body)).map (readHalo m.body)))

/-- The lap lists after a role plan: the failed members leave the list of their group, a new leader takes the place of the
former in the list of leaders (R380, R384). -/
def State.lapRoles (s : State) (j : Nat) (l : List RoleEntry) : State :=
  let mem := s.lapList j 0 (s.nmem j)
  let lead := s.lapList j (s.nmem j) (s.ngrp j)
  let gone := l.map (·.former)
  let stay := if l.any (fun x => x.kind == 4 && x.group == s.myGroup && !mem.contains x.new) then mem
    else mem.filter fun c => !gone.contains c
  let swap (c : Nat) : Nat := match l.find? fun x => x.kind == 4 && x.former == c with | some x => x.new | none => c
  let own := (l.find? fun x => x.kind == 4 && x.group == s.myGroup && stay.contains x.new && lead.contains x.former).map (·.new)
  let cfg := (s.redSlot j).lapcfg
  let cfg1 := putFld cfg 57 51 stay.length
  let a := fld (s.redSlot j).laplist 47 0
  let s1 := (s.writeDone a ((stay ++ lead.map swap).flatMap (toLe 2))).modRed j fun r =>
    { r with
      lapcfg := match own with | some c => putFld cfg1 63 58 (chipPos c) | none => cfg1
      laps := r.laps.map fun x =>
        { x with members := x.members.filter fun c => !gone.contains c, groups := (x.groups.map swap).eraseDups } }
  if stay = mem ∧ lead.map swap = lead then s else s1

/-- A word already sent for a step that is not committed is sent again to a leader that has changed: a member's word to its
own leader, a group's word to another group's (R380). -/
def State.lapResend (s : State) (j : Nat) (l : List RoleEntry) : State :=
  let t := s.committed j + 1
  let leads := l.filter fun x => x.kind == 4
  let s1 := if (leads.any fun x => x.group == s.myGroup && x.new == s.lapLeader j) ∧ (s.redSlot j).lapSent = some t then
      s.sendLap j t 1 (s.redSlot j).sentWord.toNat (s.lapLeader j)
    else s
  (s1.redSlot j).laps.foldl (fun u a =>
    if a.groupSent && decide (a.step = t ∨ a.step = t + 1) then
      leads.foldl (fun v x => if x.group = s.myGroup then v else v.sendLap j a.step 2 a.word.toNat x.new) u
    else u) s1

/-- A leader that holds the words of all members that are left goes on. -/
def State.lapSettle (s : State) (j : Nat) : State :=
  (s.redSlot j).laps.foldl (fun t a =>
    if a.members.length = t.nmem j ∧ a.groupSent = false ∧ a.members ≠ [] then
      (t.lapList j (t.nmem j) (t.ngrp j)).foldl (fun u d => u.sendLap j a.step 2 a.word.toNat d)
        (t.setLapAcc j { a with groupSent := true })
    else t) s

/-- A promoted chip is a primary of its cover sets, an owner's halo the owner, a backup the group owner, from now on: plans
formed from here on are for later steps. An owner without a halo is its own (R384). -/
def Group.takeRoles (g : Group) (l : List RoleEntry) : Group :=
  l.foldl (fun g x =>
    match x.kind with
    | 0 => { g with covers := g.covers.map fun c => Cover.promote c (x.former, x.ridx) x.new }
    | 1 => { g with ownHalo := g.ownHalo.map fun q => if q.2.1 = x.former then (q.1, x.new, x.new) else q }
    | 2 =>
      { g with ownHalo := g.ownHalo.map fun q =>
          if q.2.2 = x.former then (q.1, q.2.1, if x.new = x.former then q.2.1 else x.new) else q }
    | 3 => { g with backupGo := g.backupGo.map fun q => if q.2.1 = x.former then (q.1, x.new, x.new) else q }
    | _ => g) g

/-- A role plan is held, and applied from its step on: the tables in their windows, the lap at once for every step whose word
has not been committed. -/
def State.holdRoles (s : State) (step : W32) (l : List RoleEntry) : State :=
  let s1 := (s.modGrp fun g =>
    { (g.takeRoles l) with rolePlans := g.rolePlans ++ [(step, l)] }).openWindows step
  (List.range 4).foldl (fun t j =>
    if t.redEn j then ((t.lapRoles j l).lapResend j l).lapSettle j else t) s1

def execRoleplan (s : State) : Result :=
  .next (s.takeCurrent 8 fun m t =>
    t.holdRoles (BitVec.ofNat 32 (bodyField m.body 16 4)) ((List.range (planCount m.body)).map (readRole m.body)))

/-! Log copies (R484). -/

/-- A manager keeps a member's record; a group manager passes it on with its next heartbeat. -/
def execLogcopy (s : State) : Result :=
  .next (s.takeCurrent 9 fun m t =>
    if 1 ≤ t.grp.role then
      let r := (m.body.drop 16).take 64
      t.modGrp fun g =>
        { g with logCopies := g.logCopies ++ [r], copyDue := if g.role = 1 ∧ t.away m = false then g.copyDue ++ [r] else g.copyDue }
    else t)

/-! Boot images (R390). -/

/-- Bytes of the image in one message of 65,536 bytes. -/
def imgChunk : Nat := 65504

/-- A manager with a verified image answers a request in offset order; without one it does not answer. -/
def execImgreq (s : State) : Result :=
  .next (s.takeCurrent 0xA fun m t =>
    let off := bodyField m.body 16 8
    let len := t.imageByte 0x10 8
    let want := min (bodyField m.body 24 4) (len - off)
    if 1 ≤ t.grp.role ∧ t.sec.imgGood = true then
      (List.range (ceilDiv want imgChunk)).foldl (fun u k =>
        let o := off + imgChunk * k
        u.sendMgmt m.schip 0xB (u.mgmtHeader (t.away m) ++ toLe 8 o ++ toLe 8 len ++
          u.bytes (imageBase + o) (min imgChunk (off + want - o)))) t
    else t)

/-- Image bytes are written at their offset; once what was asked for is held, the next bytes are asked for. -/
def execImgdata (s : State) : Result :=
  .next (s.takeCurrent 0xB fun m t =>
    if t.wantsImage then
      let t1 := t.takeImage (bodyField m.body 16 8) (m.body.drop 32) (some (bodyField m.body 24 8))
      if t1.sec.boot = .waitimg ∧ t1.grp.imgAsked ≠ 0 ∧ t1.grp.imgAsked ≤ contiguous t1.sec.imgHave then t1.askImage else t1
    else t)

/-- No request has been made, or 100 ms have passed since the last, and what it asked for is not all held (R390). -/
def State.askAgain (s : State) : Bool :=
  s.grp.imgAsked == 0 ||
    decide (s.grp.imgAskedAt + 100000000 ≤ s.now ∧ contiguous s.sec.imgHave < s.grp.imgAsked)

/-- A request that has had no answer is repeated. A chip whose port is not cabled, or had no answer, asks its manager. -/
def execImgreqRetry (s : State) : Result :=
  .next (if s.sec.boot = .waitimg ∧ (s.portCabled = false ∨ 1 ≤ s.board.bootreqs) ∧ s.askAgain = true then s.askImage else s)

/-! Ramp shares (R402). -/

def readRamp (b : List Byte) (k : Nat) : Nat × Nat × Nat :=
  let f (off n : Nat) := bodyField b (24 + 16 * k + off) n
  (f 0 8, f 8 2, f 10 2)

/-- A group manager turns its share into RAMP.PLAN commands for its members and for itself: entry k of the share is plan
entry k of each chip. -/
def State.shareRamp (s : State) (l : List (Nat × Nat × Nat)) : State :=
  let cmds := rampCmds (l.zipIdx.map fun q => (q.2, q.1))
  let s1 := s.modGrp fun g => { g with ramps := l }
  let s2 := s1.groupMembers.foldl (fun t c => cmds.foldl (fun u w => u.sendCmd c w) t) s1
  cmds.foldl (fun u w => u.internalCmd (w.headD 0) w.tail) s2

def execRampshare (s : State) : Result :=
  .next (s.takeCurrent 0xC fun m t =>
    if 1 ≤ t.grp.role ∧ m.schip = t.grp.smgr then
      t.shareRamp ((List.range (min (min 16 (bodyField m.body 16 4)) ((m.body.length - 24) / 16))).map (readRamp m.body))
    else t)

/-! Members that fail (R378, R384, R385). -/

/-- A slot that a chip serves, by the state of its last heartbeat. -/
def Member.serves (m : Member) (j : Nat) : Bool :=
  match m.slots.find? fun p => p.1 == j with | some p => decide (2 ≤ p.2.1) | none => false

/-- A member's record of class FATAL has come: its chip has stopped. -/
def State.fatalCopy (s : State) (chip : Nat) : Bool :=
  s.grp.logCopies.any fun r => bodyField r 23 1 == 5 && bodyField r 30 2 == chip

/-- Another member of a job it serves cannot reach it. -/
def State.cutOff (s : State) (chip : Nat) : Bool :=
  let serve (j q : Nat) : Bool := if q = s.me then (s.job j).st != .empty else (s.member q).serves j
  let sees (q : Nat) : List Nat := if q = s.me then s.lnk.unreach else (s.member q).unreach
  (s.me :: s.groupMembers).any fun q =>
    q != chip && (sees q).contains chip && (List.range 4).any fun j => serve j q && (s.member chip).serves j

/-- Meridian states that count as a failure: FAULT, and HOLDOVER past its limit. The system manager is exempt, whose states
arise from its external reference alone (R30). -/
def State.timeFailed (s : State) (chip : Nat) : Bool :=
  let m := s.member chip
  chip != s.grp.smgr && (m.state == 4 || (m.state == 3 && m.holdLimit))

/-- A cause of failure of the whole chip. -/
def State.failCause (s : State) (chip : Nat) : Bool :=
  decide (s.grp.failep ≤ s.epochNo - (s.member chip).lastEpoch) || s.fatalCopy chip || s.timeFailed chip || s.cutOff chip

/-- Cores that the job of a slot uses, by this chip's own schedule entries: the manual gives the manager no list of a member's
cores (log 84). -/
def State.jobCores (s : State) (j : Nat) : List Nat :=
  ((s.sched.filter fun p => p.2.valid && p.2.job == j).flatMap fun p => coresOf p.2.cores).eraseDups

/-- Slots for which a member with a core out of service counts as failed: those whose job uses the core, as the manager's own
entries of the slot show it; where it has none, those the member has stopped, since R438 stops every slot that uses the core. -/
def State.failSlots (s : State) (chip : Nat) : List Nat :=
  let m := s.member chip
  let stopped (j : Nat) : Bool := match m.slots.find? fun p => p.1 == j with | some p => p.2.1 == 5 | none => false
  if m.oos = 0 then []
  else (List.range 4).filter fun j =>
    !m.failedFor.contains j && m.serves j &&
      (if (s.jobCores j).isEmpty then stopped j else (s.jobCores j).any m.oos.testBit)

/-- The pool member of a primary's cover set that takes its role. -/
def State.heir (s : State) (j : Nat) (p : Nat × Nat) : Option Nat :=
  ((sortBy (fun (a b : Cover) => decide (a.pool < b.pool)) (s.grp.covers.filter fun c =>
    c.slot == j && c.prims.contains p && s.poolReady j c.pool (s.committed j))).head?).map (·.pool)

/-- Role indices a failed chip held as a primary. -/
def State.primRoles (s : State) (j chip : Nat) : List (Nat × Nat) :=
  (((s.grp.covers.filter fun c => c.slot == j).flatMap (·.prims)).filter fun p => p.1 == chip).eraseDups

/-- A chip's contributions appear in this chip's source lists of the job, or it is a primary of a cover set. -/
def State.contributes (s : State) (j chip : Nat) : Bool := !(s.primRoles j chip).isEmpty || s.slicesOf j chip != 0

/-- Heirs in turn: a pool member takes one role. -/
def State.heirs (s : State) (j : Nat) : List (Nat × Nat) → List ((Nat × Nat) × Option Nat)
  | [] => []
  | p :: t =>
    let h := s.heir j p
    let s1 := match h with
      | some q => s.modGrp fun g => { g with covers := g.covers.map fun c => Cover.promote c p q }
      | none => s
    (p, h) :: s1.heirs j t

/-- A named chip that has not failed. -/
def State.aliveIn (s : State) (j chip : Nat) : Bool := !(s.member chip).failedIn j

/-- The changes that follow a chip's failure in one job (R384). -/
def State.roleChanges (s : State) (j chip : Nat) : List RoleEntry :=
  let g := chipGroup chip
  let prim : List RoleEntry := (s.heirs j (s.primRoles j chip)).filterMap fun x => x.2.map fun q => RoleEntry.mk 0 chip q x.1.2 g
  let owner := (s.grp.ownHalo.filter fun x => x.1 == j && x.2.1 == chip && s.aliveIn j x.2.2).map fun x =>
    (⟨1, chip, x.2.2, 0, g⟩ : RoleEntry)
  let halo := if s.grp.ownHalo.any fun x => x.1 == j && x.2.2 == chip then [(⟨2, chip, chip, 0, g⟩ : RoleEntry)] else []
  let coll := (s.grp.backupGo.filter fun x => x.1 == j && x.2.1 == chip).map fun x => (⟨3, chip, x.2.2, 0, g⟩ : RoleEntry)
  let mem := s.jobChips j
  let lead := if s.redEn j && s.lapLeader j == chip then
      (match (mem.filter fun c => c != chip && s.aliveIn j c) with
       | [] => []
       | c :: t => [(⟨4, chip, t.foldl min c, 0, g⟩ : RoleEntry)])
    else []
  prim ++ owner ++ halo ++ coll ++ lead

/-- A role of the chip has no successor that keeps the job going (R385): an owner without a halo, a contributor without a
member in its cover set. -/
def State.noSuccessor (s : State) (j chip : Nat) : Bool :=
  let owns := s.grp.ownHalo.any (fun x => x.1 == j && x.2.1 == chip) ||
    (List.range (s.bentCount j)).any fun n => (s.bent j n).role == 0 && (s.bent j n).next == chip
  let halo := s.grp.ownHalo.any fun x => x.1 == j && x.2.1 == chip && s.aliveIn j x.2.2
  let prims := s.primRoles j chip
  (owns && !halo) || (s.contributes j chip && (prims.isEmpty || (s.heirs j prims).any fun x => x.2.isNone))

def rolePlanBody (step : W32) (l : List RoleEntry) : List Byte :=
  toLe 4 step.toNat ++ toLe 4 l.length ++
    l.flatMap fun x => toLe 1 x.kind ++ toLe 1 0 ++ toLe 2 x.former ++ toLe 2 x.new ++ toLe 2 x.ridx ++ toLe 2 x.group ++ toLe 6 0

/-- Every chip that may be a member of the job: those of this group, and the groups of its other lap leaders. -/
def State.jobReach (s : State) (j : Nat) : List Nat :=
  let lead := if s.redEn j then s.lapList j (s.nmem j) (s.ngrp j) else []
  let far := (lead.filter fun c => chipGroup c != s.myGroup).flatMap fun c => (List.range 64).map fun q => 64 * chipGroup c + q
  ((s.groupMembers ++ s.jobChips j ++ far).eraseDups).filter (· != s.me)

/-- JOB.STOP for the whole of a slot, at its next step boundary (R385, R421). -/
def stopWords (j : Nat) : List W64 := [w64 (at' 3 48 + at' 1 32), w64 j, 0x7FF]

/-- The cover sets of the job in which a chip that fails has a place are noted for the chip that replaces it (R385). -/
def State.noteLost (s : State) (chip j : Nat) : State :=
  let sets := ((s.grp.covers.filter fun c => c.slot == j && (c.pool == chip || c.prims.any fun p => p.1 == chip)).map
    (·.set)).eraseDups
  s.modGrp fun g => { g with lostSets := (g.lostSets ++ sets.map fun k => (j, chip, k)).eraseDups }

/-- The manager moves the roles of a failed chip in one job, or stops the job on every chip that may be a member of it. -/
def State.replaceIn (s0 : State) (chip j : Nat) : State :=
  let s := s0.noteLost chip j
  if (s.job j).st = .empty then s0
  else if s.noSuccessor j chip then
    let s1 := ((s.jobReach j).filter (· != chip)).foldl (fun t c => t.sendCmd c (stopWords j)) s
    (s1.placeCmd 2 (stopWords j)).1
  else
    match s.roleChanges j chip with
    | [] => s
    | l =>
      let step := s.committed j + 2
      let send (t : State) (c : Nat) : State :=
        t.sendMgmt c 8 (t.mgmtHeader (chipGroup c != t.myGroup) ++ rolePlanBody step l)
      ((s.jobReach j).foldl send s).holdRoles step l

/-- A new deputy is named when the deputy has failed (R376). -/
def State.renewDeputy (s : State) (chip : Nat) : State :=
  if s.grp.deputyChip = chip then
    let rest := (without s.heardHere s.me).filter fun h => !(s.member h.1).failed
    s.modGrp fun g => { g with deputyChip := (electManager rest).getD s.me }
  else s

/-- A group manager declares a member failed, as a whole or for the jobs of slots whose core it has lost. -/
def State.failMember (s : State) (chip : Nat) : State :=
  let m := s.member chip
  if s.grp.role = 0 ∨ chip = s.me ∨ m.heard = false ∨ m.failed = true ∨ chipGroup chip ≠ s.myGroup then s
  else if s.failCause chip then
    let s1 := (s.modMember chip fun x => { x with failed := true }).modGrp fun g =>
      { g with failedMask := setBit g.failedMask (chipPos chip) }
    (List.range 4).foldl (fun t j => t.replaceIn chip j) (s1.renewDeputy chip)
  else
    (s.failSlots chip).foldl (fun t j =>
      (t.modMember chip fun x => { x with failedFor := x.failedFor ++ [j] }).replaceIn chip j) s

def execMemberFail (chip : W16) (s : State) : Result := .next (s.failMember chip.toNat)

end Sys2Proof.Machine
end

