-- ==== Sys2Proof/Machine/Numerics.lean ====
section
/-! DEFINITION. The numerics unit: commits, the loss scale, the zero-run watch (R245 to R261), and Contrail's recompute
(R266 to R268). -/

namespace Sys2Proof.Machine

/-! The loss-scale rule (R246). -/

/-- What a commit does to the bank, and the record's flags. -/
structure Commit where
  bank : NumBank
  lsUsed : Int
  lsNext : Int
  skip : Bool
  lowered : Bool
  raised : Bool
  floor : Bool
  ceil : Bool
  deriving DecidableEq, Repr

/-- Bits 0 to 2 of a lap word show a non-finite contribution (R366). -/
def lapSkips (word : W64) : Bool := fld word 2 0 != 0

def NumBank.step (n : NumBank) : W32 := BitVec.ofNat 32 (fld n.state 63 32)
def NumBank.clean (n : NumBank) : Nat := fld n.state 15 0
def NumBank.applied (n : NumBank) : Nat := fld n.steps 63 32
def NumBank.skips (n : NumBank) : Nat := fld n.steps 31 0
def NumBank.lsmax (n : NumBank) : Int := sext 8 (fld n.ctl 47 40)
def NumBank.lsmin (n : NumBank) : Int := sext 8 (fld n.ctl 39 32)

def stateWord (step : W32) (ls : Int) (skip : Bool) (clean : Nat) : W64 :=
  w64 (at' step.toNat 32 + at' (wrapN 8 ls) 24 + at' (b2n skip) 16 + clean % 65536)

def NumBank.commit (n : NumBank) (word : W64) : Commit :=
  let used := n.lsexp
  let skip := lapSkips word
  let clean := if skip then 0 else n.clean + 1
  let full := !skip && clean == fld n.ctl 63 48
  let lowered := skip && decide (n.lsmin < used)
  let raised := full && decide (used < n.lsmax)
  let next := if lowered then used - 1 else if raised then used + 1 else used
  let steps := if skip then w64 (at' n.applied 32 + (n.skips + 1) % 2 ^ 32)
    else w64 (at' ((n.applied + 1) % 2 ^ 32) 32 + n.skips)
  let b := { n with steps := steps, state := stateWord (n.step + 1) next skip (if full then 0 else clean) }
  ⟨b, used, next, skip, lowered, raised, skip && !lowered, full && !raised⟩

/-! The zero-run watch (R259 to R261). -/

/-- One tensor-table entry at its 16 bytes: its new words, and whether it raises the event. -/
def watchEntry (w0 w1 : W64) (sdef : Nat) (nonzero : Bool) : W64 × W64 × Bool :=
  if nonzero then (putFld w0 31 16 0, clrBit w1 1, false)
  else
    let run := min (fld w0 31 16 + 1) 65535
    let thr := if fld w0 15 0 = 0 then sdef else fld w0 15 0
    let w0' := putFld w0 31 16 run
    if run = thr ∧ bit w1 1 = false then (w0', setBit w1 1, !bit w1 0) else (w0', w1, false)

/-- Some bucket of the entry is in a bitmap. -/
def inBuckets (m : SMap Bool) (b0 nb : Nat) : Bool := m.any fun p => p.2 && decide (b0 ≤ p.1 ∧ p.1 < b0 + nb)

/-- Watches tensor i at the commit of a step; the flag says whether some tensor has raised the event. -/
def State.watchTensor (s : State) (j : Nat) (step : W32) (i : Nat) : State × Bool :=
  let n := s.bank j
  let a := fld n.tt 47 0 + 16 * i
  let w0 := s.word64 a
  let w1 := s.word64 (a + 8)
  let b0 := fld w0 47 32
  let nb := fld w0 63 48
  if nb = 0 ∨ inBuckets n.completed b0 nb = false then (s, false)
  else
    let r := watchEntry w0 w1 (fld n.ctl 31 16) (inBuckets n.nonzero b0 nb)
    let s1 := s.writeWords a [r.1, r.2.1]
    if r.2.2 then
      ((s1.numEvt j 3).logEvt 2 j 0x40 0 0 (w64 i) (step.zeroExtend 64) (w64 (fld r.1 31 16)) 0, true)
    else (s1, false)

def State.watch (s : State) (j : Nat) (step : W32) : State × Bool :=
  (List.range (fld (s.bank j).tt 63 51)).foldl (fun (a : State × Bool) i =>
    let r := a.1.watchTensor j step i
    (r.1, a.2 || r.2)) (s, false)

/-! The record and the semaphore (R247). -/

/-- 2^k as F32. -/
def pow2F32 (k : Int) : Nat := ((k + 127).toNat) * 2 ^ 23

def Commit.record (c : Commit) (lap : W64) (silent : Bool) (arrived : W64) : List W64 :=
  let b := c.bank
  [ w64 (at' b.applied 32 + b.step.toNat),
    w64 (at' (wrapN 8 c.lsUsed) 56 + at' (wrapN 8 c.lsNext) 48 + b.clean),
    w64 (at' (pow2F32 c.lsNext) 32 + pow2F32 (-c.lsUsed)),
    lap,
    w64 (at' b.skips 32 + b2n silent * 32 + b2n c.ceil * 16 + b2n c.floor * 8 + b2n c.raised * 4 + b2n c.lowered * 2 +
      b2n c.skip),
    arrived, 0, 0 ]

/-- The releasing add of a commit; refused where the count would pass 65,535. -/
def State.commitAdd (s : State) (j : Nat) : State :=
  let n := s.bank j
  let sem := fld n.ctl 15 8
  match s.semAdd sem (fld n.recReg 63 52) with
  | some s1 => s1.semServe sem (s1.sem sem).waiters.length
  | none => (s.numEvt j 5).logEvt 3 j 0x44 0 0 (w64 sem) (n.step.zeroExtend 64) 0 0

/-- Update instructions of the slot's engines that the gate had stalled are tested again (R253). -/
def State.retestAll (s : State) (j : Nat) : State :=
  (List.range 64).foldl (fun t e => if (t.eng e).job = j ∧ t.veStopped e = false then t.retestUpdate e else t) s

/-- Events of a commit (R246). -/
def State.commitEvents (s : State) (j : Nat) (c : Commit) : State :=
  let s1 := if c.skip then s.numEvt j 0 else s
  let s2 := if c.ceil then s1.numEvt j 1 else s1
  if c.floor then s2.numEvt j 2 else s2

/-- One commit (R245 to R247), then what waited for it. -/
def State.commitOne (s : State) (j : Nat) (word arrived : W64) : State :=
  let n := s.bank j
  let c := n.commit word
  let t := c.bank.step
  let s1 := (s.modBank j fun _ => c.bank).commitEvents j c
  let (s2, silent) := if c.skip then (s1, false) else s1.watch j t
  let s3 := s2.modBank j fun k =>
    { k with completed := [], nonzero := [], held := k.held.filter fun h => (t - h.1).slt 0 }
  let s4 := if n.hasSection then
      (s3.writeWords (fld n.recReg 47 0) (c.record word silent arrived)).commitAdd j else s3
  let s5 := s4.modRed j fun r => { r with laps := r.laps.filter fun a => (t - a.step).slt 0 }
  ((((s5.retestAll j).emptySteps j).lapSend j).commitPlans j t word)

/-- The next step's final word, if it has come, is committed (R245). -/
def State.commitStep (s : State) (j : Nat) : State :=
  match (s.bank j).held.find? fun h => h.1 == (s.bank j).step + 1 with
  | none => s
  | some (_, word, arrived) => s.commitOne j word arrived

def execStepCommit (j : SlotId) (s : State) : Result := .next (s.commitStep j)

/-! Contrail (R266 to R268). -/

/-- Head and tail of a pair after one product (R173). -/
def pairAdd (p : W32 × W32) (x : FVal) : W32 × W32 :=
  let v := FVal.add (FVal.add (f32 p.1) (f32 p.2)) x
  let h := v.toF32
  match f32 h with
  | .fin _ _ _ => (h, (FVal.add v (f32 h).neg).toF32)
  | _ => (h, h)

/-- Value of element i of an operand row in a format, with its block scales. -/
def rowVal (f : Nat) (row scales : List Byte) (i : Nat) : FVal :=
  let code := bitsAt row (i * fmtBits f) (fmtBits f)
  if fmtMx f then mxDecode f ((scales[i / 32]?).getD 0).toNat code else elemDecode f code

/-- What the recompute needs of one captured column. -/
structure ColumnCheck where
  col : Nat
  delta : FVal
  /-- δ / 2^F as F32; where F is none and the column is not zero, R267 states none. -/
  ratio : W32
  bin : Nat
  beyond : Bool
  deriving DecidableEq, Repr

/-- The reference of a column: the pair sum of its finite products, and the tag of all of them. -/
def refSum (acts : Nat → FVal) (ws : List (Nat × FVal)) (ks : List Nat) : (W32 × W32) × Tag :=
  ks.foldl (fun (a : (W32 × W32) × Tag) i =>
    let w := ((ws.find? fun q => q.1 == i).map (·.2)).getD (.fin false 0 0)
    let x := FVal.mul (acts i) w
    match x with
    | .fin _ _ _ => (pairAdd a.1 x, a.2)
    | _ => (a.1, a.2.add (Tag.ofVal x))) ((0, 0), .finite)

/-- Bin of δ / 2^F (R266). -/
def binOf (v : FVal) : Nat :=
  match v.lead with
  | none => (match v with | .fin _ _ _ => 0 | _ => 31)
  | some l => if l < -19 then 0 else min 31 ((l + 20).toNat)

def pow2 (k : Int) : FVal := .fin false 1 k

/-- The T8's δ: the exact one within a relative error below 2^-20. -/
def perturb (err : Nat) (v : FVal) : FVal :=
  let e : Int := (err % 2097151 : Nat) - 1048575
  FVal.mul v (.fin false (1099511627776 + e).toNat (-40))

def chainHeadroom (r : Nat) : Int := match r with | 1 => 9 | 2 => 10 | _ => 11

def checkColumn (r : Nat) (frame : Option Int) (w : ChainWord) (acts : Nat → FVal) (ws : List (Nat × FVal))
    (ks : List Nat) (n : Nat) : ColumnCheck :=
  let (pair, tag) := refSum acts ws ks
  let y := FVal.add (f32 pair.1) (f32 pair.2)
  let f := frame.getD 0
  let chain : FVal := .fin (decide (w.s < 0)) w.s.natAbs f
  let delta := perturb (Config.contrailError w.s frame pair.1 pair.2) (FVal.add chain y.neg).abs
  let zeroY := FVal.numEq y (.fin false 0 0)
  match frame with
  | none =>
    if zeroY then ⟨n, .fin false 0 0, 0, 0, decide (w.tag ≠ tag)⟩
    else ⟨n, delta, Config.contrailRatio pair.1 pair.2, Config.contrailBin pair.1 pair.2 % 32, true⟩
  | some f =>
    let bound := FVal.add (FVal.add (pow2 (f + chainHeadroom r)) (FVal.mul y.abs (pow2 (-46)))) (pow2 (-140))
    let ratio := delta.scale2 (-f)
    ⟨n, delta, ratio.toF32, binOf ratio, !FVal.lt delta bound || decide (w.tag ≠ tag)⟩

/-- The n-th physical column in use under a steering (R100). Where fewer than four are retired the manual does not say which
columns stand by: the highest ones here (DESIGN CHOICE, log 75). -/
def physColumn (retired : List Nat) (n : Nat) : Nat :=
  (((List.range 388).filter fun p => !retired.contains p)[n]?).getD 0

/-- The column of largest δ, the lowest among equals. -/
def worstColumn : List ColumnCheck → ColumnCheck
  | [] => ⟨0, .fin false 0 0, 0, 0, false⟩
  | [a] => a
  | a :: b :: t =>
    let r := worstColumn (b :: t)
    if FVal.lt a.delta r.delta then r else a

/-- Columns of a captured tile, each checked. -/
def checkCapture (pl : Plane) (tm : TileMeta) (row scales : List Byte) (actFmt r : Nat)
    (frame : Option Int) (chains : List ChainWord) : List ColumnCheck :=
  let rows := bandRows tm.part
  let k0 := subBand tm.part tm.sub * rows
  let n0 := subGroup tm.part tm.sub * groupCols tm.part
  let ks := (List.range r).flatMap fun lane => (List.range rows).map fun k => 384 * lane + k0 + k
  let all := pl.weights tm.part tm.sub r
  (List.range (groupCols tm.part)).map fun i =>
    let n := n0 + i
    let ws := all.filterMap fun q => if q.1 = n then some q.2 else none
    checkColumn r frame ((chains[n]?).getD ChainWord.zero) (rowVal actFmt row scales) ws ks n

/-- Adds the columns to the core's histogram. -/
def State.addBins (s : State) (base : Nat) (cs : List ColumnCheck) : State :=
  (List.range 32).foldl (fun t b =>
    let k := (cs.filter fun c => c.bin == b).length
    if k = 0 then t else t.writeW64 (base + 8 * b) (cntAdd (t.word64 (base + 8 * b)) k)) s

/-- Recompute of one captured tile, its record, and the alarm. Nothing is written where a smaller carve-out has left the
record outside (R270). -/
def State.recompute (s : State) (c i : Nat) : State :=
  let k := s.core c
  match k.capture i with
  | .full arrB pl seq tm row scales actFmt r _ frame chains words colmap =>
    let cs := checkCapture pl tm row scales actFmt r frame chains
    let w := worstColumn cs
    let bad := (cs.filter (·.beyond)).length
    let alarm := decide (bad ≠ 0)
    let pcol := physColumn colmap w.col
    let base := fld k.crec 47 0
    let nrec := max 1 (fld k.crec 63 48)
    let at_ := base + 256 + 64 * (seq % nrec)
    let word (n : Nat) : W64 := (words[n]?).getD 0
    let rec_ : List W64 :=
      [word 0, word 1, word 2, w64 (at' (b2n alarm) 63 + at' w.col 32 + at' pcol 16 + bad),
       w64 (at' w.bin 32 + w.ratio.toNat), word 3, word 4, s.mer.now]
    let kept := if s.insideCarve base (256 + 64 * nrec) then (s.addBins base cs).writeWords at_ rec_ else s
    let s1 := kept.modCore c fun q => q.setCapture i .free
    if alarm then
      let s2 := (s1.modCore c fun q => { q with calarm := cntAdd q.calarm 1 }).logEvt 2 (fld (word 1) 58 57) 0x41 0 c
        (w64 at_) (w64 pcol) 0 0
      let s3 := if bit s.fw.auth 16 then s2.internalCmd (w64 (at' 8 48))
          [w64 (at' 2 56 + at' c 48 + at' (b2n arrB) 47 + pcol)] else s2
      s3.tick
    else s1.tick
  | _ => s

def execContrailRecompute (c : CoreId) (slot : Fin 15) (s : State) : Result := .next (s.recompute c slot)

end Sys2Proof.Machine
end

