-- ==== Sys2Proof/Machine/Port.lean ====
section
/-! DEFINITION. Sessions of the management port (R468 to R472). -/

namespace Sys2Proof.Machine

def State.session (s : State) (id : W32) : Option Session := s.sec.sessions.find? fun q => q.id == id
def State.modSession (s : State) (id : W32) (f : Session → Session) : State :=
  s.modSec fun c => { c with sessions := c.sessions.map fun q => if q.id = id then f q else q }

/-- Sessions are accepted (R470). -/
def State.portOpen (s : State) : Bool := s.sec.portcmd && s.sec.boot == .running

/-- The payload before the tag, if the tag is right under the client key (R470). -/
def Session.checked (q : Session) (custom : Nat) (m : PortWhole) : Option (List Byte) :=
  let body := m.body.take (m.body.length - 32)
  if q.established ∧ 32 ≤ m.body.length ∧
      m.body.drop (m.body.length - 32) = msgTag q.kc (m.header ++ body) custom then some body
  else none

/-- An authentic message of an established session; it counts as valid. -/
def State.withSession (s : State) (custom : Nat) (m : PortWhole) (f : Session → List Byte → State → State) : State :=
  match s.session m.session with
  | none => s
  | some q =>
    match q.checked custom m with
    | none => s
    | some body => f q body (s.modSession q.id fun x => { x with lastValid := s.mer.now })

/-! HELLO and ACCEPT (R470). -/

/-- The operator key's digest is one of the boot configuration's; all zero is an unused one (R464). -/
def State.knownKey (s : State) (key : List Byte) : Bool :=
  let d := digest32 key
  d != zero32 && s.sec.opkeys.contains d

/-- A session opens: a fresh nonce and key pair, and the CHALLENGE that carries them. -/
def State.openSession (s : State) (m : PortWhole) : State :=
  let nonce := fixLen 32 (Config.randomBytes s.fresh 32)
  let seed := fixLen 64 (Config.randomBytes (s.fresh + 1) 64)
  let key := fixLen 1568 (Config.kemPublic seed)
  let id : W32 := BitVec.ofNat 32 s.sec.nextSession
  let chal := nonce ++ key ++ s.idSign "" (m.body ++ nonce ++ key)
  let q : Session :=
    { id := id, opkey := m.body.drop 32, hello := m.body, challenge := chal, established := false, kc := [], kd := [],
      lastSeq := none, answers := [], lastValid := s.mer.now, bulk := [], kemSeed := seed }
  ((s.tick.tick.modSec fun c => { c with sessions := c.sessions ++ [q], nextSession := c.nextSession + 1 }).portSend
    ⟨0x11, id, m.seq, chal⟩)

def State.takeHello (s : State) (m : PortWhole) : State :=
  if m.body.length = 96 ∧ s.knownKey (m.body.drop 32) = true ∧ s.sec.sessions.length < 8 then s.openSession m else s

def execHello (m : PortMsg) (s : State) : Result :=
  .next (if s.portOpen then s.takePort 0x10 m fun w t => t.takeHello w else s)

/-- The keys of a session from the handshake: Kc, then Kd. -/
def Session.keys (q : Session) (ct : List Byte) : List Byte :=
  fixLen 64 (Config.kmac256 (Config.kemDecaps q.kemSeed ct)
    (fixLen 64 (Config.shake256 (q.hello ++ q.challenge ++ ct) 64)) 64 kmKeys)

/-- READY carries a tag over T alone. -/
def Session.ready (q : Session) (ct kd : List Byte) : List Byte :=
  msgTag kd (fixLen 64 (Config.shake256 (q.hello ++ q.challenge ++ ct) 64)) kmReady

def State.takeAccept (s : State) (m : PortWhole) : State :=
  match s.session m.session with
  | none => s
  | some q =>
    let ct := m.body.take 1568
    let sig := m.body.drop 1568
    if q.established = false ∧ m.body.length = 31360 ∧
        Config.slhVerify q.opkey ([0, 0] ++ q.hello ++ q.challenge ++ ct) sig = true then
      let k := q.keys ct
      ((s.modSession q.id fun x =>
        { x with established := true, kc := k.take 32, kd := k.drop 32, lastValid := s.mer.now, kemSeed := [] })).portSend
          ⟨0x13, q.id, m.seq, q.ready ct (k.drop 32)⟩
    else s

def execAccept (m : PortMsg) (s : State) : Result :=
  .next (if s.portOpen then s.takePort 0x12 m fun w t => t.takeAccept w else s)

/-! CMD (R471). -/

/-- The record as a RESP shows it when no entry is free. -/
def busyRecord (rec : List Byte) : List Byte := rec.take 48 ++ w64Bytes (statusWord csBusy 0) ++ rec.drop 56

/-- A new command: its SEQ is the highest accepted; it takes a free entry, or is answered BUSY. -/
def State.newCmd (s : State) (q : Session) (seq : W32) (rec : List Byte) : State :=
  let s1 := s.modSession q.id fun x =>
    { x with lastSeq := some seq, answers := ((seq, []) :: x.answers).take 64 }
  match s1.placeCmd 1 ((List.range 6).map fun k => w64OfBytes (rec.drop (8 * k))) with
  | (s2, some i) => s2.modSec fun c => { c with portCmds := c.portCmds ++ [(i, q.id, seq)] }
  | (_, none) =>
    let m := q.signed 0x21 kmCmd seq (busyRecord rec)
    (s1.modSession q.id fun x =>
      { x with answers := x.answers.map fun a => if a.1 = seq then (seq, m.payload) else a }).portSend m

/-- A repeat of an accepted one gets its completed RESP again. -/
def State.repeatCmd (s : State) (q : Session) (seq : W32) : State :=
  match q.answers.find? fun a => a.1 == seq with
  | some a => if a.2.isEmpty then s else s.portSend ⟨0x21, q.id, seq, a.2⟩
  | none => s

def State.takeCmd (s : State) (m : PortWhole) : State :=
  s.withSession kmCmd m fun q body t =>
    if body.length ≠ 64 then s
    else
      match q.lastSeq with
      | none => t.newCmd q m.seq body
      | some n => if n.toNat < m.seq.toNat then t.newCmd q m.seq body else t.repeatCmd q m.seq

def execCmd (m : PortMsg) (s : State) : Result :=
  .next (if s.portOpen then s.takePort 0x20 m fun w t => t.takeCmd w else s)

/-! BULK (R472). -/

/-- Data for the ingest region; what would pass its end is discarded. -/
def State.ingest (s : State) (q : Session) (m : PortWhole) (body : List Byte) : State :=
  let off := bodyField body 0 8
  let data := (body.drop 8).take (s.sec.ingSize - off)
  let s1 := s.writeDone (s.sec.ingBase + off) data
  let have' := if data.isEmpty then q.bulk else addRange (off, off + data.length) q.bulk
  (s1.modSession q.id fun x => { x with bulk := have' }).portSend (q.signed 0x31 kmBulk m.seq (toLe 8 (contiguous have')))

def State.takeBulk (s : State) (m : PortWhole) : State :=
  if s.grp.role = 0 ∨ s.sec.ingSize = 0 then s
  else s.withSession kmBulk m fun q body t =>
    if body.length < 8 ∨ body.length % 16 ≠ 8 then s else t.ingest q m body

def execBulk (m : PortMsg) (s : State) : Result :=
  .next (if s.portOpen then s.takePort 0x30 m fun w t => t.takeBulk w else s)

/-! The end of a session. -/

def State.dropSession (s : State) (id : W32) : State :=
  s.modSec fun c =>
    { c with sessions := c.sessions.filter fun q => q.id != id, portCmds := c.portCmds.filter fun p => p.2.1 != id }

def execClose (m : PortMsg) (s : State) : Result :=
  .next (if s.portOpen then
      s.takePort 0x3F m fun w t => t.withSession kmClose w fun q body u => if body.isEmpty then u.dropSession q.id else t
    else s)

/-- 60 s without a valid message (R470). -/
def execSessionTimeout (session : W32) (s : State) : Result :=
  .next (match s.session session with
    | some q => if q.lastValid.toNat + 60000000000 ≤ s.now then s.dropSession session else s
    | none => s)

/-- A message incomplete 100 ms after its first fragment (R468). -/
def execPortFragmentTimeout (src : Nat) (session seq : W32) (s : State) : Result :=
  .next (s.modSec fun c =>
    { c with portParts := c.portParts.filter fun p =>
        !(p.src == src && p.session == session && p.seq == seq && decide (p.since.toNat + 100000000 ≤ s.now)) })

end Sys2Proof.Machine
end

