-- ==== Sys2Proof/Machine/Power.lean ====
section
/-! DEFINITION. Caps, ramp plans and calibration commands (R397, R399, R421, R452), temperatures and the thermal trip
(R196, R407 to R409), droops (R406), ageing and records (R411 to R414). -/

namespace Sys2Proof.Machine

/-! CAP.SET and RAMP.PLAN. -/

def State.setCap (s : State) (c : CmdEntry) : CmdOut :=
  let w := fld (c.arg 0) 10 0
  if w < 400 ∨ 1600 < w then .err csBadArg s
  else .fin (s.modPwr fun p => { p with capPend := true, capImm := c.flag 0, capNext := w }) csOk 0

def execCapSet (i : BitVec 8) (s : State) : Result := .next (s.runCmd i.toNat 6 fun e t => t.setCap e)

/-- Plan entries a mask names, ascending. -/
def rampNames (mask : Nat) : List Nat := (List.range 16).filter fun n => mask.testBit n

def State.planRamp (s : State) (c : CmdEntry) : CmdOut :=
  let ns := rampNames (fld (c.arg 0) 15 0)
  let image (k : Nat) : W64 := c.arg (k + 1)
  if 4 < ns.length ∨ (List.range ns.length).any (fun k => decide (fld (image k) 10 3 < 2 ∨ 200 < fld (image k) 10 3)) then
    .err csBadArg s
  else
    .fin (ns.zipIdx.foldl (fun t q =>
      t.modPwr fun p => { p with ramp := SMap.set 0 p.ramp q.1 (putFld (image q.2) 2 1 0) }) s) csOk 0

def execRampPlan (i : BitVec 8) (s : State) : Result := .next (s.runCmd i.toNat 7 fun e t => t.planRamp e)

/-! Re-plans (R413, R414). -/

/-- The records of the other two classes are gathered anew. -/
def PwrCore.onlyClass (p : PwrCore) (k : Nat) : PwrCore :=
  { p with validRec := p.validRec &&& BitVec.ofNat 3 (2 ^ k), gathering := p.gathering.filter fun q => q.1 == k }

/-- Steps of 5 mV that a rail's ceiling leaves above a voltage. -/
def State.stepsLeft (s : State) (r mv : Nat) : Nat := (s.railCeil r - mv) / 5

/-- Margin cannot be restored at the ceiling: free mode loses FMAX, repeatable mode its clock, by the 40 MHz steps the
margin needs (R414). -/
def State.loseMargin (s : State) (c mhz : Nat) : State :=
  let s1 := if (s.pcore c).free then
      (s.modPcore c fun p =>
        { p with fmax := p.fmax - mhz, fset := p.fmax - mhz, fnow := min p.fnow (p.fmax - mhz) }).pwrEvt 3
    else (s.modPcore c fun p => { p with replost := true, fcap := 2400 - mhz }).pwrEvt 2
  let s2 := s1.checkThr c
  s2.logEvt 4 255 0x50 0 c (s2.pwrMode c) (s2.pwrAge c) 0 0

/-- The voltage of a core's class is raised by 5 mV steps until every margin is restored, or to the ceiling; the other
two classes are gathered again. The rail follows at the next epoch boundary. -/
def State.replanCore (s : State) (c steps : Nat) (held : Bool) : State :=
  let k := (s.pcore c).cls
  let room := s.stepsLeft c (s.classMv c k)
  let s1 := s.modPcore c fun p =>
    { (p.addV k (5 * (if held then min steps room else room))).onlyClass k with replans := min 255 (p.replans + 1) }
  if held then s1 else s1.loseMargin c (40 * steps)

/-- The same on VDD_STK and VDD_PHY; clocks stay (R413, R414). -/
def State.replanStack (s : State) (steps : Nat) (held : Bool) : State :=
  let room := s.stepsLeft 5 (railBoot 5 + s.pwr.stkAdd)
  s.modPwr fun p => { p with stkAdd := p.stkAdd + 5 * (if held then min steps room else room) }

def State.replanQuad (s : State) (q steps : Nat) (held : Bool) : State :=
  let k := SMap.get 0 s.pwr.quadCls q
  let old := SMap.get 0 s.pwr.quadAdd (3 * q + k)
  let room := s.stepsLeft 6 (railBoot 6 + old)
  s.modPwr fun p =>
    { p with quadAdd := SMap.set 0 p.quadAdd (3 * q + k) (old + 5 * (if held then min steps room else room)),
             quadValid := SMap.set 7 p.quadValid q (SMap.get 7 p.quadValid q &&& 2 ^ k)
             quadGathering := p.quadGathering.filter fun x => x.1 / 3 != q || x.1 % 3 == k }

/-! CAL.RUN (R452). -/

def execLinkeq (i : BitVec 8) (s : State) : Result :=
  .next (s.runKind i.toNat 9 0 fun e t => if 96 ≤ fld (e.arg 0) 54 48 then .err csBadArg t else .fin t csOk 0)

def execVplan (i : BitVec 8) (steps : Nat) (held : Bool) (s : State) : Result :=
  .next (s.runKind i.toNat 9 1 fun e t => .fin (t.replanCore (fld (e.arg 0) 49 48) steps held) csOk 0)

def execAgeperiod (i : BitVec 8) (s : State) : Result :=
  .next (s.runKind i.toNat 9 2 fun e t =>
    if fld (e.arg 1) 31 0 = 0 then .err csBadArg t
    else .fin (t.modPwr fun p => { p with agePeriod := fld (e.arg 1) 31 0 }) csOk 0)

def execRegather (i : BitVec 8) (s : State) : Result :=
  .next (s.runKind i.toNat 9 3 fun e t =>
    let k := fld (e.arg 0) 1 0
    if k = 3 then .err csBadArg t
    else .fin (t.modPcore (fld (e.arg 0) 49 48) fun p => 
        { p with validRec := p.validRec &&& ~~~ BitVec.ofNat 3 (2 ^ k), gathering := SMap.erase k p.gathering })
      csOk 0)

/-! Temperatures (R196, R407 to R409). -/

def maxOf (l : List Nat) : Nat := l.foldl max 0
def slice (l : List Nat) (i n : Nat) : List Nat := (l.drop i).take n

/-- STK_TEMPs, THM_DIE. -/
def State.takeTemps (s : State) (r : SensorReadings) : State :=
  let stk (t : Nat) : W64 := w64 (((slice r.tiers (8 * t) 8).zipIdx.map fun p => at' (p.1 % 256) (8 * p.2)).sum)
  let s1 := s.modMem fun m => { m with temps := (List.range 20).foldl (fun a t => SMap.set 0 a t (stk t)) m.temps }
  let mc := (List.range 4).map fun c => at' (maxOf (slice r.die (16 * c) 16) % 256) (8 * c)
  s1.modPwr fun p => { p with thmDie := w64 (mc.sum + at' (maxOf (slice r.die 64 8) % 256) 32 +
                                              at' (maxOf (slice r.die 72 16) % 256) 40) }

/-- Readings that act on core c: the tiers of the stacks above it; the die sensors over it and those of the fabric and the
link quadrants. -/
def tiersOn (r : SensorReadings) (c : Nat) : List Nat := slice r.tiers (40 * c) 40
def dieOn (r : SensorReadings) (c : Nat) : List Nat := slice r.die (16 * c) 16 ++ slice r.die 64 24

/-- Throttles or releases one core (R408). -/
def State.throttle (s : State) (r : SensorReadings) (c : Nat) : State :=
  let w := s.pwr.thmCtl
  let tier := fld w 55 48
  let die := fld w 39 32
  let hyst := fld w 3 0
  let hotT := (tiersOn r c).any fun t => decide (tier ≤ t)
  let hotD := (dieOn r c).any fun t => decide (die ≤ t)
  let cool := ((tiersOn r c).all fun t => decide (t + hyst ≤ tier)) && (dieOn r c).all fun t => decide (t + hyst ≤ die)
  if hotT || hotD then
    let s1 := (s.suspendBallast c).modPcore c fun p => { p.stepDown 40 with thermal := true, coolRuns := 0 }
    let s2 := (s1.pwrEvt 1).modPwr fun p => { p with thermalEpoch := true }
    let s3 := if hotT then s2.thmEvt 3 else s2
    (if hotD then s3.thmEvt 2 else s3).checkThr c
  else if cool then
    s.modPcore c fun p =>
      let q : PwrCore := { p with coolRuns := p.coolRuns + 1 }
      if p.thermal ∧ 2 ≤ q.coolRuns then
        let u := if p.restrained then q else q.stepUp 40
        let still := !p.restrained && decide (u.fnow < u.fset ∨ u.duty < 8)
        { u with thermal := still, ballastOff := still }
      else q
  else s.modPcore c fun p => { p with coolRuns := 0 }

/-- A link is down: nothing it held goes on. -/
def Link.dropped (k : Link) : Link :=
  { k with st := .down, replay := [], sentAt := [], queue := [], toResend := 0, resends := 0, rx := [], nakSent := false }

/-- Every clock but those of the always-on controller, the keeper core and Meridian stops (R409). -/
def State.trip (s : State) (tier die : Bool) : State :=
  let w := putFld s.pwr.thmEvt 1 0 (b2n die + 2 * b2n tier)
  let s1 := (s.modPwr fun p => { p with thmEvt := w, tripped := true }).modBoard fun b => { b with thermtripLow := true }
  let lost := s1.fw.insts.filter fun x => decide (x.st ≠ .saved)
  let s2 := lost.foldl (fun t x => (t.endInst x 5).modJob x.job fun b => { b with cause := 5 }) s1
  let s3 := s2.modLnk fun n => { n with link := n.link.map fun p => (p.1, p.2.dropped) }
  s3.logEvt 5 255 0x51 0 0 s3.pwr.thmEvt s3.pwr.thmDie 0 0

def State.convert (s : State) (r : SensorReadings) : State :=
  let s1 := s.takeTemps r
  let tier := r.tiers.any fun t => decide (fld s.pwr.thmCtl 63 56 ≤ t)
  let die := r.die.any fun t => decide (fld s.pwr.thmCtl 47 40 ≤ t)
  if (tier || die) && !s.pwr.tripped then s1.trip tier die
  else if s.pwr.tripped then s1
  else (List.range 4).foldl (fun t c => t.throttle r c) s1

def execSensorConversion (r : SensorReadings) (s : State) : Result := .next (s.convert r)

/-! Droops (R406). -/

/-- The domains on the rail run with a stretched period; each stretch is counted once (R475). -/
def execShallowDroop (r : Rail) (s : State) : Result :=
  .next (match r with
    | .mc c =>
      if (s.pcore c).stretched then s
      else (s.modPcore c fun p => { p with stretched := true }).bump (cntMc c 9)
    | .soc =>
      if s.pwr.socStretch then s else (s.modPwr fun p => { p with socStretch := true }).bump (cntPwr 3))

/-- 90 % of FSET for the rest of the beat and the next. -/
def execDeepDroop (r : Rail) (s : State) : Result :=
  .next (match r with
    | .mc c => ((s.modPcore c fun p => { p with droopBeats := 2 }).checkThr c).pwrEvt 4
    | .soc => (s.modPwr fun p => { p with socDroopBeats := 2 }).pwrEvt 4)

def execDroopRecovery (r : Rail) (s : State) : Result :=
  .next (match r with
    | .mc c => s.modPcore c fun p => { p with stretched := false }
    | .soc => s.modPwr fun p => { p with socStretch := false })

/-! Ageing (R412, R413) and records (R411). -/

/-- Margins in thousandths of a clock period. Below 6 % a core's, a stack port's or a quadrant's voltage is re-planned;
`steps` are the 5 mV steps that restored 9 %, or the 40 MHz steps a core needs where the ceiling does not. -/
def execAgeingMeasurement (u : AgeUnit) (marginPermille : List Nat) (steps : Nat) (held : Bool) (s : State) : Result :=
  .next (if s.pwr.ageDue.contains u then
      let s1 := s.modPwr fun p => { p with ageDue := p.ageDue.filter (· != u) }
      if marginPermille.any fun m => decide (m < 60) then
        match u with
        | .core c => s1.replanCore c steps held
        | .stack _ => s1.replanStack steps held
        | .quadrant q => s1.replanQuad q steps held
      else s1
    else s)

/-- The missing record of the class in force is valid before its twenty epochs are over: the guard band ends at the next
epoch boundary. -/
def execRecordGathered (u : AgeUnit) (s : State) : Result :=
  .next (match u with
    | .core c =>
      if (s.pcore c).validRec.getLsbD (s.pcore c).cls then s
      else s.modPcore c fun p => { p with validRec := p.validRec ||| BitVec.ofNat 3 (2 ^ p.cls) }
    | .stack _ => s
    | .quadrant q =>
      if !(SMap.get 7 s.pwr.quadValid q).testBit (SMap.get 0 s.pwr.quadCls q) then
        s.modPwr fun p =>
          { p with quadValid := SMap.set 7 p.quadValid q (SMap.get 7 p.quadValid q ||| 2 ^ SMap.get 0 p.quadCls q) }
      else s)

end Sys2Proof.Machine
end

