-- ==== Sys2Proof/Machine/Reduction.lean ====
section
/-! DEFINITION. The engines' TAIL writes and the halo deadline (R360, R361). -/

namespace Sys2Proof.Machine

/-- The receive unit reads the statuses an engine has passed, in the slot its core runs (R360). -/
def execTailWrite (e : EngId) (s : State) : Result :=
  .next (if s.redEn (s.eng e).job then s.tailWrite (s.eng e).job e else s)

/-- The deadline of entry n of slot j's bucket table passes (R361). -/
def execReductionDeadline (j : SlotId) (n : Nat) (s : State) : Result := .next (s.deadlineAt j n)

end Sys2Proof.Machine
end

