-- ==== Sys2Proof/Machine/ControlCore.lean ====
section
/-! DEFINITION. Control cores and memory (R177, R186, R202, R204, R211, R214, R216, R217): loads, stores, atomics and fences. A
control core's accesses are performed one by one in the order it makes them, which RVWMO allows, so a fence has nothing left to
order (log 80). -/

namespace Sys2Proof.Machine

/-! Which accesses the map takes (R177). -/

def romBase : Nat := 0xA00000000
def romSize : Nat := 0x40000

/-- A load of n bytes lies in memory, or in the Darkel ROM. -/
def ccLoads (a n : Nat) : Bool := inMemory a n || decide (romBase ≤ a ∧ a + n ≤ romBase + romSize)

/-- A store of n bytes lies in memory: the ROM takes none. -/
def ccStores (a n : Nat) : Bool := inMemory a n

def inStacks (a : Nat) : Bool := match locate a with | .stack _ _ => true | _ => false

/-! The coherent cache (R214). -/

def Mem.holds (m : Mem) (cc line : Nat) : Bool := m.held.any fun h => h.1 == line && h.2.1 == cc

/-- The core's cache takes a clean copy of a line; one that another core holds dirty is supplied from there. -/
def Mem.share (m : Mem) (cc line : Nat) : Mem :=
  { (m.supply line) with held := (m.supply line).held ++ [(line, cc, false)] }

/-- The core's cache holds a line exclusively and dirty. Reservations end with a write, not here. -/
def Mem.own (m : Mem) (cc line : Nat) : Mem :=
  { m with held := (m.held.filter fun h => h.1 != line) ++ [(line, cc, true)] }

/-- A line comes into the core's cache, whatever its port's buffer holds of it first. A line that cannot be corrected faults
and is not cached; one beyond the code's guarantee is read and not kept (R185, R186). -/
def State.fillLine (s : State) (cc line : Nat) : State × Bool :=
  let s0 := s.flushLine line
  if s0.mem.holds cc line then (s0, true)
  else
    let r := s0.checkLine rdCc 255 line
    if r.2 && s0.lineSt line != .beyond then (r.1.modMem fun m => m.share cc line, true) else r

def State.fillLines (s : State) (cc : Nat) : List Nat → State × Bool
  | [] => (s, true)
  | l :: t =>
    let r := s.fillLine cc l
    if r.2 then r.1.fillLines cc t else r

/-- The line is the core's alone and dirty: what it reads as stands for the array's, which its write-back replaces. -/
def State.ownLine (s : State) (cc line : Nat) : State :=
  let s1 := if s.lineSt line = .beyond then
      s.poke line ((List.range 128).map fun i => Config.freeByte s.fresh (line + i)) else s
  (s1.setLine line .good).modMem fun m => m.own cc line

/-- The lines of a store are filled, then owned; a fill that fails is a load access fault and nothing is stored. -/
def State.ownRange (s : State) (cc a n : Nat) : State × Bool :=
  let r := s.fillLines cc (linesOf a n)
  if r.2 then ((linesOf a n).foldl (fun t l => t.ownLine cc l) r.1, true) else (r.1.accessFault cc a false, false)

/-- The bytes stored in owned lines. -/
def State.storeOwned (s : State) (cc a : Nat) (bs : List Byte) : State :=
  ((linesOf a bs.length).foldl (fun t l => t.modMem fun m => m.own cc l) (s.poke a bs)).tick

/-! Loads and stores (R202, R204, R211). -/

/-- A load of n bytes: from the coherent cache, or at the buffer, local store or ROM. -/
def State.ccLoad (s : State) (cc a n : Nat) : State × Option (List Byte) :=
  if !ccLoads a n then (s.accessFault cc a false, none)
  else if inStacks a then
    let r := s.fillLines cc (linesOf a n)
    if r.2 then (r.1.tick, some (r.1.bytes a n)) else (r.1.accessFault cc a false, none)
  else if !inMemory a n then (s, some ((Config.darkelRom.drop (a - romBase)).take n))
  else
    let r := s.checkRange rdCc 255 a n
    if r.2 then (r.1.tick, some (r.1.bytes a n)) else (r.1.accessFault cc a false, none)

/-- A store: in the coherent cache, where it is performed for every unit, or at its place. -/
def State.ccStore (s : State) (cc a : Nat) (bs : List Byte) : State :=
  if !ccStores a bs.length then s.accessFault cc a true
  else if inStacks a then
    let r := s.ownRange cc a bs.length
    if r.2 then r.1.storeOwned cc a bs else r.1
  else s.writeDone a bs

/-- FENCE and FENCE.I: every earlier access of the core has been performed. -/
def State.ccFence (s : State) (_cc : Nat) : State := s

/-! Atomics of the A extension (R216, R217). -/

inductive AmoOp where
  | swap | add | xor | and' | or' | min | max | minu | maxu
  deriving DecidableEq, Repr

/-- What an AMO stores, on operands of its width sign-extended. -/
def AmoOp.eval (o : AmoOp) (old arg : W64) : W64 :=
  match o with
  | .swap => arg
  | .add => old + arg
  | .xor => old ^^^ arg
  | .and' => old &&& arg
  | .or' => old ||| arg
  | .min => if arg.slt old then arg else old
  | .max => if old.slt arg then arg else old
  | .minu => if arg.ult old then arg else old
  | .maxu => if old.ult arg then arg else old

/-- The word of an atomic, sign-extended from its width. -/
def amoWord (wide : Bool) (bs : List Byte) : W64 :=
  if wide then w64 (leNat bs) else (BitVec.ofNat 32 (leNat bs)).signExtend 64
def amoSize (wide : Bool) : Nat := if wide then 8 else 4

/-- An atomic acts on aligned words of stack memory; any other address is a store access fault. -/
def amoAllowed (a : Nat) (wide : Bool) : Bool := inStacks a && inMemory a (amoSize wide) && a % amoSize wide == 0

/-- An AMO in the core's cache with the line held exclusively: what it answers is the old word. -/
def State.ccAmo (s : State) (cc : Nat) (o : AmoOp) (a : Nat) (wide : Bool) (arg : W64) : State × Option W64 :=
  if !amoAllowed a wide then (s.accessFault cc a true, none)
  else
    let r := s.ownRange cc a (amoSize wide)
    if r.2 then
      let old := amoWord wide (r.1.bytes a (amoSize wide))
      let op := if wide then arg else (arg.truncate 32).signExtend 64
      (r.1.storeOwned cc a (toLe (amoSize wide) (o.eval old op).toNat), some old)
    else (r.1, none)

/-- LR: the word, and the line reserved. -/
def State.ccLr (s : State) (cc a : Nat) (wide : Bool) : State × Option W64 :=
  if !amoAllowed a wide then (s.accessFault cc a true, none)
  else
    let r := s.ownRange cc a (amoSize wide)
    if r.2 then
      (r.1.modMem fun m => { m with resv := SMap.set none m.resv cc (some (lineOf (canon a))) },
       some (amoWord wide (r.1.bytes a (amoSize wide))))
    else (r.1, none)

/-- SC: stores and answers 0 where the core still has the line reserved, else answers 1; the reservation ends either way. -/
def State.ccSc (s : State) (cc a : Nat) (wide : Bool) (v : W64) : State × Option W64 :=
  if !amoAllowed a wide then (s.accessFault cc a true, none)
  else
    let kept := SMap.get none s.mem.resv cc == some (lineOf (canon a))
    let s1 := s.modMem fun m => { m with resv := SMap.erase cc m.resv }
    if kept then
      let r := s1.ownRange cc a (amoSize wide)
      if r.2 then (r.1.storeOwned cc a (toLe (amoSize wide) v.toNat), some 0) else (r.1, none)
    else (s1, some 1)

end Sys2Proof.Machine
end

