-- ==== Sys2Proof/Machine/Regs.lean ====
section
/-! DEFINITION. Control-core accesses to the control registers (R7 to R9): writes by access code, operations on
semaphores (R222, R223) and the accesses that fault (R7, R31, R417). -/

namespace Sys2Proof.Machine

/-- Write-one-to-clear of the bits in a mask (R8). -/
def w1c (w v mask : W64) : W64 := w &&& ~~~ (v &&& mask)

def loBits (n : Nat) : W64 := w64 (2 ^ n - 1)

/-! Semaphores (R222, R223). -/

/-- SQ_SEMRES: STATUS and the count. -/
def State.semAnswer (s : State) (cc status count : Nat) : State :=
  { s with semres := SMap.set 0 s.semres cc (w64 (at' status 16 + count % 65536)) }

def State.ccAdd (s : State) (cc n amt : Nat) : State :=
  match s.semAdd n amt with
  | some s1 => s1.semAnswer cc 0 (s1.sem n).count
  | none => s.semAnswer cc 2 (s.sem n).count

/-- A TAKE never waits: it needs the count and an empty queue. -/
def State.ccTake (s : State) (cc n amt : Nat) : State :=
  if (s.sem n).waiters.isEmpty ∧ amt ≤ (s.sem n).count then
    (s.modSem n fun q => { q with count := q.count - amt }).semAnswer cc 0 ((s.sem n).count - amt)
  else s.semAnswer cc 1 (s.sem n).count

def execSemAdd (cc : CcId) (q : BitVec 8) (amt : BitVec 12) (s : State) : Result :=
  .next (s.ccAdd cc.val q.toNat amt.toNat)

def execSemTake (cc : CcId) (q : BitVec 8) (amt : BitVec 12) (s : State) : Result :=
  .next (s.ccTake cc.val q.toNat amt.toNat)

/-- A store to SQ_SEMOPn: a reserved OP is refused (R223). -/
def State.semopWrite (s : State) (cc n : Nat) (v : W64) : State :=
  match fld v 63 62 with
  | 0 => s.ccAdd cc n (fld v 11 0)
  | 1 => s.ccTake cc n (fld v 11 0)
  | _ => s.semAnswer cc 1 (s.sem n).count

/-! Writes with a range or a condition. -/

/-- No job slot holds a job. -/
def State.noJobs (s : State) : Bool := (List.range 4).all fun j => (s.job j).st == .empty

/-- STK_CARVE (R181, R199). -/
def State.writeCarve (s : State) (v : W64) : State :=
  if s.noJobs then s.modMem fun m => { m with carve := max 2 (min 16 (fld v 4 0)) } else s

/-- STK_SCRUB (R199). -/
def State.writeScrub (s : State) (v : W64) : State :=
  s.modMem fun m => { m with scrubEn := bit v 31, scrubPeriod := if fld v 15 0 = 0 then m.scrubPeriod else fld v 15 0 }

/-- NUM_CTRAIL: EN and K at once, SLOTS by R270. -/
def State.writeCtrail (s : State) (c : Nat) (v : W64) : State :=
  let k := s.core c
  let slots := max 1 (fld v 47 44)
  let w := putFld (putFld k.ctrail 63 63 (fld v 63 63)) 51 48 (fld v 51 48)
  s.setCore c { k with ctrail :=
    if k.busySlots = 0 ∧ s.slotsFit (fld k.cbase 47 0) slots = true then putFld w 47 44 slots else w }

def State.writeCbase (s : State) (c : Nat) (v : W64) : State :=
  let k := s.core c
  if k.busySlots = 0 ∧ s.slotsFit (fld v 47 0) k.ctrailSlots = true then s.setCore c { k with cbase := w64 (fld v 47 0) }
  else s

/-- NUM_CREC: the histogram and the ring of records (R267, R270). -/
def State.writeCrec (s : State) (c : Nat) (v : W64) : State :=
  let k := s.core c
  let nrec := max 1 (fld v 63 48)
  if k.busySlots = 0 ∧ s.insideCarve (fld v 47 0) (256 + 64 * nrec) = true then
    s.setCore c { k with crec := putFld v 63 48 nrec }
  else s

/-- Register k of a core's Contrail. -/
def State.writeCtrailReg (s : State) (c k : Nat) (v : W64) : State :=
  match k with
  | 0 => s.writeCtrail c v
  | 1 => s.writeCbase c v
  | 2 => s.writeCrec c v
  | 3 => s.modCore c fun q => { q with csamp := cntClear q.csamp v }
  | 4 => s.modCore c fun q => { q with cmiss := cntClear q.cmiss v }
  | _ => s.modCore c fun q => { q with calarm := cntClear q.calarm v }

/-- The pool's registers hold still while it is enabled (R321). -/
def State.writeKvp (s : State) (f : Kvp → Kvp) : State := if s.kvp.en then s else { s with kvp := f s.kvp }

/-- THM_CTL: the throttle limits can be lowered only (R415). -/
def State.writeThm (s : State) (v : W64) : State :=
  s.modPwr fun p =>
    { p with thmCtl := putFld (putFld p.thmCtl 55 48 (min 95 (fld v 55 48))) 39 32 (min 100 (fld v 39 32)) }

/-- THM_EVT: two events to clear, two sticky fields to write (R8, R415). -/
def State.writeThmEvt (s : State) (v : W64) : State :=
  s.modPwr fun p => { p with thmEvt := putFld (w1c p.thmEvt v 12) 1 0 (fld v 1 0) }

/-- CNT_SNAP (R478): 200 µs are 200,000 ticks. -/
def State.writeSnap (s : State) (v : W64) : State :=
  let nrec := max 1 (fld v 63 48)
  let recent := match s.cnt.lastEpochTick with
    | some t => decide ((s.mer.now - t).toNat < 200000)
    | none => false
  if s.insideCarve (fld v 47 0) (8192 * nrec) && !recent then s.modCnt fun c => { c with snap := putFld v 63 48 nrec }
  else s

/-- CNT_IRQ (R485). -/
def State.writeIrq (s : State) (v : W64) : State :=
  s.modCnt fun c =>
    { c with irq := putFld (putFld (putFld (w1c c.irq v 63) 50 48 (fld v 50 48)) 37 32 (fld v 37 32)) 21 16 (fld v 21 16) }

/-- MER_LATE (R42). -/
def State.writeLate (s : State) (v : W64) : State := s.modMer fun m => { m with lateOvf := m.lateOvf && !bit v 48 }

/-- A link's counters. -/
def State.writeLnk (s : State) (l k : Nat) (v : W64) : State :=
  match k with
  | 0 => s
  | 1 => s.modLink l fun q => { q with fecc := cntClear q.fecc v }
  | 2 => s.modLink l fun q => { q with fecu := cntClear q.fecu v }
  | _ => s.modLink l fun q => { q with rply := cntClear q.rply v }

/-- A store to a register, by its access codes; what has an operation of its own takes it. Schedule entries and Darkel's
own command entries fault (R31, R417). -/
def State.writeReg (s : State) (cc addr : Nat) (v : W64) : Reg → State
  | .merEvt => s.modMer fun m => { m with evt := w1c m.evt v (loBits 5) }
  | .merLate => s.writeLate v
  | .sched _ _ => s.accessFault cc addr true
  | .sqArrevt c => s.modCore c fun k => { k with arrevt := w1c k.arrevt v (loBits 6) }
  | .sqRedocc c => s.modCore c fun k => { k with gate := k.gate && !bit v 20 }
  | .descWin c k => s.modCore c fun q => { q with desc := SMap.set 0 q.desc k v }
  | .semop n => s.semopWrite cc n v
  | .veEvt e => s.modEng e fun k => { k with evt := w1c k.evt v (loBits 4) }
  | .stkCarve => s.writeCarve v
  | .stkScrub => s.writeScrub v
  | .stkEvt => s.modMem fun m => { m with evt := w1c m.evt v (loBits 6) }
  | .stkCe t => s.modMem fun m => { m with ce := SMap.set 0 m.ce t (cntClear (SMap.get 0 m.ce t) v) }
  | .stkUe t => s.modMem fun m => { m with ue := SMap.set 0 m.ue t (cntClear (SMap.get 0 m.ue t) v) }
  | .num j k => if k = 5 then s.modBank j fun b => { b with evt := w1c b.evt v (loBits 6) } else s
  | .ctrail c k => s.writeCtrailReg c k v
  | .kvpPool => s.writeKvp fun k => { k with pool := w64 (fld v 47 0) }
  | .kvpGeom => s.writeKvp fun k => { k with geom := w64 (at' (fld v 41 20) 20 + fld v 11 0) }
  | .kvpPtab => s.writeKvp fun k => { k with ptab := w64 (fld v 47 0) }
  | .kvpCtl => if bit v 0 then s.kvpEnable else s.kvpDisable
  | .kvpFree => s.kvpFree v
  | .kvpFreecnt => if bit v 63 then s.kvpRelow else s
  | .kvpEvt => { s with kvp := { s.kvp with evt := w1c s.kvp.evt v (loBits 4) } }
  | .lnk l k => s.writeLnk l k v
  | .lnkEvt => s.modLnk fun n => { n with evt := w1c n.evt v (loBits 7) }
  | .red j k => if k = 9 then s.modRed j fun r => { r with evt := w1c r.evt v (loBits 9) } else s
  | .fwEvt => s.modFw fun d => { d with evt := w1c d.evt v (loBits 6) }
  | .cmdTable i w => if 192 ≤ i then s.accessFault cc addr true else s.cmdStore i w v
  | .pwrEvt => s.modPwr fun p => { p with evt := w1c p.evt v (loBits 10) }
  | .thmCtl => s.writeThm v
  | .thmEvt => s.writeThmEvt v
  | .cnt k => s.modCnt fun c => { c with cnt := SMap.set 0 c.cnt k (cntClear (s.cntr k) v) }
  | .cntSnap => s.writeSnap v
  | .cntIrq => s.writeIrq v
  | .merNow => s | .merStatus => s | .merOffset => s
  | .sqStatus _ => s | .sqPc _ => s | .sqFault _ => s | .sqJrange _ _ => s | .sqColmap _ _ => s
  | .sqRedstg _ => s | .sqGmask _ => s | .sqAtstat _ => s | .instrWin _ _ => s
  | .sem _ => s | .semres _ => s | .veStatus _ => s | .veEntry _ => s
  | .stkUeaddr => s | .stkTemp _ => s | .stkSpare _ => s | .kvpAlloc => s
  | .lnkCtl => s | .flow _ _ => s | .grt _ => s | .lrt _ => s
  | .fwRole => s | .fwHalo => s | .fwStatus => s | .fwAuth => s | .fwSched => s | .fwMaint => s | .fwJob _ => s
  | .fwDef _ => s
  | .pwrCap => s | .pwrSlew => s | .pwrFloor => s | .pwrDraw => s | .pwrAgectl => s | .pwrRamp _ => s
  | .pwrMode _ => s | .pwrAge _ => s | .thmDie => s
  | .secStatus => s | .secSerial _ => s | .secRstcause => s | .secMeas _ _ => s | .secIdpk _ => s
  | .cntLog => s

/-- A 64-bit store by a control core (R7, R8). An address of the range that holds nothing, or a misaligned one, faults; at an
address outside the range it is a store to memory (log 80). -/
def State.storeReg (s : State) (cc addr : Nat) (v : W64) : State :=
  match regAt addr with
  | some r => s.writeReg cc addr v r
  | none => if inRegs addr then s.accessFault cc addr true else s.ccStore cc addr (w64Bytes v)

/-- A 64-bit load by a control core, from a register or from memory (R7, R202). -/
def State.ccLoad64 (s : State) (cc addr : Nat) : State × Option W64 :=
  if inRegs addr then
    match s.loadReg addr with
    | some v => (s, some v)
    | none => (s.accessFault cc addr false, none)
  else
    let r := s.ccLoad cc addr 8
    (r.1, r.2.map w64OfBytes)

/-! CSRs that the manual gives values (R21, R455, R456, R485). -/

/-- mip or sip bits by their RISC-V numbers: machine and supervisor external interrupts from the event routing, the supervisor
timer while MER_NOW is at or past stimecmp; the machine timer reads 0. -/
def State.ccPending (s : State) (cc : Nat) : Nat :=
  let e := s.irqLines cc
  at' (b2n e.1) 11 + at' (b2n e.2) 9 + at' (b2n (decide ((SMap.get 0 (s.hart cc).csr 0x14D).toNat ≤ s.now))) 5

/-- The CSRs: `time` is MER_NOW; `cycle` and `instret` count what the model does not time, so their values are free (log 80);
the identification CSRs are constants; others hold what was written. -/
def State.readCsr (s : State) (cc n : Nat) : W64 :=
  match n with
  | 0xC01 => s.mer.now
  | 0xC00 => Config.freeWide s.fresh n
  | 0xC02 => Config.freeWide s.fresh n
  | 0x301 => 0x800000000014112D
  | 0xF11 => 0
  | 0xF12 => 0x8000000000000008
  | 0xF13 => 0xA0
  | 0xF14 => w64 cc
  | 0x344 => w64 (s.ccPending cc)
  | _ => SMap.get 0 (s.hart cc).csr n

/-- The identification CSRs and the counters' user views take no write (R455, R456). -/
def csrFixed (n : Nat) : Bool := n ∈ [0xC00, 0xC01, 0xC02, 0x301, 0xF11, 0xF12, 0xF13, 0xF14]

def State.writeCsr (s : State) (cc n : Nat) (v : W64) : State :=
  if csrFixed n then s else s.modHart cc fun h => { h with csr := SMap.set 0 h.csr n v }

def execRegisterWrite (cc : CcId) (addr : BitVec 48) (v : W64) (s : State) : Result :=
  .next (s.storeReg cc.val addr.toNat v)

/-- A store here faults although the address is populated (R31, R417). -/
def Reg.guarded : Reg → Bool
  | .sched _ _ => true
  | .cmdTable i _ => decide (192 ≤ i)
  | _ => false

/-- The access faults of the register range (R7, R31, R417), and those of an access outside the map, a store to the Darkel ROM
among them (R177). -/
def accessFaults (addr size : Nat) (store : Bool) : Bool :=
  if inRegs addr then
    match regAt addr with
    | none => true
    | some r => size != 8 || (store && r.guarded)
  else if store then !ccStores addr size else !ccLoads addr size

def execRegisterAccessFault (cc : CcId) (addr : BitVec 48) (size : Nat) (store : Bool) (s : State) : Result :=
  .next (if accessFaults addr.toNat size store then s.accessFault cc.val addr.toNat store else s)

end Sys2Proof.Machine
end

