-- ==== Sys2Proof/Machine/SeqFlow.lean ====
section
/-! DEFINITION. Loops, branches, calls, YIELD, HALT, hints, reserved words (R107, R110, R133 to R139). -/

namespace Sys2Proof.Machine

/-- A fault of the instruction at the PC that names no descriptor. -/
def State.sqFaultHere (s : State) (c : Nat) (code : SqCode) : State := s.sqFault c code (s.core c).ctx.pc 0

/-- LOOP (R133): the body is the `len` words that follow, run `count` + 1 times. -/
def State.openLoop (s : State) (c len count : Nat) : State :=
  let k := s.core c
  if len = 0 ∨ 4 ≤ k.ctx.loops.length ∨ k.range.ilim < k.ctx.pc + len then s.sqFaultHere c .loop
  else
    (s.modCtx c fun x => { x with loops := ⟨x.pc + 1, x.pc + len, count + 1, 0⟩ :: x.loops }).sqAdvance c

def execLoop (c : CoreId) (len count : BitVec 12) (s : State) : Result :=
  .next (s.sqIssue c (s.openLoop c len.toNat count.toNat))

def execBr (c : CoreId) (target : BitVec 15) (s : State) : Result :=
  .next (s.sqIssue c (s.sqBranch c target.toNat true))

def execBrSemz (c : CoreId) (target : BitVec 15) (sm : BitVec 8) (s : State) : Result :=
  .next (s.sqIssue c (s.sqSemBranch c target.toNat sm.toNat true))

def execBrSemnz (c : CoreId) (target : BitVec 15) (sm : BitVec 8) (s : State) : Result :=
  .next (s.sqIssue c (s.sqSemBranch c target.toNat sm.toNat false))

/-- BR.RET: a call fault with an empty call stack. -/
def State.sqReturn (s : State) (c : Nat) : State :=
  match (s.core c).ctx.calls with
  | [] => s.sqFaultHere c .call
  | t :: rest => s.sqJump c t rest

def execBrRet (c : CoreId) (s : State) : Result := .next (s.sqIssue c (s.sqReturn c))

/-- The innermost open loop is in its last iteration. -/
def SqCtx.lastIteration (x : SqCtx) : Bool :=
  match x.loops with
  | [] => false
  | l :: _ => l.index + 1 == l.count

def execBrLast (c : CoreId) (target : BitVec 15) (s : State) : Result :=
  .next (s.sqIssue c (s.sqBranch c target.toNat (s.core c).ctx.lastIteration))

/-- CALL: eight levels; open loops stay open (R135). -/
def State.sqCall (s : State) (c t : Nat) : State :=
  let k := s.core c
  if 8 ≤ k.ctx.calls.length then s.sqFaultHere c .call
  else if k.pcOk t then s.modCtx c fun x => { x with pc := t, calls := (x.pc + 1) :: x.calls }
  else s.sqFaultHere c .range

def execCall (c : CoreId) (target : BitVec 15) (s : State) : Result :=
  .next (s.sqIssue c (s.sqCall c target.toNat))

/-- Why a YIELD would wait: a job of higher claim is due, or a test waits for the job's cores (R137). -/
def State.yieldWanted (s : State) (c : Nat) : Bool :=
  match s.instOn c with
  | some x => s.preempted x true || s.testFor x
  | none => false

/-- YIELD: wanted, it waits for the core's operations and the save; else it completes. -/
def execYieldPt (c : CoreId) (s : State) : Result :=
  .next (s.sqIssue c (if s.yieldWanted c then s.sqHold c .stall .yieldPt else s.sqAdvance c))

/-- The sequencer halts with its exit code (R138). -/
def State.sqHalt (s : State) (c code : Nat) : State :=
  (s.modCore c fun k => { k with st := .halted, exitCode := code, ctx := { k.ctx with held := .none } }).releaseCore c

def execHalt (c : CoreId) (code : BitVec 12) (s : State) : Result :=
  .next (s.sqIssue c
    (if (s.core c).quiet then s.sqHalt c code.toNat else s.sqHold c .stall (.halt code.toNat)))

/-- A HALT that waited ends once nothing of the core is outstanding. -/
def State.haltDone (s : State) (c : Nat) : State :=
  match (s.core c).ctx.held with
  | .halt code => if (s.core c).quiet then s.sqHalt c code else s
  | _ => s

def execHaltComplete (c : CoreId) (s : State) : Result := .next (s.haltDone c)

/-- ZEN leaves its hint with the power controller: from `lead` beats on, `level` sixteenths (R139, R403). -/
def State.zenHint (s : State) (c level lead : Nat) : State :=
  (s.modPcore c fun p => { p with hints := p.hints ++ [(level, s.now + 1024 * lead)] }).sqAdvance c

def execZen (c : CoreId) (level : BitVec 4) (lead : BitVec 12) (s : State) : Result :=
  .next (s.sqIssue c (s.zenHint c level.toNat lead.toNat))

/-- A word that R110 and R111 reserve raises an instruction fault; any other word is some instruction's, and this event
does not occur. -/
def execSqReservedOpcode (c : CoreId) (w : W64) (s : State) : Result :=
  .next (if sqReserved w then s.sqIssue c (s.sqFaultHere c .instr) else s)

end Sys2Proof.Machine
end

