-- ==== Sys2Proof/Machine/SeqLoad.lean ====
section
/-! DEFINITION. Stationary loads: WLD, WLDT, their stall and completion, WSWAP.F (R70 to R74, R119, R120). -/

namespace Sys2Proof.Machine

/-- The stationary operand of a load (R117, R119, R120): the extent is that of the tile as it lands, at the rate of
its own format. -/
def State.loadOperand (s : State) (c i : Nat) (trans : Bool) (part : Nat) : Operand TileRef :=
  match (s.core c).tileAt i with
  | .error e => .error e
  | .ok t =>
    let okFmt := fmtArray t.fmt && (!trans || !fmtMx t.fmt)
    let fits := decide (landRows t trans ≤ bandRows part * rateOf t.fmt ∧ landCols t trans ≤ groupCols part)
    if !t.wide && okFmt && fits && s.tileInRange t.stored then .ok t else .error (.desc i)

/-- A load at issue. -/
def State.issueLoad (s : State) (c : Nat) (trans : Bool) (a b sub part : Nat) : State :=
  if (partShape part).isNone || decide (partSubs part ≤ sub) then s.sqFault c .instr (s.core c).ctx.pc 0
  else if a = 0 ∧ b = 0 then s.sqOperandFault c (.desc 0)
  else
    match optIndex a (s.loadOperand c a trans part), optIndex b (s.loadOperand c b trans part) with
    | .error e, _ => s.sqOperandFault c e
    | .ok _, .error e => s.sqOperandFault c e
    | .ok ra, .ok rb => s.tryLoad c trans ra rb a b sub part

/-- WLD (R119). -/
def execWld (c : CoreId) (a b : BitVec 12) (sub : BitVec 4) (part : BitVec 3) (s : State) : Result :=
  .next (s.sqIssue c (s.issueLoad c false a.toNat b.toNat sub.toNat part.toNat))

/-- WLDT (R120). -/
def execWldt (c : CoreId) (a b : BitVec 12) (sub : BitVec 4) (part : BitVec 3) (s : State) : Result :=
  .next (s.sqIssue c (s.issueLoad c true a.toNat b.toNat sub.toNat part.toNat))

/-- The swap wave has crossed: the plane it vacated is the shadow plane, and a load stalled on it proceeds (R72). -/
def State.planeVacated (s : State) (c : Nat) : State :=
  if (s.core c).arrA.vacated && !((s.core c).ctx.passes.any Pass.toSwap) then
    (s.modCore c fun k =>
      { k with arrA := { k.arrA with vacated := false }, arrB := { k.arrB with vacated := false } }).resumeLoad c
  else s

def execWldProceed (c : CoreId) (s : State) : Result := .next (s.planeVacated c)

/-- A WSWAP.F that waited for loads exchanges the planes once none is outstanding (R74). -/
def State.resumeSwap (s : State) (c : Nat) : State :=
  if (s.core c).ctx.held = .swap ∧ (s.core c).ctx.loads = [] then (s.modCore c Core.swapPlanes).sqAdvance c else s

/-- A load completes (R70); what waited for it goes on: a WSWAP.F, a fifth load, a swapping pass (R73, R74, R119). -/
def execLoadComplete (c : CoreId) (k : Nat) (s : State) : Result :=
  .next ((((s.finishLoad c k).resumeSwap c).resumeLoad c).tryStream c)

/-- Data of a pass is inside an array. -/
def Core.passInside (k : Core) : Bool := k.ctx.passes.any fun p => !p.framesA.isEmpty

/-- WSWAP.F (R74). Issued while data of a pass is inside an array it is undefined (R487). -/
def execWswapF (c : CoreId) (s : State) : Result :=
  if (s.core c).st = .run ∧ s.sqStopped c = false ∧ (s.core c).pcOk (s.core c).ctx.pc = true ∧ (s.core c).passInside = true then
    .fault .undefinedSwap
  else
    .next (s.sqIssue c
      (if (s.core c).ctx.loads = [] then (s.modCore c Core.swapPlanes).sqAdvance c else s.sqHold c .stall .swap))

end Sys2Proof.Machine
end

