-- ==== Sys2Proof/Machine/SeqMove.lean ====
section
/-! DEFINITION. MOV, PUT and CSNAP (R125 to R127, R140). -/

namespace Sys2Proof.Machine

def execMov (c : CoreId) (a dest : BitVec 12) (s : State) : Result := .next (s.sqIssue c (s.issueMov c a dest))

def execMovComplete (c : CoreId) (k : Nat) (s : State) : Result := .next (s.finishMove c k)

def execPut (c : CoreId) (a dest : BitVec 12) (flow : BitVec 13) (s : State) : Result :=
  .next (s.sqIssue c (s.issuePut c a dest flow))

/-- An operation whose every packet has landed and been acknowledged leaves its issuer's record (R126, R162). -/
def State.putDone (s : State) (n : Nat) : State :=
  match s.op n with
  | none => s
  | some o =>
    if o.finished then
      match o.owner with
      | .core c => ((s.setOp n none).modCtx c fun x => { x with puts := x.puts.filter (· != n) }).resumeMove c
      | .eng e => ((s.setOp n none).modVctx e fun x => { x with dmas := x.dmas.filter (· != .put n) }).resumeDma e
      | _ => s
    else s

def execPutComplete (op : Nat) (s : State) : Result := .next (s.putDone op)

def execCsnap (c : CoreId) (dest : BitVec 12) (index : BitVec 12) (s : State) : Result :=
  .next (s.sqIssue c (s.issueSnap c dest index))

end Sys2Proof.Machine
end

