-- ==== Sys2Proof/Machine/SeqSync.lean ====
section
/-! DEFINITION. Semaphores, fences and Meridian waits of a sequencer (R39, R40, R128 to R132, R219 to R221). -/

namespace Sys2Proof.Machine

/-- An instruction on a semaphore: a semaphore fault where it is not granted to the job (R219). -/
def State.sqOnSem (s : State) (c n : Nat) (f : State) : State :=
  if s.semGranted (s.core c).job n then f else s.sqFault c .sem (s.core c).ctx.pc 0

/-- SEMW (R128, R220). -/
def execSemw (c : CoreId) (sm : BitVec 8) (n : BitVec 12) (s : State) : Result :=
  .next (s.sqIssue c (s.sqOnSem c sm.toNat
    (if s.semReady sm.toNat n.toNat then (s.semTake (.core c) sm.toNat n.toNat).sqAdvance c
     else (s.semJoin (.core c) sm.toNat n.toNat).sqHold c .semw (.semw sm.toNat n.toNat))))

/-- Waiters of a semaphore are served, oldest first (R220). -/
def execSemwSatisfied (sm : BitVec 8) (s : State) : Result :=
  .next (s.semServe sm.toNat (s.sem sm.toNat).waiters.length)

/-- SEMS (R129). -/
def execSems (c : CoreId) (sm : BitVec 8) (n : BitVec 12) (s : State) : Result :=
  .next (s.sqIssue c (s.sqOnSem c sm.toNat (s.semAddBy (.core c) sm.toNat n.toNat)))

/-- SEMS with REL: it waits for every earlier operation, or adds at once where none is outstanding (R129). -/
def execSemsRel (c : CoreId) (sm : BitVec 8) (n : BitVec 12) (s : State) : Result :=
  .next (s.sqIssue c (s.sqOnSem c sm.toNat
    (if (s.core c).classesOut true true true true then s.sqHold c .stall (.semsRel sm.toNat n.toNat)
     else s.semAddBy (.core c) sm.toNat n.toNat)))

/-- The add of a SEMS with REL, once the earlier operations have completed (R129, R221). -/
def State.releaseAdd (s : State) (c : Nat) : State :=
  match (s.core c).ctx.held with
  | .semsRel n amt =>
    if (s.core c).classesOut true true true true then s else s.semAddBy (.core c) n amt
  | _ => s

def execSemsRelAdd (c : CoreId) (s : State) : Result := .next (s.releaseAdd c)

/-- FENCE (R130). -/
def execFence (c : CoreId) (l d m p : Bool) (s : State) : Result :=
  .next (s.sqIssue c
    (if (s.core c).classesOut l d m p then s.sqHold c .stall (.fence l d m p) else s.sqAdvance c))

def State.fenceDone (s : State) (c : Nat) : State :=
  match (s.core c).ctx.held with
  | .fence l d m p => if (s.core c).classesOut l d m p then s else s.sqAdvance c
  | _ => s

def execFenceComplete (c : CoreId) (s : State) : Result := .next (s.fenceDone c)

/-- WAITT: the nominal start of the instance plus k units (R39, R132). -/
def execWaitt (c : CoreId) (unit : BitVec 2) (k : BitVec 12) (s : State) : Result :=
  .next (s.sqIssue c
    (if unit = 3 then s.sqFault c .instr (s.core c).ctx.pc 0
     else s.sqWaitUntil c (s.nominalOn c + k.toNat * waitUnit unit.toNat)))

/-- WAITT.A: the first multiple of the unit at or after now plus k units (R39, R132). -/
def execWaittA (c : CoreId) (unit : BitVec 2) (k : BitVec 12) (s : State) : Result :=
  .next (s.sqIssue c
    (if unit = 3 then s.sqFault c .instr (s.core c).ctx.pc 0
     else
      let u := waitUnit unit.toNat
      s.sqWaitUntil c (ceilDiv (s.now + k.toNat * u) u * u)))

def State.waittDone (s : State) (c : Nat) : State :=
  match (s.core c).st, (s.core c).ctx.held with
  | .waitt, .waitt t => if t ≤ s.now then s.sqAdvance c else s
  | _, _ => s

def execWaittExpire (c : CoreId) (s : State) : Result := .next (s.waittDone c)

end Sys2Proof.Machine
end

