-- ==== Sys2Proof/Machine/VeScalar.lean ====
section
/-! DEFINITION. The engine's scalar unit: arithmetic, loads and stores, branches, atomics (R151, R156, R161). -/

namespace Sys2Proof.Machine

/-! Arithmetic. -/

def execSAdd (e : EngId) (sd sa sb : BitVec 5) (s : State) : Result :=
  .next (s.veScalar e sd fun x => x.sreg sa + x.sreg sb)
def execSSub (e : EngId) (sd sa sb : BitVec 5) (s : State) : Result :=
  .next (s.veScalar e sd fun x => x.sreg sa - x.sreg sb)
def execSMul (e : EngId) (sd sa sb : BitVec 5) (s : State) : Result :=
  .next (s.veScalar e sd fun x => x.sreg sa * x.sreg sb)
def execSAnd (e : EngId) (sd sa sb : BitVec 5) (s : State) : Result :=
  .next (s.veScalar e sd fun x => x.sreg sa &&& x.sreg sb)
def execSOr (e : EngId) (sd sa sb : BitVec 5) (s : State) : Result :=
  .next (s.veScalar e sd fun x => x.sreg sa ||| x.sreg sb)
def execSXor (e : EngId) (sd sa sb : BitVec 5) (s : State) : Result :=
  .next (s.veScalar e sd fun x => x.sreg sa ^^^ x.sreg sb)
/-- Shifts use sb[5:0]. -/
def execSShl (e : EngId) (sd sa sb : BitVec 5) (s : State) : Result :=
  .next (s.veScalar e sd fun x => x.sreg sa <<< ((x.sreg sb).toNat % 64))
def execSShr (e : EngId) (sd sa sb : BitVec 5) (s : State) : Result :=
  .next (s.veScalar e sd fun x => x.sreg sa >>> ((x.sreg sb).toNat % 64))
def execSSlt (e : EngId) (sd sa sb : BitVec 5) (s : State) : Result :=
  .next (s.veScalar e sd fun x => if (x.sreg sa).slt (x.sreg sb) then 1 else 0)
def execSAddi (e : EngId) (sd sa : BitVec 5) (imm : BitVec 16) (s : State) : Result :=
  .next (s.veScalar e sd fun x => x.sreg sa + imm.signExtend 64)
def execSIns (e : EngId) (sd sa : BitVec 5) (imm : BitVec 16) (s : State) : Result :=
  .next (s.veScalar e sd fun x => (x.sreg sa <<< 16) ||| imm.zeroExtend 64)

/-! Memory. -/

/-- s.ld (R151, R156). -/
def State.loadScalar (s : State) (e : Nat) (sd sa : BitVec 5) (off : BitVec 16) : State :=
  let a := addrAt ((s.eng e).ctx.sreg sa) off.toInt
  s.veAccess e a 8
    (match s.veRead e a 8 with
     | (s1, some bs) => s1.veDo e fun x => x.setSreg sd (w64OfBytes bs)
     | (s1, none) => s1.veFault e .mem)

def execSLd (e : EngId) (sd sa : BitVec 5) (off : BitVec 16) (s : State) : Result :=
  .next (s.veIssue e fun t => t.loadScalar e sd sa off)

/-- s.st (R151, R157). -/
def State.storeScalar (s : State) (e : Nat) (src sa : BitVec 5) (off : BitVec 16) : State :=
  let x := (s.eng e).ctx
  let a := addrAt (x.sreg sa) off.toInt
  s.veAccess e a 8 ((s.veWrite e a (w64Bytes (x.sreg src))).veAdvance e)

def execSSt (e : EngId) (src sa : BitVec 5) (off : BitVec 16) (s : State) : Result :=
  .next (s.veIssue e fun t => t.storeScalar e src sa off)

/-! Branches. -/

def execSBeq (e : EngId) (sa sb : BitVec 5) (off : BitVec 16) (s : State) : Result :=
  .next (s.veBranch e off fun x => x.sreg sa == x.sreg sb)
def execSBne (e : EngId) (sa sb : BitVec 5) (off : BitVec 16) (s : State) : Result :=
  .next (s.veBranch e off fun x => x.sreg sa != x.sreg sb)
def execSBlt (e : EngId) (sa sb : BitVec 5) (off : BitVec 16) (s : State) : Result :=
  .next (s.veBranch e off fun x => (x.sreg sa).slt (x.sreg sb))

/-- s.jalr: the link register is written only where the jump is made (R151). -/
def State.jumpLink (s : State) (e : Nat) (sa sb : BitVec 5) (off : BitVec 16) : State :=
  let x := (s.eng e).ctx
  let t := addrAt (x.sreg sa) (4 * off.toInt)
  if !ownStore e t 1 then s.veFault e .range
  else if t % 4 ≠ 0 then s.veFault e .align
  else s.modVctx e fun y => { y.setSreg sb (w64 (lsBase e + 4 * (x.pc + 1))) with pc := (t - lsBase e) / 4 }

def execSJalr (e : EngId) (sa sb : BitVec 5) (off : BitVec 16) (s : State) : Result :=
  .next (s.veIssue e fun t => t.jumpLink e sa sb off)

/-! Atomics (R161). -/

/-- The old value of an atomic's word as sd receives it. -/
def amoOld (wide : Bool) (bs : List Byte) : W64 :=
  if wide then w64OfBytes bs else (BitVec.ofNat 32 (leNat bs)).signExtend 64

/-- One atomic: `f` gives the new word from the old one, both sign-extended, the operand and sd. It is performed
whole: the word in the arrays is the new one, the engine's cached copy of the line is gone. -/
def State.atomic (s : State) (e : Nat) (wide : Bool) (sd sa sb : BitVec 5) (f : W64 → W64 → W64 → W64) : State :=
  let x := (s.eng e).ctx
  let a := (x.sreg sa).toNat
  let n := if wide then 8 else 4
  let inStack := match locate a with | .stack _ _ => true | _ => false
  if !inStack || !s.jobRange a n then s.veFault e .range
  else if a % n ≠ 0 then s.veFault e .align
  else
    let ca := canon a
    let (s1, ok) := s.checkLine rdEng (s.eng e).job (lineOf ca)
    if ok then
      let old := amoOld wide (s1.bytes ca n)
      let arg := if wide then x.sreg sb else ((x.sreg sb).truncate 32).signExtend 64
      let cmp := if wide then x.sreg sd else ((x.sreg sd).truncate 32).signExtend 64
      let s2 := s1.writeDone ca (toLe n (f old arg cmp).toNat)
      (s2.modEng e fun k => k.dropLine (lineOf ca)).veDo e fun y => y.setSreg sd old
    else s1.veFault e .mem

def execSAmoAdd (e : EngId) (wide : Bool) (sd sa sb : BitVec 5) (s : State) : Result :=
  .next (s.veIssue e fun t => t.atomic e wide sd sa sb fun old arg _ => old + arg)
def execSAmoCas (e : EngId) (wide : Bool) (sd sa sb : BitVec 5) (s : State) : Result :=
  .next (s.veIssue e fun t => t.atomic e wide sd sa sb fun old arg cmp => if old = cmp then arg else old)
def execSAmoMin (e : EngId) (wide : Bool) (sd sa sb : BitVec 5) (s : State) : Result :=
  .next (s.veIssue e fun t => t.atomic e wide sd sa sb fun old arg _ => if arg.slt old then arg else old)
def execSAmoMax (e : EngId) (wide : Bool) (sd sa sb : BitVec 5) (s : State) : Result :=
  .next (s.veIssue e fun t => t.atomic e wide sd sa sb fun old arg _ => if old.slt arg then arg else old)

end Sys2Proof.Machine
end

