-- ==== Sys2Proof/Machine/VeSys.lean ====
section
/-! DEFINITION. The engine's system class: cache invalidation, fences, semaphores, DMA, system registers, waits, the
end of the program (R146, R149, R159, R160, R162, R174, R210). -/

namespace Sys2Proof.Machine

/-! Invalidation (R159). -/

/-- The line overlaps [a, a + n) by its interleaved address or by its stack-local window's (R179). -/
def lineOverlaps (line a n : Nat) : Bool :=
  let win := 0x1000000000 + (line / 4096 % 20) * 0x40000000 + (line / 4096 / 20 * 4096 + line % 4096)
  decide (line < a + n ∧ a < line + 128) || decide (win < a + n ∧ a < win + 128)

def execVAcq (e : EngId) (sa sb : BitVec 5) (s : State) : Result :=
  .next (s.veIssue e fun t =>
    let x := (t.eng e).ctx
    let a := (x.sreg sa).toNat
    let n := (x.sreg sb).toNat
    (t.modEng e fun k => { k with dcache := k.dcache.filter fun q => n == 0 || !lineOverlaps q.1 a n }).veAdvance e)

def execVAcqAll (e : EngId) (s : State) : Result :=
  .next (s.veIssue e fun t => (t.modEng e fun k => { k with dcache := [] }).veAdvance e)

/-! Fences (R210). -/

def execVFence (e : EngId) (s : State) : Result :=
  .next (s.veIssue e fun t => if (t.eng e).ctx.quiet then t.veAdvance e else t.veHold e .stall .fence)

/-- Every earlier DMA has completed; the stores complete now, and the fence with them. -/
def State.veFenceDone (s : State) (e : Nat) : State :=
  let x := (s.eng e).ctx
  if x.held = .fence ∧ x.dmas = [] then (s.veFlush e).veAdvance e else s

def execVFenceComplete (e : EngId) (s : State) : Result := .next (s.veFenceDone e)

/-! Semaphores (R160, R219, R220). -/

/-- An operation on semaphore sa[7:0] by the amount in sb: a semaphore fault above 4,095, or where the semaphore is not
granted to the job. -/
def State.veSem (s : State) (e : Nat) (sa sb : BitVec 5) (f : State → Nat → Nat → State) : State :=
  s.veIssue e fun t =>
    let x := (t.eng e).ctx
    let n := (x.sreg sa).toNat % 256
    let amt := (x.sreg sb).toNat
    if 4095 < amt ∨ t.semGranted (t.eng e).job n = false then t.veFault e .sem else f t n amt

def execVSemW (e : EngId) (sa sb : BitVec 5) (s : State) : Result :=
  .next (s.veSem e sa sb fun t n amt =>
    if t.semReady n amt then (t.semTake (.eng e) n amt).veAdvance e
    else (t.semJoin (.eng e) n amt).veHold e .semw (.semW n amt))

/-- The engine's wait is the oldest on its semaphore and its amount is there. -/
def State.veSemServe (s : State) (e : Nat) : State :=
  match (s.eng e).ctx.held with
  | .semW n _ =>
    match (s.sem n).waiters with
    | (u, _, _) :: _ => if u = .eng e then (s.semServeOne n).getD s else s
    | [] => s
  | _ => s

def execVSemWSatisfied (e : EngId) (s : State) : Result := .next (s.veSemServe e)

def execVSemS (e : EngId) (sa sb : BitVec 5) (s : State) : Result :=
  .next (s.veSem e sa sb fun t n amt => t.semAddBy (.eng e) n amt)

def execVSemSRel (e : EngId) (sa sb : BitVec 5) (s : State) : Result :=
  .next (s.veSem e sa sb fun t n amt =>
    if (t.eng e).ctx.quiet then t.semAddBy (.eng e) n amt else t.veHold e .stall (.semSRel n amt))

/-- The add of a v.sem.s.rel once the conditions of v.fence hold. -/
def State.veReleaseAdd (s : State) (e : Nat) : State :=
  match (s.eng e).ctx.held with
  | .semSRel n amt => if (s.eng e).ctx.dmas = [] then (s.veFlush e).semAddBy (.eng e) n amt else s
  | _ => s

def execVSemSRelAdd (e : EngId) (s : State) : Result := .next (s.veReleaseAdd e)

/-! DMA (R162). -/

def execVDma (e : EngId) (sa : BitVec 5) (s : State) : Result := .next (s.veIssue e fun t => t.issueDma e sa)

def execVDmaComplete (e : EngId) (k : Nat) (s : State) : Result := .next (s.finishDma e k)

/-! System registers (R149). -/

/-- System register n; a reserved number reads zero. -/
def State.sysReg (s : State) (e n : Nat) : W64 :=
  let k := s.eng e
  match n with
  | 0 => s.mer.now
  | 1 => w64 (at' s.grp.chip.toNat 6 + e)
  | 2 => w64 k.job
  | 3 => (s.job k.job).seed
  | 4 => k.ctx.step.zeroExtend 64
  | 5 => w64 (b2n k.keyed)
  | _ => 0

def execVRsys (e : EngId) (sd sb : BitVec 5) (s : State) : Result :=
  .next (s.veIssue e fun t => t.veDo e fun x => x.setSreg sd (t.sysReg e (x.sreg sb).toNat))

def execVWsys (e : EngId) (sa sb : BitVec 5) (s : State) : Result :=
  .next (s.veIssue e fun t =>
    let x := (t.eng e).ctx
    if x.sreg sb = 4 then t.veDo e fun y => { y with step := (x.sreg sa).truncate 32 } else t.veFault e .sys)

/-! Waiting for Meridian. -/

def execVWaitT (e : EngId) (sa : BitVec 5) (s : State) : Result :=
  .next (s.veIssue e fun t =>
    let w := (t.eng e).ctx.sreg sa
    if w.toNat ≤ t.now then t.veAdvance e else t.veHold e .wait (.waitT w))

def State.veWaitDone (s : State) (e : Nat) : State :=
  match (s.eng e).ctx.held with
  | .waitT w => if w.toNat ≤ s.now then s.veAdvance e else s
  | _ => s

def execVWaitTExpire (e : EngId) (s : State) : Result := .next (s.veWaitDone e)

/-! The end of the program (R146). -/

def State.veHalt (s : State) (e : Nat) : State :=
  (s.modEng e fun k => { k with st := .halted, ctx := { k.ctx with held := .none } }).releaseCore (coreOfEng e)

def execVHalt (e : EngId) (s : State) : Result :=
  .next (s.veIssue e fun t => if (t.eng e).ctx.quiet then t.veHalt e else t.veHold e .stall .halt)

/-- A v.halt that waited ends once the conditions of v.fence hold. -/
def State.veHaltDone (s : State) (e : Nat) : State :=
  let x := (s.eng e).ctx
  if x.held = .halt ∧ x.dmas = [] then (s.veFlush e).veHalt e else s

def execVHaltComplete (e : EngId) (s : State) : Result := .next (s.veHaltDone e)

/-- A word that R148, R150 or R151 reserves raises an instruction fault. -/
def execVeReservedOpcode (e : EngId) (w : W32) (s : State) : Result :=
  .next (if veReserved w then s.veIssue e fun t => t.veFault e .instr else s)

end Sys2Proof.Machine
end

