-- ==== Sys2Proof/Machine/Dispatch.lean ====
section
/-! DEFINITION. One arm for each command of the table: a direct call of its meaning. -/

namespace Sys2Proof.Machine

def exec (i : Instr) (s : State) : Host.Outcome State Fault Refusal :=
  match i with
  | .wld c a b sub part => Sys2Proof.Machine.execWld c a b sub part s
  | .wldt c a b sub part => Sys2Proof.Machine.execWldt c a b sub part s
  | .wldProceed c => Sys2Proof.Machine.execWldProceed c s
  | .loadComplete c k => Sys2Proof.Machine.execLoadComplete c k s
  | .wswapF c => Sys2Proof.Machine.execWswapF c s
  | .jet c a part swap m => Sys2Proof.Machine.execJet c a part swap m s
  | .ats c a mask part swap m => Sys2Proof.Machine.execAts c a mask part swap m s
  | .atx c a part swap m => Sys2Proof.Machine.execAtx c a part swap m s
  | .atv c a part swap m => Sys2Proof.Machine.execAtv c a part swap m s
  | .passIssue c => Sys2Proof.Machine.execPassIssue c s
  | .prescanEnd c => Sys2Proof.Machine.execPrescanEnd c s
  | .rowEntry c => Sys2Proof.Machine.execRowEntry c s
  | .drainOutput c arrB sub row col => Sys2Proof.Machine.execDrainOutput c arrB sub row col s
  | .drainWriteComplete c k => Sys2Proof.Machine.execDrainWriteComplete c k s
  | .chunkCloseTimeout c k => Sys2Proof.Machine.execChunkCloseTimeout c k s
  | .drn c a b dest sub flags => Sys2Proof.Machine.execDrn c a b dest sub flags s
  | .mov c a dest => Sys2Proof.Machine.execMov c a dest s
  | .movComplete c k => Sys2Proof.Machine.execMovComplete c k s
  | .put c a dest flow => Sys2Proof.Machine.execPut c a dest flow s
  | .putComplete op => Sys2Proof.Machine.execPutComplete op s
  | .semw c q n => Sys2Proof.Machine.execSemw c q n s
  | .semwSatisfied q => Sys2Proof.Machine.execSemwSatisfied q s
  | .sems c q n => Sys2Proof.Machine.execSems c q n s
  | .semsRel c q n => Sys2Proof.Machine.execSemsRel c q n s
  | .semsRelAdd c => Sys2Proof.Machine.execSemsRelAdd c s
  | .fence c l d m p => Sys2Proof.Machine.execFence c l d m p s
  | .fenceComplete c => Sys2Proof.Machine.execFenceComplete c s
  | .waitt c unit k => Sys2Proof.Machine.execWaitt c unit k s
  | .waittA c unit k => Sys2Proof.Machine.execWaittA c unit k s
  | .waittExpire c => Sys2Proof.Machine.execWaittExpire c s
  | .loop c len count => Sys2Proof.Machine.execLoop c len count s
  | .br c target => Sys2Proof.Machine.execBr c target s
  | .brSemz c target q => Sys2Proof.Machine.execBrSemz c target q s
  | .brSemnz c target q => Sys2Proof.Machine.execBrSemnz c target q s
  | .brRet c => Sys2Proof.Machine.execBrRet c s
  | .brLast c target => Sys2Proof.Machine.execBrLast c target s
  | .call c target => Sys2Proof.Machine.execCall c target s
  | .yieldPt c => Sys2Proof.Machine.execYieldPt c s
  | .halt c code => Sys2Proof.Machine.execHalt c code s
  | .haltComplete c => Sys2Proof.Machine.execHaltComplete c s
  | .zen c level lead => Sys2Proof.Machine.execZen c level lead s
  | .csnap c dest index => Sys2Proof.Machine.execCsnap c dest index s
  | .sqReservedOpcode c w => Sys2Proof.Machine.execSqReservedOpcode c w s
  | .columnSteeringSwitch c => Sys2Proof.Machine.execColumnSteeringSwitch c s
  | .sAdd e sd sa sb => Sys2Proof.Machine.execSAdd e sd sa sb s
  | .sSub e sd sa sb => Sys2Proof.Machine.execSSub e sd sa sb s
  | .sMul e sd sa sb => Sys2Proof.Machine.execSMul e sd sa sb s
  | .sAnd e sd sa sb => Sys2Proof.Machine.execSAnd e sd sa sb s
  | .sOr e sd sa sb => Sys2Proof.Machine.execSOr e sd sa sb s
  | .sXor e sd sa sb => Sys2Proof.Machine.execSXor e sd sa sb s
  | .sShl e sd sa sb => Sys2Proof.Machine.execSShl e sd sa sb s
  | .sShr e sd sa sb => Sys2Proof.Machine.execSShr e sd sa sb s
  | .sSlt e sd sa sb => Sys2Proof.Machine.execSSlt e sd sa sb s
  | .sAmoAdd e wide sd sa sb => Sys2Proof.Machine.execSAmoAdd e wide sd sa sb s
  | .sAmoCas e wide sd sa sb => Sys2Proof.Machine.execSAmoCas e wide sd sa sb s
  | .sAmoMin e wide sd sa sb => Sys2Proof.Machine.execSAmoMin e wide sd sa sb s
  | .sAmoMax e wide sd sa sb => Sys2Proof.Machine.execSAmoMax e wide sd sa sb s
  | .sAddi e sd sa imm => Sys2Proof.Machine.execSAddi e sd sa imm s
  | .sIns e sd sa imm => Sys2Proof.Machine.execSIns e sd sa imm s
  | .sLd e sd sa off => Sys2Proof.Machine.execSLd e sd sa off s
  | .sSt e src sa off => Sys2Proof.Machine.execSSt e src sa off s
  | .sBeq e sa sb off => Sys2Proof.Machine.execSBeq e sa sb off s
  | .sBne e sa sb off => Sys2Proof.Machine.execSBne e sa sb off s
  | .sBlt e sa sb off => Sys2Proof.Machine.execSBlt e sa sb off s
  | .sJalr e sa sb off => Sys2Proof.Machine.execSJalr e sa sb off s
  | .vAddF32 e vd va vb pm => Sys2Proof.Machine.execVAddF32 e vd va vb pm s
  | .vSubF32 e vd va vb pm => Sys2Proof.Machine.execVSubF32 e vd va vb pm s
  | .vMulF32 e vd va vb pm => Sys2Proof.Machine.execVMulF32 e vd va vb pm s
  | .vFmaF32 e vd va vb pm => Sys2Proof.Machine.execVFmaF32 e vd va vb pm s
  | .vMaxF32 e vd va vb pm => Sys2Proof.Machine.execVMaxF32 e vd va vb pm s
  | .vMinF32 e vd va vb pm => Sys2Proof.Machine.execVMinF32 e vd va vb pm s
  | .vExp e vd va pm => Sys2Proof.Machine.execVExp e vd va pm s
  | .vRcp e vd va pm => Sys2Proof.Machine.execVRcp e vd va pm s
  | .vRsqrt e vd va pm => Sys2Proof.Machine.execVRsqrt e vd va pm s
  | .vCvtF32I32 e vd va pm => Sys2Proof.Machine.execVCvtF32I32 e vd va pm s
  | .vCvtI32F32 e vd va pm => Sys2Proof.Machine.execVCvtI32F32 e vd va pm s
  | .vCmpLtF32 e pd va vb pm => Sys2Proof.Machine.execVCmpLtF32 e pd va vb pm s
  | .vCmpEqF32 e pd va vb pm => Sys2Proof.Machine.execVCmpEqF32 e pd va vb pm s
  | .vFmaw e vd va vb pm => Sys2Proof.Machine.execVFmaw e vd va vb pm s
  | .vAddI32 e vd va vb pm => Sys2Proof.Machine.execVAddI32 e vd va vb pm s
  | .vSubI32 e vd va vb pm => Sys2Proof.Machine.execVSubI32 e vd va vb pm s
  | .vMulI32 e vd va vb pm => Sys2Proof.Machine.execVMulI32 e vd va vb pm s
  | .vAnd e vd va vb pm => Sys2Proof.Machine.execVAnd e vd va vb pm s
  | .vOr e vd va vb pm => Sys2Proof.Machine.execVOr e vd va vb pm s
  | .vXor e vd va vb pm => Sys2Proof.Machine.execVXor e vd va vb pm s
  | .vShlI32 e vd va vb pm => Sys2Proof.Machine.execVShlI32 e vd va vb pm s
  | .vShrI32 e vd va vb pm => Sys2Proof.Machine.execVShrI32 e vd va vb pm s
  | .vAddI16 e vd va vb pm => Sys2Proof.Machine.execVAddI16 e vd va vb pm s
  | .vCmpLtI32 e pd va vb pm => Sys2Proof.Machine.execVCmpLtI32 e pd va vb pm s
  | .vSel e vd va vb pm => Sys2Proof.Machine.execVSel e vd va vb pm s
  | .vHsumF32 e vd va pm => Sys2Proof.Machine.execVHsumF32 e vd va pm s
  | .vHmaxF32 e vd va pm => Sys2Proof.Machine.execVHmaxF32 e vd va pm s
  | .vMov e vd va pm => Sys2Proof.Machine.execVMov e vd va pm s
  | .vPerm e vd va vb pm => Sys2Proof.Machine.execVPerm e vd va vb pm s
  | .vAddF32S e vd va sb pm => Sys2Proof.Machine.execVAddF32S e vd va sb pm s
  | .vMulF32S e vd va sb pm => Sys2Proof.Machine.execVMulF32S e vd va sb pm s
  | .vFmaF32S e vd va sb pm => Sys2Proof.Machine.execVFmaF32S e vd va sb pm s
  | .vAddI32S e vd va sb pm => Sys2Proof.Machine.execVAddI32S e vd va sb pm s
  | .vBcast e vd sb pm => Sys2Proof.Machine.execVBcast e vd sb pm s
  | .vLane e vd sb pm => Sys2Proof.Machine.execVLane e vd sb pm s
  | .vLd e v sa pm cv imm => Sys2Proof.Machine.execVLd e v sa pm cv imm s
  | .vSt e v sa pm cv imm => Sys2Proof.Machine.execVSt e v sa pm cv imm s
  | .vRedEs16 e vd sa sb pm => Sys2Proof.Machine.execVRedEs16 e vd sa sb pm s
  | .vRedS1 e vd sa sb pm => Sys2Proof.Machine.execVRedS1 e vd sa sb pm s
  | .vRes e sd va => Sys2Proof.Machine.execVRes e sd va s
  | .vRand e vd sa sb pm => Sys2Proof.Machine.execVRand e vd sa sb pm s
  | .vPmov e pd sa pm => Sys2Proof.Machine.execVPmov e pd sa s pm
  | .vUctx e sa => Sys2Proof.Machine.execVUctx e sa s
  | .vUpdAdam e vd va vb pm => Sys2Proof.Machine.execVUpdAdam e vd va vb pm s
  | .vUpdSgdm e vd va vb pm => Sys2Proof.Machine.execVUpdSgdm e vd va vb pm s
  | .vUpdEf e vd va pm => Sys2Proof.Machine.execVUpdEf e vd va pm s
  | .vUnpackMxfp4 e vd va sb pm => Sys2Proof.Machine.execVUnpackMxfp4 e vd va sb pm s
  | .vUnpackMxfp6E2m3 e vd va sb pm => Sys2Proof.Machine.execVUnpackMxfp6E2m3 e vd va sb pm s
  | .vUnpackMxfp6E3m2 e vd va sb pm => Sys2Proof.Machine.execVUnpackMxfp6E3m2 e vd va sb pm s
  | .vUnpackMxint8 e vd va sb pm => Sys2Proof.Machine.execVUnpackMxint8 e vd va sb pm s
  | .vPackMxfp4 e vd va sd pm => Sys2Proof.Machine.execVPackMxfp4 e vd va sd pm s
  | .vPackMxfp6E2m3 e vd va sd pm => Sys2Proof.Machine.execVPackMxfp6E2m3 e vd va sd pm s
  | .vPackMxfp6E3m2 e vd va sd pm => Sys2Proof.Machine.execVPackMxfp6E3m2 e vd va sd pm s
  | .vPackMxint8 e vd va sd pm => Sys2Proof.Machine.execVPackMxint8 e vd va sd pm s
  | .vAcq e sa sb => Sys2Proof.Machine.execVAcq e sa sb s
  | .vAcqAll e => Sys2Proof.Machine.execVAcqAll e s
  | .vFence e => Sys2Proof.Machine.execVFence e s
  | .vFenceComplete e => Sys2Proof.Machine.execVFenceComplete e s
  | .vSemW e sa sb => Sys2Proof.Machine.execVSemW e sa sb s
  | .vSemWSatisfied e => Sys2Proof.Machine.execVSemWSatisfied e s
  | .vSemS e sa sb => Sys2Proof.Machine.execVSemS e sa sb s
  | .vSemSRel e sa sb => Sys2Proof.Machine.execVSemSRel e sa sb s
  | .vSemSRelAdd e => Sys2Proof.Machine.execVSemSRelAdd e s
  | .vDma e sa => Sys2Proof.Machine.execVDma e sa s
  | .vDmaComplete e k => Sys2Proof.Machine.execVDmaComplete e k s
  | .vRsys e sd sb => Sys2Proof.Machine.execVRsys e sd sb s
  | .vWsys e sa sb => Sys2Proof.Machine.execVWsys e sa sb s
  | .vWaitT e sa => Sys2Proof.Machine.execVWaitT e sa s
  | .vWaitTExpire e => Sys2Proof.Machine.execVWaitTExpire e s
  | .vHalt e => Sys2Proof.Machine.execVHalt e s
  | .vHaltComplete e => Sys2Proof.Machine.execVHaltComplete e s
  | .veReservedOpcode e w => Sys2Proof.Machine.execVeReservedOpcode e w s
  | .beatBoundary m => Sys2Proof.Machine.execBeatBoundary m s
  | .epochBoundary m => Sys2Proof.Machine.execEpochBoundary m s
  | .avsFrameRetry r => Sys2Proof.Machine.execAvsFrameRetry r s
  | .instanceLaunch k => Sys2Proof.Machine.execInstanceLaunch k s
  | .slewStep => Sys2Proof.Machine.execSlewStep s
  | .time l f => Sys2Proof.Machine.execTime l f s
  | .lockAcquired => Sys2Proof.Machine.execLockAcquired s
  | .upstreamLinkFail alt => Sys2Proof.Machine.execUpstreamLinkFail alt s
  | .holdoverTimeout => Sys2Proof.Machine.execHoldoverTimeout s
  | .holdLimit => Sys2Proof.Machine.execHoldLimit s
  | .refLost tenMhz => Sys2Proof.Machine.execRefLost s tenMhz
  | .referenceReturn offset => Sys2Proof.Machine.execReferenceReturn offset s
  | .ppsEdge => Sys2Proof.Machine.execPpsEdge s
  | .ptpMessage m => Sys2Proof.Machine.execPtpMessage m s
  | .commandPost cc k w0 args => Sys2Proof.Machine.execCommandPost cc k w0 args s
  | .jobLoad k => Sys2Proof.Machine.execJobLoad k s
  | .jobStart k => Sys2Proof.Machine.execJobStart k s
  | .jobStop k => Sys2Proof.Machine.execJobStop k s
  | .jobShare k => Sys2Proof.Machine.execJobShare k s
  | .modelLoad k => Sys2Proof.Machine.execModelLoad k s
  | .modelUnload k => Sys2Proof.Machine.execModelUnload k s
  | .capSet k => Sys2Proof.Machine.execCapSet k s
  | .rampPlan k => Sys2Proof.Machine.execRampPlan k s
  | .testSpares k nfail lowest => Sys2Proof.Machine.execTestSpares k nfail lowest s
  | .testArray k nfail lowest => Sys2Proof.Machine.execTestArray k nfail lowest s
  | .testColumn k nfail lowest => Sys2Proof.Machine.execTestColumn k nfail lowest s
  | .testEngine k nfail lowest => Sys2Proof.Machine.execTestEngine k nfail lowest s
  | .testRow k nfail lowest => Sys2Proof.Machine.execTestRow k nfail lowest s
  | .testLane k nfail lowest => Sys2Proof.Machine.execTestLane k nfail lowest s
  | .testTimeout k => Sys2Proof.Machine.execTestTimeout k s
  | .linkeq k => Sys2Proof.Machine.execLinkeq k s
  | .vplan k steps held => Sys2Proof.Machine.execVplan k steps held s
  | .ageperiod k => Sys2Proof.Machine.execAgeperiod k s
  | .regather k => Sys2Proof.Machine.execRegather k s
  | .repairColumn k => Sys2Proof.Machine.execRepairColumn k s
  | .repairEngine k => Sys2Proof.Machine.execRepairEngine k s
  | .repairRow k => Sys2Proof.Machine.execRepairRow k s
  | .repairLane k => Sys2Proof.Machine.execRepairLane k s
  | .attestQuote k => Sys2Proof.Machine.execAttestQuote k s
  | .roleSet k => Sys2Proof.Machine.execRoleSet k s
  | .timeLock k => Sys2Proof.Machine.execTimeLock k s
  | .resetWarm k => Sys2Proof.Machine.execResetWarm k s
  | .logRead k => Sys2Proof.Machine.execLogRead k s
  | .jobSlotStop j cause => Sys2Proof.Machine.execJobSlotStop j cause s
  | .instanceSave k => Sys2Proof.Machine.execInstanceSave k s
  | .instanceRestore k => Sys2Proof.Machine.execInstanceRestore k s
  | .yieldBack k => Sys2Proof.Machine.execYieldBack k s
  | .packetSend l k => Sys2Proof.Machine.execPacketSend l k s
  | .packetReceive l p crc => Sys2Proof.Machine.execPacketReceive l p crc s
  | .packetForward l vc => Sys2Proof.Machine.execPacketForward l vc s
  | .controlCell l w0 w1 => Sys2Proof.Machine.execControlCell l w0 w1 s
  | .replayTimeout l => Sys2Proof.Machine.execReplayTimeout l s
  | .laneFail l lane1 => Sys2Proof.Machine.execLaneFail l lane1 s
  | .linkLost l => Sys2Proof.Machine.execLinkLost l s
  | .linkHoldExpire l => Sys2Proof.Machine.execLinkHoldExpire l s
  | .data src => Sys2Proof.Machine.execData src s
  | .reduce src => Sys2Proof.Machine.execReduce src s
  | .lap src => Sys2Proof.Machine.execLap src s
  | .ack src => Sys2Proof.Machine.execAck src s
  | .mgmt src => Sys2Proof.Machine.execMgmt src s
  | .ackTimer schip flow => Sys2Proof.Machine.execAckTimer schip flow s
  | .operationTimeout op => Sys2Proof.Machine.execOperationTimeout op s
  | .tailWrite e => Sys2Proof.Machine.execTailWrite e s
  | .reductionDeadline j n => Sys2Proof.Machine.execReductionDeadline j n s
  | .stepCommit j => Sys2Proof.Machine.execStepCommit j s
  | .contrailRecompute c slot => Sys2Proof.Machine.execContrailRecompute c slot s
  | .kvpAlloc cc => Sys2Proof.Machine.execKvpAlloc cc s
  | .kvpFree cc v => Sys2Proof.Machine.execKvpFree cc v s
  | .kvpEnable cc => Sys2Proof.Machine.execKvpEnable cc s
  | .kvpDisable cc => Sys2Proof.Machine.execKvpDisable cc s
  | .kvpReady => Sys2Proof.Machine.execKvpReady s
  | .relow cc => Sys2Proof.Machine.execRelow cc s
  | .semAdd cc q amt => Sys2Proof.Machine.execSemAdd cc q amt s
  | .semTake cc q amt => Sys2Proof.Machine.execSemTake cc q amt s
  | .registerWrite cc addr v => Sys2Proof.Machine.execRegisterWrite cc addr v s
  | .registerAccessFault cc addr size store => Sys2Proof.Machine.execRegisterAccessFault cc addr size store s
  | .scrubLine p => Sys2Proof.Machine.execScrubLine p s
  | .wcbTimeoutFlush p line => Sys2Proof.Machine.execWcbTimeoutFlush p line s
  | .sensorConversion r => Sys2Proof.Machine.execSensorConversion r s
  | .shallowDroop r => Sys2Proof.Machine.execShallowDroop r s
  | .deepDroop r => Sys2Proof.Machine.execDeepDroop r s
  | .ageingMeasurement u marginPermille steps held => Sys2Proof.Machine.execAgeingMeasurement u marginPermille steps held s
  | .recordGathered u => Sys2Proof.Machine.execRecordGathered u s
  | .logRecord => Sys2Proof.Machine.execLogRecord s
  | .supplyResetAssert => Sys2Proof.Machine.execSupplyResetAssert s
  | .coldStart f t straps => Sys2Proof.Machine.execColdStart f t straps s
  | .linkTraining r => Sys2Proof.Machine.execLinkTraining r s
  | .i3cWrite index bytes => Sys2Proof.Machine.execI3cWrite index bytes s
  | .bootreqTimer => Sys2Proof.Machine.execBootreqTimer s
  | .boot m => Sys2Proof.Machine.execBoot m s
  | .bootVerify => Sys2Proof.Machine.execBootVerify s
  | .hello m => Sys2Proof.Machine.execHello m s
  | .accept m => Sys2Proof.Machine.execAccept m s
  | .cmd m => Sys2Proof.Machine.execCmd m s
  | .bulk m => Sys2Proof.Machine.execBulk m s
  | .close m => Sys2Proof.Machine.execClose m s
  | .sessionTimeout session => Sys2Proof.Machine.execSessionTimeout session s
  | .portFragmentTimeout src session seq => Sys2Proof.Machine.execPortFragmentTimeout src session seq s
  | .announce => Sys2Proof.Machine.execAnnounce s
  | .heartbeat => Sys2Proof.Machine.execHeartbeat s
  | .status => Sys2Proof.Machine.execStatus s
  | .takeover => Sys2Proof.Machine.execTakeover s
  | .mgmtCmd => Sys2Proof.Machine.execMgmtCmd s
  | .cmdresp => Sys2Proof.Machine.execCmdresp s
  | .haloplan => Sys2Proof.Machine.execHaloplan s
  | .roleplan => Sys2Proof.Machine.execRoleplan s
  | .logcopy => Sys2Proof.Machine.execLogcopy s
  | .imgreq => Sys2Proof.Machine.execImgreq s
  | .imgdata => Sys2Proof.Machine.execImgdata s
  | .imgreqRetry => Sys2Proof.Machine.execImgreqRetry s
  | .rampshare => Sys2Proof.Machine.execRampshare s
  | .mgmtFragmentTimeout schip mseq => Sys2Proof.Machine.execMgmtFragmentTimeout schip mseq s
  | .memberFail chip => Sys2Proof.Machine.execMemberFail chip s
  | .deputyTakeover => Sys2Proof.Machine.execDeputyTakeover s
  | .droopRecovery r => Sys2Proof.Machine.execDroopRecovery r s
  | .uncorrectableCodeword l => Sys2Proof.Machine.execUncorrectableCodeword l s

end Sys2Proof.Machine
end

