-- ==== Sys2Proof/Safety.lean ====
section
/-! DEFINITION. What a safe step is, and the words the statements are said in: what a command gives, what it leaves
as it was, and the invariants of the memory. -/

namespace Sys2Proof

/-- The outcome is a next state. -/
def Safe (o : Host.Outcome Machine.State Machine.Fault Machine.Refusal) : Prop := ∃ s, o = .next s

end Sys2Proof

namespace Sys2Proof.Claim

open Sys2Proof.Machine

/-- The command answers a next state, and `P` holds of it. -/
def Gives (i : Instr) (s : State) (P : State → Prop) : Prop := ∃ t, exec i s = .next t ∧ P t

/-! Memory. -/

/-- Every line reads good (R185). -/
def LinesGood (s : State) : Prop := ∀ l, s.lineSt l = .good

/-- An entry of a write-combining buffer is one line of the port that holds it, with bytes of that line (R188). -/
def EntrySound (p : Nat) (w : WcbEntry) : Prop :=
  wcbPort w.line = some p ∧ lineOf w.line = w.line ∧ canon w.line = w.line ∧ SMap.wf none w.bytes = true ∧
    ∀ q ∈ w.bytes, q.1 < 128

/-- Every write-combining buffer holds sound entries only, one for a line. -/
def WcbSound (s : State) : Prop :=
  ∀ p, (∀ w ∈ s.wcbAt p, EntrySound p w) ∧ ((s.wcbAt p).map (·.line)).Nodup

/-- The bytes written read back, and every byte outside them reads as before. -/
def Stored (a : Nat) (bs : List Byte) (s t : State) : Prop :=
  (∀ i, i < bs.length → t.peek (a + i) = (bs[i]?).getD 0) ∧
    ∀ b, (∀ i, i < bs.length → canon b ≠ canon (a + i)) → t.peek b = s.peek b

/-- Every byte of memory reads as before. -/
def MemKept (s t : State) : Prop := ∀ b, t.peek b = s.peek b

/-- Memory has only been read: a line that a control core held dirty may be clean there (R214). -/
def MemRead (s t : State) : Prop := t.mem = { s.mem with held := t.mem.held }

/-! Engines. -/

/-- Engine e issues: in RUN, not stopped for a save, its next word in its own local store (R146, R443). -/
def EngIssues (s : State) (e : Nat) : Prop :=
  (s.eng e).st = .run ∧ s.veStopped e = false ∧ (s.eng e).ctx.pc < lsWords

/-- Every engine but e is as before. -/
def OtherEngines (e : Nat) (s t : State) : Prop := ∀ f, f ≠ e → t.eng f = s.eng f

/-- Of the counters only ISSUED of the engine has changed, by one (R475). -/
def IssuedOne (e : Nat) (s t : State) : Prop :=
  t.cnt = { s.cnt with cnt := t.cnt.cnt } ∧
    ∀ k, t.cntr k = if k = cntVe e 0 then cntAdd (s.cntr k) 1 else s.cntr k

/-- Only engine e and its ISSUED counter have changed: every other unit, all memory and every register are as before. -/
def EngineOnly (e : Nat) (s t : State) : Prop :=
  t = { s with engines := t.engines, cnt := t.cnt } ∧ OtherEngines e s t ∧ IssuedOne e s t

/-- The engine goes on to its next word, with these registers. -/
def engNext (k : Engine) (x : VeCtx) : Engine :=
  { k with st := .run, ctx := { x with pc := k.ctx.pc + 1, held := .none } }

/-- The engine waits with its instruction held. -/
def engHeld (k : Engine) (st : VeState) (h : VeHeld) : Engine :=
  { k with st := st, ctx := { k.ctx with held := h } }

/-- Scalar register sd reads v, unless it is s0; every other one reads as before (R147). -/
def SregSet (sd : BitVec 5) (v : W64) (x y : VeCtx) : Prop :=
  ∀ r, y.sreg r = if r = sd ∧ r ≠ 0 then v else x.sreg r

/-- The active lanes of vd read `f`; every other lane of every register reads as before (R148). -/
def LanesSet (vd : BitVec 6) (mask : W32) (f : Nat → W32) (x y : VeCtx) : Prop :=
  ∀ r i, i < 32 → y.lane r i = if r = vd ∧ mask.getLsbD i = true then f i else x.lane r i

/-- The active bits of pd read `f`; p0 and every other bit of every predicate read as before (R147, R148). -/
def PredSet (pd : BitVec 3) (mask : W32) (f : Nat → Bool) (x y : VeCtx) : Prop :=
  ∀ r i, i < 32 → (y.preg r).getLsbD i = if r = pd ∧ r ≠ 0 ∧ mask.getLsbD i = true then f i else (x.preg r).getLsbD i

/-- A scalar result and nothing else. -/
def ScalarResult (e : Nat) (sd : BitVec 5) (v : W64) (s t : State) : Prop :=
  EngineOnly e s t ∧ t.eng e = engNext (s.eng e) { (s.eng e).ctx with sregs := (t.eng e).ctx.sregs } ∧
    SregSet sd v (s.eng e).ctx (t.eng e).ctx

/-- A vector result and nothing else. -/
def VectorResult (e : Nat) (vd : BitVec 6) (mask : W32) (f : Nat → W32) (s t : State) : Prop :=
  EngineOnly e s t ∧ t.eng e = engNext (s.eng e) { (s.eng e).ctx with vregs := (t.eng e).ctx.vregs } ∧
    LanesSet vd mask f (s.eng e).ctx (t.eng e).ctx

/-- A predicate result and nothing else. -/
def PredicateResult (e : Nat) (pd : BitVec 3) (mask : W32) (f : Nat → Bool) (s t : State) : Prop :=
  EngineOnly e s t ∧ t.eng e = engNext (s.eng e) { (s.eng e).ctx with pregs := (t.eng e).ctx.pregs } ∧
    PredSet pd mask f (s.eng e).ctx (t.eng e).ctx

/-- The engine has become k, and nothing else has changed. -/
def EngineIs (e : Nat) (k : Engine) (s t : State) : Prop := EngineOnly e s t ∧ t.eng e = k

/-- The engine has faulted: its code and address stand in its status, the event is noted for the log, and nothing else
has changed (R174, R482). -/
def EngineFaults (e : Nat) (code : VeCode) (s t : State) : Prop :=
  t = { s with engines := t.engines, cnt := t.cnt } ∧ OtherEngines e s t ∧
    t.eng e = { s.eng e with st := .fault, code := code, fpc := (s.eng e).ctx.pc,
                             ctx := { (s.eng e).ctx with held := .none } } ∧
    ∃ r ∈ t.cnt.due, r.code = 0x11 ∧ r.unit = e ∧ r.slot = (s.eng e).job

/-- What a read of n bytes by engine e returns: its data cache's copy of the line where it holds one, else memory
(R157, R158). -/
def EngBytes (s : State) (e a n : Nat) : List Byte :=
  match locate a with
  | .stack _ _ =>
    match (s.eng e).dcache.find? fun q => q.1 == lineOf (canon a) with
    | some q => (q.2.drop (canon a % 128)).take n
    | none => s.bytes a n
  | _ => s.bytes a n

/-- An access of n bytes at `a` that raises no fault (R155, R156). -/
def EngAccess (s : State) (a n : Nat) : Prop := s.jobRange a n = true ∧ a % n = 0 ∧ LinesGood s

/-- A load's frame: the engine's registers, its data cache, counters, and the model's own number of free values used. A line
that a control core held dirty may be clean there (R214). -/
def LoadFrame (e : Nat) (s t : State) : Prop :=
  t = { s with engines := t.engines, cnt := t.cnt, fresh := t.fresh, mem := { s.mem with held := t.mem.held } } ∧
    OtherEngines e s t

/-- A store's frame: the engine, its counters, and memory. -/
def StoreFrame (e : Nat) (s t : State) : Prop :=
  t = { s with engines := t.engines, cnt := t.cnt, mem := t.mem } ∧ OtherEngines e s t

/-- Semaphore n counts k, its waiters and grant as before; every other semaphore is as before. -/
def CountSet (n k : Nat) (s t : State) : Prop :=
  ∀ m, t.sem m = if m = n then { s.sem m with count := k } else s.sem m

/-- The frame of a semaphore operation of a unit: that unit, semaphores, the instances' account of them, counters. -/
def SemFrame (s t : State) : Prop :=
  t = { s with engines := t.engines, cores := t.cores, sems := t.sems, cnt := t.cnt,
               fw := { s.fw with insts := t.fw.insts } }

/-! Sequencers. -/

/-- The sequencer of core c issues: in RUN, not stopped for a save, its PC in the job's range (R107, R135, R443). -/
def SeqIssues (s : State) (c : Nat) : Prop :=
  (s.core c).st = .run ∧ s.sqStopped c = false ∧ (s.core c).pcOk (s.core c).ctx.pc = true

/-- Every core but c is as before. -/
def OtherCores (c : Nat) (s t : State) : Prop := ∀ d, d ≠ c → t.core d = s.core d

/-- Core c has become k, and nothing else has changed: every other unit, memory and register is as before. -/
def CoreIs (c : Nat) (k : Core) (s t : State) : Prop :=
  t = { s with cores := t.cores } ∧ OtherCores c s t ∧ t.core c = k

/-- The frame of a command of core c that may read or write memory: core c, counters, memory, and the model's own number
of free values used. -/
def SeqFrame (c : Nat) (s t : State) : Prop :=
  t = { s with cores := t.cores, cnt := t.cnt, mem := t.mem, fresh := t.fresh } ∧ OtherCores c s t

/-- A plane, and an array, without Contrail's marks on their tiles (R263). -/
def barePlane (p : Plane) : Plane := { p with tiles := p.tiles.map fun t => { t with slot := none } }
def bareArray (a : ArrayState) : ArrayState := { a with active := barePlane a.active, shadow := barePlane a.shadow }

/-- The sequencer goes on to its next word, by the loops it is in (R133). -/
def seqNext (k : Core) : Core :=
  { k with st := .run,
           ctx := { k.ctx with pc := (loopStep k.ctx.pc k.ctx.loops).1, loops := (loopStep k.ctx.pc k.ctx.loops).2,
                               held := .none } }

/-- The sequencer stalls or waits with its instruction held. -/
def seqHeld (k : Core) (st : SqState) (h : SqHeld) : Core := { k with st := st, ctx := { k.ctx with held := h } }

/-- The sequencer has faulted: SQ_FAULT holds the code, the address and the descriptor, the event is noted for the log, and
nothing else has changed (R142, R482). -/
def SeqFaults (c : Nat) (code : SqCode) (pc desc : Nat) (s t : State) : Prop :=
  t = { s with cores := t.cores, cnt := t.cnt } ∧ OtherCores c s t ∧
    t.core c = { s.core c with st := .fault, faultCode := code, faultDesc := desc, faultPc := pc,
                               ctx := { (s.core c).ctx with held := .none } } ∧
    ∃ r ∈ t.cnt.due, r.code = 0x10 ∧ r.unit = c ∧ r.slot = (s.core c).job

/-! Meridian. -/

/-- Meridian has become m, and nothing else has changed. -/
def MerIs (m : Mer) (s t : State) : Prop := t = { s with mer := m }

/-- What a measured offset of the own count does, in picoseconds (R27 to R29): a step in ACQUIRE, a slew in LOCKED and
HOLDOVER up to 10 microseconds and FAULT beyond, nothing in FREE and FAULT. -/
def OffsetTaken (off : Int) (s t : State) : Prop :=
  t.mer.offset = offsetWord off ∧
  (s.mer.st = .acquire → t.mer.now = w64 ((s.now : Int) - psTicks off).toNat ∧ t.mer.st = .acquire) ∧
  (s.mer.st = .locked ∨ s.mer.st = .holdover → off.natAbs ≤ 10000000 →
    t.mer.slew = - psTicks off ∧ t.mer.now = s.mer.now ∧
      t.mer.st = (if s.mer.st = .holdover ∧ psTicks off = 0 then .locked else s.mer.st)) ∧
  (s.mer.st = .locked ∨ s.mer.st = .holdover → 10000000 < off.natAbs →
    t.mer.st = .fault ∧ bit t.mer.evt 2 = true ∧ t.mer.now = s.mer.now) ∧
  (s.mer.st = .free ∨ s.mer.st = .fault → t.mer.now = s.mer.now ∧ t.mer.st = s.mer.st ∧ t.mer.slew = s.mer.slew)

/-! Instances. -/

/-- No instance of slot j remains. -/
def NoInst (j : Nat) (t : State) : Prop := ∀ y ∈ t.fw.insts, y.job ≠ j

/-- An instance of this entry and number stands in this state. -/
def InstIs (t : State) (entry no : Nat) (st : InstState) : Prop :=
  ∃ y ∈ t.fw.insts, y.entry = entry ∧ y.no = no ∧ y.st = st

/-- Slot j has been stopped for a cause (R437): its state and cause, no instance, no valid entry, the JOBSTOP event. -/
def SlotStopped (j cause : Nat) (t : State) : Prop :=
  (t.job j).st = (if cause = 4 then .failedByMgr else .faulted) ∧ (t.job j).cause = cause ∧ NoInst j t ∧
    (∀ p ∈ t.sched, p.2.job = j → p.2.valid = false) ∧ ∃ r ∈ t.cnt.due, r.code = 0x12 ∧ r.slot = j

/-! Darkel's commands. -/

/-- The command in entry i has completed with a status and a result (R418): words 6 and 7, then word 0 with OWN clear. -/
def CmdDone (i status result : Nat) (s t : State) : Prop :=
  (t.cmd i).phase = .free ∧ (t.cmd i).word 6 = statusWord status result ∧ (t.cmd i).word 7 = t.mer.now ∧
    (t.cmd i).word 0 = clrBit ((s.cmd i).took 0) 63

/-- No session and no manager waits for the answer of entry i (R387, R471). -/
def NoReply (i : Nat) (s : State) : Prop :=
  (s.sec.portCmds.find? fun p => p.1 == i) = none ∧ (s.grp.mgrCmds.find? fun p => p.1 == i) = none

/-- Of Darkel only the command table, its event word and the count of commands read have changed. An answer that goes out to a
manager lets its flow send, and a packet whose source cannot be read faults the unit it is for: where that unit was in SEMW the
semaphore goes to the next, so the instances' account of semaphores may change with it. -/
def FwKept (s t : State) : Prop :=
  t.fw = { s.fw with cmds := t.fw.cmds, evt := t.fw.evt, nextRead := t.fw.nextRead, insts := t.fw.insts }

/-- The command is refused: its status, REFUSED and the log, and nothing else (R421, R422). -/
def CmdRefused (i status : Nat) (s t : State) : Prop :=
  CmdDone i status 0 s t ∧ bit t.fw.evt 5 = true ∧ FwKept s t ∧ (∃ r ∈ t.cnt.due, r.code = 0x60) ∧
    (NoReply i s → t = { s with fw := { t.fw with insts := s.fw.insts }, cnt := t.cnt })

/-- A TEST.RUN has ended: OK or FAIL, its counts, and the log's TEST record (R450). -/
def TestEnded (i nfail : Nat) (lowest : W32) (s t : State) : Prop :=
  CmdDone i (if nfail = 0 then 0 else 0x1C)
    (min nfail 65535 + 65536 * (if nfail = 0 then 0xFFFFFFFF else lowest.toNat)) s t ∧
  ∃ r ∈ t.cnt.due, r.code = 0x61 ∧ r.a0 = (s.cmd i).arg 0

/-- One more field entry of the repair map holds the command's target (R460). -/
def MapTakes (i : Nat) (s t : State) : Prop :=
  t.sec.fuses.repairs = s.sec.fuses.repairs ++ [(s.cmd i).arg 0] ∧ t.sec.fieldUsed = s.sec.fieldUsed + 1

/-- A repair has completed: OK, and the log's REPAIR record (R453). -/
def RepairEnded (i : Nat) (s t : State) : Prop :=
  CmdDone i 0 0 s t ∧ ∃ r ∈ t.cnt.due, r.code = 0x21 ∧ r.a0 = (s.cmd i).arg 0

/-- A repair found no spare: NOSPARE, and the log's REPAIR record (R453). -/
def RepairNoSpare (i : Nat) (s t : State) : Prop :=
  CmdDone i 0x1A 0 s t ∧ ∃ r ∈ t.cnt.due, r.code = 0x21 ∧ r.a0 = (s.cmd i).arg 0 ∧ r.a1 = 0x1A

/-! Links. -/

/-- Of the links only l has changed, and counters; every other part of the chip is as before. -/
def LinkFrame (l : Nat) (s t : State) : Prop :=
  t = { s with lnk := { s.lnk with link := t.lnk.link }, cnt := t.cnt } ∧ ∀ m, m ≠ l → t.link m = s.link m

/-- Cells have come in on a link that is up: of the links only l has changed, the codewords corrected are counted (R345), and a
free value has been used. -/
def LinkHears (l : Nat) (s t : State) : Prop :=
  t = { s with lnk := { s.lnk with link := t.lnk.link }, cnt := t.cnt, fresh := s.fresh + 1 } ∧ ∀ m, m ≠ l → t.link m = s.link m

/-- Only the links unit and counters have changed. -/
def LinksOnly (s t : State) : Prop := t = { s with lnk := t.lnk, cnt := t.cnt }

/-- Only the links unit and counters have changed, and memory has been read. -/
def LinksRead (s t : State) : Prop := t = { s with lnk := t.lnk, cnt := t.cnt, mem := t.mem } ∧ MemRead s t

/-- Link l has sent x as its next new packet (R332, R334): it takes the next LSEQ, a place in the replay buffer, and a credit of
its channel for each cell; y are the packets that go on waiting. -/
def LinkSent (l vc : Nat) (x : Packet) (y : List TxItem) (s t : State) : Prop :=
  let q := s.link l
  let r := t.link l
  r = { q with txSeq := (q.txSeq + 1) % 256, replay := q.replay ++ [x], sentAt := q.sentAt ++ [s.mer.now], queue := y,
               credits := r.credits, deficits := r.deficits } ∧
    x.lseq = BitVec.ofNat 8 q.txSeq ∧ SMap.get 0 r.credits vc = SMap.get 0 q.credits vc - pktCells x ∧
    (∀ v, v ≠ vc → SMap.get 0 r.credits v = SMap.get 0 q.credits v) ∧ ∀ m, m ≠ l → t.link m = s.link m

/-- Operations of a flow with their numbers, finished ones too. -/
def flowAll (s : State) (f : Nat) : List (Nat × LinkOp) :=
  s.lnk.ops.filterMap fun q => match q.2 with
    | some o => if o.flow = f then some (q.1, o) else none
    | none => none

/-- Operation n has failed with a status (R339): its flow is failed, LNK_EVT.OP_FAIL set, LINKOP noted for the log. -/
def OpFailed (n : Nat) (o : LinkOp) (status : Nat) (s t : State) : Prop :=
  (t.flow o.flow).failed = true ∧ bit t.lnk.evt 4 = true ∧
    t.op n = (if o.job.isSome then some { o with todo := [], unacked := [], failedWith := some status } else none) ∧
    (∀ m, m ≠ n → t.op m = s.op m) ∧ ∃ r ∈ t.cnt.due, r.code = 0x30 ∧ r.a2 = w64 status

/-- Ranges of bytes no two of which share a byte, by either name (R179). -/
def Apart (l : List (Nat × Nat)) : Prop :=
  l.Pairwise fun p q => ∀ i k, i < p.2 → k < q.2 → canon (p.1 + i) ≠ canon (q.1 + k)

/-- The packet's landing has been noted for its acknowledgement (R338): with LAST, or as the eighth, it is acknowledged at once. -/
def LandingNoted (p : Packet) (s t : State) : Prop :=
  let key := pairKey p.schip.toNat p.flow.toNat
  let r := SMap.get Landed.none s.lnk.landed key
  SMap.get Landed.none t.lnk.landed key =
    (if p.last = true ∨ 8 ≤ r.count + 1 then Landed.none
     else ⟨r.count + 1, p.fseq, if r.count = 0 then s.mer.now else r.since⟩)

/-- The packet that lies first, whole, for this chip, of a kind. -/
def Lands (s : State) (src : LandSrc) (kind : Nat) (p : Packet) : Prop :=
  s.landFront src = some p ∧ p.dchip = s.grp.chip ∧ p.kind.toNat = kind

/-! Sections of the chip that a command of Darkel's message queue leaves. -/

/-- The message at the front of the keeper's queue, which has the type and is not made void by its TERM (R379, R387). -/
def Front (s : State) (mtype : Nat) (m : MgmtMsg) : Prop :=
  s.grp.inbox.head? = some m ∧ m.mtype = mtype ∧ s.stale m = false

/-- It has left the queue, and of the chip's other parts only the roles and management have changed. -/
def GrpOnly (s t : State) : Prop := t = { s with grp := t.grp } ∧ t.grp.inbox = s.grp.inbox.tail

/-! The management port. -/

/-- A fragment of the datagram's message: source address, SESSION and SEQ are its own (R468). -/
def partOf (m : PortMsg) (p : PortPart) : Bool := p.src == m.src && p.session == m.session && p.seq == m.seq

/-- The fragments of the datagram's message that are held once it has joined them. -/
def fragsWith (s : State) (m : PortMsg) : SMap (List Byte) :=
  SMap.insert m.fidx m.payload (((s.sec.portParts.find? (partOf m)).map (·.frags)).getD [])

/-- The fragments held of its message, if any, have its TYPE and FCNT. -/
def Joins (s : State) (type : Nat) (m : PortMsg) : Prop :=
  ∀ p, s.sec.portParts.find? (partOf m) = some p → p.type = type ∧ p.fcnt = m.fcnt

/-- With the datagram its message has arrived whole, in one fragment or in several. -/
def Completes (s : State) (type : Nat) (m : PortMsg) : Prop := Joins s type m ∧ (fragsWith s m).length = m.fcnt

/-- That message. -/
def wholeOf (s : State) (type : Nat) (m : PortMsg) : PortWhole :=
  ⟨m.src, m.session, m.seq, headerBytes type m.fcnt (SMap.get [] (fragsWith s m) 0).length m.session m.seq,
    (fragsWith s m).flatMap (·.2)⟩

/-- The datagram is held with the others of a message that is still incomplete, and nothing else has changed. -/
def FragmentHeld (type : Nat) (m : PortMsg) (s t : State) : Prop :=
  t = { s with sec := { s.sec with portParts := t.sec.portParts } } ∧
    ∃ p ∈ t.sec.portParts, partOf m p = true ∧ p.type = type ∧ p.fcnt = m.fcnt ∧ p.frags = fragsWith s m

/-- The state without the fragments held of the datagram's message. -/
def withoutParts (m : PortMsg) (s : State) : State :=
  { s with sec := { s.sec with portParts := s.sec.portParts.filter fun p => !partOf m p } }

/-- Only the port's own state has changed. -/
def PortOnly (s t : State) : Prop := t = { s with sec := t.sec }

/-- One message more has been sent. -/
def PortSent (m : PortOut) (s t : State) : Prop := t.sec.portOut = s.sec.portOut ++ [m]

/-- A message of the session, its tag right (R470), and the payload before the tag. -/
def Authentic (s : State) (type custom : Nat) (m : PortMsg) (q : Session) (body : List Byte) : Prop :=
  s.portOpen = true ∧ Completes s type m ∧ s.session m.session = some q ∧ q.checked custom (wholeOf s type m) = some body

/-- One of Darkel's own entries is free. -/
def EntryFree (s : State) : Prop := ∃ k, k < 64 ∧ (s.cmd (192 + k)).phase = .free ∧ bit ((s.cmd (192 + k)).word 0) 63 = false

/-- A command stands posted in one of Darkel's own entries, its origin in word 0 (R417, R418). -/
def Placed (i origin : Nat) (words : Nat → W64) (s t : State) : Prop :=
  192 ≤ i ∧ i < 256 ∧ (s.cmd i).phase = .free ∧ bit ((s.cmd i).word 0) 63 = false ∧
    (t.cmd i).word 0 = setBit (putFld (words 0) 62 60 origin) 63 ∧
    (∀ k, k < 5 → (t.cmd i).word (k + 1) = words (k + 1)) ∧ (t.cmd i).phase = .free ∧ ∀ m, m ≠ i → t.cmd m = s.cmd m

/-- Messages sent so far to a chip have grown by n (R386). -/
def SentTo (chip n : Nat) (s t : State) : Prop :=
  SMap.get 0 t.grp.mseqOut chip = SMap.get 0 s.grp.mseqOut chip + n

end Sys2Proof.Claim
end

