-- ==== Sys2Proof/Certificates/Slice0/Obligations.lean ====
section
/-! DEFINITION. The statements about the model. Rules are cited by their numbers in the manual. -/

open Sys2Proof Sys2Proof.Machine Sys2Proof.Claim

/-! Engines. -/

/-- Scalar arithmetic (R151): sd receives the result, s0 discards it, and nothing else changes. -/
def Obligations.ScalarArithmetic : Prop :=
  ∀ (e : EngId) (sd sa sb : BitVec 5) (imm : BitVec 16) (s : State), EngIssues s e →
    let a := (s.eng e).ctx.sreg sa
    let b := (s.eng e).ctx.sreg sb
    Gives (.sAdd e sd sa sb) s (ScalarResult e sd (a + b) s) ∧
    Gives (.sSub e sd sa sb) s (ScalarResult e sd (a - b) s) ∧
    Gives (.sMul e sd sa sb) s (ScalarResult e sd (a * b) s) ∧
    Gives (.sAnd e sd sa sb) s (ScalarResult e sd (a &&& b) s) ∧
    Gives (.sOr e sd sa sb) s (ScalarResult e sd (a ||| b) s) ∧
    Gives (.sXor e sd sa sb) s (ScalarResult e sd (a ^^^ b) s) ∧
    Gives (.sShl e sd sa sb) s (ScalarResult e sd (a <<< (b.toNat % 64)) s) ∧
    Gives (.sShr e sd sa sb) s (ScalarResult e sd (a >>> (b.toNat % 64)) s) ∧
    Gives (.sSlt e sd sa sb) s (ScalarResult e sd (if a.toInt < b.toInt then 1 else 0) s) ∧
    Gives (.sAddi e sd sa imm) s (ScalarResult e sd (a + BitVec.ofInt 64 imm.toInt) s) ∧
    Gives (.sIns e sd sa imm) s (ScalarResult e sd (BitVec.ofNat 64 (a.toNat * 65536 + imm.toNat)) s)

/-- Branches and the jump (R151): taken, the PC moves by the offset in words, to a target in the own local store, or
the branch raises a range fault; not taken, the engine goes on. s.jalr writes its link before it jumps. -/
def Obligations.EngineBranches : Prop :=
  ∀ (e : EngId) (sa sb : BitVec 5) (off : BitVec 16) (s : State), EngIssues s e →
    let k := s.eng e
    let a := k.ctx.sreg sa
    let b := k.ctx.sreg sb
    let dst : Int := (k.ctx.pc : Int) + off.toInt
    let on (i : Instr) (taken : Bool) : Prop :=
      Gives i s fun t =>
        if taken = false then EngineIs e (engNext k k.ctx) s t
        else if 0 ≤ dst ∧ dst < lsWords then EngineIs e { k with ctx := { k.ctx with pc := dst.toNat } } s t
        else EngineFaults e .range s t
    let j := addrAt a (4 * off.toInt)
    on (.sBeq e sa sb off) (decide (a = b)) ∧
    on (.sBne e sa sb off) (decide (a ≠ b)) ∧
    on (.sBlt e sa sb off) (decide (a.toInt < b.toInt)) ∧
    Gives (.sJalr e sa sb off) s fun t =>
      if ownStore e j 1 = false then EngineFaults e .range s t
      else if j % 4 ≠ 0 then EngineFaults e .align s t
      else EngineOnly e s t ∧
        t.eng e = { k with ctx := { k.ctx with pc := (j - lsBase e) / 4, sregs := (t.eng e).ctx.sregs } } ∧
        SregSet sb (w64 (lsBase e + 4 * (k.ctx.pc + 1))) k.ctx (t.eng e).ctx

/-- Scalar and vector loads (R155 to R158): the register receives what the data cache or memory holds; memory and every
other unit are as before. -/
def Obligations.EngineLoads : Prop :=
  ∀ (e : EngId) (sd sa : BitVec 5) (off : BitVec 16) (v : BitVec 6) (pm : BitVec 3) (cv : BitVec 4) (imm : BitVec 8)
    (n : Nat) (s : State), EngIssues s e →
    let k := s.eng e
    let a := addrAt (k.ctx.sreg sa) off.toInt
    let b := addrAt (k.ctx.sreg sa) (imm.toInt * n)
    (EngAccess s a 8 →
      Gives (.sLd e sd sa off) s fun t => LoadFrame e s t ∧ (∀ c, t.peek c = s.peek c) ∧
        t.eng e = engNext { k with dcache := (t.eng e).dcache } { k.ctx with sregs := (t.eng e).ctx.sregs } ∧
        SregSet sd (w64OfBytes (EngBytes s e a 8)) k.ctx (t.eng e).ctx) ∧
    (cvSize cv.toNat = some n → EngAccess s b n →
      Gives (.vLd e v sa pm cv imm) s fun t => LoadFrame e s t ∧ (∀ c, t.peek c = s.peek c) ∧
        t.eng e = engNext { k with dcache := (t.eng e).dcache } { k.ctx with vregs := (t.eng e).ctx.vregs } ∧
        LanesSet v (k.ctx.preg pm) (fun i => cvLoad cv.toNat (((EngBytes s e b n).drop (n / 32 * i)).take (n / 32)))
          k.ctx (t.eng e).ctx)

/-- Scalar and vector stores (R155 to R158): the addressed bytes, of the active lanes for a vector, take the register's
value, and every other byte of memory reads as before. -/
def Obligations.EngineStores : Prop :=
  ∀ (e : EngId) (src sa : BitVec 5) (off : BitVec 16) (v : BitVec 6) (pm : BitVec 3) (cv : BitVec 4) (imm : BitVec 8)
    (n : Nat) (s : State), EngIssues s e → WcbSound s →
    let k := s.eng e
    let a := addrAt (k.ctx.sreg sa) off.toInt
    let b := addrAt (k.ctx.sreg sa) (imm.toInt * n)
    let w := n / 32
    (EngAccess s a 8 →
      Gives (.sSt e src sa off) s fun t => StoreFrame e s t ∧ Stored a (w64Bytes (k.ctx.sreg src)) s t ∧
        t.eng e = engNext { k with dcache := (t.eng e).dcache } { k.ctx with stores := (t.eng e).ctx.stores } ∧
        lineOf (canon a) ∈ (t.eng e).ctx.stores) ∧
    (cvSize cv.toNat = some n → EngAccess s b n →
      Gives (.vSt e v sa pm cv imm) s fun t => StoreFrame e s t ∧
        (∀ i j, i < 32 → j < w → (k.ctx.preg pm).getLsbD i = true →
          t.peek (b + w * i + j) = ((cvStore cv.toNat (k.ctx.lane v i))[j]?).getD 0) ∧
        (∀ c, (∀ i j, i < 32 → j < w → (k.ctx.preg pm).getLsbD i = true → canon c ≠ canon (b + w * i + j)) →
          t.peek c = s.peek c) ∧
        t.eng e = engNext { k with dcache := (t.eng e).dcache } { k.ctx with stores := (t.eng e).ctx.stores })

/-- Access faults (R155, R156, R174): outside the ranges of a job a range fault, else misaligned an alignment fault; a
reserved CV code an instruction fault. -/
def Obligations.EngineAccessFaults : Prop :=
  ∀ (e : EngId) (sd sa sb : BitVec 5) (off : BitVec 16) (v : BitVec 6) (pm : BitVec 3) (cv : BitVec 4) (imm : BitVec 8)
    (wide : Bool) (s : State), EngIssues s e →
    let x := (s.eng e).ctx
    let fails (i : Instr) (a n : Nat) : Prop :=
      (s.jobRange a n = false → Gives i s (EngineFaults e .range s)) ∧
      (s.jobRange a n = true → a % n ≠ 0 → Gives i s (EngineFaults e .align s))
    fails (.sLd e sd sa off) (addrAt (x.sreg sa) off.toInt) 8 ∧
    fails (.sSt e sd sa off) (addrAt (x.sreg sa) off.toInt) 8 ∧
    (∀ n, cvSize cv.toNat = some n →
      fails (.vLd e v sa pm cv imm) (addrAt (x.sreg sa) (imm.toInt * n)) n ∧
      fails (.vSt e v sa pm cv imm) (addrAt (x.sreg sa) (imm.toInt * n)) n) ∧
    (6 ≤ cv.toNat → Gives (.vLd e v sa pm cv imm) s (EngineFaults e .instr s) ∧
      Gives (.vSt e v sa pm cv imm) s (EngineFaults e .instr s)) ∧
    (stackSize ≤ (x.sreg sa).toNat → (x.sreg sa).toNat < 0x1000000000 →
      Gives (.sAmoAdd e wide sd sa sb) s (EngineFaults e .range s))

/-- Atomics (R161): the word in memory is read, changed and written whole; sd receives the old value, and the data cache
no longer holds the line. -/
def Obligations.EngineAtomics : Prop :=
  ∀ (e : EngId) (wide : Bool) (sd sa sb : BitVec 5) (s : State), EngIssues s e → WcbSound s →
    let k := s.eng e
    let a := (k.ctx.sreg sa).toNat
    let n := if wide then 8 else 4
    let old := amoOld wide (s.bytes a n)
    let arg := if wide then k.ctx.sreg sb else ((k.ctx.sreg sb).truncate 32).signExtend 64
    let cmp := if wide then k.ctx.sreg sd else ((k.ctx.sreg sd).truncate 32).signExtend 64
    let does (i : Instr) (v : W64) : Prop :=
      Gives i s fun t => StoreFrame e s t ∧ Stored a (toLe n v.toNat) s t ∧
        t.eng e = engNext (k.dropLine (lineOf (canon a))) { k.ctx with sregs := (t.eng e).ctx.sregs } ∧
        SregSet sd old k.ctx (t.eng e).ctx
    (∃ i o, locate a = .stack i o) → EngAccess s a n →
    does (.sAmoAdd e wide sd sa sb) (old + arg) ∧
    does (.sAmoCas e wide sd sa sb) (if old = cmp then arg else old) ∧
    does (.sAmoMin e wide sd sa sb) (if arg.toInt < old.toInt then arg else old) ∧
    does (.sAmoMax e wide sd sa sb) (if old.toInt < arg.toInt then arg else old)

/-- Vector F32 arithmetic and comparisons (R151, R153): each active lane receives one rounding of the exact result; the active bits
of the predicate receive a comparison's outcome, NaN comparing false. -/
def Obligations.VectorFloat : Prop :=
  (∀ (e : EngId) (vd va vb : BitVec 6) (sb : BitVec 5) (pm : BitVec 3) (s : State), EngIssues s e →
    let x := (s.eng e).ctx
    let a (i : Nat) : FVal := f32 (x.lane va i)
    let b (i : Nat) : FVal := f32 (x.lane vb i)
    let d (i : Nat) : FVal := f32 (x.lane vd i)
    let c : FVal := f32 ((x.sreg sb).truncate 32)
    let gives (i : Instr) (f : Nat → FVal) : Prop :=
      Gives i s (VectorResult e vd (x.preg pm) (fun j => (f j).toF32) s)
    gives (.vAddF32 e vd va vb pm) (fun i => FVal.add (a i) (b i)) ∧
    gives (.vSubF32 e vd va vb pm) (fun i => FVal.add (a i) (b i).neg) ∧
    gives (.vMulF32 e vd va vb pm) (fun i => FVal.mul (a i) (b i)) ∧
    gives (.vFmaF32 e vd va vb pm) (fun i => FVal.add (d i) (FVal.mul (a i) (b i))) ∧
    gives (.vAddF32S e vd va sb pm) (fun i => FVal.add (a i) c) ∧
    gives (.vMulF32S e vd va sb pm) (fun i => FVal.mul (a i) c) ∧
    gives (.vFmaF32S e vd va sb pm) (fun i => FVal.add (d i) (FVal.mul (a i) c)) ∧
    Gives (.vMaxF32 e vd va vb pm) s (VectorResult e vd (x.preg pm) (fun i => f32Max (x.lane va i) (x.lane vb i)) s) ∧
    Gives (.vMinF32 e vd va vb pm) s (VectorResult e vd (x.preg pm) (fun i => f32Min (x.lane va i) (x.lane vb i)) s) ∧
    Gives (.vHsumF32 e vd va pm) s
      (VectorResult e vd (x.preg pm) (fun _ => laneTree f32Add ((List.range 32).map (x.lane va))) s) ∧
    Gives (.vHmaxF32 e vd va pm) s
      (VectorResult e vd (x.preg pm) (fun _ => laneTree f32Max ((List.range 32).map (x.lane va))) s) ∧
    Gives (.vCvtF32I32 e vd va pm) s
      (VectorResult e vd (x.preg pm) (fun i => (esValue (x.lane va i).toInt 0).toF32) s) ∧
    Gives (.vCvtI32F32 e vd va pm) s (VectorResult e vd (x.preg pm) (fun i => f32ToI32 (x.lane va i)) s)) ∧
  (∀ (e : EngId) (pd pm : BitVec 3) (va vb : BitVec 6) (sa : BitVec 5) (s : State), EngIssues s e →
    let x := (s.eng e).ctx
    Gives (.vCmpLtF32 e pd va vb pm) s
      (PredicateResult e pd (x.preg pm) (fun i => FVal.lt (f32 (x.lane va i)) (f32 (x.lane vb i))) s) ∧
    Gives (.vCmpEqF32 e pd va vb pm) s
      (PredicateResult e pd (x.preg pm) (fun i => FVal.numEq (f32 (x.lane va i)) (f32 (x.lane vb i))) s) ∧
    Gives (.vCmpLtI32 e pd va vb pm) s
      (PredicateResult e pd (x.preg pm) (fun i => decide ((x.lane va i).toInt < (x.lane vb i).toInt)) s) ∧
    Gives (.vPmov e pd sa pm) s (PredicateResult e pd (x.preg pm) (fun i => (x.sreg sa).getLsbD i) s))

/-- v.exp, v.rcp and v.rsqrt (R152): the special operands have the values the table gives; a finite positive operand gives
a result in the active lanes. Within the bounds the value is free (the model's choice, log entry 3). v.rand (R163 to R165):
keyed, each active lane receives key(T, x + i, d); free-running, the output of its own generator, which has advanced by a
number of cycles the manual does not fix (the model's choice, log entry 5). -/
def Obligations.VectorFreeResults : Prop :=
  ((∀ (e : EngId) (vd va : BitVec 6) (pm : BitVec 3) (s : State), EngIssues s e →
    let x := (s.eng e).ctx
    Gives (.vExp e vd va pm) s (VectorResult e vd (x.preg pm) (fun i => f32Exp (x.lane va i)) s) ∧
    Gives (.vRcp e vd va pm) s (VectorResult e vd (x.preg pm) (fun i => f32Rcp (x.lane va i)) s) ∧
    Gives (.vRsqrt e vd va pm) s (VectorResult e vd (x.preg pm) (fun i => f32Rsqrt (x.lane va i)) s)) ∧
  (∀ w : W32, f32 w = .nan → f32Exp w = 0x7FC00000#32 ∧ f32Rcp w = 0x7FC00000#32 ∧ f32Rsqrt w = 0x7FC00000#32) ∧
  f32Exp 0x7F800000#32 = 0x7F800000#32 ∧ f32Exp 0xFF800000#32 = 0 ∧
  f32Rcp 0x7F800000#32 = 0 ∧ f32Rcp 0xFF800000#32 = 0x80000000#32 ∧
  f32Rcp 0 = 0x7F800000#32 ∧ f32Rcp 0x80000000#32 = 0xFF800000#32 ∧
  f32Rsqrt 0x7F800000#32 = 0 ∧ f32Rsqrt 0xFF800000#32 = 0x7FC00000#32 ∧
  f32Rsqrt 0 = 0x7F800000#32 ∧ f32Rsqrt 0x80000000#32 = 0xFF800000#32 ∧
  ∀ w : W32, w.msb = true → w ≠ 0x80000000#32 → f32Rsqrt w = 0x7FC00000#32) ∧
  (∀ (e : EngId) (vd : BitVec 6) (sa sb : BitVec 5) (pm : BitVec 3) (s : State), EngIssues s e →
    let k := s.eng e
    let x := k.ctx
    let a := (x.sreg sa).toNat
    (k.keyed = true → Gives (.vRand e vd sa sb pm) s (VectorResult e vd (x.preg pm) (fun i =>
      keyGen (s.job k.job).seed x.step (a % 2 ^ 32) (((x.sreg sb).toNat + i) % 2 ^ 48) (a / 2 ^ 32 % 16)) s)) ∧
    (k.keyed = false → Gives (.vRand e vd sa sb pm) s fun t =>
      t = { s with engines := t.engines, cnt := t.cnt, fresh := t.fresh } ∧ OtherEngines e s t ∧ IssuedOne e s t ∧
      t.eng e = engNext { k with gen := (t.eng e).gen } { x with vregs := (t.eng e).ctx.vregs } ∧
      (∀ i, i < 32 → ∃ n, SMap.get 0 (t.eng e).gen i = advanceBy n (SMap.get 0 k.gen i)) ∧
      LanesSet vd (x.preg pm) (fun i => (mixGen (SMap.get 0 (t.eng e).gen i)).truncate 32) x (t.eng e).ctx))

/-- Vector integer, logic, selection and movement (R151). v.sel writes every lane. -/
def Obligations.VectorInteger : Prop :=
  ∀ (e : EngId) (vd va vb : BitVec 6) (sb : BitVec 5) (pm : BitVec 3) (s : State), EngIssues s e →
    let x := (s.eng e).ctx
    let a := x.lane va
    let b := x.lane vb
    let c : W32 := (x.sreg sb).truncate 32
    let gives (i : Instr) (f : Nat → W32) : Prop := Gives i s (VectorResult e vd (x.preg pm) f s)
    gives (.vAddI32 e vd va vb pm) (fun i => a i + b i) ∧
    gives (.vSubI32 e vd va vb pm) (fun i => a i - b i) ∧
    gives (.vMulI32 e vd va vb pm) (fun i => a i * b i) ∧
    gives (.vAnd e vd va vb pm) (fun i => a i &&& b i) ∧
    gives (.vOr e vd va vb pm) (fun i => a i ||| b i) ∧
    gives (.vXor e vd va vb pm) (fun i => a i ^^^ b i) ∧
    gives (.vShlI32 e vd va vb pm) (fun i => a i <<< ((b i).toNat % 32)) ∧
    gives (.vShrI32 e vd va vb pm) (fun i => BitVec.ofInt 32 ((a i).toInt / 2 ^ ((b i).toNat % 32))) ∧
    gives (.vAddI16 e vd va vb pm) (fun i => BitVec.ofNat 32
      (((a i).toNat % 65536 + (b i).toNat % 65536) % 65536 +
        65536 * (((a i).toNat / 65536 + (b i).toNat / 65536) % 65536))) ∧
    gives (.vMov e vd va pm) a ∧
    gives (.vPerm e vd va vb pm) (fun i => a ((b i).toNat % 32)) ∧
    gives (.vAddI32S e vd va sb pm) (fun i => a i + c) ∧
    gives (.vBcast e vd sb pm) (fun _ => c) ∧
    gives (.vLane e vd sb pm) (fun i => c + BitVec.ofNat 32 i) ∧
    Gives (.vSel e vd va vb pm) s
      (VectorResult e vd allLanes (fun i => if (x.preg pm).getLsbD i = true then a i else b i) s)

/-- The wide multiply-add (R173): the pair's head receives the rounded sum, its tail the rounded remainder; an odd register
raises an instruction fault. MX blocks (R51, R61, R151): v.unpack gives the 32 values, v.pack the 32 codes and the scale in
sd[7:0]. The other bits of sd are free (the model's choice, log entry 4). -/
def Obligations.WideAndMx : Prop :=
  (∀ (e : EngId) (vd va vb : BitVec 6) (pm : BitVec 3) (s : State), EngIssues s e →
    let x := (s.eng e).ctx
    let v (i : Nat) : FVal := FVal.add (FVal.add (f32 (x.lane vd i)) (f32 (x.lane1 vd i)))
      (FVal.mul (f32 (x.lane va i)) (f32 (x.lane vb i)))
    let h (i : Nat) : W32 := (v i).toF32
    (vd.toNat % 2 = 1 → Gives (.vFmaw e vd va vb pm) s (EngineFaults e .instr s)) ∧
    (vd.toNat % 2 = 0 → Gives (.vFmaw e vd va vb pm) s fun t => EngineOnly e s t ∧
      t.eng e = engNext (s.eng e) { x with vregs := (t.eng e).ctx.vregs } ∧
      ∀ r i, i < 32 → (t.eng e).ctx.lane r i =
        if (x.preg pm).getLsbD i = false then x.lane r i
        else if r = vd then h i
        else if r.toNat = vd.toNat + 1 then
          (if (f32 (h i)).isFinite = true then (FVal.add (v i) (f32 (h i)).neg).toF32 else h i)
        else x.lane r i)) ∧
  (∀ (e : EngId) (vd va : BitVec 6) (sc : BitVec 5) (pm : BitVec 3) (s : State), EngIssues s e →
    let k := s.eng e
    let x := k.ctx
    let unpacks (i : Instr) (f : Nat) : Prop :=
      Gives i s (VectorResult e vd (x.preg pm)
        (fun j => (mxDecode f ((x.sreg sc).toNat % 256) (x.wide va / 2 ^ (fmtBits f * j) % 2 ^ fmtBits f)).toF32) s)
    let packs (i : Instr) (f : Nat) : Prop :=
      let r := mxPack f ((List.range 32).map fun j => f32 (x.lane va j))
      Gives i s fun t => t = { s with engines := t.engines, cnt := t.cnt, fresh := t.fresh } ∧ OtherEngines e s t ∧
        IssuedOne e s t ∧
        t.eng e = engNext k { x with vregs := (t.eng e).ctx.vregs, sregs := (t.eng e).ctx.sregs } ∧
        LanesSet vd (x.preg pm) (fun j => BitVec.ofNat 32 (packBits f r.2 / 2 ^ (32 * j))) x (t.eng e).ctx ∧
        (sc ≠ 0 → ((t.eng e).ctx.sreg sc).toNat % 256 = r.1 % 256) ∧
        ∀ q, q ≠ sc → (t.eng e).ctx.sreg q = x.sreg q
    unpacks (.vUnpackMxfp4 e vd va sc pm) fmtMXFP4 ∧ unpacks (.vUnpackMxfp6E2m3 e vd va sc pm) fmtE2M3 ∧
    unpacks (.vUnpackMxfp6E3m2 e vd va sc pm) fmtE3M2 ∧ unpacks (.vUnpackMxint8 e vd va sc pm) fmtMXINT8 ∧
    packs (.vPackMxfp4 e vd va sc pm) fmtMXFP4 ∧ packs (.vPackMxfp6E2m3 e vd va sc pm) fmtE2M3 ∧
    packs (.vPackMxfp6E3m2 e vd va sc pm) fmtE3M2 ∧ packs (.vPackMxint8 e vd va sc pm) fmtMXINT8)

/-- Reduction adds (R166 to R168): sb receives the status; with status 0 the 64 accumulators take their sums, otherwise they
keep their values and the status's event bit is set. v.res gives the residue. The residue of a sum of packets is the sum
of their residues, so that an adder's own check fails only through an error of the hardware. -/
def Obligations.ReductionAdds : Prop :=
  (∀ (e : EngId) (vd : BitVec 6) (sd sa sb : BitVec 5) (s : State), EngIssues s e → vd.toNat % 2 = 0 →
    let k := s.eng e
    let x := k.ctx
    let a := (x.sreg sa).toNat
    let adds (i : Instr) (es16 : Bool) (n : Nat) : Prop :=
      let qs := if es16 then es16Ints (s.bytes a n) else s1Ints (s.bytes a n)
      let st := (redStatus es16 (x.pair vd) qs ((x.sreg sb).toNat % 65536)).1
      EngAccess s a n → Gives i s fun t => LoadFrame e s t ∧
        t.eng e = engNext { k with evt := (t.eng e).evt }
          { x with vregs := (t.eng e).ctx.vregs, sregs := (t.eng e).ctx.sregs } ∧
        SregSet sb (w64 st) x (t.eng e).ctx ∧
        (∀ b, bit (t.eng e).evt b = true ↔ bit k.evt b = true ∨ (1 ≤ st ∧ st ≤ 4 ∧ b = st - 1)) ∧
        ∀ r j, j < 32 → (t.eng e).ctx.lane r j =
          if st = 0 ∧ r = vd then BitVec.ofInt 32 ((x.lane vd j).toInt + (qs[j]?).getD 0)
          else if st = 0 ∧ r.toNat = vd.toNat + 1 then BitVec.ofInt 32 ((x.lane1 vd j).toInt + (qs[32 + j]?).getD 0)
          else x.lane r j
    adds (.vRedEs16 e vd sa sb 0) true 128 ∧ adds (.vRedS1 e vd sa sb 0) false 8 ∧
    Gives (.vRes e sd vd) s (ScalarResult e sd (w64 (residue65535 (x.pair vd))) s)) ∧
  (∀ (acc qs : List Int), acc.length = qs.length →
    residue65535 (List.zipWith (· + ·) acc qs) = (residue65535 acc + residue65535 qs) % 65535 ∧
    residue65535 acc < 65535)

/-- v.uctx (R170): the context's fields are those of its 64 bytes; a reserved bit raises an instruction fault. The gate of the
update instructions (R251, R253): one of a later step than the one committed waits; one of a step that is skipped, or of an
earlier one, changes no register but ELEM, and the earlier one sets the bank's event; v.upd.adam on an odd pair raises an
instruction fault. -/
def Obligations.UpdateGate : Prop :=
  (∀ (e : EngId) (sa : BitVec 5) (s : State), EngIssues s e → LinesGood s →
    let k := s.eng e
    let a := (k.ctx.sreg sa).toNat
    ownStore e a 64 = true → a % 64 = 0 →
    (∀ u, uctxOf (s.bytes a 64) = some u →
      Gives (.vUctx e sa) s (EngineIs e (engNext k { k.ctx with uctx := u }) s)) ∧
    (uctxOf (s.bytes a 64) = none → Gives (.vUctx e sa) s (EngineFaults e .instr s))) ∧
  (∀ (e : EngId) (vd va vb : BitVec 6) (pm : BitVec 3) (s : State), EngIssues s e →
    let k := s.eng e
    let x := k.ctx
    let st := (s.bank k.job).state
    let d : Int := (x.step - BitVec.ofNat 32 (fld st 63 32)).toInt
    let next (g : SMap W64) : Engine :=
      engNext { k with gen := g } { x with uctx := { x.uctx with elem := x.uctx.elem + 32 } }
    let each (i : Instr) (kind : UpdKind) (b : BitVec 6) (a : BitVec 6) : Prop :=
      (0 < d → Gives i s (EngineIs e (engHeld k .stall (.upd kind vd a b pm)) s)) ∧
      (d = 0 → bit st 16 = true → Gives i s fun t => LoadFrame e s t ∧ IssuedOne e s t ∧
        t.eng e = next (t.eng e).gen ∧ (k.keyed = true → (t.eng e).gen = k.gen)) ∧
      (d < 0 → Gives i s fun t =>
        t = { s with engines := t.engines, cnt := t.cnt, num := t.num, fresh := t.fresh } ∧ OtherEngines e s t ∧
        t.eng e = next (t.eng e).gen ∧ (k.keyed = true → (t.eng e).gen = k.gen) ∧
        ∀ j, t.bank j = if j = k.job then { s.bank j with evt := setBit (s.bank j).evt 4 } else s.bank j)
    each (.vUpdSgdm e vd va vb pm) .sgdm vb va ∧ each (.vUpdEf e vd va pm) .ef 0 va ∧
    (va.toNat % 2 = 0 → each (.vUpdAdam e vd va vb pm) .adam vb va) ∧
    (va.toNat % 2 = 1 → Gives (.vUpdAdam e vd va vb pm) s (EngineFaults e .instr s)))

/-- Update instructions at a gate that applies (R171, R172, R251): the assignment lines in order, the later one standing where
registers coincide; ELEM advances by 32. Keyed, the draws are key(TENSOR, ELEM + i, d); free-running they are free (the
model's choice, log entry 5). -/
def Obligations.UpdatesApply : Prop :=
  ∀ (e : EngId) (vd va vb : BitVec 6) (pm : BitVec 3) (s : State), EngIssues s e →
    let k := s.eng e
    let x := k.ctx
    let u := x.uctx
    let m := x.preg pm
    let w := wfmtOf u.wfmt
    let does (i : Instr) (f : (Nat → Nat → W32) → BitVec 6 → Nat → W32) : Prop := Gives i s fun t =>
      t = { s with engines := t.engines, cnt := t.cnt, fresh := t.fresh } ∧ OtherEngines e s t ∧ IssuedOne e s t ∧
      t.eng e = engNext { k with gen := (t.eng e).gen }
        { x with vregs := (t.eng e).ctx.vregs, uctx := { u with elem := u.elem + 32 } } ∧
      ∃ key : Nat → Nat → W32, (∀ r j, j < 32 → (t.eng e).ctx.lane r j = f key r j) ∧
        (k.keyed = true → (t.eng e).gen = k.gen ∧ t.fresh = s.fresh ∧ ∀ d i,
          key d i = keyGen (s.job k.job).seed x.step u.tensor.toNat ((u.elem.toNat + i) % 2 ^ 48) d)
    s.updGate e = .apply →
    (va.toNat % 2 = 0 → does (.vUpdAdam e vd va vb pm) fun key r j =>
      let y := adamLane u (x.lane vd j) (x.lane va j) (x.lane1 va j) (x.lane vb j)
      if m.getLsbD j = false then x.lane r j
      else if r = vb then srTo w y.1 (key 2 j)
      else if r.toNat = va.toNat + 1 then srTo fmtD16 y.2.2 (key 1 j)
      else if r = va then srTo fmtD16 y.2.1 (key 0 j)
      else if r = vd then y.1 else x.lane r j) ∧
    (does (.vUpdSgdm e vd va vb pm) fun key r j =>
      let y := sgdmLane u (x.lane vd j) (x.lane va j) (x.lane vb j)
      if m.getLsbD j = false then x.lane r j
      else if r = vb then srTo w y.1 (key 2 j)
      else if r = va then srTo fmtD16 y.2 (key 0 j)
      else if r = vd then y.1 else x.lane r j) ∧
    (does (.vUpdEf e vd va pm) fun key r j =>
      if r = vd then srTo fmtD16 (efLane u (x.lane va j) (m.getLsbD j)) (key 3 j) else x.lane r j)

/-- v.acq, v.fence, v.waitt, the system registers and v.halt where nothing is outstanding (R146, R149, R159, R210). -/
def Obligations.EngineSystem : Prop :=
  ∀ (e : EngId) (sd sa sb : BitVec 5) (w : W32) (s : State), EngIssues s e →
    let k := s.eng e
    let x := k.ctx
    let a := (x.sreg sa).toNat
    let n := (x.sreg sb).toNat
    let quiet := x.stores = [] ∧ x.dmas = []
    Gives (.vAcqAll e) s (EngineIs e (engNext { k with dcache := [] } x) s) ∧
    (Gives (.vAcq e sa sb) s fun t => EngineOnly e s t ∧
      t.eng e = engNext { k with dcache := (t.eng e).dcache } x ∧
      ∀ q, q ∈ (t.eng e).dcache ↔ q ∈ k.dcache ∧ (n = 0 ∨ lineOverlaps q.1 a n = false)) ∧
    (quiet → Gives (.vFence e) s (EngineIs e (engNext k x) s)) ∧
    (¬ quiet → Gives (.vFence e) s (EngineIs e (engHeld k .stall .fence) s)) ∧
    (a ≤ s.now → Gives (.vWaitT e sa) s (EngineIs e (engNext k x) s)) ∧
    (s.now < a → Gives (.vWaitT e sa) s (EngineIs e (engHeld k .wait (.waitT (x.sreg sa))) s)) ∧
    Gives (.vRsys e sd sb) s (ScalarResult e sd
      (if n = 0 then s.mer.now else if n = 1 then w64 (s.grp.chip.toNat * 64 + e) else if n = 2 then w64 k.job
       else if n = 3 then (s.job k.job).seed else if n = 4 then x.step.zeroExtend 64
       else if n = 5 then (if k.keyed then 1 else 0) else 0) s) ∧
    (n = 4 → Gives (.vWsys e sa sb) s (EngineIs e (engNext k { x with step := (x.sreg sa).truncate 32 }) s)) ∧
    (n ≠ 4 → Gives (.vWsys e sa sb) s (EngineFaults e .sys s)) ∧
    (¬ quiet → Gives (.vHalt e) s (EngineIs e (engHeld k .stall .halt) s)) ∧
    (quiet → (s.core (e / 16)).st ≠ .halted →
      Gives (.vHalt e) s (EngineIs e { k with st := .halted, ctx := { x with held := .none } } s)) ∧
    (veReserved w = true → Gives (.veReservedOpcode e w) s (EngineFaults e .instr s))

/-- Engine semaphores (R160, R219, R220) and the ends of engine waits (R146, R210, R220), each of which completes. v.sem.w takes
its amount or joins the queue, v.sem.s adds, v.sem.s.rel adds or waits for the earlier writes; a semaphore not granted and
a count past 65,535 fault. A fence, a release add and a halt end once no DMA is outstanding, when every earlier store is in
the arrays; a semaphore wait at the head of its queue, where its amount is there; a wait for Meridian at its tick. No byte
reads differently for an end. -/
def Obligations.EngineWaits : Prop :=
  (∀ (e : EngId) (sa sb : BitVec 5) (s : State), EngIssues s e →
    let k := s.eng e
    let n := (k.ctx.sreg sa).toNat % 256
    let amt := (k.ctx.sreg sb).toNat
    let q := s.sem n
    let goes (i : Instr) (c : Nat) : Prop := Gives i s fun t => SemFrame s t ∧ t.cores = s.cores ∧ CountSet n c s t ∧
      OtherEngines e s t ∧ IssuedOne e s t ∧ t.eng e = engNext k k.ctx
    let bad (i : Instr) : Prop := Gives i s (EngineFaults e .sem s)
    (4095 < amt ∨ q.granted = false ∨ q.job ≠ k.job →
      bad (.vSemW e sa sb) ∧ bad (.vSemS e sa sb) ∧ bad (.vSemSRel e sa sb)) ∧
    (amt ≤ 4095 → q.granted = true → q.job = k.job →
      (amt = 0 ∨ (q.waiters = [] ∧ amt ≤ q.count) → goes (.vSemW e sa sb) (q.count - amt)) ∧
      (amt ≠ 0 → q.waiters ≠ [] ∨ q.count < amt → Gives (.vSemW e sa sb) s fun t =>
        t = { s with engines := t.engines, sems := t.sems, cnt := t.cnt } ∧ OtherEngines e s t ∧ IssuedOne e s t ∧
        t.eng e = engHeld k .semw (.semW n amt) ∧
        ∀ m, t.sem m = if m = n then { q with waiters := q.waiters ++ [(.eng e, amt, s.mer.now)] } else s.sem m) ∧
      (q.count + amt ≤ 65535 → goes (.vSemS e sa sb) (q.count + amt)) ∧
      (65535 < q.count + amt → bad (.vSemS e sa sb)) ∧
      (k.ctx.stores = [] → k.ctx.dmas = [] → q.count + amt ≤ 65535 → goes (.vSemSRel e sa sb) (q.count + amt)) ∧
      (k.ctx.stores ≠ [] ∨ k.ctx.dmas ≠ [] →
        Gives (.vSemSRel e sa sb) s (EngineIs e (engHeld k .stall (.semSRel n amt)) s)))) ∧
  (∀ (e : EngId) (s : State), LinesGood s → WcbSound s →
    let k := s.eng e
    let x := k.ctx
    let done : VeCtx := { x with stores := [] }
    (x.held = .fence → x.dmas = [] → Gives (.vFenceComplete e) s fun t => StoreFrame e s t ∧ MemKept s t ∧
      t.eng e = engNext k done) ∧
    (∀ n amt, x.held = .semSRel n amt → x.dmas = [] → (s.sem n).count + amt ≤ 65535 →
      Gives (.vSemSRelAdd e) s fun t => SemFrame { s with mem := t.mem } t ∧ t.cores = s.cores ∧ MemKept s t ∧
        CountSet n ((s.sem n).count + amt) s t ∧ OtherEngines e s t ∧ t.eng e = engNext k done) ∧
    (x.held = .halt → x.dmas = [] → (s.core (e.val / 16)).st ≠ .halted →
      Gives (.vHaltComplete e) s fun t => StoreFrame e s t ∧ MemKept s t ∧
        t.eng e = { k with st := .halted, ctx := { done with held := .none } }) ∧
    (∀ n m amt tk rest, x.held = .semW n m → (s.sem n).waiters = (.eng e, amt, tk) :: rest → amt ≤ (s.sem n).count →
      Gives (.vSemWSatisfied e) s fun t => SemFrame s t ∧ t.cores = s.cores ∧ t.cnt = s.cnt ∧ OtherEngines e s t ∧
        t.eng e = engNext k x ∧
        ∀ j, t.sem j = if j = n then { s.sem n with count := (s.sem n).count - amt, waiters := rest } else s.sem j) ∧
    (∀ w, x.held = .waitT w → w.toNat ≤ s.now →
      Gives (.vWaitTExpire e) s fun t => t = { s with engines := t.engines } ∧ OtherEngines e s t ∧
        t.eng e = engNext k x))

/-- v.dma (R162): a local copy or a PUT joins the outstanding ones, a ninth stalls; a local copy that is not behind another on
its flow completes with its bytes at their destination and nowhere else. -/
def Obligations.EngineDma : Prop :=
  ∀ (e : EngId) (sa : BitVec 5) (n : Nat) (s : State), LinesGood s →
    let k := s.eng e
    let r := (k.ctx.sreg sa).toNat
    let w0 := s.word64 r
    let w1 := s.word64 (r + 8)
    let w2 := s.word64 (r + 16)
    let src := fld w0 47 0
    let dst := fld w1 47 0
    let flow := fld w2 44 32
    let len := fld w2 31 0
    (EngIssues s e → ownStore e r 32 = true → r % 32 = 0 → fld w0 63 48 = 0 → fld w2 63 45 = 0 → s.word64 (r + 24) = 0 →
      src % 16 = 0 → dst % 16 = 0 → len % 16 = 0 → 16 ≤ len → len ≤ 16777216 → s.jobRange src len = true →
      s.jobRange dst len = true → s.flowGranted k.job flow = true →
      (k.ctx.dmas.length < 8 → fld w1 63 48 = s.grp.chip.toNat →
        Gives (.vDma e sa) s
          (EngineIs e (engNext k { k.ctx with dmas := k.ctx.dmas ++ [.copy src dst len flow k.ctx.pc] }) s)) ∧
      (k.ctx.dmas.length < 8 → fld w1 63 48 ≠ s.grp.chip.toNat →
        (∀ d ∈ k.ctx.dmas, ∀ a b c f pc, d = .copy a b c f pc → f ≠ flow) →
        Gives (.vDma e sa) s fun t =>
          t.eng e = engNext k { k.ctx with dmas := k.ctx.dmas ++ [.put s.lnk.nextOp] } ∧ OtherEngines e s t ∧
          t.lnk.nextOp = s.lnk.nextOp + 1 ∧ MemRead s t ∧ t.cores = s.cores ∧ t.sems = s.sems) ∧
      (8 ≤ k.ctx.dmas.length → Gives (.vDma e sa) s (EngineIs e (engHeld k .stall (.dma sa)) s))) ∧
    (EngIssues s e → ownStore e r 32 = true → r % 32 = 0 → s.word64 (r + 24) ≠ 0 → s.jobRange src (max len 1) = true →
      s.jobRange dst (max len 1) = true → Gives (.vDma e sa) s (EngineFaults e .dma s)) ∧
    (∀ a b m f pc, k.ctx.dmas[n]? = some (.copy a b m f pc) → (∀ d ∈ k.ctx.dmas.take n, s.dmaFlow d ≠ f) →
      (∀ q, k.ctx.held ≠ .dma q) → WcbSound s → inMemory a m = true → inMemory b m = true →
      Gives (.vDmaComplete e n) s fun t =>
        t = { s with engines := t.engines, cnt := t.cnt, mem := t.mem } ∧ OtherEngines e s t ∧
        t.eng e = { k with ctx := { k.ctx with dmas := k.ctx.dmas.eraseIdx n } } ∧ Stored b (s.bytes a m) s t)

/-! Sequencers. -/

/-- LOOP, BR, CALL and their conditions (R133 to R135): where each goes on, which loops and return addresses it leaves, and
the faults of a loop of no words or too deep, of a ninth call, of an empty call stack, of a target outside the range. A
body of a loop runs as many times as its count says: after its last word the PC is back at its first word with the index
one more, until the count is reached; then the loop is popped and the loop around it tested. -/
def Obligations.SequencerFlow : Prop :=
  (∀ (c : CoreId) (len count : BitVec 12) (tgt : BitVec 15) (n : BitVec 8) (s : State), SeqIssues s c →
    let k := s.core c
    let x := k.ctx
    let q := s.sem n.toNat
    let jump (i : Instr) (a : Nat) (calls : List Nat) : Prop :=
      Gives i s fun t =>
        if k.pcOk a = true then
          CoreIs c { k with ctx := { x with pc := a, loops := loopsAfterJump a x.loops, calls := calls } } s t
        else SeqFaults c .range x.pc 0 s t
    let branch (i : Instr) (taken : Prop) : Prop :=
      (taken → jump i tgt.toNat x.calls) ∧ (¬ taken → Gives i s (CoreIs c (seqNext k) s))
    Gives (.loop c len count) s (fun t =>
      if len = 0 ∨ 4 ≤ x.loops.length ∨ k.range.ilim < x.pc + len.toNat then SeqFaults c .loop x.pc 0 s t
      else CoreIs c { k with ctx := { x with pc := x.pc + 1, held := .none,
                                             loops := ⟨x.pc + 1, x.pc + len.toNat, count.toNat + 1, 0⟩ :: x.loops } }
        s t) ∧
    branch (.br c tgt) True ∧
    (q.granted = true → q.job = k.job →
      branch (.brSemz c tgt n) (q.count = 0) ∧ branch (.brSemnz c tgt n) (q.count ≠ 0)) ∧
    (q.granted = false ∨ q.job ≠ k.job →
      Gives (.brSemz c tgt n) s (SeqFaults c .sem x.pc 0 s) ∧ Gives (.brSemnz c tgt n) s (SeqFaults c .sem x.pc 0 s)) ∧
    branch (.brLast c tgt) (∃ l rest, x.loops = l :: rest ∧ l.index + 1 = l.count) ∧
    (x.calls = [] → Gives (.brRet c) s (SeqFaults c .call x.pc 0 s)) ∧
    (∀ a rest, x.calls = a :: rest → jump (.brRet c) a rest) ∧
    (8 ≤ x.calls.length → Gives (.call c tgt) s (SeqFaults c .call x.pc 0 s)) ∧
    (x.calls.length < 8 → Gives (.call c tgt) s fun t =>
      if k.pcOk tgt.toNat = true then
        CoreIs c { k with ctx := { x with pc := tgt.toNat, calls := (x.pc + 1) :: x.calls } } s t
      else SeqFaults c .range x.pc 0 s t)) ∧
  (∀ (first last n i : Nat) (rest : List LoopLevel),
    let l (j : Nat) : LoopLevel := ⟨first, last, n, j⟩
    (i + 1 < n → loopStep last (l i :: rest) = (first, l (i + 1) :: rest)) ∧
    (n ≤ i + 1 → loopStep last (l i :: rest) = loopStep last rest) ∧
    (∀ pc, pc ≠ last → loopStep pc (l i :: rest) = ((loopStep pc rest).1, l i :: (loopStep pc rest).2)) ∧
    (∀ pc, loopStep pc [] = (pc + 1, [])) ∧ (loopStep last rest).2.length ≤ rest.length)

/-- SEMW and SEMS (R128, R129, R219 to R221): the take and the add, the wait at the queue's tail, the faults of a semaphore not
granted and of a count past 65,535; a wait that ends takes its amount. -/
def Obligations.SequencerSemaphores : Prop :=
  ∀ (c : CoreId) (n : BitVec 8) (amt : BitVec 12) (s : State),
    let k := s.core c
    let q := s.sem n.toNat
    let a := amt.toNat
    let goes (i : Instr) (m v : Nat) : Prop := Gives i s fun t => SemFrame s t ∧ t.engines = s.engines ∧
      t.cnt = s.cnt ∧ CountSet m v s t ∧ OtherCores c s t ∧ t.core c = seqNext k
    let bad (i : Instr) : Prop := Gives i s (SeqFaults c .sem k.ctx.pc 0 s)
    (SeqIssues s c →
      (q.granted = false ∨ q.job ≠ k.job → bad (.semw c n amt) ∧ bad (.sems c n amt) ∧ bad (.semsRel c n amt)) ∧
      (q.granted = true → q.job = k.job →
        (a = 0 ∨ (q.waiters = [] ∧ a ≤ q.count) → goes (.semw c n amt) n.toNat (q.count - a)) ∧
        (a ≠ 0 → q.waiters ≠ [] ∨ q.count < a → Gives (.semw c n amt) s fun t =>
          t = { s with cores := t.cores, sems := t.sems } ∧ OtherCores c s t ∧
          t.core c = seqHeld k .semw (.semw n.toNat a) ∧
          ∀ m, t.sem m = if m = n.toNat then { q with waiters := q.waiters ++ [(.core c, a, s.mer.now)] } else s.sem m) ∧
        (q.count + a ≤ 65535 → goes (.sems c n amt) n.toNat (q.count + a)) ∧
        (65535 < q.count + a → bad (.sems c n amt)) ∧
        (k.classesOut true true true true = false → q.count + a ≤ 65535 → goes (.semsRel c n amt) n.toNat (q.count + a)) ∧
        (k.classesOut true true true true = true →
          Gives (.semsRel c n amt) s (CoreIs c (seqHeld k .stall (.semsRel n.toNat a)) s)))) ∧
    (∀ m b, k.ctx.held = .semsRel m b → k.classesOut true true true true = false → (s.sem m).count + b ≤ 65535 →
      goes (.semsRelAdd c) m ((s.sem m).count + b)) ∧
    (∀ b tk, q.waiters = [(.core c, b, tk)] → b ≤ q.count → Gives (.semwSatisfied n) s fun t =>
      SemFrame s t ∧ t.engines = s.engines ∧ t.cnt = s.cnt ∧ OtherCores c s t ∧ t.core c = seqNext k ∧
      ∀ m, t.sem m = if m = n.toNat then { q with count := q.count - b, waiters := [] } else s.sem m) ∧
    (∀ u b tk rest, q.waiters = (u, b, tk) :: rest → q.count < b → exec (.semwSatisfied n) s = .next s)

/-- FENCE, WAITT, YIELD, ZEN, HALT, the column switch and reserved words (R39, R101, R130, R132, R137 to R139). -/
def Obligations.SequencerWaits : Prop :=
  ∀ (c : CoreId) (l d m p : Bool) (unit : BitVec 2) (n code lead : BitVec 12) (level : BitVec 4) (w : W64) (s : State),
    let k := s.core c
    let x := k.ctx
    let u := if unit = 0 then 1 else if unit = 1 then 1024 else 1048576
    let start := s.nominalOn c + n.toNat * u
    let grid := ceilDiv (s.now + n.toNat * u) u * u
    let goes (i : Instr) : Prop := Gives i s (CoreIs c (seqNext k) s)
    let holds (i : Instr) (st : SqState) (h : SqHeld) : Prop := Gives i s (CoreIs c (seqHeld k st h) s)
    let halts (i : Instr) (e : Nat) : Prop := Gives i s
      (CoreIs c { k with st := .halted, exitCode := e, ctx := { x with held := .none } } s)
    (SeqIssues s c →
      (k.classesOut l d m p = false → goes (.fence c l d m p)) ∧
      (k.classesOut l d m p = true → holds (.fence c l d m p) .stall (.fence l d m p)) ∧
      (unit = 3 → Gives (.waitt c unit n) s (SeqFaults c .instr x.pc 0 s) ∧
        Gives (.waittA c unit n) s (SeqFaults c .instr x.pc 0 s)) ∧
      (unit ≠ 3 → (start ≤ s.now → goes (.waitt c unit n)) ∧
        (s.now < start → holds (.waitt c unit n) .waitt (.waitt start)) ∧
        (grid ≤ s.now → goes (.waittA c unit n)) ∧ (s.now < grid → holds (.waittA c unit n) .waitt (.waitt grid))) ∧
      (s.yieldWanted c = false → goes (.yieldPt c)) ∧ (s.yieldWanted c = true → holds (.yieldPt c) .stall .yieldPt) ∧
      (k.quiet = false → holds (.halt c code) .stall (.halt code.toNat)) ∧
      (k.quiet = true → s.enginesEnded c = false → halts (.halt c code) code.toNat) ∧
      (Gives (.zen c level lead) s fun t => t = { s with cores := t.cores, pwr := { s.pwr with core := t.pwr.core } } ∧
        OtherCores c s t ∧ t.core c = seqNext k ∧
        ∀ e, t.pcore e = if e = c.val then
          { s.pcore e with hints := (s.pcore e).hints ++ [(level.toNat, s.now + 1024 * lead.toNat)] } else s.pcore e) ∧
      (sqReserved w = true → Gives (.sqReservedOpcode c w) s (SeqFaults c .instr x.pc 0 s))) ∧
    (x.held = .fence l d m p → k.classesOut l d m p = false → goes (.fenceComplete c)) ∧
    (∀ a, k.st = .waitt → x.held = .waitt a → a ≤ s.now → goes (.waittExpire c)) ∧
    (∀ e, x.held = .halt e → k.quiet = true → s.enginesEnded c = false → halts (.haltComplete c) e) ∧
    (k.arrA.pendCol.isSome ∨ k.arrB.pendCol.isSome → k.tileBoundary = true → x.loads = [] →
      Gives (.columnSteeringSwitch c) s fun t => t = { s with cores := t.cores, cnt := t.cnt } ∧ OtherCores c s t ∧
        t.core c = { k with
          arrA := { k.arrA with retired := k.arrA.retired ++ k.arrA.pendCol.toList, pendCol := none },
          arrB := { k.arrB with retired := k.arrB.retired ++ k.arrB.pendCol.toList, pendCol := none } } ∧
        ∀ j, t.cntr j = if j = cntMc c 1 ∧ (k.st = .run ∨ k.st = .stall) then cntAdd (s.cntr j) 800 else s.cntr j)

/-- Stationary loads (R70 to R74, R117, R119, R120): a load joins the outstanding ones or stalls; it lands in its array's shadow
plane; WSWAP.F exchanges the planes of both arrays, waits for loads, and is undefined with data inside an array (R487). -/
def Obligations.StationaryLoads : Prop :=
  ∀ (c : CoreId) (a b : BitVec 12) (sub : BitVec 4) (part : BitVec 3) (trans : Bool) (n : Nat) (s : State),
    let k := s.core c
    let x := k.ctx
    let i : Instr := if trans then .wldt c a b sub part else .wld c a b sub part
    let p := part.toNat
    (SeqIssues s c → p ≤ 4 ∧ sub.toNat < partSubs p → (a ≠ 0 ∨ b ≠ 0) →
      ∀ ra rb, optIndex a.toNat (s.loadOperand c a.toNat trans p) = .ok ra →
        optIndex b.toNat (s.loadOperand c b.toNat trans p) = .ok rb →
        (k.loadBlocked = false →
          Gives i s (CoreIs c (seqNext (k.startLoads trans ra rb a.toNat b.toNat sub.toNat p)) s)) ∧
        (k.loadBlocked = true →
          Gives i s (CoreIs c (seqHeld k .stall (.load trans ra rb a.toNat b.toNat sub.toNat p)) s))) ∧
    (SeqIssues s c → 4 < p ∨ partSubs p ≤ sub.toNat → Gives i s (SeqFaults c .instr x.pc 0 s)) ∧
    (∀ l, x.loads[n]? = some l → (∀ y ∈ x.loads.take n, y.arrB ≠ l.arrB) → LinesGood s → x.passes = [] →
      x.held = .none → Gives (.loadComplete c n) s fun t => t = { s with cores := t.cores, cnt := t.cnt, mem := t.mem } ∧
        MemRead s t ∧ OtherCores c s t ∧ bareArray ((t.core c).arr l.arrB) =
          bareArray { k.arr l.arrB with shadow := s.landPlane l (k.arr l.arrB).shadow } ∧
        bareArray ((t.core c).arr (!l.arrB)) = bareArray (k.arr (!l.arrB)) ∧
        (t.core c).ctx = { x with loads := x.loads.eraseIdx n } ∧ (t.core c).st = k.st) ∧
    (k.arrA.vacated = true → (∀ q ∈ x.passes, q.toSwap = false) →
      let k1 : Core := { k with arrA := { k.arrA with vacated := false }, arrB := { k.arrB with vacated := false } }
      ((∀ tr ra rb da db sb pt, x.held ≠ .load tr ra rb da db sb pt) → Gives (.wldProceed c) s (CoreIs c k1 s)) ∧
      (∀ tr ra rb da db sb pt, x.held = .load tr ra rb da db sb pt → k1.loadBlocked = false → s.sqStopped c = false →
        Gives (.wldProceed c) s (CoreIs c (seqNext (k1.startLoads tr ra rb da db sb pt)) s))) ∧
    (SeqIssues s c →
      (k.passInside = true → exec (.wswapF c) s = .fault .undefinedSwap) ∧
      (k.passInside = false → x.loads = [] → Gives (.wswapF c) s (CoreIs c (seqNext { k with
          arrA := { k.arrA with active := k.arrA.shadow, shadow := { k.arrA.active with written := false } },
          arrB := { k.arrB with active := k.arrB.shadow, shadow := { k.arrB.active with written := false } } }) s)) ∧
      (k.passInside = false → x.loads ≠ [] → Gives (.wswapF c) s (CoreIs c (seqHeld k .stall .swap) s)))

/-- JET, ATS, ATX and ATV at dispatch (R111, R121, R122, R281): with operands that hold and a DRN for each sub-array, the pass joins
the dispatched ones, its DRNs leave the queue, and an ATS latches its group vector; behind a waiting pass they stall. -/
def Obligations.PassDispatch : Prop :=
  ∀ (c : CoreId) (kind : PassKind) (a mask : BitVec 12) (part : BitVec 3) (swap : Bool) (m : BitVec 13) (s : State),
    SeqIssues s c →
    let k := s.core c
    let i : Instr := match kind with
      | .jet => .jet c a part swap m | .ats => .ats c a mask part swap m
      | .atx => .atx c a part swap m | .atv => .atv c a part swap m
    let msk : BitVec 12 := if kind = .ats then mask else 0
    (4 < part.toNat → Gives i s (SeqFaults c .instr k.ctx.pc 0 s)) ∧
    (part.toNat ≤ 4 → k.ctx.waiting = true →
      Gives i s (CoreIs c (seqHeld k .stall (.pass kind a msk part swap m)) s)) ∧
    (part.toNat ≤ 4 → k.ctx.waiting = false → s.noMorePasses c = false →
      ∀ s1 o drns rest s2 bs,
        s.passOperands c kind a.toNat msk.toNat part.toNat (m.toNat + 1) swap = .ok (s1, o) →
        takeDrns (List.range (partSubs part.toNat)) k.ctx.drnq = some (drns, rest) →
        s1.bindAll c kind part.toNat (m.toNat + 1) (k.futureTiles false swap) (k.futureTiles true swap) drns = .ok (s2, bs) →
        (kind = .atx → LinesGood s ∧ WcbSound s) →
        Gives i s fun t => t = { s2 with cores := t.cores, cnt := t.cnt, mem := t.mem } ∧ OtherCores c s2 t ∧
          (kind ≠ .atx ∨ k.ctx.passes.any Pass.entering = true → t.mem = s2.mem) ∧
          (∀ a, (∀ i, i < 98304 → canon a ≠ canon (o.window + i)) → t.peek a = s2.peek a) ∧
          (t.core c).ctx.drnq = rest ∧ (t.core c).st = .run ∧
          (t.core c).ctx.pc = (loopStep (s2.core c).ctx.pc (s2.core c).ctx.loops).1 ∧
          (∃ p, (t.core c).ctx.passes = (s2.core c).ctx.passes ++ [p] ∧ p.ops = o ∧ p.binds = bs ∧ p.entered = 0) ∧
          (∀ z, o.ats = some z → (t.core c).ctx.atsValid = true ∧ (t.core c).ctx.atsM = m.toNat + 1 ∧
            (t.core c).ctx.atsGroups = z.skipCounts.map fun n => decide (n < 12)))

/-- The three events of a pass on its way (R71, R72, R76, R77, R121), each of which completes: PASS_ISSUE issues the waiting
pass; PRESCAN_END gives it the bounds of the rows that stream; ROW_ENTRY takes its rows into the arrays, the planes
exchanged at the origin where it swaps. -/
def Obligations.PassProgress : Prop :=
  ∀ (c : CoreId) (n : Nat) (p : Pass) (s : State), s.frozen c = false →
    let k := s.core c
    let x := k.ctx
    (x.passes[n]? = some p → p.issued = false →
      (∀ i q, i ≠ n → x.passes[i]? = some q → q.issued = true ∧ q.entering = false) →
      (∀ kd a mk pt sw m, x.held ≠ .pass kd a mk pt sw m) →
      (p.ua = none → p.ops.kind ≠ .atx → Gives (.passIssue c) s fun t => t = { s with cores := t.cores, cnt := t.cnt } ∧
        OtherCores c s t ∧ (∀ i, t.cntr i = if i = cntMc c 4 then cntAdd (s.cntr i) 1 else s.cntr i) ∧
        t.core c = { k with ctx := { x with passes := x.passes.set n { p with issued := true, issueNow := s.mer.now } } }) ∧
      (LinesGood s → Gives (.passIssue c) s fun t =>
        SeqFrame c s t ∧ ∀ q ∈ (t.core c).ctx.passes, q.issued = true)) ∧
    (LinesGood s → x.passes[n]? = some p → (∀ q ∈ x.passes.take n, q.ua.isSome = true ∧ q.entering = false) →
      p.ua = none → p.issued = false → p.framesA = [] →
      let ua := (List.range (partBands p.ops.part)).map fun b =>
        boundOf (p.ops.rows.flatMap fun m => (bandPart p.ops.part b (s.actRow p.ops m)).map (·.2))
      Gives (.prescanEnd c) s fun t => t = { s with cores := t.cores, cnt := t.cnt, mem := t.mem } ∧ MemRead s t ∧
        OtherCores c s t ∧ t.core c = { k with ctx := { x with passes := x.passes.set n { p with ua := some ua } } }) ∧
    (LinesGood s → x.passes = [p] → p.issued = true → p.ua.isSome = true → p.framesA = [] → p.entered = 0 → x.loads = [] →
      (∀ m ∈ p.ops.rows, p.rowSlots m = 0) →
      Gives (.rowEntry c) s fun t => SeqFrame c s t ∧
        (t.core c).arrA.active = (if p.ops.swap then k.arrA.shadow else k.arrA.active) ∧
        (t.core c).arrB.active = (if p.ops.swap then k.arrB.shadow else k.arrB.active) ∧
        ∀ q ∈ (t.core c).ctx.passes, q.ops = p.ops ∧ q.entered = p.ops.rows.length ∧
          q.framesA = originFrames (t.core c).arrA.active p.ops (p.ua.getD []) ∧
          q.framesB = originFrames (t.core c).arrB.active p.ops (p.ua.getD []))

/-- DRN and the drain (R92, R93, R123, R124, R235): a DRN is queued, a seventeenth faults; an element of a TILE in a format of its own is
rounded into a drain write, or as a wide element where FINAL is clear; a whole drain write stores its bytes. -/
def Obligations.Drains : Prop :=
  ∀ (c : CoreId) (a b dest : BitVec 12) (sub : BitVec 4) (fl : DrnFlags) (arrB : Bool) (row col n : Nat) (s : State),
    let k := s.core c
    let x := k.ctx
    (SeqIssues s c → (16 ≤ x.drnq.length → Gives (.drn c a b dest sub fl) s (SeqFaults c .drain x.pc 0 s)) ∧
      ∀ p, x.drnq.length < 16 → s.drnOperands c a.toNat b.toNat dest.toNat sub.toNat fl = .ok p →
        Gives (.drn c a b dest sub fl) s
          (CoreIs c (seqNext { k with ctx := { x with drnq := x.drnq ++ [p] } }) s)) ∧
    (∀ p d o, LinesGood s → s.frozen c = false → x.drainPass arrB sub.toNat row col = some n → x.passes[n]? = some p →
      p.ready arrB sub.toNat row col = some d → d.out arrB = some (.tile o) → p.ops.ats = none → fmtMx o.fmt = false →
      (x.carryWaits n d arrB row col = true → exec (.drainOutput c arrB sub row col) s = .next s) ∧
      (x.carryWaits n d arrB row col = false →
        let at1 := o.base + row * o.pitch
        (∀ s1 d1, s.headBinding c n p d = (s1, some d1) → Gives (.drainOutput c arrB sub row col) s fun t =>
          SeqFrame c s t ∧ MemRead s t ∧ (t.core c).st = k.st ∧
          (t.core c).ctx.drainWrites = (if d.drn.flags.final = true then
              addBytes (s1.core c).ctx.drainWrites d.drn.no (at1 + col * (fmtBits o.fmt / 8)) (toLe (fmtBits o.fmt / 8)
                (fmtRound o.fmt d.drn.flags.nonsat (s1.finalValue c p d1 arrB (.tile o) row col).2.2.1).1)
            else addBytes (s1.core c).ctx.drainWrites d.drn.no (at1 + 16 * col)
              (wideElem (s1.mergeAt c p d1 arrB row col).2.1.acc))) ∧
        ((s.headBinding c n p d).2 = none → Gives (.drainOutput c arrB sub row col) s fun t =>
          (t.core c).st = .fault ∧ (t.core c).faultCode = .accum ∧ bit (t.core c).arrevt 5 = true ∧
          (t.core c).ctx.drainWrites = x.drainWrites ∧ MemRead s t))) ∧
    (∀ l no m, x.drainWrites[n]? = some (.line l no m) → x.owesLine no l = false →
      (∀ y ∈ x.drainWrites.take n, y.line? ≠ some l) → LinesGood s → WcbSound s → lineOf l = l → canon l = l →
      inMemory l 128 = true → SMap.wf none m = true → (∀ q ∈ m, q.1 < 128) →
      Gives (.drainWriteComplete c n) s fun t => SeqFrame c s t ∧
        (∀ i, i < 128 → t.peek (l + i) = (SMap.get none m i).getD (s.peek (l + i))) ∧
        (∀ b, lineOf (canon b) ≠ l → t.peek b = s.peek b) ∧
        t.core c = { k with ctx := { x with drainWrites := x.drainWrites.eraseIdx n } }) ∧
    (∀ g, x.drainWrites[n]? = some (.packet g) →
      (SMap.get none k.staged g = none → Gives (.drainWriteComplete c n) s
        (CoreIs c { k with ctx := { x with drainWrites := x.drainWrites.eraseIdx n } } s)) ∧
      (SMap.get none k.staged g ≠ none → exec (.drainWriteComplete c n) s = .next s)) ∧
    (∀ ch g p, k.chunks[n]? = some ch → ch.stages = [g] → SMap.get none k.staged g = some p → LinesGood s →
      Gives (.chunkCloseTimeout c n) s fun t => MemRead s t ∧ t.engines = s.engines ∧ OtherCores c s t ∧
        t.core c = { k with chunks := k.chunks.eraseIdx n } ∧ t.lnk.nextOp = s.lnk.nextOp + 1)

/-- MOV, PUT and CSNAP (R125 to R127, R140): each joins the outstanding ones and the sequencer goes on, or stalls at sixteen; a MOV's rows
are copied and nothing else written; a snapshot's eight words are stored. -/
def Obligations.Copies : Prop :=
  ∀ (c : CoreId) (a b : BitVec 12) (flow : BitVec 13) (n : Nat) (s : State),
    let k := s.core c
    let x := k.ctx
    let joins (m : MoveOp) : Core := seqNext { k with ctx := { x with moves := x.moves ++ [m] } }
    (SeqIssues s c → k.movesFull = true →
      Gives (.mov c a b) s (CoreIs c (seqHeld k .stall (.mov a b)) s) ∧
      Gives (.put c a b flow) s (CoreIs c (seqHeld k .stall (.put a b flow)) s) ∧
      Gives (.csnap c a b) s (CoreIs c (seqHeld k .stall (.csnap a b)) s)) ∧
    (SeqIssues s c → k.movesFull = false →
      (∀ u v, s.copyOperand c a.toNat = .ok u → s.copyOperand c b.toNat = .ok v → (pairRuns u v).isSome = true →
        Gives (.mov c a b) s (CoreIs c (joins (.mov u v (u.wide && v.wide) x.pc a.toNat)) s) ∧
        (s.flowGranted k.job flow.toNat = true → LinesGood s → Gives (.put c a b flow) s fun t =>
          t.core c = seqNext { k with ctx := { x with puts := x.puts ++ [s.lnk.nextOp] } } ∧ OtherCores c s t ∧
          t.lnk.nextOp = s.lnk.nextOp + 1 ∧ MemRead s t ∧ t.engines = s.engines ∧ t.sems = s.sems)) ∧
      (∀ u, (s.core c).tileAt a.toNat = .ok u → u.wide = false → u.fmt ≤ 8 → 64 ≤ u.rowBytes → s.tileInRange u = true →
        s.jobRange (u.base + 64 * b.toNat) 64 = true →
        Gives (.csnap c a b) s (CoreIs c (joins (.snap (u.base + 64 * b.toNat) (s.snapWords c b.toNat))) s))) ∧
    (∀ u v h pc d runs, x.moves[n]? = some (.mov u v h pc d) → pairRuns u v = some runs → x.held = .none →
      LinesGood s → WcbSound s → (∀ r ∈ runs, inMemory r.1 r.2.2 = true ∧ inMemory r.2.1 r.2.2 = true) →
      Gives (.movComplete c n) s fun t => SeqFrame c s t ∧
        t.core c = { k with ctx := { x with moves := x.moves.eraseIdx n } } ∧
        (∀ q, (∀ r ∈ runs, ∀ i, i < r.2.2 → canon q ≠ canon (r.2.1 + i)) → t.peek q = s.peek q) ∧
        ((∀ r ∈ runs, ∀ q ∈ runs, ∀ i j, i < r.2.2 → j < q.2.2 → canon (r.2.1 + i) ≠ canon (q.1 + j) ∧
            (canon (r.2.1 + i) = canon (q.2.1 + j) → r = q ∧ i = j)) →
          ∀ r ∈ runs, ∀ i, i < r.2.2 → t.peek (r.2.1 + i) = s.peek (r.1 + i))) ∧
    (∀ w ws, x.moves[n]? = some (.snap w ws) → x.held = .none → LinesGood s → WcbSound s →
      inMemory w (8 * ws.length) = true →
      Gives (.movComplete c n) s fun t => SeqFrame c s t ∧ Stored w (ws.flatMap w64Bytes) s t ∧
        t.core c = { k with ctx := { x with moves := x.moves.eraseIdx n } }) ∧
    (∀ o, s.op n = some o → o.finished = true → o.owner = .core c → x.held = .none →
      Gives (.putComplete n) s fun t => t = { s with cores := t.cores, lnk := { s.lnk with ops := t.lnk.ops } } ∧
        OtherCores c s t ∧ t.core c = { k with ctx := { x with puts := x.puts.filter (· != n) } } ∧
        ∀ m, t.op m = if m = n then none else s.op m)

/-! Meridian and the schedule. -/

/-- The events of Meridian's count (R20 to R30, R42): a slew step, the lock's end, the upstream link's failure, HOLDOVER's limits, the
loss of the reference; each changes Meridian only. A time frame from upstream, the reference's return, a 1PPS edge and a PTP
exchange each give the own count's offset, which steps, slews or faults it. -/
def Obligations.MeridianEvents : Prop :=
  (∀ (s : State) (alt : Option LinkId) (l k : LinkId) (tenMhz : Bool),
    let m := s.mer
    (m.st = .locked → 0 < m.slew → m.lastSlew + 5000 ≤ s.now →
      Gives .slewStep s (MerIs { m with now := m.now + 2, slew := m.slew - 1, lastSlew := s.now + 2 } s)) ∧
    (m.st = .locked → m.slew < 0 → m.lastSlew + 5000 ≤ s.now →
      Gives .slewStep s (MerIs { m with slew := m.slew + 1, lastSlew := s.now } s)) ∧
    (m.st = .holdover → m.returning = true → m.slew = 1 → m.lastSlew + 5000 ≤ s.now →
      Gives .slewStep s fun t => t.mer.st = .locked ∧ t.mer.now = m.now + 2 ∧ t.mer.slew = 0 ∧ t = { s with mer := t.mer }) ∧
    (m.st = .acquire → m.measured = true ∨ (s.grp.role = 2 ∧ m.source = 0) →
      Gives .lockAcquired s fun t => t.mer = { m with st := .locked, holdEp := 0, extOnly := false, returning := false } ∧
        (s.sec.boot ≠ .lock → t = { s with mer := t.mer })) ∧
    (m.upstream = some l → (s.link l).up = false → alt = some k → k ≠ l → (s.link k).up = true →
      s.leadsTo k s.upstreamChip = true →
      Gives (.upstreamLinkFail alt) s (MerIs { m with upstream := some k, altSince := some s.now } s)) ∧
    (m.upstream = some l → (s.link l).up = false → m.st = .locked →
      (∀ j, alt = some j → j = l ∨ (s.link j).up = false ∨ s.leadsTo j s.upstreamChip = false) →
      Gives (.upstreamLinkFail alt) s (MerIs { m with st := .holdover, evt := setBit m.evt 0, returning := false } s)) ∧
    (∀ n, m.altSince = some n → m.st = .locked →
      (n + 4 * 2 ^ 20 ≤ s.now → Gives .holdoverTimeout s
        (MerIs { m with st := .holdover, evt := setBit m.evt 0, returning := false, altSince := none } s)) ∧
      (s.now < n + 4 * 2 ^ 20 → exec .holdoverTimeout s = .next s)) ∧
    (m.st = .holdover → 100 < m.holdEp → Gives .holdLimit s (MerIs { m with evt := setBit m.evt 1 } s)) ∧
    (s.grp.role = 2 → m.source = 1 ∨ m.source = 2 → m.st = .locked →
      (m.refAt + 2000000000 ≤ s.now ∨ (m.source = 1 ∧ tenMhz = true) → Gives (.refLost tenMhz) s
        (MerIs { m with st := .holdover, evt := setBit (setBit m.evt 4) 0, returning := false, extOnly := true } s)) ∧
      (s.now < m.refAt + 2000000000 → tenMhz = false → exec (.refLost tenMhz) s = .next s))) ∧
  (∀ (s : State) (l : LinkId) (f : TimeFrame) (p : Packet) (off : Int) (seq : W16) (at1 : PtpTime),
    (s.rxFront l 0 = some p → p.kind.toNat = pkTime → p.payload = frameBytes f → s.mer.upstream = some l →
      f.echoTick ≠ 0 → Gives (.time l f) s (OffsetTaken (frameOffset f (s.link l).asym) s)) ∧
    (s.rxFront l 0 = some p → p.kind.toNat = pkTime → p.payload = frameBytes f → s.mer.upstream ≠ some l →
      Gives (.time l f) s fun t => ∃ m, t.mer = { s.mer with frames := m } ∧
        SMap.get TimeLink.none m l = ⟨f.txTick, f.txPs, f.rxTick, f.rxPs⟩) ∧
    (s.grp.role = 2 → s.mer.source = 1 ∨ s.mer.source = 2 → s.mer.st = .holdover → s.mer.extOnly = true →
      Gives (.referenceReturn off) s (OffsetTaken off s)) ∧
    (s.grp.role = 2 → s.mer.source = 2 →
      let x := s.mer.ptp
      Gives (.ptpMessage (.sync seq)) s
        (MerIs { s.mer with refAt := s.now, ptp := { x with sync := some (seq, s.now) } } s) ∧
      (∀ t2, x.sync = some (seq, t2) → Gives (.ptpMessage (.followUp seq at1)) s
        (MerIs { s.mer with refAt := s.now, ptp := ⟨none, some (x.nextSeq, (t2 : Int) - (ptpCount at1 : Int), s.now),
          x.nextSeq + 1, x.sent ++ [x.nextSeq]⟩ } s)) ∧
      (∀ down t3, x.request = some (seq, down, t3) → Gives (.ptpMessage (.delayResp seq at1)) s
        (OffsetTaken (500 * (down - ((ptpCount at1 : Int) - (t3 : Int)))) s))) ∧
    (s.grp.role = 2 → s.mer.source = 1 → s.mer.ppsArmed = true →
      Gives .ppsEdge s (OffsetTaken (1000 * ((s.now : Int) - (s.mer.lockSeconds.toNat * 1000000000 % 2 ^ 64 : Nat))) s)) ∧
    (s.grp.role = 2 → s.mer.source = 1 → s.mer.ppsArmed = false →
      Gives .ppsEdge s (OffsetTaken
        (1000 * ((s.now : Int) - ((s.now + 500000000) / 1000000000 * 1000000000 : Nat))) s)))

/-- A beat (R22, R38, R439, R440): the boundary event fires once as the count reaches it, and every entry's deficit moves by its share
less the slots charged to it, within DCAP, or is 0 where it does not contend. An epoch (R22, R38, R397, R399, R477): a pending
cap comes into force, the draw of the epoch is closed, and the snapshot of the counters stands in memory with the epoch's
number as its last word. -/
def Obligations.BoundaryEvents : Prop :=
  (∀ (m : BeatMeas) (s : State),
    let b := s.mer.nextBeat
    let n := max s.now b
    let s1 : State := { s with mer := { s.mer with now := w64 n, nextBeat := b + 1024 } }
    let cap : Int := (fld s.fw.sched 23 0 : Nat)
    n < s.mer.nextEpoch → Gives (.beatBoundary m) s fun t => t.mer = s1.mer ∧ t.mem = s.mem ∧ t.engines = s.engines ∧
      t.sems = s.sems ∧
      ∀ p ∈ s.sched,
        let e := s.entry p.1
        let c := s1.chargedTo m p.1
        let d : Int := e.deficit + (e.share * fld s.fw.sched 63 48 : Nat) - (c : Nat)
        t.entry p.1 = { e with slots := c, cont := s1.contending p.1,
                               deficit := if s1.contending p.1 then max (-cap) (min cap d) else 0 }) ∧
  (∀ (m : EpochMeas) (s : State), LinesGood s → WcbSound s →
    let b := s.mer.nextEpoch
    let n := max s.now b
    let a := fld s.cnt.snap 47 0 + 8192 * (n % 2 ^ 64 / 2 ^ 20 % max 1 (fld s.cnt.snap 63 48))
    b ≤ s.mer.nextBeat → inMemory a 8192 = true →
    Gives (.epochBoundary m) s fun t => t.mer.now = w64 n ∧ t.mer.nextEpoch = b + 2 ^ 20 ∧
      t.pwr.cap = (if s.pwr.capPend then s.pwr.capNext else s.pwr.cap) ∧ t.pwr.capPend = false ∧
      t.pwr.drawPeak = min 2047 (max s.pwr.epPeak (m.draw / 1000000)) ∧ t.fw.maintUsed = m.maintUsed ∧
      t.word64 (a + 0x1FF8) = w64 (n % 2 ^ 64 / 2 ^ 20) ∧
      (∀ k, k < 820 → t.word64 (a + 64 + 8 * k) = s.cntr k) ∧
      (s.mer.st = .holdover → t.mer.holdEp = min 65535 (s.mer.holdEp + 1)) ∧ t.engines = s.engines ∧ t.sems = s.sems)

/-- A launch (R33, R35, R36, R146): the instance stands running, the entry counts it, each core runs from the entry point with empty
stacks, each engine from its VE_ENTRY or counts as ended, and a launch more than 64 ticks late is counted. Yield-back and
the stop of a slot (R437, R447, R448): the saved holder of the semaphore a waiter is blocked on runs in its place; where it
may not, or waits in the chain itself, the slot is stopped for a deadlock. A slot is stopped when its cause has come. -/
def Obligations.InstanceLaunch : Prop :=
  (∀ (i : BitVec 10) (no nominal : Nat) (s : State),
    let e := s.entry i.toNat
    let cs := coresOf e.cores
    s.boundaryDue = false → e.due s.now = some (no, nominal) → s.instsOf i.toNat = [] → s.mayTake ⟨i.toNat, cs, e.job, false, false⟩ = true →
    Gives (.instanceLaunch i) s fun t =>
      t.fw.insts = s.fw.insts ++ [mkInst i.toNat no e cs (w64 nominal)] ∧
      (t.entry i.toNat).nextNo = no + 1 ∧ (t.entry i.toNat).inst = e.inst + 1 ∧
      (∀ c ∈ cs, (t.core c).st = .run ∧ (t.core c).job = e.job ∧ (t.core c).ctx.pc = e.entry ∧
        (t.core c).ctx.loops = [] ∧ (t.core c).ctx.calls = [] ∧ (t.core c).ctx.drnq = [] ∧
        ∀ j, j < 16 → match SMap.get none (s.job e.job).veEntry (16 * c + j) with
          | some w => (t.eng (16 * c + j)).st = .run ∧ (t.eng (16 * c + j)).ctx.pc = w
          | none => (t.eng (16 * c + j)).st = .halted) ∧
      (∀ d, d ∉ cs → t.core d = s.core d) ∧ t.sems = s.sems ∧
      t.mer.lateCount = (if 64 < s.launchLag i.toNat no nominal then BitVec.ofNat 48 (s.mer.lateCount.toNat + 1) else s.mer.lateCount)) ∧
  (∀ (i : BitVec 10) (w h : Inst) (n : Nat) (j : SlotId) (cause : StopCause) (s : State),
    (s.liveInst i.toNat = some w → s.blockedOn w = some (n, h) →
      ((s.sem n).noinh = true ∨ s.inChain i.toNat h = true → Gives (.yieldBack i) s fun t =>
        SlotStopped w.job 2 t ∧ (t.job w.job).sem = n ∧ bit t.fw.evt 1 = true) ∧
      ((s.sem n).noinh = false → s.inChain i.toNat h = false →
        (∀ c ∈ h.needs, c ∈ w.needs ∨ (s.coreHeld c = false ∧ s.coreBarred c = false)) → s.saveReady w = true →
        Gives (.yieldBack i) s fun t => bit t.fw.evt 2 = true ∧
          ∃ y ∈ t.fw.insts, y.entry = h.entry ∧ y.no = h.no ∧ y.st = .running ∧ y.backFor = some (i.toNat, n))) ∧
    (s.stopDue j cause = true → Gives (.jobSlotStop j cause) s fun t => SlotStopped j (stopCauseCode cause) t ∧
      (cause = .unit → bit t.fw.evt 0 = true)))

/-- Save and restore (R441, R443, R444): a wanted save of a ready instance leaves its units SAVED, one that is not ready is stopped;
a restored instance runs with its call stack and its engines' scalar and predicate registers as they were, caches empty. The
last unit of an instance of one core to end (R138, R146): with the sequencer halted and the sixteen engines ended the
instance is gone, its core free, and its ENDINST record carries the exit code. -/
def Obligations.InstanceSaveRestore : Prop :=
  (∀ (i : BitVec 10) (x : Inst) (w : Waiter) (s : State),
    (s.liveInst i.toNat = some x → s.saveWanted x = true → s.saveReady x = true → Gives (.instanceSave i) s fun t =>
      InstIs t i.toNat x.no .saved ∧
        ∀ c ∈ x.needs, (t.core c).st =
            (if (s.core c).st = .halted ∧ (s.core c).ctx.held ≠ .yieldPt then .halted else .saved) ∧
          ∀ j, j < 16 → (t.eng (16 * c + j)).st = (if (s.eng (16 * c + j)).st = .halted then .halted else .saved)) ∧
    (s.liveInst i.toNat = some x → s.saveWanted x = true → s.saveReady x = false → Gives (.instanceSave i) s fun t =>
      InstIs t i.toNat x.no .stopping ∧ t = { s with fw := { s.fw with insts := t.fw.insts } }) ∧
    ((s.waiting.find? fun w => w.saved && w.entry == i.toNat) = some w → s.keptInst i.toNat = some x →
      s.mayTake w = true → (∀ c ∈ x.needs, s.coreSaveReady true c = true) → Gives (.instanceRestore i) s fun t => InstIs t i.toNat x.no .running ∧
        ∀ c ∈ x.needs, (t.core c).job = x.job ∧
          (t.core c).ctx.calls = (SMap.get SqCtx.empty x.savedCores c).calls ∧
          ∀ j, j < 16 → (t.eng (16 * c + j)).job = x.job ∧ (t.eng (16 * c + j)).dcache = [] ∧
            (t.eng (16 * c + j)).ctx.sregs = (SMap.get VeCtx.empty x.savedEngines (16 * c + j)).sregs ∧
            (t.eng (16 * c + j)).ctx.pregs = (SMap.get VeCtx.empty x.savedEngines (16 * c + j)).pregs)) ∧
  (∀ (c : CoreId) (code : BitVec 12) (x : Inst) (s : State), SeqIssues s c → (s.core c).quiet = true →
    s.enginesEnded c = true → s.instOn c = some x → x.cores = [c.val] → x.exit < 4096 →
    Gives (.halt c code) s fun t => (t.core c).st = .halted ∧ (t.core c).exitCode = code.toNat ∧ OtherCores c s t ∧
      (∀ y ∈ t.fw.insts, y ∈ s.fw.insts ∧ ¬ (y.entry = x.entry ∧ y.no = x.no)) ∧ t.mem = s.mem ∧ t.engines = s.engines ∧
      t.sched = s.sched ∧ t.sems = s.sems ∧
      ∃ r ∈ t.cnt.due, r.code = 2 ∧ r.slot = x.job ∧ r.a0 = w64 x.entry ∧ r.a1 = w64 x.no ∧ r.a2 = w64 code.toNat)


/-! Darkel's commands. -/

/-- COMMAND_POST (R417, R419): the five words and word 0, whose ORIGIN reads 0, stand in the table; a store to Darkel's own entries is
an access fault. -/
def Obligations.CommandPost : Prop :=
  ∀ (cc : CcId) (i : BitVec 8) (w0 : W64) (args : List W64) (s : State),
    (i.toNat < 192 → Gives (.commandPost cc i w0 args) s fun t => t = { s with fw := { s.fw with cmds := t.fw.cmds } } ∧
      (t.cmd i.toNat).word 0 = putFld w0 62 60 0 ∧
      (∀ k, k < 5 → (t.cmd i.toNat).word (k + 1) = (args[k]?).getD 0) ∧
      (t.cmd i.toNat).phase = (s.cmd i.toNat).phase ∧ ∀ n, n ≠ i.toNat → t.cmd n = s.cmd n) ∧
    (192 ≤ i.toNat → Gives (.commandPost cc i w0 args) s fun t => t = { s with harts := t.harts } ∧
      (t.hart cc).storeFault = some (BitVec.ofNat 48 (0xE01810008 + 64 * i.toNat)) ∧
      (t.hart cc).loadFault = (s.hart cc).loadFault ∧ ∀ d, d ≠ cc.val → t.hart d = s.hart d)

/-- JOB.START, JOB.SHARE and JOB.STOP (R32, R421, R435, R436): the schedule entry as the arguments give it and the slot ACTIVE; a share;
a slot with nothing running READY or ACTIVE again, its named entries not valid, or EMPTY with UNLOAD. -/
def Obligations.JobCommands : Prop :=
  ∀ (i : BitVec 8) (s : State),
    let n := i.toNat
    let c := s.cmd n
    let e := fld (c.arg 0) 9 0
    let en := entryOf (c.arg 1) (c.arg 2) (c.arg 3) (c.arg 4)
    let share := fld (c.arg 1) 9 0
    let slot := fld (c.arg 0) 1 0
    let arg := fld (c.arg 1) 10 0
    let names (k : Nat) : Bool := arg == 0x7FF || arg == k
    let left : Bool := (s.fw.insts.any fun x => x.job == slot) ||
      s.sched.any fun p => p.2.valid && p.2.job == slot && !names p.1
    (s.cmdRuns n 2 = true →
      (s.startChecks e en = 0 → s.startCores en = 0 → Gives (.jobStart i) s fun t => CmdDone n 0 0 s t ∧
        (t.job en.job).st = .active ∧ ∀ k, t.entry k = if k = e then en else s.entry k) ∧
      (∀ st, s.startChecks e en = st → st ≠ 0 → Gives (.jobStart i) s (CmdRefused n st s)) ∧
      (∀ st, s.startChecks e en = 0 → s.startCores en = st → st ≠ 0 → Gives (.jobStart i) s (CmdRefused n st s))) ∧
    (s.cmdRuns n 4 = true →
      (1 ≤ share → share ≤ 1000 → (s.entry e).valid = true → Gives (.jobShare i) s fun t => CmdDone n 0 0 s t ∧
        FwKept s t ∧ ∀ k, t.entry k = if k = e then { s.entry k with share := share } else s.entry k) ∧
      (share < 1 ∨ 1000 < share → Gives (.jobShare i) s (CmdRefused n 0x11 s)) ∧
      (1 ≤ share → share ≤ 1000 → (s.entry e).valid = false → Gives (.jobShare i) s (CmdRefused n 0x1B s))) ∧
    (s.cmdRuns n 3 = true → (arg = 0x7FF ∨ (arg < 1024 ∧ ((s.entry arg).valid = true → (s.entry arg).job = slot))) →
      fld (c.took 0) 62 60 ≠ 2 → ((s.job slot).st = .ready ∨ (s.job slot).st = .active) →
      (∀ x ∈ s.fw.insts, x.job = slot → names x.entry = false) →
      (∀ p ∈ s.sched, p.2.job = slot → names p.1 = true → (s.entry p.1).due s.now = none) →
      (c.flag 1 = false → Gives (.jobStop i) s fun t => CmdDone n 0 0 s t ∧
        (t.job slot).st = (if left then .active else .ready) ∧
        (∀ p ∈ t.sched, p.2.job = slot → names p.1 = true → p.2.valid = false) ∧ t.fw.insts = s.fw.insts) ∧
      (c.flag 1 = true → arg = 0x7FF → Gives (.jobStop i) s fun t => CmdDone n 0 0 s t ∧ t.job slot = Job.empty ∧
        (∀ p ∈ t.sched, p.2.job = slot → p.2.valid = false) ∧
        (∀ k, (t.sem k).granted = true → (t.sem k).job ≠ slot) ∧
        (∀ k, (t.flow k).valid = true → (t.flow k).job ≠ slot) ∧ bit (t.redSlot slot).ctl 63 = false))

/-- JOB.LOAD and MODEL.LOAD with UNLOAD (R423 to R434): an image that passes every check makes the slot READY with its digest, class and
cores; a failed check is answered by its status and loads nothing. A model's digest is kept and measured until it is unloaded. -/
def Obligations.LoadCommands : Prop :=
  ∀ (i : BitVec 8) (m : Image) (st : Nat) (s : State), LinesGood s →
    let n := i.toNat
    let c := s.cmd n
    let a := (c.arg 0).toNat
    let len := (c.arg 1).toNat
    let slot := fld (c.arg 2) 1 0
    let s1 := (s.checkRange rdKeeper 255 a len).1
    (s.cmdRuns n 1 = true → cmdSource a len = true → (s.job slot).st = .empty →
      (s1.imageChecks slot (s1.bytes a len) = .ok m → Gives (.jobLoad i) s fun t =>
        CmdDone n 0 (leNat (m.digest.take 6)) s t ∧ (t.job slot).st = .ready ∧ (t.job slot).digest = m.digest ∧
        (t.job slot).cls = m.cls ∧ (t.job slot).cores = (m.ofType 1).map (·.unit) ∧ (t.job slot).layout = m.regions) ∧
      (s1.imageChecks slot (s1.bytes a len) = .error st → Gives (.jobLoad i) s fun t => CmdDone n st 0 s t ∧
        t.job slot = s.job slot ∧ t.sems = s.sems ∧ MemKept s t)) ∧
    (s.cmdRuns n 1 = true → cmdSource a len = true → (s.job slot).st ≠ .empty →
      Gives (.jobLoad i) s (CmdRefused n 0x1B s)) ∧
    (s.cmdRuns n 5 = true → c.flag 0 = false → cmdSource a len = true → s.allEmpty = true →
      (∀ regs bs, s1.modelPlan (s1.bytes a len) = .ok (regs, bs) → Gives (.modelLoad i) s fun t => CmdDone n 0 0 s t ∧
        t.fw.model = some (digest32 (s.bytes a len)) ∧ t.fw.modelRegions = regs ∧
        t.bankBytes 2 = digest32 (s.bytes a len)) ∧
      (s1.modelPlan (s1.bytes a len) = .error st → Gives (.modelLoad i) s fun t => CmdDone n st 0 s t ∧
        t.fw.model = s.fw.model ∧ MemKept s t)) ∧
    (s.cmdRuns n 5 = true → c.flag 0 = true → s.allEmpty = true → s.fw.model ≠ none →
      Gives (.modelUnload i) s fun t => CmdDone n 0 0 s t ∧ t.fw.model = none ∧ t.bankBytes 2 = zero32)

/-- CAP.SET, RAMP.PLAN and CAL.RUN (R397, R399, R411 to R413, R421, R452). -/
def Obligations.PlanCommands : Prop :=
  ∀ (i : BitVec 8) (steps : Nat) (s : State),
    let n := i.toNat
    let c := s.cmd n
    let w := fld (c.arg 0) 10 0
    let names := (List.range 16).filter fun k => (fld (c.arg 0) 15 0).testBit k
    let kind := fld (c.arg 0) 63 56
    let core := fld (c.arg 0) 49 48
    let p := s.pcore core
    let room := s.stepsLeft core (s.classMv core p.cls)
    (s.cmdRuns n 6 = true →
      (400 ≤ w → w ≤ 1600 → Gives (.capSet i) s fun t => CmdDone n 0 0 s t ∧ FwKept s t ∧
        t.pwr = { s.pwr with capPend := true, capImm := c.flag 0, capNext := w }) ∧
      (w < 400 ∨ 1600 < w → Gives (.capSet i) s (CmdRefused n 0x11 s))) ∧
    (s.cmdRuns n 7 = true →
      (names.length ≤ 4 → (∀ k, k < names.length → 2 ≤ fld (c.arg (k + 1)) 10 3 ∧ fld (c.arg (k + 1)) 10 3 ≤ 200) →
        Gives (.rampPlan i) s fun t => CmdDone n 0 0 s t ∧ FwKept s t ∧ t.pwr = { s.pwr with ramp := t.pwr.ramp } ∧
          (∀ k j, names[k]? = some j → SMap.get 0 t.pwr.ramp j = putFld (c.arg (k + 1)) 2 1 0) ∧
          ∀ j, j ∉ names → SMap.get 0 t.pwr.ramp j = SMap.get 0 s.pwr.ramp j) ∧
      (4 < names.length → Gives (.rampPlan i) s (CmdRefused n 0x11 s))) ∧
    (s.cmdRuns n 9 = true → kind = 0 → (fld (c.arg 0) 54 48 < 96 → Gives (.linkeq i) s fun t => CmdDone n 0 0 s t ∧
        FwKept s t ∧ (NoReply n s → t = { s with fw := t.fw })) ∧
      (96 ≤ fld (c.arg 0) 54 48 → Gives (.linkeq i) s (CmdRefused n 0x11 s))) ∧
    (s.cmdRuns n 9 = true → kind = 1 → Gives (.vplan i steps true) s fun t => CmdDone n 0 0 s t ∧
      (t.pcore core).vadd p.cls = p.vadd p.cls + 5 * min steps room ∧ (t.pcore core).replans = min 255 (p.replans + 1) ∧
      (t.pcore core).validRec = p.validRec &&& BitVec.ofNat 3 (2 ^ p.cls) ∧ (t.pcore core).fset = p.fset ∧
      ∀ d, d ≠ core → t.pcore d = s.pcore d) ∧
    (s.cmdRuns n 9 = true → kind = 1 → Gives (.vplan i steps false) s fun t => CmdDone n 0 0 s t ∧
      (t.pcore core).vadd p.cls = p.vadd p.cls + 5 * room ∧
      (p.free = true → (t.pcore core).fmax = p.fmax - 40 * steps ∧ bit t.pwr.evt 3 = true) ∧
      (p.free = false → (t.pcore core).replost = true ∧ bit t.pwr.evt 2 = true)) ∧
    (s.cmdRuns n 9 = true → kind = 2 →
      (fld (c.arg 1) 31 0 ≠ 0 → Gives (.ageperiod i) s fun t => CmdDone n 0 0 s t ∧ FwKept s t ∧
        t.pwr = { s.pwr with agePeriod := fld (c.arg 1) 31 0 }) ∧
      (fld (c.arg 1) 31 0 = 0 → Gives (.ageperiod i) s (CmdRefused n 0x11 s))) ∧
    (s.cmdRuns n 9 = true → kind = 3 →
      (fld (c.arg 0) 1 0 ≠ 3 → Gives (.regather i) s fun t => CmdDone n 0 0 s t ∧ FwKept s t ∧
        t.pcore core = { p with validRec := p.validRec &&& ~~~ BitVec.ofNat 3 (2 ^ fld (c.arg 0) 1 0) } ∧
        ∀ d, d ≠ core → t.pcore d = s.pcore d) ∧
      (fld (c.arg 0) 1 0 = 3 → Gives (.regather i) s (CmdRefused n 0x11 s)))

/-- TEST.RUN (R450, R451): the result word, the log; a core that an instance holds is evacuated first; a row and a lane are tested only
with a spare, a lane without one on the other lane if forced; a test that has waited ARG1 epochs times out. -/
def Obligations.TestCommands : Prop :=
  ∀ (i : BitVec 8) (nfail : Nat) (lowest : W32) (x : Inst) (t0 no : Nat) (s : State),
    let n := i.toNat
    let c := s.cmd n
    let kind := fld (c.arg 0) 63 56
    let r := rowOf (c.arg 0)
    let l := fld (c.arg 0) 54 48
    let ends (j : Instr) : Prop := Gives j s (TestEnded n nfail lowest s)
    let onCore (j : Instr) (core : Nat) : Prop :=
      (s.instOn core = none → Gives j s fun t => TestEnded n nfail lowest s t ∧
        t.fw.evac = s.fw.evac &&& ~~~ BitVec.ofNat 4 (2 ^ core)) ∧
      (s.instOn core = some x → x.st = .running → Gives j s fun t =>
        t = { s with fw := { s.fw with insts := t.fw.insts, evac := t.fw.evac, evt := t.fw.evt } } ∧
        InstIs t x.entry x.no .stopping ∧ t.fw.evac = s.fw.evac ||| BitVec.ofNat 4 (2 ^ core) ∧
        t.fw.evt = setBit s.fw.evt (if x.whole then 4 else 3))
    (s.cmdRuns n 8 = true → kind = 0 → ends (.testSpares i nfail lowest)) ∧
    (s.cmdRuns n 8 = true → kind = 1 → onCore (.testArray i nfail lowest) (fld (c.arg 0) 49 48)) ∧
    (s.cmdRuns n 8 = true → kind = 2 → fld (c.arg 0) 8 0 < 388 → onCore (.testColumn i nfail lowest) (fld (c.arg 0) 49 48)) ∧
    (s.cmdRuns n 8 = true → kind = 3 → onCore (.testEngine i nfail lowest) (fld (c.arg 0) 53 48 / 16)) ∧
    (s.cmdRuns n 8 = true → kind = 4 → r.stack < 20 →
      (s.sparesUsed r.stack r.tier r.bank < 16 → ends (.testRow i nfail lowest)) ∧
      (16 ≤ s.sparesUsed r.stack r.tier r.bank → Gives (.testRow i nfail lowest) s (CmdRefused n 0x1A s))) ∧
    (s.cmdRuns n 8 = true → kind = 5 → l < 96 → fld (c.arg 0) 33 32 ≤ 1 →
      ((s.link l).spareFree = true ∨ c.flag 0 = true → Gives (.testLane i nfail lowest) s fun t =>
        TestEnded n nfail lowest s t ∧ (t.link l).toResend = (s.link l).replay.length ∧
        bit t.lnk.evt (if (s.link l).spareFree then 1 else 0) = true) ∧
      ((s.link l).spareFree = false → c.flag 0 = false →
        Gives (.testLane i nfail lowest) s (CmdRefused n 0x1A s))) ∧
    (c.phase = .pending no → c.since = some t0 → c.code = 8 → fld (c.arg 1) 15 0 ≠ 0 →
      t0 + fld (c.arg 1) 15 0 ≤ s.now / 2 ^ 20 → Gives (.testTimeout i) s (CmdRefused n 0x1D s))

/-- REPAIR.APPLY (R101, R102, R145, R193 to R195, R328, R438, R453, R460): the repair takes one field entry of the repair map and effect
now, or at a reset with ATRESET; without a spare it is answered NOSPARE, and a core whose columns or engines have none left
is out of service. -/
def Obligations.RepairCommands : Prop :=
  ∀ (i : BitVec 8) (s : State),
    let n := i.toNat
    let c := s.cmd n
    let w := c.arg 0
    let kind := fld w 63 56
    let core := fld w 49 48
    let b := bit w 47
    let a := (s.core core).arrayOf b
    let waits := a.retired.length + s.pendCount 2 fun v => fld v 49 47 == fld w 49 47
    let eng := fld w 53 48
    let used := ((List.range 16).filter fun k => decide ((s.eng (16 * (eng / 16) + k)).phys = 16)).length +
      s.pendCount 3 fun v => fld v 53 48 / 16 == eng / 16
    let r := rowOf w
    let rows := s.sparesUsed r.stack r.tier r.bank + s.pendCount 4 fun v =>
      (rowOf v).stack == r.stack && (rowOf v).tier == r.tier && (rowOf v).bank == r.bank
    let l := fld w 54 48
    let free := (s.link l).spareFree = true ∧ (s.pendCount 5 fun v => fld v 54 48 == l) = 0
    let atReset (j : Instr) : Prop := c.flag 0 = true → Gives j s fun t => RepairEnded n s t ∧ MapTakes n s t ∧
      t.sec.repairPend = s.sec.repairPend ++ [w]
    let out (j : Instr) (k : Nat) : Prop := Gives j s fun t => RepairNoSpare n s t ∧
      t.fw.oos = s.fw.oos ||| BitVec.ofNat 4 (2 ^ k)
    (s.cmdRuns n 0xA = true → kind = 2 → fld w 8 0 < 388 → a.pendCol ≠ some (fld w 8 0) →
      (fld w 8 0 ∈ a.retired → Gives (.repairColumn i) s (RepairEnded n s)) ∧
      (fld w 8 0 ∉ a.retired → 4 ≤ waits → out (.repairColumn i) core) ∧
      (fld w 8 0 ∉ a.retired → waits < 4 → s.sec.fieldUsed < 512 → atReset (.repairColumn i) ∧
        (c.flag 0 = false → Gives (.repairColumn i) s fun t => MapTakes n s t ∧ (t.cmd n).phase = c.phase ∧
          (t.core core).arrayOf b = { a with pendCol := some (fld w 8 0) }))) ∧
    (s.cmdRuns n 0xA = true → kind = 3 →
      (1 ≤ used → out (.repairEngine i) (eng / 16)) ∧
      (used < 1 → s.sec.fieldUsed < 512 → atReset (.repairEngine i) ∧
        (c.flag 0 = false → (s.eng eng).st = .idle ∨ (s.eng eng).st = .halted ∨ (s.eng eng).st = .saved →
          Gives (.repairEngine i) s fun t => RepairEnded n s t ∧ MapTakes n s t ∧ (t.eng eng).phys = 16))) ∧
    (s.cmdRuns n 0xA = true → kind = 4 → r.stack < 20 →
      (16 ≤ rows → Gives (.repairRow i) s fun t => RepairNoSpare n s t ∧ bit t.mem.evt 5 = true) ∧
      (rows < 16 → s.sec.fieldUsed < 512 → atReset (.repairRow i) ∧
        (c.flag 0 = false → LinesGood s → Gives (.repairRow i) s fun t => RepairEnded n s t ∧ MapTakes n s t ∧
          t.mem.repaired = s.mem.repaired ++ [r] ∧ MemKept s t))) ∧
    (s.cmdRuns n 0xA = true → kind = 5 → l < 96 → fld w 33 32 ≤ 1 →
      (¬ free → Gives (.repairLane i) s (RepairNoSpare n s)) ∧
      (free → s.sec.fieldUsed < 512 → atReset (.repairLane i) ∧
        (c.flag 0 = false → Gives (.repairLane i) s fun t => RepairEnded n s t ∧ MapTakes n s t ∧
          (if fld w 33 32 = 1 then (t.link l).src1 else (t.link l).src0) = (s.link l).spcab + 2 ∧
          (t.link l).toResend = (s.link l).replay.length)))

/-- LOG.READ, ATTEST.QUOTE, ROLE.SET, TIME.LOCK and RESET.WARM (R23, R379, R409, R421, R461, R467, R480). -/
def Obligations.KeeperCommands : Prop :=
  ∀ (i : BitVec 8) (s : State), LinesGood s → WcbSound s →
    let n := i.toNat
    let c := s.cmd n
    let a := (c.arg 0).toNat
    let b := (c.arg 1).toNat
    let rs := s.logFrom a (fld (c.arg 2) 15 0)
    let src := fld (c.arg 0) 1 0
    (s.cmdRuns n 0xF = true →
      (b % 64 = 0 → s.stackRange b (64 * rs.length) = true → Gives (.logRead i) s fun t => CmdDone n 0 rs.length s t ∧
        Stored b (rs.flatMap fun p => p.2.bytes p.1 s.grp.chip.toNat) s t) ∧
      (b % 64 ≠ 0 → Gives (.logRead i) s (CmdRefused n 0x11 s))) ∧
    (s.cmdRuns n 0xB = true → a % 16 = 0 → b % 16 = 0 → cmdSource a 32 = true → cmdSource b 30176 = true →
      Gives (.attestQuote i) s fun t => CmdDone n 0 30176 s t ∧
        Stored b (fixLen 384 c.quote ++ s.idSign "OZT8-QUOTE" (fixLen 384 c.quote)) s t) ∧
    (s.cmdRuns n 0xC = true →
      (src = 0 ∨ src = 3 → Gives (.roleSet i) s (CmdRefused n 0x11 s)) ∧
      (src = 1 ∨ src = 2 → s.grp.formed = false → Gives (.roleSet i) s (CmdRefused n 0x1B s)) ∧
      (src = 1 ∨ src = 2 → s.grp.formed = true → Gives (.roleSet i) s fun t => CmdDone n 0 0 s t ∧
        (s.grp.role = 0 → t.grp.gmgr = s.grp.chip.toNat ∧ t.grp.term = s.grp.term + 1) ∧
        (s.grp.role ≤ 1 → t.grp.role = src) ∧ (src = 2 → s.grp.role ≤ 1 → t.grp.smgr = s.grp.chip.toNat))) ∧
    (s.cmdRuns n 0xD = true → s.grp.role = 2 →
      (src = 3 → Gives (.timeLock i) s (CmdRefused n 0x11 s)) ∧
      (src ≠ 3 → c.flag 0 = true → s.workPlanned = true → Gives (.timeLock i) s (CmdRefused n 0x13 s)) ∧
      (src ≠ 3 → c.flag 0 = true → s.workPlanned = false → Gives (.timeLock i) s fun t => CmdDone n 0 0 s t ∧
        t.mer.st = .acquire ∧ t.mer.source = src ∧
        (src = 0 → t.mer.now = w64 ((c.arg 1).toNat * 1000000000))) ∧
      (src ≠ 3 → c.flag 0 = false → Gives (.timeLock i) s fun t => CmdDone n 0 0 s t ∧ t.mer.source = src ∧
        t.mer.now = s.mer.now)) ∧
    (s.cmdRuns n 0xE = true →
      (s.tooHot = true → Gives (.resetWarm i) s (CmdRefused n 0x1B s)) ∧
      (s.tooHot = false → Gives (.resetWarm i) s fun t => CmdDone n 0 0 s t ∧ MemKept s t ∧ t.mer.now = s.mer.now ∧
        t.sec.warms = min 255 (s.sec.warms + 1) ∧ t.sec.cause = (if s.pwr.tripped then 2 else 1) ∧
        t.fw.insts = [] ∧ t.sched = [] ∧ t.sems = [] ∧ t.grp.chip = s.grp.chip ∧
        ∀ k, (t.core k).st = .idle ∧ (t.core k).arrA.active.pes = (s.core k).arrA.active.pes))


/-! Links. -/

/-- PACKET_SEND (R332, R334, R336, R337, R343): an up link first resends what is to be resent; then the source of the channel to be
served sends its oldest packet within its deficit and its credits, whose FSEQ a flow numbers. A link in HOLD discards what is
routed to it, with LOST to its flow (R342), and a link that retrains is up again once it sends. -/
def Obligations.LinkSends : Prop :=
  ∀ (l : LinkId) (k vc n : Nat) (it : TxItem) (o : LinkOp) (p : OutPacket) (ps : List OutPacket) (s : State),
    let q := s.link l
    let f := s.flow k
    let x : Packet :=
      { dchip := BitVec.ofNat 16 o.dchip, daddr := BitVec.ofNat 48 p.daddr, schip := s.grp.chip, flow := BitVec.ofNat 13 k, hops := 0, kind := BitVec.ofNat 4 p.kind, last := p.last, status := 0, fseq := f.next, lseq := BitVec.ofNat 8 q.txSeq, karg := p.karg, payload := s.payloadOf p }
    let routed := 8192 ≤ k ∨ s.routeless k = false
    let may := (s.flowOps k).head? = some (n, o) ∧ o.todo = p :: ps ∧ o.dchip ≠ s.grp.chip.toNat ∧ s.flowMaySend k = true ∧
      s.route o.dchip k = some l.val
    let taken (t : State) : Prop := LinksRead s t ∧
      t.flow k = { f with next := f.next + 1, flight := f.flight ++ [f.next], dest := o.dchip } ∧
      t.op n = some { o with todo := ps, unacked := o.unacked ++ [f.next], t0 := some (o.t0.getD s.mer.now) } ∧
      (∀ m, m ≠ k → t.flow m = s.flow m) ∧ ∀ m, m ≠ n → t.op m = s.op m
    (q.st = .down → routed → Gives (.packetSend l k) s fun t => t = s) ∧
    (q.st = .train → Gives (.packetSend l k) s fun t => (t.link l).up = true) ∧
    (q.st = .hold → k < 8192 → may → LinesGood s → p.kind % 16 ≠ pkAck → p.kind % 16 ≠ pkTime →
      Gives (.packetSend l k) s fun t => taken t ∧ t.lnk.link = s.lnk.link ∧
        t.lnk.localQ = s.lnk.localQ ++ [s.ackPacket s.grp.chip.toNat k f.next stLost]) ∧
    (q.up = true → routed → 0 < q.toResend → q.toResend ≤ q.replay.length → Gives (.packetSend l k) s fun t =>
      LinkFrame l s t ∧ t.link l = { q with toResend := q.toResend - 1, rply := cntAdd q.rply 1, sentAt := q.sentAt.set (q.replay.length - q.toResend) s.mer.now }) ∧
    (q.up = true → q.toResend = 0 → q.replay.length < 64 → s.txChannel l = some vc →
      (8192 ≤ k → (q.queue.find? fun i => i.source == k && i.vc == vc) = some it →
        pktCells it.pkt ≤ SMap.get 0 q.credits vc → pktCells it.pkt ≤ SMap.get 0 q.deficits (defKey vc k) →
        it.pkt.kind.toNat ≠ pkTime → Gives (.packetSend l k) s fun t => LinkFrame l s t ∧
          LinkSent l vc { it.pkt with lseq := BitVec.ofNat 8 q.txSeq } (unqueue vc k q.queue) s t) ∧
      (k < 8192 → vc = 0 → may → LinesGood s → p.kind % 16 ≠ pkTime → cellsFor p.size ≤ SMap.get 0 q.credits 0 →
        cellsFor p.size ≤ SMap.get 0 q.deficits (defKey 0 k) → Gives (.packetSend l k) s fun t =>
          taken t ∧ LinkSent l 0 x q.queue s t))

/-- PACKET_RECEIVE, PACKET_FORWARD and CONTROL_CELL (R329, R332, R333, R334, R341): the packet expected is taken and any other
discarded with one NAK for the gap; a packet for another chip goes on with one hop more, or ends without a route; a cell
acknowledges, returns credits and asks for a replay. -/
def Obligations.LinkReceives : Prop :=
  ∀ (l : LinkId) (p : Packet) (w w1 : W64) (crc : W32) (vc : BitVec 2) (n : Nat) (s : State),
    let v := vc.toNat
    let q := { s.link l with fecc := cntAdd (s.link l).fecc (Config.correctedWords s.fresh l) }
    let good := crc = packetCrc p ∧ p.lseq.toNat = q.rxSeq
    let acked := ackedTo q.replay (fld w 55 48)
    let cell := fld w 63 60 = 1 ∧ fld w1 31 0 = (cellCrc w).toNat
    (q.up = false → q.st ≠ .train → Gives (.packetReceive l p crc) s (· = s) ∧ Gives (.controlCell l w w1) s (· = s)) ∧
    (q.up = true → good → s.reservedKind p = false → Gives (.packetReceive l p crc) s fun t => LinkHears l s t ∧
      t.link l = { q with rxSeq := (q.rxSeq + 1) % 256, nakSent := false, rx := (t.link l).rx, lastCtl := (t.link l).lastCtl } ∧
      ∀ c, SMap.get [] (t.link l).rx c = if c = p.hops.toNat then SMap.get [] q.rx c ++ [p] else SMap.get [] q.rx c) ∧
    (q.up = true → ¬ good → q.nakSent = false → Gives (.packetReceive l p crc) s fun t => LinkHears l s t ∧
      t.link l = { q with nakSent := true, lastCtl := (t.link l).lastCtl } ∧ bit (t.link l).lastCtl 59 = true) ∧
    (q.up = true → ¬ good → q.nakSent = true → Gives (.packetReceive l p crc) s fun t => LinkHears l s t ∧ t.link l = q) ∧
    (s.rxFront l v = some p → p.dchip ≠ s.grp.chip → p.kind.toNat ≠ pkTime → p.hops.toNat < 3 →
      s.route p.dchip.toNat p.flow.toNat = some n → (s.link n).up = true → Gives (.packetForward l vc) s fun t =>
        LinksOnly s t ∧ SMap.get [] (t.link l).rx v = (SMap.get [] q.rx v).tail ∧
        (t.link n).queue = (s.link n).queue ++ [⟨p.hops.toNat + 1, { p with hops := p.hops + 1 }, 8192 + l.val⟩] ∧
        ∀ m, m ≠ l.val → m ≠ n → t.link m = s.link m) ∧
    (s.rxFront l v = some p → p.dchip ≠ s.grp.chip → p.kind.toNat ≠ pkTime →
      (3 ≤ p.hops.toNat ∨ s.route p.dchip.toNat p.flow.toNat = none) → Gives (.packetForward l vc) s fun t =>
        LinksOnly s t ∧ SMap.get [] (t.link l).rx v = (SMap.get [] q.rx v).tail ∧ bit t.lnk.evt 5 = true) ∧
    (q.up = true → cell → bit w 59 = false → Gives (.controlCell l w w1) s fun t => LinkHears l s t ∧
      t.link l = { q with replay := acked, sentAt := q.sentAt.drop (q.replay.length - acked.length), toResend := min q.toResend acked.length, credits := (t.link l).credits, resends := if acked.length < q.replay.length then 0 else q.resends } ∧
      ∀ c, c < 4 → SMap.get 0 (t.link l).credits c = SMap.get 0 q.credits c + fld w (10 * c + 9) (10 * c)) ∧
    (q.up = true → cell → bit w 59 = true → ackedTo acked ((fld w 47 40 + 255) % 256) ≠ [] →
      (q.resends < 8 ∨ acked.length < q.replay.length) → Gives (.controlCell l w w1) s fun t => LinkHears l s t ∧
        (t.link l).replay = ackedTo acked ((fld w 47 40 + 255) % 256) ∧
        (t.link l).toResend = (t.link l).replay.length) ∧
    (q.up = true → ¬ cell → Gives (.controlCell l w w1) s fun t => LinkHears l s t ∧ t.link l = q)

/-- REPLAY_TIMEOUT, LANE_FAIL, LINK_LOST, LINK_HOLD_EXPIRE and UNCORRECTABLE_CODEWORD (R324, R328, R332, R342): a replay; the
cabled spare, else the other lane, else HOLD; HOLD discards the replay buffer and the queue; when HOLD has passed, DOWN. -/
def Obligations.LinkFailures : Prop :=
  ∀ (l : LinkId) (lane1 : Bool) (s : State),
    let q := s.link l
    let held (t : State) : Prop := LinksOnly s t ∧ (t.link l).st = .hold ∧
      (t.link l).heldAt = s.mer.now ∧ (t.link l).replay = [] ∧ (t.link l).queue = [] ∧ bit t.lnk.evt 3 = true ∧
      ∃ r ∈ t.cnt.due, r.code = 0x31 ∧ r.unit = l.val
    let due := q.up = true ∧ q.toResend < q.replay.length ∧ ∃ x, q.sentAt.head? = some x ∧ x.toNat + 1000 ≤ s.now
    (due → q.resends < 8 → Gives (.replayTimeout l) s fun t => LinkFrame l s t ∧
      t.link l = { q with resends := q.resends + 1, toResend := q.replay.length }) ∧
    (¬ due → Gives (.replayTimeout l) s fun t => t = s) ∧
    (due → 8 ≤ q.resends → Gives (.replayTimeout l) s fun t =>
      t.link l = { q with st := .train, resends := 0, toResend := q.replay.length } ∧ bit t.lnk.evt 2 = true ∧
      t = { s with lnk := { s.lnk with link := t.lnk.link, evt := t.lnk.evt } }) ∧
    (q.up = true → q.spareFree = true → Gives (.laneFail l lane1) s fun t =>
      t = { s with lnk := { s.lnk with link := t.lnk.link, evt := setBit s.lnk.evt 1 } } ∧
      (if lane1 then (t.link l).src1 else (t.link l).src0) = q.spcab + 2 ∧
      (if lane1 then (t.link l).src0 = q.src0 else (t.link l).src1 = q.src1) ∧
      (t.link l).toResend = q.replay.length ∧ (t.link l).replay = q.replay) ∧
    (q.up = true → q.spareFree = false → (if lane1 then q.src0 else q.src1) ≠ 63 → Gives (.laneFail l lane1) s fun t =>
      t = { s with lnk := { s.lnk with link := t.lnk.link, evt := setBit s.lnk.evt 0 } } ∧ (t.link l).st = .up1 ∧
      (if lane1 then (t.link l).src1 else (t.link l).src0) = 63 ∧ (t.link l).toResend = q.replay.length) ∧
    (q.up = true → q.spareFree = false → (if lane1 then q.src0 else q.src1) = 63 → Gives (.laneFail l lane1) s held) ∧
    (q.up = true ∨ q.st = .train → Gives (.linkLost l) s held) ∧
    (q.st = .hold → q.heldAt.toNat + 1000 * s.lnk.hold ≤ s.now → Gives (.linkHoldExpire l) s fun t =>
      t = { s with lnk := { s.lnk with link := t.lnk.link, lrt := t.lnk.lrt, grt := t.lnk.grt, unreach := t.lnk.unreach }, fresh := s.fresh + 1 } ∧
      t.link l = { q with st := .down } ∧ (∀ m, m ≠ l.val → t.link m = s.link m) ∧
      ∀ c f, chipGroup c = chipGroup s.grp.chip.toNat → t.route c f ≠ some l.val) ∧
    (q.st = .hold → s.now < q.heldAt.toNat + 1000 * s.lnk.hold → Gives (.linkHoldExpire l) s fun t => t = s) ∧
    (q.up = true → Gives (.uncorrectableCodeword l) s fun t => LinkFrame l s t ∧
      t.link l = { q with fecu := cntAdd q.fecu 1 })


/-! Landing and acknowledgement. -/

/-- DATA (R331, R338), MGMT and its fragments (R386, R387), and the acknowledgement that a timer sends (R338): a packet's bytes
stand at DADDR and its landing is noted; outside what a landing may write nothing is written; a message enters the
keeper's queue once all its fragments are present. -/
def Obligations.Landings : Prop :=
  ∀ (src : LandSrc) (p : Packet) (schip : W16) (flow : BitVec 13) (mseq : W32) (s : State),
    let chip := p.schip.toNat
    let same (q : MgmtPart) : Bool := q.schip == chip && q.mseq == kargMseq p
    let fresh := ¬ (SMap.get [] s.grp.taken chip).contains (kargMseq p).toNat = true ∧ ¬ (kargMtype p = 1 ∧ kargMseq p = 0)
    let r := SMap.get Landed.none s.lnk.landed (pairKey schip.toNat flow.toNat)
    (Lands s src pkData p → s.landOk p p.payload.length = true → p.payload.length ≤ 4096 → LinesGood s → WcbSound s → Gives (.data src) s fun t =>
      t = { s with mem := t.mem, lnk := t.lnk, cnt := t.cnt } ∧ Stored p.daddr.toNat p.payload s t ∧ LandingNoted p s t) ∧
    (Lands s src pkData p → s.landOk p p.payload.length = false → Gives (.data src) s fun t => LinksOnly s t ∧ MemKept s t ∧
      (SMap.get Landed.none t.lnk.landed (pairKey chip p.flow.toNat)).count = 0) ∧
    (Lands s src pkMgmt p → fresh → kargFidx p = 0 → kargFcnt p = 1 → s.grp.parts.find? same = none →
      Gives (.mgmt src) s fun t => t = { s with lnk := t.lnk, cnt := t.cnt, grp := t.grp } ∧ LandingNoted p s t ∧
        t.grp.inbox = (if mtypeOk (kargMtype p) then s.grp.inbox ++ [⟨kargMtype p, chip, kargMseq p, p.payload⟩]
                       else s.grp.inbox) ∧
        SMap.get [] t.grp.taken chip = SMap.get [] s.grp.taken chip ++ [(kargMseq p).toNat]) ∧
    (Lands s src pkMgmt p → fresh → kargFidx p < kargFcnt p → 1 < kargFcnt p → s.grp.parts.find? same = none →
      Gives (.mgmt src) s fun t => t = { s with lnk := t.lnk, cnt := t.cnt, grp := t.grp } ∧
        t.grp.inbox = s.grp.inbox ∧
        t.grp.parts.find? same =
          some ⟨chip, kargMseq p, kargMtype p, kargFcnt p, [(kargFidx p, p.payload)], s.mer.now⟩) ∧
    (Lands s src pkMgmt p → (SMap.get [] s.grp.taken chip).contains (kargMseq p).toNat = true → kargMtype p ≠ 1 →
      Gives (.mgmt src) s fun t => t.grp = s.grp ∧ LandingNoted p s t) ∧
    (Gives (.mgmtFragmentTimeout schip mseq) s fun t => t = { s with grp := { s.grp with parts := t.grp.parts } } ∧
      ∀ q, q ∈ t.grp.parts ↔ q ∈ s.grp.parts ∧
        ¬ (q.schip = schip.toNat ∧ q.mseq = mseq ∧ q.since.toNat + 1000000 ≤ s.now)) ∧
    (r.count ≠ 0 → r.since.toNat + 200 ≤ s.now → schip = s.grp.chip → Gives (.ackTimer schip flow) s fun t =>
      t = { s with lnk := { s.lnk with landed := t.lnk.landed, localQ := t.lnk.localQ } } ∧
      SMap.get Landed.none t.lnk.landed (pairKey schip.toNat flow.toNat) = Landed.none ∧
      t.lnk.localQ = s.lnk.localQ ++ [s.ackPacket schip.toNat flow.toNat r.fseq stOk]) ∧
    (s.now < r.since.toNat + 200 → Gives (.ackTimer schip flow) s fun t => t = s)

/-- ACK and OPERATION_TIMEOUT (R337, R338, R339): an acknowledgement returns the credits of every packet it covers; the operation
all of whose packets are acknowledged is complete, and one named by an error status, or not complete in time, fails with
its flow. -/
def Obligations.Acknowledgements : Prop :=
  ∀ (src : LandSrc) (p : Packet) (n : Nat) (o : LinkOp) (t0 : W64) (s : State),
    let f := p.flow.toNat
    let st := p.status.toNat
    let covered := o.unacked.filter fun u => ackCovers p.fseq st u
    let returned (t : State) : Prop := (t.flow f).flight = (s.flow f).flight.filter fun u => !ackCovers p.fseq st u
    (Lands s src pkAck p → flowAll s f = [(n, o)] → s.op n = some o → o.finished = false → o.failedWith = none →
      o.todo = [] →
      (st = stOk → o.unacked = covered → (∃ u, o.owner = .core u ∨ o.owner = .eng u) → Gives (.ack src) s fun t =>
        LinksOnly s t ∧ t.op n = some { o with unacked := [], finished := true } ∧
        returned t ∧ (t.flow f).acked = p.fseq) ∧
      (st = stOk → covered ≠ o.unacked → Gives (.ack src) s fun t => LinksOnly s t ∧
        returned t ∧ t.op n = some { o with unacked := o.unacked.filter fun u => !ackCovers p.fseq st u }) ∧
      (st ≠ stOk → o.unacked.contains p.fseq = true → Gives (.ack src) s fun t => LinksOnly s t ∧ OpFailed n o st s t ∧
        returned t)) ∧
    (s.op n = some o → o.finished = false → o.failedWith = none → o.t0 = some t0 →
      (t0.toNat + 1000 * s.lnk.timeout ≤ s.now → Gives (.operationTimeout n) s fun t => LinksOnly s t ∧
        OpFailed n o Config.timeoutStatus s t) ∧
      (s.now < t0.toNat + 1000 * s.lnk.timeout → Gives (.operationTimeout n) s fun t => t = s))

/-! Reduction and numerics. -/

/-- REDUCE (R357, R358, R359, R360, R372): a packet of a contribution, landed for the armed step, stands at its place with its
residue, is posted to its adding engine's queue and counted; a packet for a past step or of no known source is
discarded, with its event and its count. -/
def Obligations.ReduceLandings : Prop :=
  ∀ (src : LandSrc) (p : Packet) (j n i k : Nat) (q : SrcRec) (s : State),
    let ka := p.karg.toNat
    let bucket := ka / 2 ^ 40 % 65536
    let slice := ka / 2 ^ 26 % 64
    let fmt := ka / 2 ^ 24 % 4
    let b := s.bent j n
    let r := s.rent j n
    let x := chunkPidx p.payload
    let w := packetBytes fmt
    let eng := b.eng0 + x % b.neng
    let head := SMap.get 0 (s.redSlot j).heads eng
    let step : W32 := BitVec.ofNat 32 (fld (w64OfBytes p.payload) 63 32)
    let counted (c : Nat) (t : State) : Prop := t.cntr (cntRed j c) = cntAdd (s.cntr (cntRed j c)) 1
    let known := s.bentOf j bucket = some n ∧ r.srcs.findIdx? (fun y => y.chip == p.schip.toNat && y.slice == slice && b.fmtOf y == fmt) = some i
    let one := chunkNpkt p.payload = 1 ∧ 128 + w ≤ p.payload.length ∧ x < b.npall ∧ s.expected j b x = true
    let places := [(b.packetAt r.srcs i x, w), (b.residueAt r.srcs i x, 2), (b.addr, 64), (s.wqAt j eng head, 32),
      (s.headAt j eng, 8), (fld (s.redSlot j).mask 47 0 + 128 * b.bucket, 128)]
    let gone (event count : Nat) (t : State) : Prop := t = { s with lnk := t.lnk, cnt := t.cnt, red := t.red } ∧
      bit (t.redSlot j).evt event = true ∧ counted 0 t ∧ counted count t ∧ t.rent j n = r
    Lands s src pkReduce p → s.landOk p 1 = true → s.redSlotOf p.daddr.toNat = some j →
    (known → one → step = b.step → (b.latch = false ∨ sext 8 (ka / 2 ^ 32) = b.expl) → r.srcs[i]? = some q → q.kind = 0 →
      r.pkt i x = .none → r.takenFor i x = false → k ≠ x → k < b.npall → s.expected j b k = true →
      r.resolved i k = false → LinesGood s → WcbSound s → Apart places → Gives (.reduce src) s fun t =>
        (∀ m, m < w → t.peek (b.packetAt r.srcs i x + m) = (p.payload[128 + m]?).getD 0) ∧
        (∀ m, m < 2 → t.peek (b.residueAt r.srcs i x + m) = (p.payload[64 + m]?).getD 0) ∧
        (t.rent j n).pkt i x = .posted ∧ SMap.get 0 (t.redSlot j).heads eng = head + 1 ∧
        t.word64 (s.headAt j eng) = w64 (head + 1) ∧
        t.word64 (s.wqAt j eng head) = w64 (at' b.bucket 48 + at' i 32 + x) ∧ counted 0 t ∧ counted 1 t ∧
        ∀ a, (∀ z ∈ places, ∀ m, m < z.2 → canon a ≠ canon (z.1 + m)) → t.peek a = s.peek a) ∧
    (known → one → step ≠ b.step → (step - b.step).slt 0 = true → Gives (.reduce src) s (gone 7 8)) ∧
    (s.bentOf j bucket = none → Gives (.reduce src) s (gone 6 7))

/-- LAP, TAIL_WRITE and REDUCTION_DEADLINE (R360, R361, R366, R367): a word of the next two steps joins its leader's sums or is held
as final; the status an engine leaves resolves its packet; at the deadline a held copy takes the place of a packet that
has not come. -/
def Obligations.LapAndStatuses : Prop :=
  ∀ (src : LandSrc) (p : Packet) (e : EngId) (j : SlotId) (n i h k : Nat) (q : SrcRec) (s : State),
    let sl := j.val
    let w0 := w64OfBytes p.payload
    let step : W32 := BitVec.ofNat 32 (fld w0 31 0)
    let word := w64OfBytes (p.payload.drop 8)
    let chip := fld (w64OfBytes (p.payload.drop 16)) 15 0
    let stage := fld w0 33 32
    let d := step - s.committed sl
    let inLap := Lands s src pkLap p ∧ s.landOk p 1 = true ∧ s.redSlotOf p.daddr.toNat = some sl ∧ (d = 1 ∨ d = 2)
    let a := s.lapAcc sl step
    let only (t : State) : Prop := t = { s with lnk := t.lnk, cnt := t.cnt, red := t.red, num := t.num } ∧ LandingNoted p s t
    let b := s.bent sl n
    let r := s.rent sl n
    let eng := e.val
    let old := SMap.get 0 (s.redSlot sl).tails eng
    let d0 := s.word64 (s.wqAt sl eng old)
    let si := fld d0 43 32
    let px := fld d0 31 0
    let st := fld (s.word64 (s.wqAt sl eng old + 24)) 63 56
    let one := s.redEn sl = true ∧ (s.eng eng).job = sl ∧ (s.word64 (s.headAt sl eng + 8)).toNat = old + 1 ∧
      old + 1 ≤ SMap.get 0 (s.redSlot sl).heads eng ∧ s.bentOf sl (fld d0 63 48) = some n ∧ r.pkt si px = .posted
    let open_ := ∃ u v z, r.srcs[u]? = some z ∧ z.kind ≠ 1 ∧ v < b.npall ∧ s.expected sl b v = true ∧
      r.resolved u v = false ∧ (u ≠ si ∨ v ≠ px) ∧ pkKey u v ≠ pkKey si px ∧
      ∀ y, r.haloOf u = some y → pkKey y v ≠ pkKey si px
    (inLap → stage = 1 → a.members.contains chip = false → a.groupSent = false → a.members.length + 1 ≠ s.nmem sl →
      Gives (.lap src) s fun t => only t ∧
        t.lapAcc sl step = { a with members := a.members ++ [chip], word := a.word ||| word }) ∧
    (inLap → stage = 2 → a.groups.contains chip = false → a.finalSent = false → a.groups.length + 1 ≠ s.ngrp sl →
      Gives (.lap src) s fun t => only t ∧
        t.lapAcc sl step = { a with groups := a.groups ++ [chip], gword := a.gword ||| word }) ∧
    (inLap → stage = 3 → (s.bank sl).held.any (fun y => y.1 == step) = false → Gives (.lap src) s fun t => only t ∧
      (t.redSlot sl).lapReg = w64 (at' step.toNat 32 + fld word 7 0) ∧
      (t.bank sl).held = (s.bank sl).held ++ [(step, word, s.mer.now)] ∧
      t.cntr (cntRed sl 11) = cntAdd (s.cntr (cntRed sl 11)) 1) ∧
    (Lands s src pkLap p → s.landOk p 1 = true → s.redSlotOf p.daddr.toNat = some sl → d ≠ 1 → d ≠ 2 →
      Gives (.lap src) s fun t => only t ∧ bit (t.redSlot sl).evt 6 = true ∧ t.bank sl = s.bank sl) ∧
    (one → open_ → st = 0 → Gives (.tailWrite e) s fun t => t = { s with cnt := t.cnt, red := t.red } ∧
      (t.rent sl n).pkt si px = .added ∧ SMap.get 0 (t.redSlot sl).tails eng = old + 1 ∧
      t.cntr (cntRed sl 2) = cntAdd (s.cntr (cntRed sl 2)) 1) ∧
    (one → open_ → st = 3 → Gives (.tailWrite e) s fun t => t = { s with cnt := t.cnt, red := t.red } ∧
      (t.rent sl n).pkt si px = .broken ∧ bit (t.redSlot sl).evt 4 = true ∧
      t.cntr (cntRed sl 5) = cntAdd (s.cntr (cntRed sl 5)) 1) ∧
    (∀ x, r.deadline b = some x → r.armed = true → r.deadlinePassed = false →
      (s.now < x → Gives (.reductionDeadline j n) s fun t => t = s) ∧
      (x ≤ s.now → s.entryDone sl n = false → (∀ u v, r.pkt u v ≠ .held) → Gives (.reductionDeadline j n) s fun t =>
        t = { s with red := t.red } ∧ t.rent sl n = { r with deadlinePassed := true }) ∧
      (x ≤ s.now → r.srcs[i]? = some q → q.kind = 0 → r.haloOf i = some h → k < b.npall → s.expected sl b k = true →
        r.pkt i k = .none → r.pkt h k = .held → Gives (.reductionDeadline j n) s fun t =>
          bit (t.redSlot sl).evt 3 = true))

/-- STEP_COMMIT (R245, R246, R260): the next step's final word is committed and counted; a skipped step lowers the loss scale, the
GROW-th clean step in a row raises it, each within its range. CONTRAIL_RECOMPUTE (R266, R267): a captured tile is recomputed
and its slot is free again; a column beyond its bound counts an alarm and is logged. -/
def Obligations.Commits : Prop :=
  ∀ (j : SlotId) (word : W64) (at_ : W64) (c : CoreId) (slot : Fin 15) (arrB : Bool) (pl : Plane) (seq : Nat) (tm : TileMeta)
    (row scales : List Byte) (actFmt reps part : Nat) (frame : Option Int) (chains : List ChainWord)
    (words : List W64) (colmap : List Nat) (s : State),
    let n := s.bank j
    let step := n.step + 1
    let ls := n.lsexp
    let lo := n.lsmin
    let hi := n.lsmax
    let skip := fld word 2 0 ≠ 0
    let full := n.clean + 1 = fld n.ctl 63 48
    let k := s.core c
    let bad := (checkCapture pl tm row scales actFmt reps frame chains).filter (·.beyond)
    ((n.held.find? fun h => h.1 == step) = none → Gives (.stepCommit j) s fun t => t = s) ∧
    ((n.held.find? fun h => h.1 == step) = some (step, word, at_) → Gives (.stepCommit j) s fun t =>
      (t.bank j).step = step ∧ s.committed j + 1 = t.committed j ∧
      (s.redEn j = false → (t.bank j).completed = [] ∧ (t.bank j).nonzero = []) ∧
      (skip → (t.bank j).lsexp = (if lo < ls then ls - 1 else ls) ∧ (t.bank j).clean = 0 ∧
        (t.bank j).skips = (n.skips + 1) % 2 ^ 32 ∧ (t.bank j).applied = n.applied ∧ bit (t.bank j).evt 0 = true ∧
        (¬ lo < ls → bit (t.bank j).evt 2 = true)) ∧
      (¬ skip → full → (t.bank j).lsexp = (if ls < hi then ls + 1 else ls) ∧ (t.bank j).clean = 0 ∧
        (¬ ls < hi → bit (t.bank j).evt 1 = true)) ∧
      (¬ skip → ¬ full → (t.bank j).lsexp = ls ∧ (t.bank j).clean = (n.clean + 1) % 65536) ∧
      (¬ skip → (t.bank j).applied = (n.applied + 1) % 2 ^ 32 ∧ (t.bank j).skips = n.skips)) ∧
    (k.capture slot = .full arrB pl seq tm row scales actFmt reps part frame chains words colmap →
      Gives (.contrailRecompute c slot) s fun t => (t.core c).capture slot = .free ∧
        (∀ d, d ≠ c.val → t.core d = s.core d) ∧ t.fresh = s.fresh + 1 ∧
        (s.insideCarve (fld k.crec 47 0) (256 + 64 * max 1 (fld k.crec 63 48)) = false → t.mem = s.mem) ∧
        (bad = [] → (t.core c).calarm = k.calarm ∧ t.fw = s.fw) ∧
        (bad ≠ [] → (t.core c).calarm = cntAdd k.calarm 1 ∧ ∃ r ∈ t.cnt.due, r.code = 0x41 ∧ r.unit = c.val))


/-! Key-value pages, control cores, memory, power. -/

/-- KVP_ALLOC, KVP_FREE, KVP_ENABLE, KVP_DISABLE, KVP_READY and RELOW (R296, R298, R300, R301, R321): a pop hands out the head of the
list with one reference and a new generation, or sets EMPTY; a push puts a FREE page at the head, or sets what is wrong with
it; the pool off or not built answers VALID = 0; enabling builds the list in ascending order. -/
def Obligations.KvPages : Prop :=
  ∀ (cc : CcId) (v : W64) (n : Nat) (s : State),
    let k := s.kvp
    let on := k.en = true ∧ k.ready = true
    let only (t : State) : Prop := t = { s with kvp := t.kvp, mem := t.mem, cnt := t.cnt }
    let page := fld v 21 0
    let state := fld (s.kvpWord page 1) 63 62
    let counts := s.kvpWord page 0
    (on → k.head = some n → LinesGood s → WcbSound s → Gives (.kvpAlloc cc) s fun t => only t ∧
      t.kvp = { k with head := k.pageRef (fld (s.kvpWord n 3) 21 0), free := k.free - 1, low := min k.low (k.free - 1), popped := t.kvp.popped } ∧
      SMap.get 0 t.kvp.popped cc = w64 (2 ^ 63 + n) ∧
      Stored (k.entryAt n 0) (w64Bytes 0x0001000000000000#64 ++ w64Bytes 0x40000000FFFFFFFF#64 ++
        w64Bytes (s.kvpWord n 2 + 1) ++ w64Bytes 0) s t) ∧
    (on → k.head = none → Gives (.kvpAlloc cc) s fun t => SMap.get 0 t.kvp.popped cc = 0 ∧
      t = { s with kvp := { k with evt := setBit k.evt 0, popped := t.kvp.popped } }) ∧
    (¬ on → Gives (.kvpAlloc cc) s fun t => SMap.get 0 t.kvp.popped cc = 0 ∧
      t = { s with kvp := { k with popped := t.kvp.popped } }) ∧
    (k.count ≤ page → Gives (.kvpFree cc v) s fun t => t = { s with kvp := { k with evt := setBit k.evt 3 } }) ∧
    (page < k.count → on → state ≠ 0 → counts = 0 → LinesGood s → WcbSound s → Gives (.kvpFree cc v) s fun t => only t ∧
      t.kvp = { k with head := some page, free := k.free + 1 } ∧
      t.kvpWord page 1 = putFld (s.kvpWord page 1) 63 62 0 ∧ t.kvpWord page 3 = w64 (k.head.getD 0x3FFFFF) ∧
      ∀ a, (∀ m, m < 32 → canon a ≠ canon (k.entryAt page 0 + m)) → t.peek a = s.peek a) ∧
    (page < k.count → on → (state = 0 ∨ counts ≠ 0) → Gives (.kvpFree cc v) s fun t =>
      t = { s with kvp := { k with evt := t.kvp.evt } } ∧ (counts ≠ 0 → bit t.kvp.evt 1 = true) ∧
      (state = 0 → bit t.kvp.evt 2 = true)) ∧
    (page < k.count → ¬ on → Gives (.kvpFree cc v) s fun t => t = s) ∧
    (s.kvpInRange = true → Gives (.kvpEnable cc) s fun t =>
      t = { s with kvp := { k with en := true, ready := false, head := t.kvp.head, free := 0, low := 0 } }) ∧
    (s.kvpInRange = false → Gives (.kvpEnable cc) s fun t => t = { s with kvp := { k with evt := setBit k.evt 3 } }) ∧
    (Gives (.kvpDisable cc) s fun t => t = { s with kvp := { k with en := false, ready := false } }) ∧
    (k.en = true → k.ready = false → LinesGood s → WcbSound s → Gives .kvpReady s fun t =>
      t = { s with kvp := t.kvp, mem := t.mem, cnt := t.cnt, fresh := s.fresh + 1 } ∧
      t.kvp = { k with ready := true, head := if 0 < k.count then some 0 else none, free := k.count, low := k.count } ∧
      (∀ p, p < k.count → t.kvpWord p 0 = 0 ∧ fld (t.kvpWord p 1) 63 62 = 0 ∧ t.kvpWord p 2 = 0 ∧
        t.kvpWord p 3 = w64 (if p + 1 < k.count then p + 1 else 0x3FFFFF)) ∧
      ∀ a, (∀ m, m < 32 * k.count → canon a ≠ canon (k.entryAt 0 0 + m)) → t.peek a = s.peek a) ∧
    (k.en = false ∨ k.ready = true → Gives .kvpReady s fun t => t = s) ∧
    (Gives (.relow cc) s fun t => t = { s with kvp := { k with low := k.free } })

/-- SEM_ADD, SEM_TAKE, REGISTER_WRITE and REGISTER_ACCESS_FAULT (R7, R8, R21, R31, R129, R177, R199, R202, R204, R214, R216, R217, R222, R223,
R415, R417, R455, R474): an add or a take of a semaphore answers its status and count; a store takes effect by the access code of
each field, and in memory for every unit; an access that the map or a register's range does not allow is noted as an access
fault and changes nothing. Loads see what is stored; an AMO answers the old word and stores the result; an atomic outside stack
memory faults; an SC fails once any unit has written to its line; `time` is MER_NOW. -/
def Obligations.ControlCores : Prop :=
  ∀ (cc : CcId) (q : BitVec 8) (amt : BitVec 12) (addr : BitVec 48) (v : W64) (size c k e j i b : Nat) (store wide : Bool) (op : AmoOp)
    (bs : List Byte) (s : State),
    let n := q.toNat
    let a := addr.toNat
    let cnt := (s.sem n).count
    let sems (t : State) : Prop := t = { s with sems := t.sems, semres := t.semres }
    let result (st cn : Nat) (t : State) : Prop := SMap.get 0 t.semres cc = w64 (at' st 16 + cn % 65536) ∧
      ∀ d, d ≠ cc.val → SMap.get 0 t.semres d = SMap.get 0 s.semres d
    let same (t : State) : Prop := ∀ m, t.sem m = s.sem m
    let writes := Gives (.registerWrite cc addr v) s
    let faults (st : Bool) (t : State) : Prop := t = { s with harts := t.harts } ∧ (∀ d, d ≠ cc.val → t.hart d = s.hart d) ∧
      t.hart cc = if st then { s.hart cc with storeFault := some addr } else { s.hart cc with loadFault := some addr }
    (cnt + amt.toNat ≤ 65535 → Gives (.semAdd cc q amt) s fun t => sems t ∧ CountSet n (cnt + amt.toNat) s t ∧
      result 0 (cnt + amt.toNat) t) ∧
    (65535 < cnt + amt.toNat → Gives (.semAdd cc q amt) s fun t => sems t ∧ same t ∧ result 2 cnt t) ∧
    ((s.sem n).waiters = [] → amt.toNat ≤ cnt → Gives (.semTake cc q amt) s fun t => sems t ∧
      CountSet n (cnt - amt.toNat) s t ∧ result 0 (cnt - amt.toNat) t) ∧
    ((s.sem n).waiters ≠ [] ∨ cnt < amt.toNat → Gives (.semTake cc q amt) s fun t => sems t ∧ same t ∧ result 1 cnt t) ∧
    (regAt a = none → inRegs a = true → writes (faults true)) ∧
    (regAt a = some (.sched i k) → writes (faults true)) ∧
    (regAt a = some (.cmdTable i k) → 192 ≤ i → writes (faults true)) ∧
    (regAt a = none → inRegs a = false → ccStores a 8 = false → writes (faults true)) ∧
    (regAt a = none → inRegs a = false → ccStores a 8 = true → LinesGood s → WcbSound s → writes fun t =>
      Stored a (w64Bytes v) s t ∧ t = { s with mem := t.mem, cnt := t.cnt, fresh := t.fresh }) ∧
    (ccLoads a 8 = true → inStacks a = true → LinesGood s → WcbSound s → (s.ccLoad cc a 8).2 = some (s.bytes a 8)) ∧
    (amoAllowed a wide = false → s.ccAmo cc op a wide v = (s.accessFault cc a true, none) ∧
      s.ccLr cc a wide = (s.accessFault cc a true, none) ∧ s.ccSc cc a wide v = (s.accessFault cc a true, none)) ∧
    (amoAllowed a wide = true → LinesGood s → WcbSound s →
      let r := s.ccAmo cc op a wide v
      let old := amoWord wide (s.bytes a (amoSize wide))
      r.2 = some old ∧
        Stored a (toLe (amoSize wide) (op.eval old (if wide then v else (v.truncate 32).signExtend 64)).toNat) s r.1) ∧
    (amoAllowed a wide = true → (∃ m, m < bs.length ∧ lineOf (canon (b + m)) = lineOf (canon a)) →
      ((s.writeDone b bs).ccSc cc a wide v).2 = some 1) ∧
    (s.readCsr cc 0xC01 = s.mer.now ∧ s.readCsr cc 0xF14 = w64 cc ∧ ∀ k y, csrFixed k = true → s.writeCsr cc k y = s) ∧
    ((regAt a = some .merNow ∨ regAt a = some .merStatus ∨ regAt a = some .pwrCap ∨ regAt a = some (.sem k) ∨
      regAt a = some .fwAuth ∨ regAt a = some (.sqStatus c) ∨ regAt a = some (.secMeas i k)) → writes fun t => t = s) ∧
    (regAt a = some .merEvt → writes fun t => t = { s with mer := { s.mer with evt := s.mer.evt &&& ~~~ (v &&& 0x1F) } }) ∧
    (regAt a = some .stkEvt → writes fun t => t = { s with mem := { s.mem with evt := s.mem.evt &&& ~~~ (v &&& 0x3F) } }) ∧
    (regAt a = some .kvpEvt → writes fun t => t = { s with kvp := { s.kvp with evt := s.kvp.evt &&& ~~~ (v &&& 0xF) } }) ∧
    (regAt a = some .lnkEvt → writes fun t => t = { s with lnk := { s.lnk with evt := s.lnk.evt &&& ~~~ (v &&& 0x7F) } }) ∧
    (regAt a = some .fwEvt → writes fun t => t = { s with fw := { s.fw with evt := s.fw.evt &&& ~~~ (v &&& 0x3F) } }) ∧
    (regAt a = some .pwrEvt → writes fun t => t = { s with pwr := { s.pwr with evt := s.pwr.evt &&& ~~~ (v &&& 0x3FF) } }) ∧
    (regAt a = some (.veEvt e) → writes fun t => t = { s with engines := t.engines } ∧ OtherEngines e s t ∧
      t.eng e = { s.eng e with evt := (s.eng e).evt &&& ~~~ (v &&& 0xF) }) ∧
    (regAt a = some (.red j 9) → writes fun t => t = { s with red := t.red } ∧
      t.redSlot j = { s.redSlot j with evt := (s.redSlot j).evt &&& ~~~ (v &&& 0x1FF) }) ∧
    (regAt a = some (.descWin c k) → writes fun t => t = { s with cores := t.cores } ∧ OtherCores c s t ∧
      t.core c = { s.core c with desc := (t.core c).desc } ∧
      ∀ m, SMap.get 0 (t.core c).desc m = if m = k then v else SMap.get 0 (s.core c).desc m) ∧
    (regAt a = some (.cnt k) → writes fun t => t = { s with cnt := { s.cnt with cnt := t.cnt.cnt } } ∧
      ∀ m, t.cntr m = if m = k ∧ bit v 48 = true then clrBit (s.cntr m) 48 else s.cntr m) ∧
    (regAt a = some .stkCarve → writes fun t =>
      t = { s with mem := { s.mem with carve := if s.noJobs then max 2 (min 16 (fld v 4 0)) else s.mem.carve } }) ∧
    (regAt a = some .thmCtl → writes fun t => t = { s with pwr := { s.pwr with thmCtl := t.pwr.thmCtl } } ∧
      fld t.pwr.thmCtl 55 48 = min 95 (fld v 55 48) ∧ fld t.pwr.thmCtl 39 32 = min 100 (fld v 39 32) ∧
      fld t.pwr.thmCtl 63 56 = fld s.pwr.thmCtl 63 56 ∧ fld t.pwr.thmCtl 47 40 = fld s.pwr.thmCtl 47 40) ∧
    (accessFaults a size store = true → Gives (.registerAccessFault cc addr size store) s (faults store)) ∧
    (accessFaults a size store = false → Gives (.registerAccessFault cc addr size store) s fun t => t = s)

/-- SCRUB_LINE, WCB_TIMEOUT_FLUSH and LOG_RECORD (R185, R188, R191, R192, R480, R484): the scrubber goes on by one line, corrects it or
schedules its row; a buffered line reaches the array without a change of any byte; the oldest event becomes the ring's newest
record. -/
def Obligations.MemoryAndLog : Prop :=
  ∀ (p : MemPort) (line x : Nat) (w : WcbEntry) (row : RowRepair) (r : LogRec) (rest : List LogRec) (s : State),
    let at_ := SMap.get 0 s.mem.scrubAt (portNo p)
    let l := sweepLine p (at_ % sweepLines p)
    let on (t : State) : Prop := t = { s with mem := t.mem, cnt := t.cnt, fw := t.fw } ∧
      ∀ k, SMap.get 0 t.mem.scrubAt k = if k = portNo p then at_ + 1 else SMap.get 0 s.mem.scrubAt k
    let rec_ : LogRec := { r with now := s.mer.now }
    (s.mem.scrubEn = false → Gives (.scrubLine p) s fun t => t = s) ∧
    (s.mem.scrubEn = true → s.lineSt l = .good → Gives (.scrubLine p) s fun t => on t ∧ MemKept s t ∧
      t.mem.lines = s.mem.lines ∧ t.fw = s.fw) ∧
    (s.mem.scrubEn = true → s.lineSt l = .correctable x → Gives (.scrubLine p) s fun t => on t ∧ t.lineSt l = .good ∧
      (∀ m, m ≠ l → t.lineSt m = s.lineSt m) ∧ t.mem.cells = s.mem.cells ∧ bit t.mem.evt 0 = true) ∧
    (s.mem.scrubEn = true → s.lineSt l = .uncorrectable → rowAt l = some row → Gives (.scrubLine p) s fun t => on t ∧
      t.mem.lines = s.mem.lines ∧ t.mem.cells = s.mem.cells ∧ bit t.mem.evt 1 = true ∧ row ∈ t.mem.repairDue ∧
      t.mem.ueAddr = w64 l ∧ ∃ y ∈ t.cnt.due, y.code = 0x20 ∧ y.cls = 2) ∧
    (LinesGood s → WcbSound s → wcbFind (s.wcbAt (portNo p)) line = some w → Gives (.wcbTimeoutFlush p line) s fun t =>
      t = { s with mem := t.mem, cnt := t.cnt } ∧ MemKept s t ∧ LinesGood t ∧
      wcbFind (t.wcbAt (portNo p)) line = none ∧
      ∀ y, y ∈ s.wcbAt (portNo p) → y.line ≠ line → y ∈ t.wcbAt (portNo p)) ∧
    (wcbFind (s.wcbAt (portNo p)) line = none → Gives (.wcbTimeoutFlush p line) s fun t => t = s) ∧
    (s.cnt.due = [] → Gives .logRecord s fun t => t = s) ∧
    (s.cnt.due = r :: rest → r.code ≠ 0x20 → Gives .logRecord s fun t =>
      t = { s with cnt := { s.cnt with due := rest, log := s.cnt.log.drop (s.cnt.log.length + 1 - 16384) ++ [(s.cnt.nextSeq, rec_)], nextSeq := s.cnt.nextSeq + 1, irq := setBit s.cnt.irq (r.cls % 6) }, grp := t.grp } ∧
      t.grp = { s.grp with copyDue := if 3 ≤ r.cls ∧ ¬ (s.grp.formed = true ∧ s.grp.role = 2) then s.grp.copyDue ++ [rec_.bytes s.cnt.nextSeq s.grp.chip.toNat] else s.grp.copyDue })

/-- SENSOR_CONVERSION, SHALLOW_DROOP, DEEP_DROOP, DROOP_RECOVERY, AGEING_MEASUREMENT, RECORD_GATHERED and AVS_FRAME_RETRY (R196, R406, R407,
R408, R409, R411, R412, R413, R492). -/
def Obligations.PowerEvents : Prop :=
  ∀ (r : SensorReadings) (c : CoreId) (g : Fin 4) (u : AgeUnit) (margins : List Nat) (steps : Nat) (x : AvsReading) (s : State),
    let p := s.pcore c
    let w := s.pwr.thmCtl
    let tierTrip := ∃ t ∈ r.tiers, fld w 63 56 ≤ t
    let dieTrip := ∃ t ∈ r.die, fld w 47 40 ≤ t
    let hot := (∃ t ∈ tiersOn r c, fld w 55 48 ≤ t) ∨ ∃ t ∈ dieOn r c, fld w 39 32 ≤ t
    let die (t : State) : Prop := ∀ k, k < 4 → fld t.pwr.thmDie (8 * k + 7) (8 * k) = maxOf (slice r.die (16 * k) 16) % 256
    let others (t : State) : Prop := ∀ d, d ≠ c.val → t.pcore d = s.pcore d
    let due := s.pwr.ageDue.contains u = true
    let aged (t : State) : Prop := t.pwr.ageDue = s.pwr.ageDue.filter (· != u)
    let room := s.stepsLeft c (s.classMv c p.cls)
    (tierTrip ∨ dieTrip → s.pwr.tripped = false → Gives (.sensorConversion r) s fun t => die t ∧ t.pwr.tripped = true ∧
      t.board.thermtripLow = true ∧ (bit t.pwr.thmEvt 0 = true ↔ dieTrip) ∧ (bit t.pwr.thmEvt 1 = true ↔ tierTrip) ∧
      (∀ l, (t.link l).st = .down) ∧ ∃ y ∈ t.cnt.due, y.code = 0x51 ∧ y.cls = 5) ∧
    (¬ tierTrip → ¬ dieTrip → s.pwr.tripped = false → hot → Gives (.sensorConversion r) s fun t => die t ∧
      t.pwr.tripped = false ∧ (t.pcore c).thermal = true ∧ bit t.pwr.evt 1 = true ∧
      (1200 < p.clock → (t.pcore c).fnow = max 1200 (p.clock - 40)) ∧
      (p.clock ≤ 1200 → (t.pcore c).duty = max 1 (p.duty / 2))) ∧
    (s.pwr.tripped = true → Gives (.sensorConversion r) s fun t => die t ∧
      t = { s with mem := { s.mem with temps := t.mem.temps }, pwr := { s.pwr with thmDie := t.pwr.thmDie } }) ∧
    (p.stretched = false → Gives (.shallowDroop (.mc c)) s fun t =>
      t = { s with pwr := { s.pwr with core := t.pwr.core }, cnt := t.cnt } ∧ others t ∧
      t.pcore c = { p with stretched := true } ∧ t.cntr (cntMc c 9) = cntAdd (s.cntr (cntMc c 9)) 1) ∧
    (p.stretched = true → Gives (.shallowDroop (.mc c)) s fun t => t = s) ∧
    (s.pwr.socStretch = false → Gives (.shallowDroop .soc) s fun t =>
      t = { s with pwr := { s.pwr with socStretch := true }, cnt := t.cnt } ∧
      t.cntr (cntPwr 3) = cntAdd (s.cntr (cntPwr 3)) 1) ∧
    (Gives (.deepDroop (.mc c)) s fun t => (t.pcore c).droopBeats = 2 ∧ (t.pcore c).clock ≤ 9 * p.fset / 10 ∧
      bit t.pwr.evt 4 = true ∧ others t ∧ t = { s with pwr := t.pwr, cores := t.cores }) ∧
    (Gives (.deepDroop .soc) s fun t =>
      t = { s with pwr := { s.pwr with socDroopBeats := 2, evt := setBit s.pwr.evt 4 } }) ∧
    (Gives (.droopRecovery (.mc c)) s fun t => t = { s with pwr := { s.pwr with core := t.pwr.core } } ∧ others t ∧
      t.pcore c = { p with stretched := false }) ∧
    (Gives (.droopRecovery .soc) s fun t => t = { s with pwr := { s.pwr with socStretch := false } }) ∧
    (¬ due → ∀ held, Gives (.ageingMeasurement u margins steps held) s fun t => t = s) ∧
    (due → (∀ m ∈ margins, 60 ≤ m) → ∀ held, Gives (.ageingMeasurement u margins steps held) s fun t => aged t ∧
      t = { s with pwr := { s.pwr with ageDue := t.pwr.ageDue } }) ∧
    (due → u = .core c → (∃ m ∈ margins, m < 60) → Gives (.ageingMeasurement u margins steps true) s fun t => aged t ∧
      others t ∧ (t.pcore c).vadd p.cls = p.vadd p.cls + 5 * min steps room ∧ (t.pcore c).replans = min 255 (p.replans + 1) ∧
      (t.pcore c).validRec = p.validRec &&& BitVec.ofNat 3 (2 ^ p.cls)) ∧
    (p.validRec.getLsbD p.cls = false → Gives (.recordGathered (.core c)) s fun t => others t ∧
      t = { s with pwr := { s.pwr with core := t.pwr.core } } ∧
      t.pcore c = { p with validRec := p.validRec ||| BitVec.ofNat 3 (2 ^ p.cls) }) ∧
    (p.validRec.getLsbD p.cls = true → Gives (.recordGathered (.core c)) s fun t => t = s) ∧
    ((SMap.get 7 s.pwr.quadValid g).testBit (SMap.get 0 s.pwr.quadCls g) = false → Gives (.recordGathered (.quadrant g)) s fun t =>
      t = { s with pwr := { s.pwr with quadValid := t.pwr.quadValid } } ∧
      SMap.get 7 t.pwr.quadValid g = SMap.get 7 s.pwr.quadValid g ||| 2 ^ SMap.get 0 s.pwr.quadCls g) ∧
    (s.pwr.avsRetry.head? = some x.rail → Gives (.avsFrameRetry (some x)) s fun t =>
      t = { s with pwr := { s.pwr with avsRetry := s.pwr.avsRetry.tail, telemetry := SMap.insert x.rail x s.pwr.telemetry } }) ∧
    (Gives (.avsFrameRetry none) s fun t => t = s)


/-! Start-up and the management port. -/

/-- SUPPLY_RESET_ASSERT, COLD_START and LINK_TRAINING (R11, R102, R163, R195, R326, R334, R376, R457, R458, R460, R491): what a supply reset
leaves; the straps, the fuses and the identity of a start, seeds of the generators that are not zero and differ; a link
wired as the rule has it comes up with its credits and the chip takes its number. -/
def Obligations.StartUp : Prop :=
  ∀ (f : Fuses) (st : SelfTest) (straps : BitVec 8) (r : TrainResult) (chip far : Nat) (s : State),
    let l := r.link.val
    let number : W16 := BitVec.ofNat 16 (s.board.groupReg.toNat % 1024 * 64 + s.board.straps.toNat % 64)
    let trains := s.sec.boot = .links ∧ s.board.groupReg.getLsbD 15 = true
    let fz := if s.sec.fuses = Fuses.blank then f else s.sec.fuses
    (Gives .supplyResetAssert s fun t =>
      t = { State.reset with pending := s.pending, fresh := s.fresh, board := t.board, sec := t.sec, pwr := t.pwr, mem := t.mem } ∧
      t.mem = { Mem.reset with repairDue := s.mem.repairDue } ∧
      t.board.supplyReset = true ∧ t.sec = { Security.reset with fuses := s.sec.fuses, fieldUsed := s.sec.fieldUsed } ∧
      ∀ c, (t.pcore c).replost = (s.pcore c).replost) ∧
    (s.sec.boot = .fuse → Gives (.coldStart f st straps) s fun t =>
      t.sec.boot = (if st.failCause = 0 then .links else .failed) ∧ t.board.straps = straps ∧
      t.board.supplyReset = false ∧ t.board.mac = fz.mac ∧ t.sec.fuses.secret = fz.secret ∧
      t.mem.cells = [] ∧ t.mem.lines = [] ∧ t.mer = Mer.reset ∧ t.pending = s.pending ∧
      (∀ c, c < 4 → (t.pcore c).fmax = max 2400 (min 2640 ((fz.fmax[c]?).getD 2400 / 40 * 40))) ∧
      (∀ e i, e < 64 → i < 32 → SMap.get 0 (t.eng e).gen i ≠ 0) ∧
      ∀ e i e' i', e < 64 → i < 32 → e' < 64 → i' < 32 →
        SMap.get 0 (t.eng e).gen i = SMap.get 0 (t.eng e').gen i' → e = e' ∧ i = i') ∧
    (s.sec.boot ≠ .fuse → Gives (.coldStart f st straps) s fun t => t = s) ∧
    (trains → r.partner = some (BitVec.ofNat 16 chip, BitVec.ofNat 7 far) → chip < 65536 → far < 128 →
      wiredTo systemGroups number.toNat l = some (chip, far) →
      r.lane0 = true → r.lane1 = true → s.laneMapped l 0 = false → s.laneMapped l 1 = false →
      Gives (.linkTraining [r]) s fun t => t.sec.boot = .lock ∧ t.grp.chip = number ∧ t.board.groupTaken = true ∧
        (t.link l).st = .up2 ∧ (t.link l).partner = chip ∧ (t.link l).plink = far ∧ (t.link l).src0 = 0 ∧
        (t.link l).src1 = 1 ∧ (∀ v, v < 4 → SMap.get 0 (t.link l).credits v = 768) ∧
        ∀ m, m ≠ l → t.link m = s.link m) ∧
    (trains → r.partner = some (BitVec.ofNat 16 chip, BitVec.ofNat 7 far) → chip < 65536 → far < 128 →
      wiredTo systemGroups number.toNat l ≠ some (chip, far) → Gives (.linkTraining [r]) s fun t =>
        t.link l = s.link l ∧ bit t.lnk.evt 6 = true) ∧
    (¬ trains → Gives (.linkTraining [r]) s fun t => t = s)

/-- I3C_WRITE, BOOTREQ_TIMER, BOOT and BOOT_VERIFY (R456, R462, R463, R464, R469, R495, R496): a private write reaches GROUP and the address
record until they are taken; requests go out while no image is held; image bytes are placed and acknowledged; a good image
runs, a bad one is discarded and its cause held. -/
def Obligations.BootImage : Prop :=
  ∀ (index : BitVec 8) (v : Byte) (m : PortMsg) (s : State),
    let b := s.board
    let i := index.toNat
    let whole := (wholeOf s 2 m).body
    let body := whole.drop 8
    let off := leNat (whole.take 8)
    let bc := bootConfig (s.bytes (imageBase + 0x60) 256)
    let asks := (s.sec.boot = .waitimg ∨ s.sec.boot = .failed) ∧ s.portCabled = true
    (b.supplyReset = true → Gives (.i3cWrite index [v]) s fun t => t = s) ∧
    (b.supplyReset = false → Gives (.i3cWrite index [v]) s fun t =>
      t = { s with board := { b with index := i, groupReg := t.board.groupReg, addr := t.board.addr } } ∧
      (b.groupTaken = true ∨ (i ≠ 0x10 ∧ i ≠ 0x11) → t.board.groupReg = b.groupReg) ∧
      (b.groupTaken = false → i = 0x10 → t.board.groupReg.toNat = b.groupReg.toNat / 256 * 256 + v.toNat) ∧
      (b.groupTaken = false → i = 0x11 → t.board.groupReg.toNat = b.groupReg.toNat % 256 + (v.toNat &&& 0x83) * 256) ∧
      ∀ k, SMap.get 0 t.board.addr k =
        if b.addrLocked = false ∧ 0x18 ≤ i ∧ i ≤ 0x57 ∧ k = i - 0x18 then v else SMap.get 0 b.addr k) ∧
    (asks → Gives .bootreqTimer s fun t => t = { s with board := { b with addrLocked := true, bootreqs := b.bootreqs + 1 }, sec := t.sec } ∧
      t.sec = { s.sec with portOut := t.sec.portOut } ∧
      PortSent ⟨1, 0, BitVec.ofNat 32 b.bootreqs, toLe 2 s.grp.chip.toNat ++ w64Bytes s.sec.fuses.serial0 ++
        w64Bytes s.sec.fuses.serial1 ++ toLe 1 (bootCode s.sec.boot)⟩ s t) ∧
    (¬ asks → Gives .bootreqTimer s fun t => t = s) ∧
    (s.wantsImage = true → Completes s 2 m → body ≠ [] → off + body.length ≤ imageMax → LinesGood s → WcbSound s →
      Gives (.boot m) s fun t => t = { s with mem := t.mem, cnt := t.cnt, sec := t.sec } ∧ Stored (imageBase + off) body s t ∧
        t.sec.imgHave = addRange (off, off + body.length) s.sec.imgHave ∧
        PortSent ⟨3, m.session, m.seq, toLe 8 (contiguous t.sec.imgHave)⟩ s t) ∧
    (s.wantsImage = true → Joins s 2 m → ¬ Completes s 2 m → Gives (.boot m) s (FragmentHeld 2 m s)) ∧
    (s.wantsImage = false → Gives (.boot m) s fun t => t = s) ∧
    (s.sec.boot = .verify → LinesGood s → s.imageFault true = 0 → Gives .bootVerify s fun t => t.sec.boot = .running ∧
      t.sec.ccReleased = true ∧
      (∀ n, n < 8 → (t.hart n).running = true ∧ (t.hart n).mode = .machine ∧
        (t.hart n).pc = w64 (imageBase + s.imageByte 0x18 8) ∧ (t.hart n).xreg 10 = w64 n ∧
        (t.hart n).xreg 11 = w64 imageBase) ∧
      t.sec.imgGood = true ∧ t.fw = { s.fw with auth := bc.auth, sched := bc.sched } ∧
      t.mem = { s.mem with carve := bc.carve, held := t.mem.held } ∧ t.grp = { s.grp with failep := bc.failep } ∧
      t.sec.opkeys = bc.opkeys ∧ t.sec.ingBase = bc.ingBase ∧ t.sec.ingSize = bc.ingSize ∧
      t.sec.fuses.secver = (if bc.flags.testBit 1 then max s.sec.fuses.secver (s.imageByte 0xC 4) else s.sec.fuses.secver)) ∧
    (s.sec.boot = .verify → LinesGood s → s.imageFault true ≠ 0 → Gives .bootVerify s fun t =>
      t = { s with sec := t.sec, cnt := t.cnt, mem := t.mem } ∧ MemRead s t ∧
      t.sec = { s.sec with boot := .waitimg, bfail := s.imageFault true, bfails := min 255 (s.sec.bfails + 1), imgHave := [], imgLen := none } ∧
      ∃ r ∈ t.cnt.due, r.code = 0x70 ∧ r.a0 = w64 (s.imageFault true)) ∧
    (s.sec.boot ≠ .verify → Gives .bootVerify s fun t => t = s)

/-- HELLO, ACCEPT, CMD, BULK, CLOSE, SESSION_TIMEOUT and PORT_FRAGMENT_TIMEOUT (R468, R470, R471, R472): a known operator's greeting is
answered by a challenge with a new session; a right signature establishes it; a command with a higher SEQ takes one of
Darkel's entries, and an older one is not taken again; data goes to the ingest region; a session ends by CLOSE or after
60 s, an incomplete message after 100 ms. -/
def Obligations.PortSessions : Prop :=
  ∀ (m : PortMsg) (q : Session) (body : List Byte) (id : W32) (src : Nat) (sess seq : W32) (s : State),
    let w := (wholeOf s 0 m).body
    let arrives (type : Nat) := s.portOpen = true ∧ Completes s type m
    let nothing (t : State) : Prop := t = withoutParts m s
    let held (i : Instr) (type : Nat) : Prop := Gives i s (FragmentHeld type m s)
    let known := w.length = 96 ∧ s.knownKey (w.drop 32) = true ∧ s.sec.sessions.length < 8
    let valid := Authentic s 0x20 kmCmd m q body ∧ body.length = 64
    let fresh := q.lastSeq = none ∨ ∃ n, q.lastSeq = some n ∧ n.toNat < m.seq.toNat
    let off := leNat (body.take 8)
    let data := body.drop 8
    (arrives 0x10 → known → Gives (.hello m) s fun t => t = { s with sec := t.sec, fresh := s.fresh + 2 } ∧
      ∃ x : Session, t.sec.sessions = s.sec.sessions ++ [x] ∧ x.id = BitVec.ofNat 32 s.sec.nextSession ∧
        x.opkey = w.drop 32 ∧ x.established = false ∧ t.sec.nextSession = s.sec.nextSession + 1 ∧
        PortSent ⟨0x11, x.id, m.seq, x.challenge⟩ s t) ∧
    (arrives 0x10 → ¬ known → Gives (.hello m) s nothing) ∧
    (arrives 0x12 → s.session m.session = some q → q.established = false → w.length = 31360 →
      (Config.slhVerify q.opkey ([0, 0] ++ q.hello ++ q.challenge ++ w.take 1568) (w.drop 1568) = true →
        Gives (.accept m) s fun t => PortOnly s t ∧ (∃ x, t.session m.session = some x ∧ x.established = true ∧
          x.lastValid = s.mer.now) ∧ ∃ y, PortSent ⟨0x13, q.id, m.seq, y⟩ s t) ∧
      (Config.slhVerify q.opkey ([0, 0] ++ q.hello ++ q.challenge ++ w.take 1568) (w.drop 1568) = false →
        Gives (.accept m) s nothing)) ∧
    (valid → fresh → EntryFree s → Gives (.cmd m) s fun t => t = { s with sec := t.sec, fw := { s.fw with cmds := t.fw.cmds } } ∧
      ∃ i, Placed i 1 (fun k => w64OfBytes (body.drop (8 * k))) s t ∧
        t.sec.portCmds = s.sec.portCmds ++ [(i, q.id, m.seq)] ∧
        ∃ x, t.session m.session = some x ∧ x.lastSeq = some m.seq ∧ x.lastValid = s.mer.now) ∧
    (valid → fresh → ¬ EntryFree s → Gives (.cmd m) s fun t => PortOnly s t ∧
      ∃ y, PortSent y s t ∧ y.type = 0x21 ∧ y.seq = m.seq ∧ y.session = q.id) ∧
    (valid → ¬ fresh → Gives (.cmd m) s fun t => PortOnly s t ∧ t.sec.portCmds = s.sec.portCmds ∧
      ∃ x, t.session m.session = some x ∧ x.lastSeq = q.lastSeq) ∧
    (Authentic s 0x30 kmBulk m q body → s.grp.role ≠ 0 → s.sec.ingSize ≠ 0 → 8 ≤ body.length → body.length % 16 = 8 →
      off + data.length ≤ s.sec.ingSize → data.length ≤ 65536 → LinesGood s → WcbSound s → Gives (.bulk m) s fun t =>
        t = { s with mem := t.mem, cnt := t.cnt, sec := t.sec } ∧ Stored (s.sec.ingBase + off) data s t ∧
        ∃ y, PortSent y s t ∧ y.type = 0x31 ∧ y.seq = m.seq ∧ y.session = q.id) ∧
    (arrives 0x30 → (s.grp.role = 0 ∨ s.sec.ingSize = 0) → Gives (.bulk m) s nothing) ∧
    (Authentic s 0x3F kmClose m q [] → Gives (.close m) s fun t => PortOnly s t ∧ t.session q.id = none ∧
      ∀ d, d ≠ q.id → t.session d = s.session d) ∧
    (s.portOpen = true →
      (Joins s 0x10 m → ¬ Completes s 0x10 m → held (.hello m) 0x10) ∧ (Joins s 0x12 m → ¬ Completes s 0x12 m → held (.accept m) 0x12) ∧
      (Joins s 0x20 m → ¬ Completes s 0x20 m → held (.cmd m) 0x20) ∧ (Joins s 0x30 m → ¬ Completes s 0x30 m → held (.bulk m) 0x30) ∧
      (Joins s 0x3F m → ¬ Completes s 0x3F m → held (.close m) 0x3F)) ∧
    (s.portOpen = false → Gives (.hello m) s (· = s) ∧ Gives (.accept m) s (· = s) ∧ Gives (.cmd m) s (· = s) ∧
      Gives (.bulk m) s (· = s) ∧ Gives (.close m) s (· = s)) ∧
    (s.session id = some q → (q.lastValid.toNat + 60000000000 ≤ s.now → Gives (.sessionTimeout id) s fun t => PortOnly s t ∧
        t.session id = none ∧ ∀ d, d ≠ id → t.session d = s.session d) ∧
      (s.now < q.lastValid.toNat + 60000000000 → Gives (.sessionTimeout id) s fun t => t = s)) ∧
    (Gives (.portFragmentTimeout src sess seq) s fun t => t = { s with sec := { s.sec with portParts := t.sec.portParts } } ∧
      ∀ p, p ∈ t.sec.portParts ↔ p ∈ s.sec.portParts ∧
        ¬ (p.src = src ∧ p.session = sess ∧ p.seq = seq ∧ p.since.toNat + 100000000 ≤ s.now))

/-! Management. -/

/-- ANNOUNCE, HEARTBEAT, STATUS, TAKEOVER, DEPUTY_TAKEOVER and MEMBER_FAIL (R376, R377, R378, R379, R388, R391): a group follows the manager
that the higher TERM gives; a manager keeps what a member reports and answers it; a deputy takes the role of a silent
manager, whose count no takeover steps; a member silent for FAILEP epochs has failed. -/
def Obligations.Management : Prop :=
  ∀ (m : MgmtMsg) (chip : W16) (s : State),
    let g := s.grp
    let c := m.schip
    let body := bodyField m.body
    let own := chipGroup c = s.myGroup
    let role := body 17 1
    let term := body 20 4
    let x := s.member chip.toNat
    let ann := g.inbox.head? = some m ∧ m.mtype = 1 ∧ own
    let left (t : State) : Prop := t.grp.inbox = g.inbox.tail
    (ann → g.formed = false → 1 ≤ role → Gives .announce s fun t => left t ∧ t.grp.formed = true ∧ t.grp.gmgr = c ∧
      t.grp.term = term ∧ t.grp.role = 0 ∧ t.mer.st = .acquire ∧ t.mer.now = s.mer.now) ∧
    (ann → s.stale m = false → g.formed = true → 1 ≤ role → g.term < term → Gives .announce s fun t => left t ∧ t.grp.gmgr = c ∧
      t.grp.term = term ∧ t.grp.role = 0 ∧ t.mer.now = s.mer.now ∧ t.mer.st = s.mer.st) ∧
    (ann → s.stale m = false → g.formed = true → 1 ≤ g.role → role = 0 → Gives .announce s fun t => left t ∧ (t.member c).heard = true ∧
      (t.member c).lastEpoch = s.epochNo ∧ bit t.grp.failedMask (chipPos c) = false ∧ t.grp.role = g.role ∧
      SMap.get 0 g.mseqOut c < SMap.get 0 t.grp.mseqOut c) ∧
    (Front s 2 m → own → 1 ≤ g.role → g.term < m.term → Gives .heartbeat s fun t => GrpOnly s t ∧ t.grp.role = 0 ∧
      t.grp.term = m.term ∧ t.grp.members = g.members) ∧
    (Front s 2 m → own → 1 ≤ g.role → m.term ≤ g.term → Gives .heartbeat s fun t => left t ∧ (t.member c).heard = true ∧
      (t.member c).lastEpoch = s.epochNo ∧ (t.member c).state = body 16 1 ∧ (t.member c).oos = body 18 1 % 16 ∧
      SentTo c 1 s t ∧ ∀ d, d ≠ c → t.member d = s.member d) ∧
    (Front s 2 m → own → g.role = 0 → Gives .heartbeat s fun t => GrpOnly s t ∧ t.grp.members = g.members) ∧
    (Front s 3 m → own → g.role = 0 → Gives .status s fun t => GrpOnly s t ∧ t.grp.gmgr = body 16 2 ∧
      t.grp.deputyChip = body 18 2 ∧ t.grp.smgr = body 20 2 ∧ t.grp.sdeputyChip = body 22 2 ∧ t.grp.failep = body 24 1 ∧
      t.grp.failedMask = w64 (body 40 8) ∧ t.grp.mgrEpoch = s.epochNo ∧
      (t.grp.failed = true ↔ g.failed = true ∨ bit (w64 (body 40 8)) (chipPos s.me) = true)) ∧
    (Front s 4 m → own → g.formed = true → g.term < body 16 4 → Gives .takeover s fun t => left t ∧
      t.grp.term = body 16 4 ∧ t.grp.gmgr = body 20 2 ∧ t.grp.deputyChip = body 22 2 ∧ t.grp.role = 0 ∧
      t.mer.now = s.mer.now ∧ t.mer.st = s.mer.st ∧ t.mer.source = 3) ∧
    (s.managerSilent = true → g.deputy = true → g.role = 0 → Gives .deputyTakeover s fun t => t.grp.role = 1 ∧
      t.grp.gmgr = s.me ∧ t.grp.term = g.term + 1 ∧ t.mer.now = s.mer.now ∧ t.mer.st = s.mer.st) ∧
    (s.managerSilent = true → g.sdeputy = true → g.role = 1 → Gives .deputyTakeover s fun t =>
      t.grp.role = 2 ∧ t.grp.smgr = s.me ∧ t.grp.sterm = g.sterm + 1 ∧ t.mer.now = s.mer.now ∧ t.mer.st = s.mer.st) ∧
    (s.managerSilent = false → Gives .deputyTakeover s fun t => t = s) ∧
    (g.role ≠ 0 → chip.toNat ≠ s.me → x.heard = true → x.failed = false → chipGroup chip.toNat = s.myGroup →
      g.failep ≤ s.epochNo - x.lastEpoch → Gives (.memberFail chip) s fun t =>
        (t.member chip.toNat).failed = true ∧ bit t.grp.failedMask (chipPos chip.toNat) = true) ∧
    (s.failCause chip.toNat = false → s.failSlots chip.toNat = [] → Gives (.memberFail chip) s fun t => t = s)

/-- MGMT_CMD, CMDRESP, HALOPLAN, ROLEPLAN, LOGCOPY, IMGREQ, IMGDATA, IMGREQ_RETRY and RAMPSHARE (R380, R381, R387, R389, R390, R402, R484):
what each message does once it stands first in the keeper's queue; one with a TERM below the chip's own is only taken
away. -/
def Obligations.Messages : Prop :=
  ∀ (m : MgmtMsg) (dst : Nat) (sys : Bool) (s : State),
    let g := s.grp
    let c := m.schip
    let body := bodyField m.body
    let step : W32 := BitVec.ofNat 32 (body 16 4)
    let entries (n k : Nat) : Prop := k < n ∧ 24 + 16 * k + 16 ≤ m.body.length
    let off := body 16 8
    let data := m.body.drop 32
    let want := min (body 24 4) (s.imageByte 0x10 8 - off)
    let held := contiguous s.sec.imgHave
    let asks := s.sec.boot = .waitimg ∧ (s.portCabled = false ∨ 1 ≤ s.board.bootreqs) ∧
      (g.imgAsked = 0 ∨ g.imgAskedAt + 100000000 ≤ s.now ∧ held < g.imgAsked)
    let cur := m.term ≤ if s.away m then g.sterm else g.term
    let left (t : State) : Prop := t.grp.inbox = g.inbox.tail
    let only (t : State) : Prop := t = { s with grp := { g with inbox := g.inbox.tail } }
    (Front s 5 m → cur → (c = g.gmgr ∨ c = g.smgr) → EntryFree s → Gives .mgmtCmd s fun t => left t ∧
      t = { s with grp := t.grp, fw := { s.fw with cmds := t.fw.cmds } } ∧
      ∃ i, Placed i 2 (fun k => w64OfBytes (m.body.drop (16 + 8 * k))) s t ∧ t.grp.mgrCmds = g.mgrCmds ++ [(i, c, m.mseq)]) ∧
    (Front s 5 m → (c = g.gmgr ∨ c = g.smgr) → ¬ EntryFree s → Gives .mgmtCmd s fun t => t = s) ∧
    (Front s 5 m → cur → c ≠ g.gmgr → c ≠ g.smgr → Gives .mgmtCmd s only) ∧
    (Front s 6 m → Gives .cmdresp s fun t => GrpOnly s t ∧
      t.grp.answers = g.answers ++ [(c, BitVec.ofNat 32 (body 16 4), (m.body.drop 24).take 24)]) ∧
    (Front s 7 m → Gives .haloplan s fun t => left t ∧ ∃ l, (step, l) ∈ t.grp.haloPlans ∧
      ∀ k, entries (body 20 4) k → (⟨body (24 + 16 * k) 2, body (26 + 16 * k) 2, body (28 + 16 * k) 2,
        w64 (body (32 + 16 * k) 8)⟩ : HaloEntry) ∈ l) ∧
    (Front s 8 m → Gives .roleplan s fun t => left t ∧ ∃ l, t.grp.rolePlans = g.rolePlans ++ [(step, l)] ∧
      ∀ k, entries (body 20 4) k → l[k]? = some (⟨body (24 + 16 * k) 1, body (26 + 16 * k) 2, body (28 + 16 * k) 2,
        body (30 + 16 * k) 2, body (32 + 16 * k) 2⟩ : RoleEntry)) ∧
    (Front s 9 m → cur → 1 ≤ g.role → Gives .logcopy s fun t => GrpOnly s t ∧
      t.grp.logCopies = g.logCopies ++ [(m.body.drop 16).take 64]) ∧
    (Front s 9 m → g.role = 0 → Gives .logcopy s only) ∧
    (Front s 0xA m → cur → 1 ≤ g.role → s.sec.imgGood = true → Gives .imgreq s fun t => left t ∧
      SentTo c ((want + 65503) / 65504) s t) ∧
    (Front s 0xA m → cur → (g.role = 0 ∨ s.sec.imgGood = false) → Gives .imgreq s only) ∧
    (Front s 0xB m → s.wantsImage = true → data ≠ [] → off + data.length ≤ imageMax → LinesGood s → WcbSound s →
      Gives .imgdata s fun t => left t ∧ Stored (imageBase + off) data s t ∧
        t.sec.imgHave = addRange (off, off + data.length) s.sec.imgHave ∧ t.sec.imgLen = some (body 24 8)) ∧
    (Front s 0xB m → cur → s.wantsImage = false → Gives .imgdata s only) ∧
    (asks → s.manager = some (dst, sys) → Gives .imgreqRetry s fun t => SentTo dst 1 s t ∧
      t.grp.imgAsked = held + min 0x100000 ((s.sec.imgLen.getD 0x4000000) - held)) ∧
    (¬ asks → Gives .imgreqRetry s fun t => t = s) ∧
    (Front s 0xC m → cur → 1 ≤ g.role → c = g.smgr → Gives .rampshare s fun t => left t ∧
      ∀ k, k < 16 → entries (body 16 4) k → t.grp.ramps[k]? = some (body (24 + 16 * k) 8, body (32 + 16 * k) 2, body (34 + 16 * k) 2)) ∧
    (Front s 0xC m → cur → (g.role = 0 ∨ c ≠ g.smgr) → Gives .rampshare s only)


/-! The whole machine. -/

/-- A step takes the command at the front of the queue: it is that command's effect on the state with the queue's rest. -/
def Obligations.StepTakesFront : Prop :=
  (∀ (c : Instr) (s : State) (rest : List Instr), s.pending = c :: rest → step s = exec c { s with pending := rest }) ∧
    ∀ s : State, s.pending = [] → step s = .next { s with mer := { s.mer with now := s.mer.now + 1 } }

/-- Reset (R42, R243, R269, R345, R391, R399, R454): memory lists nothing and is in canonical form, no queue holds a command, the
registers stand at the values their maps give. -/
def Obligations.ResetState : Prop :=
  let s := State.reset
  Memory.wf s.mem = true ∧ WcbSound s ∧ LinesGood s ∧ (∀ a, s.peek a = 0) ∧ s.pending = [] ∧ s.now = 0 ∧ s.mer.st = .free ∧
    (∀ c, (s.core c).st = .idle ∧ (s.core c).ctrail = 0x800C400000000000#64) ∧ (∀ e, (s.eng e).st = .idle) ∧
    (∀ n, (s.sem n).count = 0) ∧ (∀ l, (s.link l).st = .down) ∧ (∀ j, (s.job j).st = .empty) ∧
    (∀ i, (s.entry i).valid = false) ∧ s.mem.carve = 2 ∧ s.lnk.hold = 100 ∧ s.lnk.timeout = 1000 ∧ s.pwr.cap = 1600 ∧ s.pwr.slew = 25 ∧
    s.grp.failep = 4 ∧ (∀ j, (s.bank j).state = 0xFFFFFFFF00020000#64)

/-- No command but the step itself touches the queue of commands. -/
def Obligations.QueueKept : Prop := ∀ (i : Instr) (s t : State), exec i s = .next t → t.pending = s.pending

/-- Every step keeps the canonical form of the memory. -/
def Obligations.MemoryCanonical : Prop :=
  ∀ s t : State, Memory.wf s.mem = true → step s = .next t → Memory.wf t.mem = true

/-- A completed write reads back, and no other byte reads differently, by either name of an address (R179, R188, R189, R190): over the
buffered lines of a port as over the arrays. The write-combining buffers stay sound and the lines good. -/
def Obligations.ReadAfterWrite : Prop :=
  ∀ (a : Nat) (bs : List Byte) (s : State), LinesGood s → WcbSound s → bs.length ≤ 2 ^ 30 →
    Stored a bs s (s.writeDone a bs) ∧ Stored a bs s (s.write a bs) ∧ WcbSound (s.writeDone a bs) ∧
      LinesGood (s.writeDone a bs) ∧ (s.writeDone a bs) = { s with mem := (s.writeDone a bs).mem, cnt := (s.writeDone a bs).cnt }

/-- R178: granule g of the interleaved addresses lies in stack g mod 20, at the offset the rule gives; each stack receives 262,144
granules, and every byte of its 1 GiB has exactly one interleaved address. -/
def Obligations.AddressMap : Prop :=
  (∀ a : Nat, a < 0x500000000 →
    locate a = .stack (a / 4096 % 20) (a / 4096 / 20 * 4096 + a % 4096) ∧ a / 4096 / 20 < 262144) ∧
    ∀ st o : Nat, st < 20 → o < 0x40000000 →
      ∃ a, a < 0x500000000 ∧ locate a = .stack st o ∧ ∀ b, b < 0x500000000 → locate b = .stack st o → b = a

/-- R55: the sum of up to 65,536 ES16 or S1 contributions to one element is exact in the 32 bits of ES32, and the same integer
whatever the order of addition: no add of a packet with its own residue is refused. -/
def Obligations.ExactSums : Prop :=
  ∀ (es16 : Bool) (l k : List (List Int)), l.length ≤ 65536 → (∀ q ∈ l, q.length = 64 ∧ ∀ n ∈ q, -32767 ≤ n ∧ n ≤ 32767) →
    l.Perm k →
    let add (acc q : List Int) : Nat × List Int := redStatus es16 acc q (residue65535 q)
    let total (x : List (List Int)) : List Int := x.foldl (fun acc q => (add acc q).2) (List.replicate 64 0)
    total l = (List.range 64).map (fun i => (l.map fun q => (q[i]?).getD 0).sum) ∧ total k = total l ∧
      (∀ n ∈ total l, -(2 ^ 31 - 1) ≤ n ∧ n ≤ 2 ^ 31 - 1) ∧
      ∀ i q, l[i]? = some q → (add (total (l.take i)) q).1 = 0

/-- R187: a write that covers a whole uncorrectable or poisoned line leaves it good with the bytes written; a write to a part of it
leaves it poisoned, its bytes lost, and sets STK_EVT.POISONWR. The write completes and no unit faults. -/
def Obligations.PoisonedWrites : Prop :=
  ∀ (a line : Nat) (bs : List Byte) (s : State),
    let t := s.writeDone a bs
    let covered (i : Nat) : Prop := ∃ k, k < bs.length ∧ canon (a + k) = line + i
    line % 128 = 0 → canon line = line → (s.lineSt line = .uncorrectable ∨ s.lineSt line = .poisoned) → WcbSound s →
    bs.length ≤ 2 ^ 30 →
    t = { s with mem := t.mem, cnt := t.cnt } ∧
    ((∀ i, i < 128 → covered i) → t.lineSt line = .good ∧
      ∀ i k, i < 128 → k < bs.length → canon (a + k) = line + i → t.peek (line + i) = (bs[k]?).getD 0) ∧
    ((∃ i, i < 128 ∧ covered i) → (∃ i, i < 128 ∧ ¬ covered i) →
      (∀ p w, wcbFind (s.wcbAt p) line = some w → ∃ i, i < 128 ∧ ¬ covered i ∧ SMap.get none w.bytes i = none) →
      t.lineSt line = .poisoned ∧ bit t.mem.evt 3 = true ∧
      ∀ i, i < 128 → SMap.get 0 t.mem.cells (line + i) = SMap.get 0 s.mem.cells (line + i))
end

