-- ==== Sys2Proof/Laws/Address.lean ====
section
/-! SUPPORT. Laws of the addresses: lines, the one name of a byte (R178, R179). -/

namespace Sys2Proof.Machine

theorem stackAddr_lt (st o : Nat) (hs : st < 20) (ho : o < 0x40000000) : stackAddr st o < 0x500000000 := by
  unfold stackAddr; omega

theorem stackAddr_mod (st o : Nat) : stackAddr st o % 4096 = o % 4096 := by unfold stackAddr; omega

/-- Stack and offset of an interleaved address, as R178 gives them, lead back to it. -/
theorem stackAddr_of (a : Nat) : stackAddr (a / 4096 % 20) (a / 4096 / 20 * 4096 + a % 4096) = a := by
  unfold stackAddr; omega

theorem stackAddr_inj (s o t p : Nat) (hs : s < 20) (ht : t < 20) (h : stackAddr s o = stackAddr t p) : s = t ∧ o = p := by
  unfold stackAddr at h; omega

theorem canon_window (a : Nat) (h1 : 0x1000000000 ≤ a) (h2 : a < 0x1500000000) :
    canon a = stackAddr ((a - 0x1000000000) / 0x40000000) ((a - 0x1000000000) % 0x40000000) := by
  simp [canon, h1, h2]

theorem canon_other (a : Nat) (h : ¬ (0x1000000000 ≤ a ∧ a < 0x1500000000)) : canon a = a := if_neg h

/-- A byte has one name. -/
@[simp] theorem canon_canon (a : Nat) : canon (canon a) = canon a := by
  by_cases h : 0x1000000000 ≤ a ∧ a < 0x1500000000
  · rw [canon_window a h.1 h.2]
    refine canon_other _ ?_
    have := stackAddr_lt ((a - 0x1000000000) / 0x40000000) ((a - 0x1000000000) % 0x40000000) (by omega) (by omega)
    omega
  · rw [canon_other a h, canon_other a h]

/-- The place within a granule, and so within a line, is the same under both names. -/
theorem canon_mod (a : Nat) : canon a % 4096 = a % 4096 := by
  by_cases h : 0x1000000000 ≤ a ∧ a < 0x1500000000
  · rw [canon_window a h.1 h.2, stackAddr_mod]; omega
  · rw [canon_other a h]

theorem canon_mod128 (a : Nat) : canon a % 128 = a % 128 := by have := canon_mod a; omega

/-- Bytes of one granule go together. -/
theorem canon_add (a k : Nat) (h : a % 4096 + k < 4096) : canon (a + k) = canon a + k := by
  by_cases hw : 0x1000000000 ≤ a ∧ a < 0x1500000000
  · rw [canon_window a hw.1 hw.2, canon_window (a + k) (by omega) (by omega)]
    unfold stackAddr; omega
  · rw [canon_other a hw, canon_other (a + k) (by omega)]

theorem lineOf_le (a : Nat) : lineOf a ≤ a := by unfold lineOf; omega
theorem lineOf_mod (a : Nat) : lineOf a % 128 = 0 := by unfold lineOf; omega
theorem lineOf_add_mod (a : Nat) : lineOf a + a % 128 = a := by unfold lineOf; omega
theorem lineOf_eq (l k : Nat) (h : l % 128 = 0) (hk : k < 128) : lineOf (l + k) = l := by unfold lineOf; omega
theorem lineOf_of_mod (l : Nat) (h : l % 128 = 0) : lineOf l = l := by unfold lineOf; omega
theorem lineOf_mod128 (l k : Nat) (h : l % 128 = 0) (hk : k < 128) : (l + k) % 128 = k := by omega

theorem canon_lineOf (a : Nat) : canon (lineOf a) = lineOf (canon a) := by
  have h := canon_add (lineOf a) (a % 128) (by unfold lineOf; omega)
  rw [lineOf_add_mod] at h
  have h1 := canon_mod128 a
  unfold lineOf at h ⊢; omega

/-- Bytes of a canonical line are canonical. -/
theorem canon_in_line (l k : Nat) (hl : l % 128 = 0) (hc : canon l = l) (hk : k < 128) : canon (l + k) = l + k := by
  rw [canon_add l k (by omega), hc]

/-- Bytes less than 2^32 apart are the same only under the same address. -/
theorem canon_inj (a b : Nat) (h : canon a = canon b) (h1 : a ≤ b + 2 ^ 32) (h2 : b ≤ a + 2 ^ 32) : a = b := by
  by_cases ha : 0x1000000000 ≤ a ∧ a < 0x1500000000
  · have ea := canon_window a ha.1 ha.2
    have la := stackAddr_lt ((a - 0x1000000000) / 0x40000000) ((a - 0x1000000000) % 0x40000000) (by omega) (by omega)
    by_cases hb : 0x1000000000 ≤ b ∧ b < 0x1500000000
    · have eb := canon_window b hb.1 hb.2
      rw [ea, eb] at h
      have := stackAddr_inj _ _ _ _ (by omega) (by omega) h
      omega
    · rw [ea, canon_other b hb] at h; omega
  · rw [canon_other a ha] at h
    by_cases hb : 0x1000000000 ≤ b ∧ b < 0x1500000000
    · have eb := canon_window b hb.1 hb.2
      have lb := stackAddr_lt ((b - 0x1000000000) / 0x40000000) ((b - 0x1000000000) % 0x40000000) (by omega) (by omega)
      rw [eb] at h; omega
    · rw [canon_other b hb] at h; exact h

end Sys2Proof.Machine
end

