-- ==== Sys2Proof/Laws/SMap.lean ====
section
/-! SUPPORT. Laws of the sparse table: what a read gives after a write, and that every operation keeps the canonical form. -/

namespace Sys2Proof

variable {α : Type}

@[simp] theorem SMap.get_nil (d : α) (k : Nat) : SMap.get d [] k = d := rfl

theorem SMap.get_cons (d : α) (j : Nat) (v : α) (t : SMap α) (k : Nat) :
    SMap.get d ((j, v) :: t) k = if j = k then v else SMap.get d t k := rfl

theorem SMap.get_insert (d : α) (m : SMap α) (k : Nat) (v : α) (i : Nat) :
    SMap.get d (SMap.insert k v m) i = if i = k then v else SMap.get d m i := by
  induction m with
  | nil => simp only [SMap.insert, SMap.get_cons, SMap.get_nil, eq_comm]
  | cons p t ih =>
    obtain ⟨j, w⟩ := p
    simp only [SMap.insert]
    split
    · simp only [SMap.get_cons, eq_comm (a := k)]
    · split
      · next h => subst h; simp only [SMap.get_cons, eq_comm (a := k)]; split <;> rfl
      · next h1 h2 =>
        simp only [SMap.get_cons, ih]
        by_cases h : j = i
        · subst h; simp [Ne.symm h2]
        · simp [h]

theorem SMap.get_erase (d : α) (m : SMap α) (k i : Nat) :
    SMap.get d (SMap.erase k m) i = if i = k then d else SMap.get d m i := by
  induction m with
  | nil => simp [SMap.erase]
  | cons p t ih =>
    obtain ⟨j, w⟩ := p
    simp only [SMap.erase, List.filter_cons] at ih ⊢
    by_cases h : j = k
    · subst h
      simp only [bne_self_eq_false, Bool.false_eq_true, if_false, ih, SMap.get_cons]
      by_cases hi : i = j
      · simp [hi]
      · simp [hi, Ne.symm hi]
    · have hb : (j != k) = true := by simpa using h
      simp only [hb, if_true, SMap.get_cons, ih]
      by_cases hi : j = i
      · subst hi; simp [h]
      · simp [hi]

/-- A read after a write. -/
theorem SMap.get_set [DecidableEq α] (d : α) (m : SMap α) (k : Nat) (v : α) (i : Nat) :
    SMap.get d (SMap.set d m k v) i = if i = k then v else SMap.get d m i := by
  unfold SMap.set
  split
  · next h => rw [SMap.get_erase, h]
  · exact SMap.get_insert d m k v i

@[simp] theorem SMap.get_set_self [DecidableEq α] (d : α) (m : SMap α) (k : Nat) (v : α) :
    SMap.get d (SMap.set d m k v) k = v := by simp [SMap.get_set]

theorem SMap.get_set_ne [DecidableEq α] (d : α) (m : SMap α) (k : Nat) (v : α) (i : Nat) (h : i ≠ k) :
    SMap.get d (SMap.set d m k v) i = SMap.get d m i := by simp [SMap.get_set, h]

/-- A write leaves every other key, whatever the default it is read with. -/
theorem SMap.get_set_other [DecidableEq α] (d e : α) (m : SMap α) (k : Nat) (v : α) (i : Nat) (h : i ≠ k) :
    SMap.get e (SMap.set d m k v) i = SMap.get e m i := by
  unfold SMap.set
  split
  · rw [SMap.get_erase, if_neg h]
  · rw [SMap.get_insert, if_neg h]

/-! The canonical form. -/

/-- Keys rising is the pairwise order of the keys. -/
theorem SMap.rising_iff (m : SMap α) : SMap.rising m = true ↔ m.Pairwise fun p q => p.1 < q.1 := by
  induction m with
  | nil => simp [SMap.rising]
  | cons p t ih =>
    obtain ⟨j, v⟩ := p
    cases t with
    | nil => simp [SMap.rising]
    | cons q t =>
      obtain ⟨k, w⟩ := q
      simp only [SMap.rising, Bool.and_eq_true, decide_eq_true_eq, ih, List.pairwise_cons]
      constructor
      · rintro ⟨h, h1, h2⟩
        refine ⟨?_, h1, h2⟩
        rintro r hr
        rcases List.mem_cons.1 hr with rfl | hr
        · exact h
        · exact Nat.lt_trans h (h1 r hr)
      · rintro ⟨h, h1, h2⟩
        exact ⟨h (k, w) (by simp), h1, h2⟩

theorem SMap.wf_iff [DecidableEq α] (d : α) (m : SMap α) :
    SMap.wf d m = true ↔ (m.Pairwise fun p q => p.1 < q.1) ∧ ∀ p ∈ m, p.2 ≠ d := by
  simp [SMap.wf, SMap.rising_iff]

@[simp] theorem SMap.wf_nil [DecidableEq α] (d : α) : SMap.wf d ([] : SMap α) = true := rfl

/-- Some entries of a canonical table are one. -/
theorem SMap.wf_filter [DecidableEq α] (d : α) (m : SMap α) (f : Nat × α → Bool) (h : SMap.wf d m = true) :
    SMap.wf d (m.filter f) = true := by
  rw [SMap.wf_iff] at h ⊢
  exact ⟨h.1.filter f, fun p hp => h.2 p (List.mem_filter.1 hp).1⟩

theorem SMap.mem_insert (k : Nat) (v : α) (m : SMap α) (p : Nat × α) (h : p ∈ SMap.insert k v m) : p = (k, v) ∨ p ∈ m := by
  induction m with
  | nil => exact .inl (by simpa [SMap.insert] using h)
  | cons q t ih =>
    obtain ⟨j, w⟩ := q
    simp only [SMap.insert] at h
    split at h
    · rcases List.mem_cons.1 h with h | h
      · exact .inl h
      · exact .inr h
    · split at h
      · rcases List.mem_cons.1 h with h | h
        · exact .inl h
        · exact .inr (List.mem_cons_of_mem _ h)
      · rcases List.mem_cons.1 h with h | h
        · exact .inr (by simp [h])
        · rcases ih h with h | h
          · exact .inl h
          · exact .inr (List.mem_cons_of_mem _ h)

theorem SMap.pairwise_insert (k : Nat) (v : α) (m : SMap α) (h : m.Pairwise fun p q => p.1 < q.1) :
    (SMap.insert k v m).Pairwise fun p q => p.1 < q.1 := by
  induction m with
  | nil => simp [SMap.insert]
  | cons q t ih =>
    obtain ⟨j, w⟩ := q
    have h' := List.pairwise_cons.1 h
    simp only [SMap.insert]
    split
    · next hk =>
      refine List.pairwise_cons.2 ⟨?_, h⟩
      intro p hp
      rcases List.mem_cons.1 hp with rfl | hp
      · exact hk
      · exact Nat.lt_trans hk (h'.1 p hp)
    · split
      · next hk => subst hk; exact List.pairwise_cons.2 ⟨h'.1, h'.2⟩
      · next h1 h2 =>
        refine List.pairwise_cons.2 ⟨?_, ih h'.2⟩
        intro p hp
        rcases SMap.mem_insert k v t p hp with rfl | hp
        · show j < k; omega
        · exact h'.1 p hp

/-- A write keeps the canonical form. -/
theorem SMap.wf_set [DecidableEq α] (d : α) (m : SMap α) (k : Nat) (v : α) (h : SMap.wf d m = true) :
    SMap.wf d (SMap.set d m k v) = true := by
  unfold SMap.set
  split
  · exact SMap.wf_filter d m _ h
  · next hv =>
    rw [SMap.wf_iff] at h ⊢
    refine ⟨SMap.pairwise_insert k v m h.1, fun p hp => ?_⟩
    rcases SMap.mem_insert k v m p hp with rfl | hp
    · exact hv
    · exact h.2 p hp

/-- Canonical tables that read alike are the same data. -/
theorem SMap.ext [DecidableEq α] (d : α) (m n : SMap α) (hm : SMap.wf d m = true) (hn : SMap.wf d n = true)
    (h : ∀ k, SMap.get d m k = SMap.get d n k) : m = n := by
  have key : ∀ (m : SMap α), (m.Pairwise fun p q => p.1 < q.1) → ∀ k, (∀ p ∈ m, k < p.1) → SMap.get d m k = d := by
    intro m
    induction m with
    | nil => intro _ k _; rfl
    | cons p t ih =>
      obtain ⟨j, w⟩ := p
      intro hp k hk
      have : k < j := hk (j, w) (by simp)
      rw [SMap.get_cons, if_neg (by omega)]
      exact ih (List.pairwise_cons.1 hp).2 k fun q hq => hk q (List.mem_cons_of_mem _ hq)
  rw [SMap.wf_iff] at hm hn
  obtain ⟨hm1, hm2⟩ := hm
  obtain ⟨hn1, hn2⟩ := hn
  induction m generalizing n with
  | nil =>
    cases n with
    | nil => rfl
    | cons q t =>
      obtain ⟨j, w⟩ := q
      have := h j
      rw [SMap.get_cons, if_pos rfl] at this
      exact absurd this.symm (hn2 (j, w) (by simp))
  | cons p t ih =>
    obtain ⟨j, v⟩ := p
    have hp := List.pairwise_cons.1 hm1
    cases n with
    | nil =>
      have := h j
      rw [SMap.get_cons, if_pos rfl] at this
      exact absurd this (hm2 (j, v) (by simp))
    | cons q u =>
      obtain ⟨k, w⟩ := q
      have hq := List.pairwise_cons.1 hn1
      rcases Nat.lt_trichotomy j k with hjk | hjk | hjk
      · have e := h j
        rw [SMap.get_cons, if_pos rfl, key _ hn1 j (by
          intro r hr
          rcases List.mem_cons.1 hr with rfl | hr
          · exact hjk
          · exact Nat.lt_trans hjk (hq.1 r hr))] at e
        exact absurd e (hm2 (j, v) (by simp))
      · subst hjk
        have e := h j
        simp only [SMap.get_cons, if_true] at e
        subst e
        congr 1
        refine ih u ?_ hp.2 (fun r hr => hm2 r (List.mem_cons_of_mem _ hr)) hq.2 fun r hr => hn2 r (List.mem_cons_of_mem _ hr)
        intro i
        have e := h i
        simp only [SMap.get_cons] at e
        by_cases hi : j = i
        · subst hi
          rw [key t hp.2 j fun r hr => hp.1 r hr, key u hq.2 j fun r hr => hq.1 r hr]
        · simpa [hi] using e
      · have e := h k
        rw [SMap.get_cons (j := k), if_pos rfl, key _ hm1 k (by
          intro r hr
          rcases List.mem_cons.1 hr with rfl | hr
          · exact hjk
          · exact Nat.lt_trans hjk (hp.1 r hr))] at e
        exact absurd e.symm (hn2 (k, w) (by simp))

end Sys2Proof
end

