-- ==== Sys2Proof/Laws/State.lean ====
section
/-! SUPPORT. Laws of the state: what every update leaves and what it writes, so that no proof unfolds a record update. -/

namespace Sys2Proof.Machine

/-! setCore writes cores only. -/

@[simp] theorem State.setCore_mer (s : State) (c : Nat) (k : Core) : (s.setCore c k).mer = s.mer := rfl
@[simp] theorem State.setCore_sched (s : State) (c : Nat) (k : Core) : (s.setCore c k).sched = s.sched := rfl
@[simp] theorem State.setCore_engines (s : State) (c : Nat) (k : Core) : (s.setCore c k).engines = s.engines := rfl
@[simp] theorem State.setCore_mem (s : State) (c : Nat) (k : Core) : (s.setCore c k).mem = s.mem := rfl
@[simp] theorem State.setCore_sems (s : State) (c : Nat) (k : Core) : (s.setCore c k).sems = s.sems := rfl
@[simp] theorem State.setCore_semres (s : State) (c : Nat) (k : Core) : (s.setCore c k).semres = s.semres := rfl
@[simp] theorem State.setCore_num (s : State) (c : Nat) (k : Core) : (s.setCore c k).num = s.num := rfl
@[simp] theorem State.setCore_kvp (s : State) (c : Nat) (k : Core) : (s.setCore c k).kvp = s.kvp := rfl
@[simp] theorem State.setCore_lnk (s : State) (c : Nat) (k : Core) : (s.setCore c k).lnk = s.lnk := rfl
@[simp] theorem State.setCore_red (s : State) (c : Nat) (k : Core) : (s.setCore c k).red = s.red := rfl
@[simp] theorem State.setCore_grp (s : State) (c : Nat) (k : Core) : (s.setCore c k).grp = s.grp := rfl
@[simp] theorem State.setCore_pwr (s : State) (c : Nat) (k : Core) : (s.setCore c k).pwr = s.pwr := rfl
@[simp] theorem State.setCore_fw (s : State) (c : Nat) (k : Core) : (s.setCore c k).fw = s.fw := rfl
@[simp] theorem State.setCore_sec (s : State) (c : Nat) (k : Core) : (s.setCore c k).sec = s.sec := rfl
@[simp] theorem State.setCore_board (s : State) (c : Nat) (k : Core) : (s.setCore c k).board = s.board := rfl
@[simp] theorem State.setCore_cnt (s : State) (c : Nat) (k : Core) : (s.setCore c k).cnt = s.cnt := rfl
@[simp] theorem State.setCore_harts (s : State) (c : Nat) (k : Core) : (s.setCore c k).harts = s.harts := rfl
@[simp] theorem State.setCore_fresh (s : State) (c : Nat) (k : Core) : (s.setCore c k).fresh = s.fresh := rfl
@[simp] theorem State.setCore_pending (s : State) (c : Nat) (k : Core) : (s.setCore c k).pending = s.pending := rfl
@[simp] theorem State.setCore_eng (s : State) (c : Nat) (k : Core) (q_ : Nat) : (s.setCore c k).eng q_ = s.eng q_ := rfl
@[simp] theorem State.setCore_sem (s : State) (c : Nat) (k : Core) (q_ : Nat) : (s.setCore c k).sem q_ = s.sem q_ := rfl
@[simp] theorem State.setCore_entry (s : State) (c : Nat) (k : Core) (q_ : Nat) : (s.setCore c k).entry q_ = s.entry q_ := rfl
@[simp] theorem State.setCore_job (s : State) (c : Nat) (k : Core) (q_ : Nat) : (s.setCore c k).job q_ = s.job q_ := rfl
@[simp] theorem State.setCore_cmd (s : State) (c : Nat) (k : Core) (q_ : Nat) : (s.setCore c k).cmd q_ = s.cmd q_ := rfl
@[simp] theorem State.setCore_bank (s : State) (c : Nat) (k : Core) (q_ : Nat) : (s.setCore c k).bank q_ = s.bank q_ := rfl
@[simp] theorem State.setCore_redSlot (s : State) (c : Nat) (k : Core) (q_ : Nat) : (s.setCore c k).redSlot q_ = s.redSlot q_ := rfl
@[simp] theorem State.setCore_link (s : State) (c : Nat) (k : Core) (q_ : Nat) : (s.setCore c k).link q_ = s.link q_ := rfl
@[simp] theorem State.setCore_flow (s : State) (c : Nat) (k : Core) (q_ : Nat) : (s.setCore c k).flow q_ = s.flow q_ := rfl
@[simp] theorem State.setCore_pcore (s : State) (c : Nat) (k : Core) (q_ : Nat) : (s.setCore c k).pcore q_ = s.pcore q_ := rfl
@[simp] theorem State.setCore_hart (s : State) (c : Nat) (k : Core) (q_ : Nat) : (s.setCore c k).hart q_ = s.hart q_ := rfl
@[simp] theorem State.setCore_cntr (s : State) (c : Nat) (k : Core) (q_ : Nat) : (s.setCore c k).cntr q_ = s.cntr q_ := rfl
@[simp] theorem State.setCore_lineSt (s : State) (c : Nat) (k : Core) (q_ : Nat) : (s.setCore c k).lineSt q_ = s.lineSt q_ := rfl
@[simp] theorem State.setCore_wcbAt (s : State) (c : Nat) (k : Core) (q_ : Nat) : (s.setCore c k).wcbAt q_ = s.wcbAt q_ := rfl

/-! modCore writes cores only. -/

@[simp] theorem State.modCore_mer (s : State) (c : Nat) (f : Core → Core) : (s.modCore c f).mer = s.mer := rfl
@[simp] theorem State.modCore_sched (s : State) (c : Nat) (f : Core → Core) : (s.modCore c f).sched = s.sched := rfl
@[simp] theorem State.modCore_engines (s : State) (c : Nat) (f : Core → Core) : (s.modCore c f).engines = s.engines := rfl
@[simp] theorem State.modCore_mem (s : State) (c : Nat) (f : Core → Core) : (s.modCore c f).mem = s.mem := rfl
@[simp] theorem State.modCore_sems (s : State) (c : Nat) (f : Core → Core) : (s.modCore c f).sems = s.sems := rfl
@[simp] theorem State.modCore_semres (s : State) (c : Nat) (f : Core → Core) : (s.modCore c f).semres = s.semres := rfl
@[simp] theorem State.modCore_num (s : State) (c : Nat) (f : Core → Core) : (s.modCore c f).num = s.num := rfl
@[simp] theorem State.modCore_kvp (s : State) (c : Nat) (f : Core → Core) : (s.modCore c f).kvp = s.kvp := rfl
@[simp] theorem State.modCore_lnk (s : State) (c : Nat) (f : Core → Core) : (s.modCore c f).lnk = s.lnk := rfl
@[simp] theorem State.modCore_red (s : State) (c : Nat) (f : Core → Core) : (s.modCore c f).red = s.red := rfl
@[simp] theorem State.modCore_grp (s : State) (c : Nat) (f : Core → Core) : (s.modCore c f).grp = s.grp := rfl
@[simp] theorem State.modCore_pwr (s : State) (c : Nat) (f : Core → Core) : (s.modCore c f).pwr = s.pwr := rfl
@[simp] theorem State.modCore_fw (s : State) (c : Nat) (f : Core → Core) : (s.modCore c f).fw = s.fw := rfl
@[simp] theorem State.modCore_sec (s : State) (c : Nat) (f : Core → Core) : (s.modCore c f).sec = s.sec := rfl
@[simp] theorem State.modCore_board (s : State) (c : Nat) (f : Core → Core) : (s.modCore c f).board = s.board := rfl
@[simp] theorem State.modCore_cnt (s : State) (c : Nat) (f : Core → Core) : (s.modCore c f).cnt = s.cnt := rfl
@[simp] theorem State.modCore_harts (s : State) (c : Nat) (f : Core → Core) : (s.modCore c f).harts = s.harts := rfl
@[simp] theorem State.modCore_fresh (s : State) (c : Nat) (f : Core → Core) : (s.modCore c f).fresh = s.fresh := rfl
@[simp] theorem State.modCore_pending (s : State) (c : Nat) (f : Core → Core) : (s.modCore c f).pending = s.pending := rfl
@[simp] theorem State.modCore_eng (s : State) (c : Nat) (f : Core → Core) (q_ : Nat) : (s.modCore c f).eng q_ = s.eng q_ := rfl
@[simp] theorem State.modCore_sem (s : State) (c : Nat) (f : Core → Core) (q_ : Nat) : (s.modCore c f).sem q_ = s.sem q_ := rfl
@[simp] theorem State.modCore_entry (s : State) (c : Nat) (f : Core → Core) (q_ : Nat) : (s.modCore c f).entry q_ = s.entry q_ := rfl
@[simp] theorem State.modCore_job (s : State) (c : Nat) (f : Core → Core) (q_ : Nat) : (s.modCore c f).job q_ = s.job q_ := rfl
@[simp] theorem State.modCore_cmd (s : State) (c : Nat) (f : Core → Core) (q_ : Nat) : (s.modCore c f).cmd q_ = s.cmd q_ := rfl
@[simp] theorem State.modCore_bank (s : State) (c : Nat) (f : Core → Core) (q_ : Nat) : (s.modCore c f).bank q_ = s.bank q_ := rfl
@[simp] theorem State.modCore_redSlot (s : State) (c : Nat) (f : Core → Core) (q_ : Nat) : (s.modCore c f).redSlot q_ = s.redSlot q_ := rfl
@[simp] theorem State.modCore_link (s : State) (c : Nat) (f : Core → Core) (q_ : Nat) : (s.modCore c f).link q_ = s.link q_ := rfl
@[simp] theorem State.modCore_flow (s : State) (c : Nat) (f : Core → Core) (q_ : Nat) : (s.modCore c f).flow q_ = s.flow q_ := rfl
@[simp] theorem State.modCore_pcore (s : State) (c : Nat) (f : Core → Core) (q_ : Nat) : (s.modCore c f).pcore q_ = s.pcore q_ := rfl
@[simp] theorem State.modCore_hart (s : State) (c : Nat) (f : Core → Core) (q_ : Nat) : (s.modCore c f).hart q_ = s.hart q_ := rfl
@[simp] theorem State.modCore_cntr (s : State) (c : Nat) (f : Core → Core) (q_ : Nat) : (s.modCore c f).cntr q_ = s.cntr q_ := rfl
@[simp] theorem State.modCore_lineSt (s : State) (c : Nat) (f : Core → Core) (q_ : Nat) : (s.modCore c f).lineSt q_ = s.lineSt q_ := rfl
@[simp] theorem State.modCore_wcbAt (s : State) (c : Nat) (f : Core → Core) (q_ : Nat) : (s.modCore c f).wcbAt q_ = s.wcbAt q_ := rfl

/-! modCtx writes cores only. -/

@[simp] theorem State.modCtx_mer (s : State) (c : Nat) (f : SqCtx → SqCtx) : (s.modCtx c f).mer = s.mer := rfl
@[simp] theorem State.modCtx_sched (s : State) (c : Nat) (f : SqCtx → SqCtx) : (s.modCtx c f).sched = s.sched := rfl
@[simp] theorem State.modCtx_engines (s : State) (c : Nat) (f : SqCtx → SqCtx) : (s.modCtx c f).engines = s.engines := rfl
@[simp] theorem State.modCtx_mem (s : State) (c : Nat) (f : SqCtx → SqCtx) : (s.modCtx c f).mem = s.mem := rfl
@[simp] theorem State.modCtx_sems (s : State) (c : Nat) (f : SqCtx → SqCtx) : (s.modCtx c f).sems = s.sems := rfl
@[simp] theorem State.modCtx_semres (s : State) (c : Nat) (f : SqCtx → SqCtx) : (s.modCtx c f).semres = s.semres := rfl
@[simp] theorem State.modCtx_num (s : State) (c : Nat) (f : SqCtx → SqCtx) : (s.modCtx c f).num = s.num := rfl
@[simp] theorem State.modCtx_kvp (s : State) (c : Nat) (f : SqCtx → SqCtx) : (s.modCtx c f).kvp = s.kvp := rfl
@[simp] theorem State.modCtx_lnk (s : State) (c : Nat) (f : SqCtx → SqCtx) : (s.modCtx c f).lnk = s.lnk := rfl
@[simp] theorem State.modCtx_red (s : State) (c : Nat) (f : SqCtx → SqCtx) : (s.modCtx c f).red = s.red := rfl
@[simp] theorem State.modCtx_grp (s : State) (c : Nat) (f : SqCtx → SqCtx) : (s.modCtx c f).grp = s.grp := rfl
@[simp] theorem State.modCtx_pwr (s : State) (c : Nat) (f : SqCtx → SqCtx) : (s.modCtx c f).pwr = s.pwr := rfl
@[simp] theorem State.modCtx_fw (s : State) (c : Nat) (f : SqCtx → SqCtx) : (s.modCtx c f).fw = s.fw := rfl
@[simp] theorem State.modCtx_sec (s : State) (c : Nat) (f : SqCtx → SqCtx) : (s.modCtx c f).sec = s.sec := rfl
@[simp] theorem State.modCtx_board (s : State) (c : Nat) (f : SqCtx → SqCtx) : (s.modCtx c f).board = s.board := rfl
@[simp] theorem State.modCtx_cnt (s : State) (c : Nat) (f : SqCtx → SqCtx) : (s.modCtx c f).cnt = s.cnt := rfl
@[simp] theorem State.modCtx_harts (s : State) (c : Nat) (f : SqCtx → SqCtx) : (s.modCtx c f).harts = s.harts := rfl
@[simp] theorem State.modCtx_fresh (s : State) (c : Nat) (f : SqCtx → SqCtx) : (s.modCtx c f).fresh = s.fresh := rfl
@[simp] theorem State.modCtx_pending (s : State) (c : Nat) (f : SqCtx → SqCtx) : (s.modCtx c f).pending = s.pending := rfl
@[simp] theorem State.modCtx_eng (s : State) (c : Nat) (f : SqCtx → SqCtx) (q_ : Nat) : (s.modCtx c f).eng q_ = s.eng q_ := rfl
@[simp] theorem State.modCtx_sem (s : State) (c : Nat) (f : SqCtx → SqCtx) (q_ : Nat) : (s.modCtx c f).sem q_ = s.sem q_ := rfl
@[simp] theorem State.modCtx_entry (s : State) (c : Nat) (f : SqCtx → SqCtx) (q_ : Nat) : (s.modCtx c f).entry q_ = s.entry q_ := rfl
@[simp] theorem State.modCtx_job (s : State) (c : Nat) (f : SqCtx → SqCtx) (q_ : Nat) : (s.modCtx c f).job q_ = s.job q_ := rfl
@[simp] theorem State.modCtx_cmd (s : State) (c : Nat) (f : SqCtx → SqCtx) (q_ : Nat) : (s.modCtx c f).cmd q_ = s.cmd q_ := rfl
@[simp] theorem State.modCtx_bank (s : State) (c : Nat) (f : SqCtx → SqCtx) (q_ : Nat) : (s.modCtx c f).bank q_ = s.bank q_ := rfl
@[simp] theorem State.modCtx_redSlot (s : State) (c : Nat) (f : SqCtx → SqCtx) (q_ : Nat) : (s.modCtx c f).redSlot q_ = s.redSlot q_ := rfl
@[simp] theorem State.modCtx_link (s : State) (c : Nat) (f : SqCtx → SqCtx) (q_ : Nat) : (s.modCtx c f).link q_ = s.link q_ := rfl
@[simp] theorem State.modCtx_flow (s : State) (c : Nat) (f : SqCtx → SqCtx) (q_ : Nat) : (s.modCtx c f).flow q_ = s.flow q_ := rfl
@[simp] theorem State.modCtx_pcore (s : State) (c : Nat) (f : SqCtx → SqCtx) (q_ : Nat) : (s.modCtx c f).pcore q_ = s.pcore q_ := rfl
@[simp] theorem State.modCtx_hart (s : State) (c : Nat) (f : SqCtx → SqCtx) (q_ : Nat) : (s.modCtx c f).hart q_ = s.hart q_ := rfl
@[simp] theorem State.modCtx_cntr (s : State) (c : Nat) (f : SqCtx → SqCtx) (q_ : Nat) : (s.modCtx c f).cntr q_ = s.cntr q_ := rfl
@[simp] theorem State.modCtx_lineSt (s : State) (c : Nat) (f : SqCtx → SqCtx) (q_ : Nat) : (s.modCtx c f).lineSt q_ = s.lineSt q_ := rfl
@[simp] theorem State.modCtx_wcbAt (s : State) (c : Nat) (f : SqCtx → SqCtx) (q_ : Nat) : (s.modCtx c f).wcbAt q_ = s.wcbAt q_ := rfl

/-! setEng writes engines only. -/

@[simp] theorem State.setEng_mer (s : State) (e : Nat) (k : Engine) : (s.setEng e k).mer = s.mer := rfl
@[simp] theorem State.setEng_sched (s : State) (e : Nat) (k : Engine) : (s.setEng e k).sched = s.sched := rfl
@[simp] theorem State.setEng_cores (s : State) (e : Nat) (k : Engine) : (s.setEng e k).cores = s.cores := rfl
@[simp] theorem State.setEng_mem (s : State) (e : Nat) (k : Engine) : (s.setEng e k).mem = s.mem := rfl
@[simp] theorem State.setEng_sems (s : State) (e : Nat) (k : Engine) : (s.setEng e k).sems = s.sems := rfl
@[simp] theorem State.setEng_semres (s : State) (e : Nat) (k : Engine) : (s.setEng e k).semres = s.semres := rfl
@[simp] theorem State.setEng_num (s : State) (e : Nat) (k : Engine) : (s.setEng e k).num = s.num := rfl
@[simp] theorem State.setEng_kvp (s : State) (e : Nat) (k : Engine) : (s.setEng e k).kvp = s.kvp := rfl
@[simp] theorem State.setEng_lnk (s : State) (e : Nat) (k : Engine) : (s.setEng e k).lnk = s.lnk := rfl
@[simp] theorem State.setEng_red (s : State) (e : Nat) (k : Engine) : (s.setEng e k).red = s.red := rfl
@[simp] theorem State.setEng_grp (s : State) (e : Nat) (k : Engine) : (s.setEng e k).grp = s.grp := rfl
@[simp] theorem State.setEng_pwr (s : State) (e : Nat) (k : Engine) : (s.setEng e k).pwr = s.pwr := rfl
@[simp] theorem State.setEng_fw (s : State) (e : Nat) (k : Engine) : (s.setEng e k).fw = s.fw := rfl
@[simp] theorem State.setEng_sec (s : State) (e : Nat) (k : Engine) : (s.setEng e k).sec = s.sec := rfl
@[simp] theorem State.setEng_board (s : State) (e : Nat) (k : Engine) : (s.setEng e k).board = s.board := rfl
@[simp] theorem State.setEng_cnt (s : State) (e : Nat) (k : Engine) : (s.setEng e k).cnt = s.cnt := rfl
@[simp] theorem State.setEng_harts (s : State) (e : Nat) (k : Engine) : (s.setEng e k).harts = s.harts := rfl
@[simp] theorem State.setEng_fresh (s : State) (e : Nat) (k : Engine) : (s.setEng e k).fresh = s.fresh := rfl
@[simp] theorem State.setEng_pending (s : State) (e : Nat) (k : Engine) : (s.setEng e k).pending = s.pending := rfl
@[simp] theorem State.setEng_core (s : State) (e : Nat) (k : Engine) (q_ : Nat) : (s.setEng e k).core q_ = s.core q_ := rfl
@[simp] theorem State.setEng_sem (s : State) (e : Nat) (k : Engine) (q_ : Nat) : (s.setEng e k).sem q_ = s.sem q_ := rfl
@[simp] theorem State.setEng_entry (s : State) (e : Nat) (k : Engine) (q_ : Nat) : (s.setEng e k).entry q_ = s.entry q_ := rfl
@[simp] theorem State.setEng_job (s : State) (e : Nat) (k : Engine) (q_ : Nat) : (s.setEng e k).job q_ = s.job q_ := rfl
@[simp] theorem State.setEng_cmd (s : State) (e : Nat) (k : Engine) (q_ : Nat) : (s.setEng e k).cmd q_ = s.cmd q_ := rfl
@[simp] theorem State.setEng_bank (s : State) (e : Nat) (k : Engine) (q_ : Nat) : (s.setEng e k).bank q_ = s.bank q_ := rfl
@[simp] theorem State.setEng_redSlot (s : State) (e : Nat) (k : Engine) (q_ : Nat) : (s.setEng e k).redSlot q_ = s.redSlot q_ := rfl
@[simp] theorem State.setEng_link (s : State) (e : Nat) (k : Engine) (q_ : Nat) : (s.setEng e k).link q_ = s.link q_ := rfl
@[simp] theorem State.setEng_flow (s : State) (e : Nat) (k : Engine) (q_ : Nat) : (s.setEng e k).flow q_ = s.flow q_ := rfl
@[simp] theorem State.setEng_pcore (s : State) (e : Nat) (k : Engine) (q_ : Nat) : (s.setEng e k).pcore q_ = s.pcore q_ := rfl
@[simp] theorem State.setEng_hart (s : State) (e : Nat) (k : Engine) (q_ : Nat) : (s.setEng e k).hart q_ = s.hart q_ := rfl
@[simp] theorem State.setEng_cntr (s : State) (e : Nat) (k : Engine) (q_ : Nat) : (s.setEng e k).cntr q_ = s.cntr q_ := rfl
@[simp] theorem State.setEng_lineSt (s : State) (e : Nat) (k : Engine) (q_ : Nat) : (s.setEng e k).lineSt q_ = s.lineSt q_ := rfl
@[simp] theorem State.setEng_wcbAt (s : State) (e : Nat) (k : Engine) (q_ : Nat) : (s.setEng e k).wcbAt q_ = s.wcbAt q_ := rfl

/-! modEng writes engines only. -/

@[simp] theorem State.modEng_mer (s : State) (e : Nat) (f : Engine → Engine) : (s.modEng e f).mer = s.mer := rfl
@[simp] theorem State.modEng_sched (s : State) (e : Nat) (f : Engine → Engine) : (s.modEng e f).sched = s.sched := rfl
@[simp] theorem State.modEng_cores (s : State) (e : Nat) (f : Engine → Engine) : (s.modEng e f).cores = s.cores := rfl
@[simp] theorem State.modEng_mem (s : State) (e : Nat) (f : Engine → Engine) : (s.modEng e f).mem = s.mem := rfl
@[simp] theorem State.modEng_sems (s : State) (e : Nat) (f : Engine → Engine) : (s.modEng e f).sems = s.sems := rfl
@[simp] theorem State.modEng_semres (s : State) (e : Nat) (f : Engine → Engine) : (s.modEng e f).semres = s.semres := rfl
@[simp] theorem State.modEng_num (s : State) (e : Nat) (f : Engine → Engine) : (s.modEng e f).num = s.num := rfl
@[simp] theorem State.modEng_kvp (s : State) (e : Nat) (f : Engine → Engine) : (s.modEng e f).kvp = s.kvp := rfl
@[simp] theorem State.modEng_lnk (s : State) (e : Nat) (f : Engine → Engine) : (s.modEng e f).lnk = s.lnk := rfl
@[simp] theorem State.modEng_red (s : State) (e : Nat) (f : Engine → Engine) : (s.modEng e f).red = s.red := rfl
@[simp] theorem State.modEng_grp (s : State) (e : Nat) (f : Engine → Engine) : (s.modEng e f).grp = s.grp := rfl
@[simp] theorem State.modEng_pwr (s : State) (e : Nat) (f : Engine → Engine) : (s.modEng e f).pwr = s.pwr := rfl
@[simp] theorem State.modEng_fw (s : State) (e : Nat) (f : Engine → Engine) : (s.modEng e f).fw = s.fw := rfl
@[simp] theorem State.modEng_sec (s : State) (e : Nat) (f : Engine → Engine) : (s.modEng e f).sec = s.sec := rfl
@[simp] theorem State.modEng_board (s : State) (e : Nat) (f : Engine → Engine) : (s.modEng e f).board = s.board := rfl
@[simp] theorem State.modEng_cnt (s : State) (e : Nat) (f : Engine → Engine) : (s.modEng e f).cnt = s.cnt := rfl
@[simp] theorem State.modEng_harts (s : State) (e : Nat) (f : Engine → Engine) : (s.modEng e f).harts = s.harts := rfl
@[simp] theorem State.modEng_fresh (s : State) (e : Nat) (f : Engine → Engine) : (s.modEng e f).fresh = s.fresh := rfl
@[simp] theorem State.modEng_pending (s : State) (e : Nat) (f : Engine → Engine) : (s.modEng e f).pending = s.pending := rfl
@[simp] theorem State.modEng_core (s : State) (e : Nat) (f : Engine → Engine) (q_ : Nat) : (s.modEng e f).core q_ = s.core q_ := rfl
@[simp] theorem State.modEng_sem (s : State) (e : Nat) (f : Engine → Engine) (q_ : Nat) : (s.modEng e f).sem q_ = s.sem q_ := rfl
@[simp] theorem State.modEng_entry (s : State) (e : Nat) (f : Engine → Engine) (q_ : Nat) : (s.modEng e f).entry q_ = s.entry q_ := rfl
@[simp] theorem State.modEng_job (s : State) (e : Nat) (f : Engine → Engine) (q_ : Nat) : (s.modEng e f).job q_ = s.job q_ := rfl
@[simp] theorem State.modEng_cmd (s : State) (e : Nat) (f : Engine → Engine) (q_ : Nat) : (s.modEng e f).cmd q_ = s.cmd q_ := rfl
@[simp] theorem State.modEng_bank (s : State) (e : Nat) (f : Engine → Engine) (q_ : Nat) : (s.modEng e f).bank q_ = s.bank q_ := rfl
@[simp] theorem State.modEng_redSlot (s : State) (e : Nat) (f : Engine → Engine) (q_ : Nat) : (s.modEng e f).redSlot q_ = s.redSlot q_ := rfl
@[simp] theorem State.modEng_link (s : State) (e : Nat) (f : Engine → Engine) (q_ : Nat) : (s.modEng e f).link q_ = s.link q_ := rfl
@[simp] theorem State.modEng_flow (s : State) (e : Nat) (f : Engine → Engine) (q_ : Nat) : (s.modEng e f).flow q_ = s.flow q_ := rfl
@[simp] theorem State.modEng_pcore (s : State) (e : Nat) (f : Engine → Engine) (q_ : Nat) : (s.modEng e f).pcore q_ = s.pcore q_ := rfl
@[simp] theorem State.modEng_hart (s : State) (e : Nat) (f : Engine → Engine) (q_ : Nat) : (s.modEng e f).hart q_ = s.hart q_ := rfl
@[simp] theorem State.modEng_cntr (s : State) (e : Nat) (f : Engine → Engine) (q_ : Nat) : (s.modEng e f).cntr q_ = s.cntr q_ := rfl
@[simp] theorem State.modEng_lineSt (s : State) (e : Nat) (f : Engine → Engine) (q_ : Nat) : (s.modEng e f).lineSt q_ = s.lineSt q_ := rfl
@[simp] theorem State.modEng_wcbAt (s : State) (e : Nat) (f : Engine → Engine) (q_ : Nat) : (s.modEng e f).wcbAt q_ = s.wcbAt q_ := rfl

/-! modVctx writes engines only. -/

@[simp] theorem State.modVctx_mer (s : State) (e : Nat) (f : VeCtx → VeCtx) : (s.modVctx e f).mer = s.mer := rfl
@[simp] theorem State.modVctx_sched (s : State) (e : Nat) (f : VeCtx → VeCtx) : (s.modVctx e f).sched = s.sched := rfl
@[simp] theorem State.modVctx_cores (s : State) (e : Nat) (f : VeCtx → VeCtx) : (s.modVctx e f).cores = s.cores := rfl
@[simp] theorem State.modVctx_mem (s : State) (e : Nat) (f : VeCtx → VeCtx) : (s.modVctx e f).mem = s.mem := rfl
@[simp] theorem State.modVctx_sems (s : State) (e : Nat) (f : VeCtx → VeCtx) : (s.modVctx e f).sems = s.sems := rfl
@[simp] theorem State.modVctx_semres (s : State) (e : Nat) (f : VeCtx → VeCtx) : (s.modVctx e f).semres = s.semres := rfl
@[simp] theorem State.modVctx_num (s : State) (e : Nat) (f : VeCtx → VeCtx) : (s.modVctx e f).num = s.num := rfl
@[simp] theorem State.modVctx_kvp (s : State) (e : Nat) (f : VeCtx → VeCtx) : (s.modVctx e f).kvp = s.kvp := rfl
@[simp] theorem State.modVctx_lnk (s : State) (e : Nat) (f : VeCtx → VeCtx) : (s.modVctx e f).lnk = s.lnk := rfl
@[simp] theorem State.modVctx_red (s : State) (e : Nat) (f : VeCtx → VeCtx) : (s.modVctx e f).red = s.red := rfl
@[simp] theorem State.modVctx_grp (s : State) (e : Nat) (f : VeCtx → VeCtx) : (s.modVctx e f).grp = s.grp := rfl
@[simp] theorem State.modVctx_pwr (s : State) (e : Nat) (f : VeCtx → VeCtx) : (s.modVctx e f).pwr = s.pwr := rfl
@[simp] theorem State.modVctx_fw (s : State) (e : Nat) (f : VeCtx → VeCtx) : (s.modVctx e f).fw = s.fw := rfl
@[simp] theorem State.modVctx_sec (s : State) (e : Nat) (f : VeCtx → VeCtx) : (s.modVctx e f).sec = s.sec := rfl
@[simp] theorem State.modVctx_board (s : State) (e : Nat) (f : VeCtx → VeCtx) : (s.modVctx e f).board = s.board := rfl
@[simp] theorem State.modVctx_cnt (s : State) (e : Nat) (f : VeCtx → VeCtx) : (s.modVctx e f).cnt = s.cnt := rfl
@[simp] theorem State.modVctx_harts (s : State) (e : Nat) (f : VeCtx → VeCtx) : (s.modVctx e f).harts = s.harts := rfl
@[simp] theorem State.modVctx_fresh (s : State) (e : Nat) (f : VeCtx → VeCtx) : (s.modVctx e f).fresh = s.fresh := rfl
@[simp] theorem State.modVctx_pending (s : State) (e : Nat) (f : VeCtx → VeCtx) : (s.modVctx e f).pending = s.pending := rfl
@[simp] theorem State.modVctx_core (s : State) (e : Nat) (f : VeCtx → VeCtx) (q_ : Nat) : (s.modVctx e f).core q_ = s.core q_ := rfl
@[simp] theorem State.modVctx_sem (s : State) (e : Nat) (f : VeCtx → VeCtx) (q_ : Nat) : (s.modVctx e f).sem q_ = s.sem q_ := rfl
@[simp] theorem State.modVctx_entry (s : State) (e : Nat) (f : VeCtx → VeCtx) (q_ : Nat) : (s.modVctx e f).entry q_ = s.entry q_ := rfl
@[simp] theorem State.modVctx_job (s : State) (e : Nat) (f : VeCtx → VeCtx) (q_ : Nat) : (s.modVctx e f).job q_ = s.job q_ := rfl
@[simp] theorem State.modVctx_cmd (s : State) (e : Nat) (f : VeCtx → VeCtx) (q_ : Nat) : (s.modVctx e f).cmd q_ = s.cmd q_ := rfl
@[simp] theorem State.modVctx_bank (s : State) (e : Nat) (f : VeCtx → VeCtx) (q_ : Nat) : (s.modVctx e f).bank q_ = s.bank q_ := rfl
@[simp] theorem State.modVctx_redSlot (s : State) (e : Nat) (f : VeCtx → VeCtx) (q_ : Nat) : (s.modVctx e f).redSlot q_ = s.redSlot q_ := rfl
@[simp] theorem State.modVctx_link (s : State) (e : Nat) (f : VeCtx → VeCtx) (q_ : Nat) : (s.modVctx e f).link q_ = s.link q_ := rfl
@[simp] theorem State.modVctx_flow (s : State) (e : Nat) (f : VeCtx → VeCtx) (q_ : Nat) : (s.modVctx e f).flow q_ = s.flow q_ := rfl
@[simp] theorem State.modVctx_pcore (s : State) (e : Nat) (f : VeCtx → VeCtx) (q_ : Nat) : (s.modVctx e f).pcore q_ = s.pcore q_ := rfl
@[simp] theorem State.modVctx_hart (s : State) (e : Nat) (f : VeCtx → VeCtx) (q_ : Nat) : (s.modVctx e f).hart q_ = s.hart q_ := rfl
@[simp] theorem State.modVctx_cntr (s : State) (e : Nat) (f : VeCtx → VeCtx) (q_ : Nat) : (s.modVctx e f).cntr q_ = s.cntr q_ := rfl
@[simp] theorem State.modVctx_lineSt (s : State) (e : Nat) (f : VeCtx → VeCtx) (q_ : Nat) : (s.modVctx e f).lineSt q_ = s.lineSt q_ := rfl
@[simp] theorem State.modVctx_wcbAt (s : State) (e : Nat) (f : VeCtx → VeCtx) (q_ : Nat) : (s.modVctx e f).wcbAt q_ = s.wcbAt q_ := rfl

/-! modSem writes sems only. -/

@[simp] theorem State.modSem_mer (s : State) (n : Nat) (f : Sem → Sem) : (s.modSem n f).mer = s.mer := rfl
@[simp] theorem State.modSem_sched (s : State) (n : Nat) (f : Sem → Sem) : (s.modSem n f).sched = s.sched := rfl
@[simp] theorem State.modSem_cores (s : State) (n : Nat) (f : Sem → Sem) : (s.modSem n f).cores = s.cores := rfl
@[simp] theorem State.modSem_engines (s : State) (n : Nat) (f : Sem → Sem) : (s.modSem n f).engines = s.engines := rfl
@[simp] theorem State.modSem_mem (s : State) (n : Nat) (f : Sem → Sem) : (s.modSem n f).mem = s.mem := rfl
@[simp] theorem State.modSem_semres (s : State) (n : Nat) (f : Sem → Sem) : (s.modSem n f).semres = s.semres := rfl
@[simp] theorem State.modSem_num (s : State) (n : Nat) (f : Sem → Sem) : (s.modSem n f).num = s.num := rfl
@[simp] theorem State.modSem_kvp (s : State) (n : Nat) (f : Sem → Sem) : (s.modSem n f).kvp = s.kvp := rfl
@[simp] theorem State.modSem_lnk (s : State) (n : Nat) (f : Sem → Sem) : (s.modSem n f).lnk = s.lnk := rfl
@[simp] theorem State.modSem_red (s : State) (n : Nat) (f : Sem → Sem) : (s.modSem n f).red = s.red := rfl
@[simp] theorem State.modSem_grp (s : State) (n : Nat) (f : Sem → Sem) : (s.modSem n f).grp = s.grp := rfl
@[simp] theorem State.modSem_pwr (s : State) (n : Nat) (f : Sem → Sem) : (s.modSem n f).pwr = s.pwr := rfl
@[simp] theorem State.modSem_fw (s : State) (n : Nat) (f : Sem → Sem) : (s.modSem n f).fw = s.fw := rfl
@[simp] theorem State.modSem_sec (s : State) (n : Nat) (f : Sem → Sem) : (s.modSem n f).sec = s.sec := rfl
@[simp] theorem State.modSem_board (s : State) (n : Nat) (f : Sem → Sem) : (s.modSem n f).board = s.board := rfl
@[simp] theorem State.modSem_cnt (s : State) (n : Nat) (f : Sem → Sem) : (s.modSem n f).cnt = s.cnt := rfl
@[simp] theorem State.modSem_harts (s : State) (n : Nat) (f : Sem → Sem) : (s.modSem n f).harts = s.harts := rfl
@[simp] theorem State.modSem_fresh (s : State) (n : Nat) (f : Sem → Sem) : (s.modSem n f).fresh = s.fresh := rfl
@[simp] theorem State.modSem_pending (s : State) (n : Nat) (f : Sem → Sem) : (s.modSem n f).pending = s.pending := rfl
@[simp] theorem State.modSem_core (s : State) (n : Nat) (f : Sem → Sem) (q_ : Nat) : (s.modSem n f).core q_ = s.core q_ := rfl
@[simp] theorem State.modSem_eng (s : State) (n : Nat) (f : Sem → Sem) (q_ : Nat) : (s.modSem n f).eng q_ = s.eng q_ := rfl
@[simp] theorem State.modSem_entry (s : State) (n : Nat) (f : Sem → Sem) (q_ : Nat) : (s.modSem n f).entry q_ = s.entry q_ := rfl
@[simp] theorem State.modSem_job (s : State) (n : Nat) (f : Sem → Sem) (q_ : Nat) : (s.modSem n f).job q_ = s.job q_ := rfl
@[simp] theorem State.modSem_cmd (s : State) (n : Nat) (f : Sem → Sem) (q_ : Nat) : (s.modSem n f).cmd q_ = s.cmd q_ := rfl
@[simp] theorem State.modSem_bank (s : State) (n : Nat) (f : Sem → Sem) (q_ : Nat) : (s.modSem n f).bank q_ = s.bank q_ := rfl
@[simp] theorem State.modSem_redSlot (s : State) (n : Nat) (f : Sem → Sem) (q_ : Nat) : (s.modSem n f).redSlot q_ = s.redSlot q_ := rfl
@[simp] theorem State.modSem_link (s : State) (n : Nat) (f : Sem → Sem) (q_ : Nat) : (s.modSem n f).link q_ = s.link q_ := rfl
@[simp] theorem State.modSem_flow (s : State) (n : Nat) (f : Sem → Sem) (q_ : Nat) : (s.modSem n f).flow q_ = s.flow q_ := rfl
@[simp] theorem State.modSem_pcore (s : State) (n : Nat) (f : Sem → Sem) (q_ : Nat) : (s.modSem n f).pcore q_ = s.pcore q_ := rfl
@[simp] theorem State.modSem_hart (s : State) (n : Nat) (f : Sem → Sem) (q_ : Nat) : (s.modSem n f).hart q_ = s.hart q_ := rfl
@[simp] theorem State.modSem_cntr (s : State) (n : Nat) (f : Sem → Sem) (q_ : Nat) : (s.modSem n f).cntr q_ = s.cntr q_ := rfl
@[simp] theorem State.modSem_lineSt (s : State) (n : Nat) (f : Sem → Sem) (q_ : Nat) : (s.modSem n f).lineSt q_ = s.lineSt q_ := rfl
@[simp] theorem State.modSem_wcbAt (s : State) (n : Nat) (f : Sem → Sem) (q_ : Nat) : (s.modSem n f).wcbAt q_ = s.wcbAt q_ := rfl

/-! modEntry writes sched only. -/

@[simp] theorem State.modEntry_mer (s : State) (i : Nat) (f : SchedEntry → SchedEntry) : (s.modEntry i f).mer = s.mer := rfl
@[simp] theorem State.modEntry_cores (s : State) (i : Nat) (f : SchedEntry → SchedEntry) : (s.modEntry i f).cores = s.cores := rfl
@[simp] theorem State.modEntry_engines (s : State) (i : Nat) (f : SchedEntry → SchedEntry) : (s.modEntry i f).engines = s.engines := rfl
@[simp] theorem State.modEntry_mem (s : State) (i : Nat) (f : SchedEntry → SchedEntry) : (s.modEntry i f).mem = s.mem := rfl
@[simp] theorem State.modEntry_sems (s : State) (i : Nat) (f : SchedEntry → SchedEntry) : (s.modEntry i f).sems = s.sems := rfl
@[simp] theorem State.modEntry_semres (s : State) (i : Nat) (f : SchedEntry → SchedEntry) : (s.modEntry i f).semres = s.semres := rfl
@[simp] theorem State.modEntry_num (s : State) (i : Nat) (f : SchedEntry → SchedEntry) : (s.modEntry i f).num = s.num := rfl
@[simp] theorem State.modEntry_kvp (s : State) (i : Nat) (f : SchedEntry → SchedEntry) : (s.modEntry i f).kvp = s.kvp := rfl
@[simp] theorem State.modEntry_lnk (s : State) (i : Nat) (f : SchedEntry → SchedEntry) : (s.modEntry i f).lnk = s.lnk := rfl
@[simp] theorem State.modEntry_red (s : State) (i : Nat) (f : SchedEntry → SchedEntry) : (s.modEntry i f).red = s.red := rfl
@[simp] theorem State.modEntry_grp (s : State) (i : Nat) (f : SchedEntry → SchedEntry) : (s.modEntry i f).grp = s.grp := rfl
@[simp] theorem State.modEntry_pwr (s : State) (i : Nat) (f : SchedEntry → SchedEntry) : (s.modEntry i f).pwr = s.pwr := rfl
@[simp] theorem State.modEntry_fw (s : State) (i : Nat) (f : SchedEntry → SchedEntry) : (s.modEntry i f).fw = s.fw := rfl
@[simp] theorem State.modEntry_sec (s : State) (i : Nat) (f : SchedEntry → SchedEntry) : (s.modEntry i f).sec = s.sec := rfl
@[simp] theorem State.modEntry_board (s : State) (i : Nat) (f : SchedEntry → SchedEntry) : (s.modEntry i f).board = s.board := rfl
@[simp] theorem State.modEntry_cnt (s : State) (i : Nat) (f : SchedEntry → SchedEntry) : (s.modEntry i f).cnt = s.cnt := rfl
@[simp] theorem State.modEntry_harts (s : State) (i : Nat) (f : SchedEntry → SchedEntry) : (s.modEntry i f).harts = s.harts := rfl
@[simp] theorem State.modEntry_fresh (s : State) (i : Nat) (f : SchedEntry → SchedEntry) : (s.modEntry i f).fresh = s.fresh := rfl
@[simp] theorem State.modEntry_pending (s : State) (i : Nat) (f : SchedEntry → SchedEntry) : (s.modEntry i f).pending = s.pending := rfl
@[simp] theorem State.modEntry_core (s : State) (i : Nat) (f : SchedEntry → SchedEntry) (q_ : Nat) : (s.modEntry i f).core q_ = s.core q_ := rfl
@[simp] theorem State.modEntry_eng (s : State) (i : Nat) (f : SchedEntry → SchedEntry) (q_ : Nat) : (s.modEntry i f).eng q_ = s.eng q_ := rfl
@[simp] theorem State.modEntry_sem (s : State) (i : Nat) (f : SchedEntry → SchedEntry) (q_ : Nat) : (s.modEntry i f).sem q_ = s.sem q_ := rfl
@[simp] theorem State.modEntry_job (s : State) (i : Nat) (f : SchedEntry → SchedEntry) (q_ : Nat) : (s.modEntry i f).job q_ = s.job q_ := rfl
@[simp] theorem State.modEntry_cmd (s : State) (i : Nat) (f : SchedEntry → SchedEntry) (q_ : Nat) : (s.modEntry i f).cmd q_ = s.cmd q_ := rfl
@[simp] theorem State.modEntry_bank (s : State) (i : Nat) (f : SchedEntry → SchedEntry) (q_ : Nat) : (s.modEntry i f).bank q_ = s.bank q_ := rfl
@[simp] theorem State.modEntry_redSlot (s : State) (i : Nat) (f : SchedEntry → SchedEntry) (q_ : Nat) : (s.modEntry i f).redSlot q_ = s.redSlot q_ := rfl
@[simp] theorem State.modEntry_link (s : State) (i : Nat) (f : SchedEntry → SchedEntry) (q_ : Nat) : (s.modEntry i f).link q_ = s.link q_ := rfl
@[simp] theorem State.modEntry_flow (s : State) (i : Nat) (f : SchedEntry → SchedEntry) (q_ : Nat) : (s.modEntry i f).flow q_ = s.flow q_ := rfl
@[simp] theorem State.modEntry_pcore (s : State) (i : Nat) (f : SchedEntry → SchedEntry) (q_ : Nat) : (s.modEntry i f).pcore q_ = s.pcore q_ := rfl
@[simp] theorem State.modEntry_hart (s : State) (i : Nat) (f : SchedEntry → SchedEntry) (q_ : Nat) : (s.modEntry i f).hart q_ = s.hart q_ := rfl
@[simp] theorem State.modEntry_cntr (s : State) (i : Nat) (f : SchedEntry → SchedEntry) (q_ : Nat) : (s.modEntry i f).cntr q_ = s.cntr q_ := rfl
@[simp] theorem State.modEntry_lineSt (s : State) (i : Nat) (f : SchedEntry → SchedEntry) (q_ : Nat) : (s.modEntry i f).lineSt q_ = s.lineSt q_ := rfl
@[simp] theorem State.modEntry_wcbAt (s : State) (i : Nat) (f : SchedEntry → SchedEntry) (q_ : Nat) : (s.modEntry i f).wcbAt q_ = s.wcbAt q_ := rfl

/-! modFw writes fw only. -/

@[simp] theorem State.modFw_mer (s : State) (f : Darkel → Darkel) : (s.modFw f).mer = s.mer := rfl
@[simp] theorem State.modFw_sched (s : State) (f : Darkel → Darkel) : (s.modFw f).sched = s.sched := rfl
@[simp] theorem State.modFw_cores (s : State) (f : Darkel → Darkel) : (s.modFw f).cores = s.cores := rfl
@[simp] theorem State.modFw_engines (s : State) (f : Darkel → Darkel) : (s.modFw f).engines = s.engines := rfl
@[simp] theorem State.modFw_mem (s : State) (f : Darkel → Darkel) : (s.modFw f).mem = s.mem := rfl
@[simp] theorem State.modFw_sems (s : State) (f : Darkel → Darkel) : (s.modFw f).sems = s.sems := rfl
@[simp] theorem State.modFw_semres (s : State) (f : Darkel → Darkel) : (s.modFw f).semres = s.semres := rfl
@[simp] theorem State.modFw_num (s : State) (f : Darkel → Darkel) : (s.modFw f).num = s.num := rfl
@[simp] theorem State.modFw_kvp (s : State) (f : Darkel → Darkel) : (s.modFw f).kvp = s.kvp := rfl
@[simp] theorem State.modFw_lnk (s : State) (f : Darkel → Darkel) : (s.modFw f).lnk = s.lnk := rfl
@[simp] theorem State.modFw_red (s : State) (f : Darkel → Darkel) : (s.modFw f).red = s.red := rfl
@[simp] theorem State.modFw_grp (s : State) (f : Darkel → Darkel) : (s.modFw f).grp = s.grp := rfl
@[simp] theorem State.modFw_pwr (s : State) (f : Darkel → Darkel) : (s.modFw f).pwr = s.pwr := rfl
@[simp] theorem State.modFw_sec (s : State) (f : Darkel → Darkel) : (s.modFw f).sec = s.sec := rfl
@[simp] theorem State.modFw_board (s : State) (f : Darkel → Darkel) : (s.modFw f).board = s.board := rfl
@[simp] theorem State.modFw_cnt (s : State) (f : Darkel → Darkel) : (s.modFw f).cnt = s.cnt := rfl
@[simp] theorem State.modFw_harts (s : State) (f : Darkel → Darkel) : (s.modFw f).harts = s.harts := rfl
@[simp] theorem State.modFw_fresh (s : State) (f : Darkel → Darkel) : (s.modFw f).fresh = s.fresh := rfl
@[simp] theorem State.modFw_pending (s : State) (f : Darkel → Darkel) : (s.modFw f).pending = s.pending := rfl
@[simp] theorem State.modFw_core (s : State) (f : Darkel → Darkel) (q_ : Nat) : (s.modFw f).core q_ = s.core q_ := rfl
@[simp] theorem State.modFw_eng (s : State) (f : Darkel → Darkel) (q_ : Nat) : (s.modFw f).eng q_ = s.eng q_ := rfl
@[simp] theorem State.modFw_sem (s : State) (f : Darkel → Darkel) (q_ : Nat) : (s.modFw f).sem q_ = s.sem q_ := rfl
@[simp] theorem State.modFw_entry (s : State) (f : Darkel → Darkel) (q_ : Nat) : (s.modFw f).entry q_ = s.entry q_ := rfl
@[simp] theorem State.modFw_bank (s : State) (f : Darkel → Darkel) (q_ : Nat) : (s.modFw f).bank q_ = s.bank q_ := rfl
@[simp] theorem State.modFw_redSlot (s : State) (f : Darkel → Darkel) (q_ : Nat) : (s.modFw f).redSlot q_ = s.redSlot q_ := rfl
@[simp] theorem State.modFw_link (s : State) (f : Darkel → Darkel) (q_ : Nat) : (s.modFw f).link q_ = s.link q_ := rfl
@[simp] theorem State.modFw_flow (s : State) (f : Darkel → Darkel) (q_ : Nat) : (s.modFw f).flow q_ = s.flow q_ := rfl
@[simp] theorem State.modFw_pcore (s : State) (f : Darkel → Darkel) (q_ : Nat) : (s.modFw f).pcore q_ = s.pcore q_ := rfl
@[simp] theorem State.modFw_hart (s : State) (f : Darkel → Darkel) (q_ : Nat) : (s.modFw f).hart q_ = s.hart q_ := rfl
@[simp] theorem State.modFw_cntr (s : State) (f : Darkel → Darkel) (q_ : Nat) : (s.modFw f).cntr q_ = s.cntr q_ := rfl
@[simp] theorem State.modFw_lineSt (s : State) (f : Darkel → Darkel) (q_ : Nat) : (s.modFw f).lineSt q_ = s.lineSt q_ := rfl
@[simp] theorem State.modFw_wcbAt (s : State) (f : Darkel → Darkel) (q_ : Nat) : (s.modFw f).wcbAt q_ = s.wcbAt q_ := rfl

/-! modJob writes fw only. -/

@[simp] theorem State.modJob_mer (s : State) (j : Nat) (f : Job → Job) : (s.modJob j f).mer = s.mer := rfl
@[simp] theorem State.modJob_sched (s : State) (j : Nat) (f : Job → Job) : (s.modJob j f).sched = s.sched := rfl
@[simp] theorem State.modJob_cores (s : State) (j : Nat) (f : Job → Job) : (s.modJob j f).cores = s.cores := rfl
@[simp] theorem State.modJob_engines (s : State) (j : Nat) (f : Job → Job) : (s.modJob j f).engines = s.engines := rfl
@[simp] theorem State.modJob_mem (s : State) (j : Nat) (f : Job → Job) : (s.modJob j f).mem = s.mem := rfl
@[simp] theorem State.modJob_sems (s : State) (j : Nat) (f : Job → Job) : (s.modJob j f).sems = s.sems := rfl
@[simp] theorem State.modJob_semres (s : State) (j : Nat) (f : Job → Job) : (s.modJob j f).semres = s.semres := rfl
@[simp] theorem State.modJob_num (s : State) (j : Nat) (f : Job → Job) : (s.modJob j f).num = s.num := rfl
@[simp] theorem State.modJob_kvp (s : State) (j : Nat) (f : Job → Job) : (s.modJob j f).kvp = s.kvp := rfl
@[simp] theorem State.modJob_lnk (s : State) (j : Nat) (f : Job → Job) : (s.modJob j f).lnk = s.lnk := rfl
@[simp] theorem State.modJob_red (s : State) (j : Nat) (f : Job → Job) : (s.modJob j f).red = s.red := rfl
@[simp] theorem State.modJob_grp (s : State) (j : Nat) (f : Job → Job) : (s.modJob j f).grp = s.grp := rfl
@[simp] theorem State.modJob_pwr (s : State) (j : Nat) (f : Job → Job) : (s.modJob j f).pwr = s.pwr := rfl
@[simp] theorem State.modJob_sec (s : State) (j : Nat) (f : Job → Job) : (s.modJob j f).sec = s.sec := rfl
@[simp] theorem State.modJob_board (s : State) (j : Nat) (f : Job → Job) : (s.modJob j f).board = s.board := rfl
@[simp] theorem State.modJob_cnt (s : State) (j : Nat) (f : Job → Job) : (s.modJob j f).cnt = s.cnt := rfl
@[simp] theorem State.modJob_harts (s : State) (j : Nat) (f : Job → Job) : (s.modJob j f).harts = s.harts := rfl
@[simp] theorem State.modJob_fresh (s : State) (j : Nat) (f : Job → Job) : (s.modJob j f).fresh = s.fresh := rfl
@[simp] theorem State.modJob_pending (s : State) (j : Nat) (f : Job → Job) : (s.modJob j f).pending = s.pending := rfl
@[simp] theorem State.modJob_core (s : State) (j : Nat) (f : Job → Job) (q_ : Nat) : (s.modJob j f).core q_ = s.core q_ := rfl
@[simp] theorem State.modJob_eng (s : State) (j : Nat) (f : Job → Job) (q_ : Nat) : (s.modJob j f).eng q_ = s.eng q_ := rfl
@[simp] theorem State.modJob_sem (s : State) (j : Nat) (f : Job → Job) (q_ : Nat) : (s.modJob j f).sem q_ = s.sem q_ := rfl
@[simp] theorem State.modJob_entry (s : State) (j : Nat) (f : Job → Job) (q_ : Nat) : (s.modJob j f).entry q_ = s.entry q_ := rfl
@[simp] theorem State.modJob_bank (s : State) (j : Nat) (f : Job → Job) (q_ : Nat) : (s.modJob j f).bank q_ = s.bank q_ := rfl
@[simp] theorem State.modJob_redSlot (s : State) (j : Nat) (f : Job → Job) (q_ : Nat) : (s.modJob j f).redSlot q_ = s.redSlot q_ := rfl
@[simp] theorem State.modJob_link (s : State) (j : Nat) (f : Job → Job) (q_ : Nat) : (s.modJob j f).link q_ = s.link q_ := rfl
@[simp] theorem State.modJob_flow (s : State) (j : Nat) (f : Job → Job) (q_ : Nat) : (s.modJob j f).flow q_ = s.flow q_ := rfl
@[simp] theorem State.modJob_pcore (s : State) (j : Nat) (f : Job → Job) (q_ : Nat) : (s.modJob j f).pcore q_ = s.pcore q_ := rfl
@[simp] theorem State.modJob_hart (s : State) (j : Nat) (f : Job → Job) (q_ : Nat) : (s.modJob j f).hart q_ = s.hart q_ := rfl
@[simp] theorem State.modJob_cntr (s : State) (j : Nat) (f : Job → Job) (q_ : Nat) : (s.modJob j f).cntr q_ = s.cntr q_ := rfl
@[simp] theorem State.modJob_lineSt (s : State) (j : Nat) (f : Job → Job) (q_ : Nat) : (s.modJob j f).lineSt q_ = s.lineSt q_ := rfl
@[simp] theorem State.modJob_wcbAt (s : State) (j : Nat) (f : Job → Job) (q_ : Nat) : (s.modJob j f).wcbAt q_ = s.wcbAt q_ := rfl

/-! modCmd writes fw only. -/

@[simp] theorem State.modCmd_mer (s : State) (i : Nat) (f : CmdEntry → CmdEntry) : (s.modCmd i f).mer = s.mer := rfl
@[simp] theorem State.modCmd_sched (s : State) (i : Nat) (f : CmdEntry → CmdEntry) : (s.modCmd i f).sched = s.sched := rfl
@[simp] theorem State.modCmd_cores (s : State) (i : Nat) (f : CmdEntry → CmdEntry) : (s.modCmd i f).cores = s.cores := rfl
@[simp] theorem State.modCmd_engines (s : State) (i : Nat) (f : CmdEntry → CmdEntry) : (s.modCmd i f).engines = s.engines := rfl
@[simp] theorem State.modCmd_mem (s : State) (i : Nat) (f : CmdEntry → CmdEntry) : (s.modCmd i f).mem = s.mem := rfl
@[simp] theorem State.modCmd_sems (s : State) (i : Nat) (f : CmdEntry → CmdEntry) : (s.modCmd i f).sems = s.sems := rfl
@[simp] theorem State.modCmd_semres (s : State) (i : Nat) (f : CmdEntry → CmdEntry) : (s.modCmd i f).semres = s.semres := rfl
@[simp] theorem State.modCmd_num (s : State) (i : Nat) (f : CmdEntry → CmdEntry) : (s.modCmd i f).num = s.num := rfl
@[simp] theorem State.modCmd_kvp (s : State) (i : Nat) (f : CmdEntry → CmdEntry) : (s.modCmd i f).kvp = s.kvp := rfl
@[simp] theorem State.modCmd_lnk (s : State) (i : Nat) (f : CmdEntry → CmdEntry) : (s.modCmd i f).lnk = s.lnk := rfl
@[simp] theorem State.modCmd_red (s : State) (i : Nat) (f : CmdEntry → CmdEntry) : (s.modCmd i f).red = s.red := rfl
@[simp] theorem State.modCmd_grp (s : State) (i : Nat) (f : CmdEntry → CmdEntry) : (s.modCmd i f).grp = s.grp := rfl
@[simp] theorem State.modCmd_pwr (s : State) (i : Nat) (f : CmdEntry → CmdEntry) : (s.modCmd i f).pwr = s.pwr := rfl
@[simp] theorem State.modCmd_sec (s : State) (i : Nat) (f : CmdEntry → CmdEntry) : (s.modCmd i f).sec = s.sec := rfl
@[simp] theorem State.modCmd_board (s : State) (i : Nat) (f : CmdEntry → CmdEntry) : (s.modCmd i f).board = s.board := rfl
@[simp] theorem State.modCmd_cnt (s : State) (i : Nat) (f : CmdEntry → CmdEntry) : (s.modCmd i f).cnt = s.cnt := rfl
@[simp] theorem State.modCmd_harts (s : State) (i : Nat) (f : CmdEntry → CmdEntry) : (s.modCmd i f).harts = s.harts := rfl
@[simp] theorem State.modCmd_fresh (s : State) (i : Nat) (f : CmdEntry → CmdEntry) : (s.modCmd i f).fresh = s.fresh := rfl
@[simp] theorem State.modCmd_pending (s : State) (i : Nat) (f : CmdEntry → CmdEntry) : (s.modCmd i f).pending = s.pending := rfl
@[simp] theorem State.modCmd_core (s : State) (i : Nat) (f : CmdEntry → CmdEntry) (q_ : Nat) : (s.modCmd i f).core q_ = s.core q_ := rfl
@[simp] theorem State.modCmd_eng (s : State) (i : Nat) (f : CmdEntry → CmdEntry) (q_ : Nat) : (s.modCmd i f).eng q_ = s.eng q_ := rfl
@[simp] theorem State.modCmd_sem (s : State) (i : Nat) (f : CmdEntry → CmdEntry) (q_ : Nat) : (s.modCmd i f).sem q_ = s.sem q_ := rfl
@[simp] theorem State.modCmd_entry (s : State) (i : Nat) (f : CmdEntry → CmdEntry) (q_ : Nat) : (s.modCmd i f).entry q_ = s.entry q_ := rfl
@[simp] theorem State.modCmd_bank (s : State) (i : Nat) (f : CmdEntry → CmdEntry) (q_ : Nat) : (s.modCmd i f).bank q_ = s.bank q_ := rfl
@[simp] theorem State.modCmd_redSlot (s : State) (i : Nat) (f : CmdEntry → CmdEntry) (q_ : Nat) : (s.modCmd i f).redSlot q_ = s.redSlot q_ := rfl
@[simp] theorem State.modCmd_link (s : State) (i : Nat) (f : CmdEntry → CmdEntry) (q_ : Nat) : (s.modCmd i f).link q_ = s.link q_ := rfl
@[simp] theorem State.modCmd_flow (s : State) (i : Nat) (f : CmdEntry → CmdEntry) (q_ : Nat) : (s.modCmd i f).flow q_ = s.flow q_ := rfl
@[simp] theorem State.modCmd_pcore (s : State) (i : Nat) (f : CmdEntry → CmdEntry) (q_ : Nat) : (s.modCmd i f).pcore q_ = s.pcore q_ := rfl
@[simp] theorem State.modCmd_hart (s : State) (i : Nat) (f : CmdEntry → CmdEntry) (q_ : Nat) : (s.modCmd i f).hart q_ = s.hart q_ := rfl
@[simp] theorem State.modCmd_cntr (s : State) (i : Nat) (f : CmdEntry → CmdEntry) (q_ : Nat) : (s.modCmd i f).cntr q_ = s.cntr q_ := rfl
@[simp] theorem State.modCmd_lineSt (s : State) (i : Nat) (f : CmdEntry → CmdEntry) (q_ : Nat) : (s.modCmd i f).lineSt q_ = s.lineSt q_ := rfl
@[simp] theorem State.modCmd_wcbAt (s : State) (i : Nat) (f : CmdEntry → CmdEntry) (q_ : Nat) : (s.modCmd i f).wcbAt q_ = s.wcbAt q_ := rfl

/-! modBank writes num only. -/

@[simp] theorem State.modBank_mer (s : State) (j : Nat) (f : NumBank → NumBank) : (s.modBank j f).mer = s.mer := rfl
@[simp] theorem State.modBank_sched (s : State) (j : Nat) (f : NumBank → NumBank) : (s.modBank j f).sched = s.sched := rfl
@[simp] theorem State.modBank_cores (s : State) (j : Nat) (f : NumBank → NumBank) : (s.modBank j f).cores = s.cores := rfl
@[simp] theorem State.modBank_engines (s : State) (j : Nat) (f : NumBank → NumBank) : (s.modBank j f).engines = s.engines := rfl
@[simp] theorem State.modBank_mem (s : State) (j : Nat) (f : NumBank → NumBank) : (s.modBank j f).mem = s.mem := rfl
@[simp] theorem State.modBank_sems (s : State) (j : Nat) (f : NumBank → NumBank) : (s.modBank j f).sems = s.sems := rfl
@[simp] theorem State.modBank_semres (s : State) (j : Nat) (f : NumBank → NumBank) : (s.modBank j f).semres = s.semres := rfl
@[simp] theorem State.modBank_kvp (s : State) (j : Nat) (f : NumBank → NumBank) : (s.modBank j f).kvp = s.kvp := rfl
@[simp] theorem State.modBank_lnk (s : State) (j : Nat) (f : NumBank → NumBank) : (s.modBank j f).lnk = s.lnk := rfl
@[simp] theorem State.modBank_red (s : State) (j : Nat) (f : NumBank → NumBank) : (s.modBank j f).red = s.red := rfl
@[simp] theorem State.modBank_grp (s : State) (j : Nat) (f : NumBank → NumBank) : (s.modBank j f).grp = s.grp := rfl
@[simp] theorem State.modBank_pwr (s : State) (j : Nat) (f : NumBank → NumBank) : (s.modBank j f).pwr = s.pwr := rfl
@[simp] theorem State.modBank_fw (s : State) (j : Nat) (f : NumBank → NumBank) : (s.modBank j f).fw = s.fw := rfl
@[simp] theorem State.modBank_sec (s : State) (j : Nat) (f : NumBank → NumBank) : (s.modBank j f).sec = s.sec := rfl
@[simp] theorem State.modBank_board (s : State) (j : Nat) (f : NumBank → NumBank) : (s.modBank j f).board = s.board := rfl
@[simp] theorem State.modBank_cnt (s : State) (j : Nat) (f : NumBank → NumBank) : (s.modBank j f).cnt = s.cnt := rfl
@[simp] theorem State.modBank_harts (s : State) (j : Nat) (f : NumBank → NumBank) : (s.modBank j f).harts = s.harts := rfl
@[simp] theorem State.modBank_fresh (s : State) (j : Nat) (f : NumBank → NumBank) : (s.modBank j f).fresh = s.fresh := rfl
@[simp] theorem State.modBank_pending (s : State) (j : Nat) (f : NumBank → NumBank) : (s.modBank j f).pending = s.pending := rfl
@[simp] theorem State.modBank_core (s : State) (j : Nat) (f : NumBank → NumBank) (q_ : Nat) : (s.modBank j f).core q_ = s.core q_ := rfl
@[simp] theorem State.modBank_eng (s : State) (j : Nat) (f : NumBank → NumBank) (q_ : Nat) : (s.modBank j f).eng q_ = s.eng q_ := rfl
@[simp] theorem State.modBank_sem (s : State) (j : Nat) (f : NumBank → NumBank) (q_ : Nat) : (s.modBank j f).sem q_ = s.sem q_ := rfl
@[simp] theorem State.modBank_entry (s : State) (j : Nat) (f : NumBank → NumBank) (q_ : Nat) : (s.modBank j f).entry q_ = s.entry q_ := rfl
@[simp] theorem State.modBank_job (s : State) (j : Nat) (f : NumBank → NumBank) (q_ : Nat) : (s.modBank j f).job q_ = s.job q_ := rfl
@[simp] theorem State.modBank_cmd (s : State) (j : Nat) (f : NumBank → NumBank) (q_ : Nat) : (s.modBank j f).cmd q_ = s.cmd q_ := rfl
@[simp] theorem State.modBank_redSlot (s : State) (j : Nat) (f : NumBank → NumBank) (q_ : Nat) : (s.modBank j f).redSlot q_ = s.redSlot q_ := rfl
@[simp] theorem State.modBank_link (s : State) (j : Nat) (f : NumBank → NumBank) (q_ : Nat) : (s.modBank j f).link q_ = s.link q_ := rfl
@[simp] theorem State.modBank_flow (s : State) (j : Nat) (f : NumBank → NumBank) (q_ : Nat) : (s.modBank j f).flow q_ = s.flow q_ := rfl
@[simp] theorem State.modBank_pcore (s : State) (j : Nat) (f : NumBank → NumBank) (q_ : Nat) : (s.modBank j f).pcore q_ = s.pcore q_ := rfl
@[simp] theorem State.modBank_hart (s : State) (j : Nat) (f : NumBank → NumBank) (q_ : Nat) : (s.modBank j f).hart q_ = s.hart q_ := rfl
@[simp] theorem State.modBank_cntr (s : State) (j : Nat) (f : NumBank → NumBank) (q_ : Nat) : (s.modBank j f).cntr q_ = s.cntr q_ := rfl
@[simp] theorem State.modBank_lineSt (s : State) (j : Nat) (f : NumBank → NumBank) (q_ : Nat) : (s.modBank j f).lineSt q_ = s.lineSt q_ := rfl
@[simp] theorem State.modBank_wcbAt (s : State) (j : Nat) (f : NumBank → NumBank) (q_ : Nat) : (s.modBank j f).wcbAt q_ = s.wcbAt q_ := rfl

/-! modRed writes red only. -/

@[simp] theorem State.modRed_mer (s : State) (j : Nat) (f : RedSlot → RedSlot) : (s.modRed j f).mer = s.mer := rfl
@[simp] theorem State.modRed_sched (s : State) (j : Nat) (f : RedSlot → RedSlot) : (s.modRed j f).sched = s.sched := rfl
@[simp] theorem State.modRed_cores (s : State) (j : Nat) (f : RedSlot → RedSlot) : (s.modRed j f).cores = s.cores := rfl
@[simp] theorem State.modRed_engines (s : State) (j : Nat) (f : RedSlot → RedSlot) : (s.modRed j f).engines = s.engines := rfl
@[simp] theorem State.modRed_mem (s : State) (j : Nat) (f : RedSlot → RedSlot) : (s.modRed j f).mem = s.mem := rfl
@[simp] theorem State.modRed_sems (s : State) (j : Nat) (f : RedSlot → RedSlot) : (s.modRed j f).sems = s.sems := rfl
@[simp] theorem State.modRed_semres (s : State) (j : Nat) (f : RedSlot → RedSlot) : (s.modRed j f).semres = s.semres := rfl
@[simp] theorem State.modRed_num (s : State) (j : Nat) (f : RedSlot → RedSlot) : (s.modRed j f).num = s.num := rfl
@[simp] theorem State.modRed_kvp (s : State) (j : Nat) (f : RedSlot → RedSlot) : (s.modRed j f).kvp = s.kvp := rfl
@[simp] theorem State.modRed_lnk (s : State) (j : Nat) (f : RedSlot → RedSlot) : (s.modRed j f).lnk = s.lnk := rfl
@[simp] theorem State.modRed_grp (s : State) (j : Nat) (f : RedSlot → RedSlot) : (s.modRed j f).grp = s.grp := rfl
@[simp] theorem State.modRed_pwr (s : State) (j : Nat) (f : RedSlot → RedSlot) : (s.modRed j f).pwr = s.pwr := rfl
@[simp] theorem State.modRed_fw (s : State) (j : Nat) (f : RedSlot → RedSlot) : (s.modRed j f).fw = s.fw := rfl
@[simp] theorem State.modRed_sec (s : State) (j : Nat) (f : RedSlot → RedSlot) : (s.modRed j f).sec = s.sec := rfl
@[simp] theorem State.modRed_board (s : State) (j : Nat) (f : RedSlot → RedSlot) : (s.modRed j f).board = s.board := rfl
@[simp] theorem State.modRed_cnt (s : State) (j : Nat) (f : RedSlot → RedSlot) : (s.modRed j f).cnt = s.cnt := rfl
@[simp] theorem State.modRed_harts (s : State) (j : Nat) (f : RedSlot → RedSlot) : (s.modRed j f).harts = s.harts := rfl
@[simp] theorem State.modRed_fresh (s : State) (j : Nat) (f : RedSlot → RedSlot) : (s.modRed j f).fresh = s.fresh := rfl
@[simp] theorem State.modRed_pending (s : State) (j : Nat) (f : RedSlot → RedSlot) : (s.modRed j f).pending = s.pending := rfl
@[simp] theorem State.modRed_core (s : State) (j : Nat) (f : RedSlot → RedSlot) (q_ : Nat) : (s.modRed j f).core q_ = s.core q_ := rfl
@[simp] theorem State.modRed_eng (s : State) (j : Nat) (f : RedSlot → RedSlot) (q_ : Nat) : (s.modRed j f).eng q_ = s.eng q_ := rfl
@[simp] theorem State.modRed_sem (s : State) (j : Nat) (f : RedSlot → RedSlot) (q_ : Nat) : (s.modRed j f).sem q_ = s.sem q_ := rfl
@[simp] theorem State.modRed_entry (s : State) (j : Nat) (f : RedSlot → RedSlot) (q_ : Nat) : (s.modRed j f).entry q_ = s.entry q_ := rfl
@[simp] theorem State.modRed_job (s : State) (j : Nat) (f : RedSlot → RedSlot) (q_ : Nat) : (s.modRed j f).job q_ = s.job q_ := rfl
@[simp] theorem State.modRed_cmd (s : State) (j : Nat) (f : RedSlot → RedSlot) (q_ : Nat) : (s.modRed j f).cmd q_ = s.cmd q_ := rfl
@[simp] theorem State.modRed_bank (s : State) (j : Nat) (f : RedSlot → RedSlot) (q_ : Nat) : (s.modRed j f).bank q_ = s.bank q_ := rfl
@[simp] theorem State.modRed_link (s : State) (j : Nat) (f : RedSlot → RedSlot) (q_ : Nat) : (s.modRed j f).link q_ = s.link q_ := rfl
@[simp] theorem State.modRed_flow (s : State) (j : Nat) (f : RedSlot → RedSlot) (q_ : Nat) : (s.modRed j f).flow q_ = s.flow q_ := rfl
@[simp] theorem State.modRed_pcore (s : State) (j : Nat) (f : RedSlot → RedSlot) (q_ : Nat) : (s.modRed j f).pcore q_ = s.pcore q_ := rfl
@[simp] theorem State.modRed_hart (s : State) (j : Nat) (f : RedSlot → RedSlot) (q_ : Nat) : (s.modRed j f).hart q_ = s.hart q_ := rfl
@[simp] theorem State.modRed_cntr (s : State) (j : Nat) (f : RedSlot → RedSlot) (q_ : Nat) : (s.modRed j f).cntr q_ = s.cntr q_ := rfl
@[simp] theorem State.modRed_lineSt (s : State) (j : Nat) (f : RedSlot → RedSlot) (q_ : Nat) : (s.modRed j f).lineSt q_ = s.lineSt q_ := rfl
@[simp] theorem State.modRed_wcbAt (s : State) (j : Nat) (f : RedSlot → RedSlot) (q_ : Nat) : (s.modRed j f).wcbAt q_ = s.wcbAt q_ := rfl

/-! modLnk writes lnk only. -/

@[simp] theorem State.modLnk_mer (s : State) (f : Links → Links) : (s.modLnk f).mer = s.mer := rfl
@[simp] theorem State.modLnk_sched (s : State) (f : Links → Links) : (s.modLnk f).sched = s.sched := rfl
@[simp] theorem State.modLnk_cores (s : State) (f : Links → Links) : (s.modLnk f).cores = s.cores := rfl
@[simp] theorem State.modLnk_engines (s : State) (f : Links → Links) : (s.modLnk f).engines = s.engines := rfl
@[simp] theorem State.modLnk_mem (s : State) (f : Links → Links) : (s.modLnk f).mem = s.mem := rfl
@[simp] theorem State.modLnk_sems (s : State) (f : Links → Links) : (s.modLnk f).sems = s.sems := rfl
@[simp] theorem State.modLnk_semres (s : State) (f : Links → Links) : (s.modLnk f).semres = s.semres := rfl
@[simp] theorem State.modLnk_num (s : State) (f : Links → Links) : (s.modLnk f).num = s.num := rfl
@[simp] theorem State.modLnk_kvp (s : State) (f : Links → Links) : (s.modLnk f).kvp = s.kvp := rfl
@[simp] theorem State.modLnk_red (s : State) (f : Links → Links) : (s.modLnk f).red = s.red := rfl
@[simp] theorem State.modLnk_grp (s : State) (f : Links → Links) : (s.modLnk f).grp = s.grp := rfl
@[simp] theorem State.modLnk_pwr (s : State) (f : Links → Links) : (s.modLnk f).pwr = s.pwr := rfl
@[simp] theorem State.modLnk_fw (s : State) (f : Links → Links) : (s.modLnk f).fw = s.fw := rfl
@[simp] theorem State.modLnk_sec (s : State) (f : Links → Links) : (s.modLnk f).sec = s.sec := rfl
@[simp] theorem State.modLnk_board (s : State) (f : Links → Links) : (s.modLnk f).board = s.board := rfl
@[simp] theorem State.modLnk_cnt (s : State) (f : Links → Links) : (s.modLnk f).cnt = s.cnt := rfl
@[simp] theorem State.modLnk_harts (s : State) (f : Links → Links) : (s.modLnk f).harts = s.harts := rfl
@[simp] theorem State.modLnk_fresh (s : State) (f : Links → Links) : (s.modLnk f).fresh = s.fresh := rfl
@[simp] theorem State.modLnk_pending (s : State) (f : Links → Links) : (s.modLnk f).pending = s.pending := rfl
@[simp] theorem State.modLnk_core (s : State) (f : Links → Links) (q_ : Nat) : (s.modLnk f).core q_ = s.core q_ := rfl
@[simp] theorem State.modLnk_eng (s : State) (f : Links → Links) (q_ : Nat) : (s.modLnk f).eng q_ = s.eng q_ := rfl
@[simp] theorem State.modLnk_sem (s : State) (f : Links → Links) (q_ : Nat) : (s.modLnk f).sem q_ = s.sem q_ := rfl
@[simp] theorem State.modLnk_entry (s : State) (f : Links → Links) (q_ : Nat) : (s.modLnk f).entry q_ = s.entry q_ := rfl
@[simp] theorem State.modLnk_job (s : State) (f : Links → Links) (q_ : Nat) : (s.modLnk f).job q_ = s.job q_ := rfl
@[simp] theorem State.modLnk_cmd (s : State) (f : Links → Links) (q_ : Nat) : (s.modLnk f).cmd q_ = s.cmd q_ := rfl
@[simp] theorem State.modLnk_bank (s : State) (f : Links → Links) (q_ : Nat) : (s.modLnk f).bank q_ = s.bank q_ := rfl
@[simp] theorem State.modLnk_redSlot (s : State) (f : Links → Links) (q_ : Nat) : (s.modLnk f).redSlot q_ = s.redSlot q_ := rfl
@[simp] theorem State.modLnk_pcore (s : State) (f : Links → Links) (q_ : Nat) : (s.modLnk f).pcore q_ = s.pcore q_ := rfl
@[simp] theorem State.modLnk_hart (s : State) (f : Links → Links) (q_ : Nat) : (s.modLnk f).hart q_ = s.hart q_ := rfl
@[simp] theorem State.modLnk_cntr (s : State) (f : Links → Links) (q_ : Nat) : (s.modLnk f).cntr q_ = s.cntr q_ := rfl
@[simp] theorem State.modLnk_lineSt (s : State) (f : Links → Links) (q_ : Nat) : (s.modLnk f).lineSt q_ = s.lineSt q_ := rfl
@[simp] theorem State.modLnk_wcbAt (s : State) (f : Links → Links) (q_ : Nat) : (s.modLnk f).wcbAt q_ = s.wcbAt q_ := rfl

/-! modLink writes lnk only. -/

@[simp] theorem State.modLink_mer (s : State) (l : Nat) (f : Link → Link) : (s.modLink l f).mer = s.mer := rfl
@[simp] theorem State.modLink_sched (s : State) (l : Nat) (f : Link → Link) : (s.modLink l f).sched = s.sched := rfl
@[simp] theorem State.modLink_cores (s : State) (l : Nat) (f : Link → Link) : (s.modLink l f).cores = s.cores := rfl
@[simp] theorem State.modLink_engines (s : State) (l : Nat) (f : Link → Link) : (s.modLink l f).engines = s.engines := rfl
@[simp] theorem State.modLink_mem (s : State) (l : Nat) (f : Link → Link) : (s.modLink l f).mem = s.mem := rfl
@[simp] theorem State.modLink_sems (s : State) (l : Nat) (f : Link → Link) : (s.modLink l f).sems = s.sems := rfl
@[simp] theorem State.modLink_semres (s : State) (l : Nat) (f : Link → Link) : (s.modLink l f).semres = s.semres := rfl
@[simp] theorem State.modLink_num (s : State) (l : Nat) (f : Link → Link) : (s.modLink l f).num = s.num := rfl
@[simp] theorem State.modLink_kvp (s : State) (l : Nat) (f : Link → Link) : (s.modLink l f).kvp = s.kvp := rfl
@[simp] theorem State.modLink_red (s : State) (l : Nat) (f : Link → Link) : (s.modLink l f).red = s.red := rfl
@[simp] theorem State.modLink_grp (s : State) (l : Nat) (f : Link → Link) : (s.modLink l f).grp = s.grp := rfl
@[simp] theorem State.modLink_pwr (s : State) (l : Nat) (f : Link → Link) : (s.modLink l f).pwr = s.pwr := rfl
@[simp] theorem State.modLink_fw (s : State) (l : Nat) (f : Link → Link) : (s.modLink l f).fw = s.fw := rfl
@[simp] theorem State.modLink_sec (s : State) (l : Nat) (f : Link → Link) : (s.modLink l f).sec = s.sec := rfl
@[simp] theorem State.modLink_board (s : State) (l : Nat) (f : Link → Link) : (s.modLink l f).board = s.board := rfl
@[simp] theorem State.modLink_cnt (s : State) (l : Nat) (f : Link → Link) : (s.modLink l f).cnt = s.cnt := rfl
@[simp] theorem State.modLink_harts (s : State) (l : Nat) (f : Link → Link) : (s.modLink l f).harts = s.harts := rfl
@[simp] theorem State.modLink_fresh (s : State) (l : Nat) (f : Link → Link) : (s.modLink l f).fresh = s.fresh := rfl
@[simp] theorem State.modLink_pending (s : State) (l : Nat) (f : Link → Link) : (s.modLink l f).pending = s.pending := rfl
@[simp] theorem State.modLink_core (s : State) (l : Nat) (f : Link → Link) (q_ : Nat) : (s.modLink l f).core q_ = s.core q_ := rfl
@[simp] theorem State.modLink_eng (s : State) (l : Nat) (f : Link → Link) (q_ : Nat) : (s.modLink l f).eng q_ = s.eng q_ := rfl
@[simp] theorem State.modLink_sem (s : State) (l : Nat) (f : Link → Link) (q_ : Nat) : (s.modLink l f).sem q_ = s.sem q_ := rfl
@[simp] theorem State.modLink_entry (s : State) (l : Nat) (f : Link → Link) (q_ : Nat) : (s.modLink l f).entry q_ = s.entry q_ := rfl
@[simp] theorem State.modLink_job (s : State) (l : Nat) (f : Link → Link) (q_ : Nat) : (s.modLink l f).job q_ = s.job q_ := rfl
@[simp] theorem State.modLink_cmd (s : State) (l : Nat) (f : Link → Link) (q_ : Nat) : (s.modLink l f).cmd q_ = s.cmd q_ := rfl
@[simp] theorem State.modLink_bank (s : State) (l : Nat) (f : Link → Link) (q_ : Nat) : (s.modLink l f).bank q_ = s.bank q_ := rfl
@[simp] theorem State.modLink_redSlot (s : State) (l : Nat) (f : Link → Link) (q_ : Nat) : (s.modLink l f).redSlot q_ = s.redSlot q_ := rfl
@[simp] theorem State.modLink_pcore (s : State) (l : Nat) (f : Link → Link) (q_ : Nat) : (s.modLink l f).pcore q_ = s.pcore q_ := rfl
@[simp] theorem State.modLink_hart (s : State) (l : Nat) (f : Link → Link) (q_ : Nat) : (s.modLink l f).hart q_ = s.hart q_ := rfl
@[simp] theorem State.modLink_cntr (s : State) (l : Nat) (f : Link → Link) (q_ : Nat) : (s.modLink l f).cntr q_ = s.cntr q_ := rfl
@[simp] theorem State.modLink_lineSt (s : State) (l : Nat) (f : Link → Link) (q_ : Nat) : (s.modLink l f).lineSt q_ = s.lineSt q_ := rfl
@[simp] theorem State.modLink_wcbAt (s : State) (l : Nat) (f : Link → Link) (q_ : Nat) : (s.modLink l f).wcbAt q_ = s.wcbAt q_ := rfl

/-! modFlow writes lnk only. -/

@[simp] theorem State.modFlow_mer (s : State) (n : Nat) (f : Flow → Flow) : (s.modFlow n f).mer = s.mer := rfl
@[simp] theorem State.modFlow_sched (s : State) (n : Nat) (f : Flow → Flow) : (s.modFlow n f).sched = s.sched := rfl
@[simp] theorem State.modFlow_cores (s : State) (n : Nat) (f : Flow → Flow) : (s.modFlow n f).cores = s.cores := rfl
@[simp] theorem State.modFlow_engines (s : State) (n : Nat) (f : Flow → Flow) : (s.modFlow n f).engines = s.engines := rfl
@[simp] theorem State.modFlow_mem (s : State) (n : Nat) (f : Flow → Flow) : (s.modFlow n f).mem = s.mem := rfl
@[simp] theorem State.modFlow_sems (s : State) (n : Nat) (f : Flow → Flow) : (s.modFlow n f).sems = s.sems := rfl
@[simp] theorem State.modFlow_semres (s : State) (n : Nat) (f : Flow → Flow) : (s.modFlow n f).semres = s.semres := rfl
@[simp] theorem State.modFlow_num (s : State) (n : Nat) (f : Flow → Flow) : (s.modFlow n f).num = s.num := rfl
@[simp] theorem State.modFlow_kvp (s : State) (n : Nat) (f : Flow → Flow) : (s.modFlow n f).kvp = s.kvp := rfl
@[simp] theorem State.modFlow_red (s : State) (n : Nat) (f : Flow → Flow) : (s.modFlow n f).red = s.red := rfl
@[simp] theorem State.modFlow_grp (s : State) (n : Nat) (f : Flow → Flow) : (s.modFlow n f).grp = s.grp := rfl
@[simp] theorem State.modFlow_pwr (s : State) (n : Nat) (f : Flow → Flow) : (s.modFlow n f).pwr = s.pwr := rfl
@[simp] theorem State.modFlow_fw (s : State) (n : Nat) (f : Flow → Flow) : (s.modFlow n f).fw = s.fw := rfl
@[simp] theorem State.modFlow_sec (s : State) (n : Nat) (f : Flow → Flow) : (s.modFlow n f).sec = s.sec := rfl
@[simp] theorem State.modFlow_board (s : State) (n : Nat) (f : Flow → Flow) : (s.modFlow n f).board = s.board := rfl
@[simp] theorem State.modFlow_cnt (s : State) (n : Nat) (f : Flow → Flow) : (s.modFlow n f).cnt = s.cnt := rfl
@[simp] theorem State.modFlow_harts (s : State) (n : Nat) (f : Flow → Flow) : (s.modFlow n f).harts = s.harts := rfl
@[simp] theorem State.modFlow_fresh (s : State) (n : Nat) (f : Flow → Flow) : (s.modFlow n f).fresh = s.fresh := rfl
@[simp] theorem State.modFlow_pending (s : State) (n : Nat) (f : Flow → Flow) : (s.modFlow n f).pending = s.pending := rfl
@[simp] theorem State.modFlow_core (s : State) (n : Nat) (f : Flow → Flow) (q_ : Nat) : (s.modFlow n f).core q_ = s.core q_ := rfl
@[simp] theorem State.modFlow_eng (s : State) (n : Nat) (f : Flow → Flow) (q_ : Nat) : (s.modFlow n f).eng q_ = s.eng q_ := rfl
@[simp] theorem State.modFlow_sem (s : State) (n : Nat) (f : Flow → Flow) (q_ : Nat) : (s.modFlow n f).sem q_ = s.sem q_ := rfl
@[simp] theorem State.modFlow_entry (s : State) (n : Nat) (f : Flow → Flow) (q_ : Nat) : (s.modFlow n f).entry q_ = s.entry q_ := rfl
@[simp] theorem State.modFlow_job (s : State) (n : Nat) (f : Flow → Flow) (q_ : Nat) : (s.modFlow n f).job q_ = s.job q_ := rfl
@[simp] theorem State.modFlow_cmd (s : State) (n : Nat) (f : Flow → Flow) (q_ : Nat) : (s.modFlow n f).cmd q_ = s.cmd q_ := rfl
@[simp] theorem State.modFlow_bank (s : State) (n : Nat) (f : Flow → Flow) (q_ : Nat) : (s.modFlow n f).bank q_ = s.bank q_ := rfl
@[simp] theorem State.modFlow_redSlot (s : State) (n : Nat) (f : Flow → Flow) (q_ : Nat) : (s.modFlow n f).redSlot q_ = s.redSlot q_ := rfl
@[simp] theorem State.modFlow_pcore (s : State) (n : Nat) (f : Flow → Flow) (q_ : Nat) : (s.modFlow n f).pcore q_ = s.pcore q_ := rfl
@[simp] theorem State.modFlow_hart (s : State) (n : Nat) (f : Flow → Flow) (q_ : Nat) : (s.modFlow n f).hart q_ = s.hart q_ := rfl
@[simp] theorem State.modFlow_cntr (s : State) (n : Nat) (f : Flow → Flow) (q_ : Nat) : (s.modFlow n f).cntr q_ = s.cntr q_ := rfl
@[simp] theorem State.modFlow_lineSt (s : State) (n : Nat) (f : Flow → Flow) (q_ : Nat) : (s.modFlow n f).lineSt q_ = s.lineSt q_ := rfl
@[simp] theorem State.modFlow_wcbAt (s : State) (n : Nat) (f : Flow → Flow) (q_ : Nat) : (s.modFlow n f).wcbAt q_ = s.wcbAt q_ := rfl

/-! modMer writes mer only. -/

@[simp] theorem State.modMer_sched (s : State) (f : Mer → Mer) : (s.modMer f).sched = s.sched := rfl
@[simp] theorem State.modMer_cores (s : State) (f : Mer → Mer) : (s.modMer f).cores = s.cores := rfl
@[simp] theorem State.modMer_engines (s : State) (f : Mer → Mer) : (s.modMer f).engines = s.engines := rfl
@[simp] theorem State.modMer_mem (s : State) (f : Mer → Mer) : (s.modMer f).mem = s.mem := rfl
@[simp] theorem State.modMer_sems (s : State) (f : Mer → Mer) : (s.modMer f).sems = s.sems := rfl
@[simp] theorem State.modMer_semres (s : State) (f : Mer → Mer) : (s.modMer f).semres = s.semres := rfl
@[simp] theorem State.modMer_num (s : State) (f : Mer → Mer) : (s.modMer f).num = s.num := rfl
@[simp] theorem State.modMer_kvp (s : State) (f : Mer → Mer) : (s.modMer f).kvp = s.kvp := rfl
@[simp] theorem State.modMer_lnk (s : State) (f : Mer → Mer) : (s.modMer f).lnk = s.lnk := rfl
@[simp] theorem State.modMer_red (s : State) (f : Mer → Mer) : (s.modMer f).red = s.red := rfl
@[simp] theorem State.modMer_grp (s : State) (f : Mer → Mer) : (s.modMer f).grp = s.grp := rfl
@[simp] theorem State.modMer_pwr (s : State) (f : Mer → Mer) : (s.modMer f).pwr = s.pwr := rfl
@[simp] theorem State.modMer_fw (s : State) (f : Mer → Mer) : (s.modMer f).fw = s.fw := rfl
@[simp] theorem State.modMer_sec (s : State) (f : Mer → Mer) : (s.modMer f).sec = s.sec := rfl
@[simp] theorem State.modMer_board (s : State) (f : Mer → Mer) : (s.modMer f).board = s.board := rfl
@[simp] theorem State.modMer_cnt (s : State) (f : Mer → Mer) : (s.modMer f).cnt = s.cnt := rfl
@[simp] theorem State.modMer_harts (s : State) (f : Mer → Mer) : (s.modMer f).harts = s.harts := rfl
@[simp] theorem State.modMer_fresh (s : State) (f : Mer → Mer) : (s.modMer f).fresh = s.fresh := rfl
@[simp] theorem State.modMer_pending (s : State) (f : Mer → Mer) : (s.modMer f).pending = s.pending := rfl
@[simp] theorem State.modMer_core (s : State) (f : Mer → Mer) (q_ : Nat) : (s.modMer f).core q_ = s.core q_ := rfl
@[simp] theorem State.modMer_eng (s : State) (f : Mer → Mer) (q_ : Nat) : (s.modMer f).eng q_ = s.eng q_ := rfl
@[simp] theorem State.modMer_sem (s : State) (f : Mer → Mer) (q_ : Nat) : (s.modMer f).sem q_ = s.sem q_ := rfl
@[simp] theorem State.modMer_entry (s : State) (f : Mer → Mer) (q_ : Nat) : (s.modMer f).entry q_ = s.entry q_ := rfl
@[simp] theorem State.modMer_job (s : State) (f : Mer → Mer) (q_ : Nat) : (s.modMer f).job q_ = s.job q_ := rfl
@[simp] theorem State.modMer_cmd (s : State) (f : Mer → Mer) (q_ : Nat) : (s.modMer f).cmd q_ = s.cmd q_ := rfl
@[simp] theorem State.modMer_bank (s : State) (f : Mer → Mer) (q_ : Nat) : (s.modMer f).bank q_ = s.bank q_ := rfl
@[simp] theorem State.modMer_redSlot (s : State) (f : Mer → Mer) (q_ : Nat) : (s.modMer f).redSlot q_ = s.redSlot q_ := rfl
@[simp] theorem State.modMer_link (s : State) (f : Mer → Mer) (q_ : Nat) : (s.modMer f).link q_ = s.link q_ := rfl
@[simp] theorem State.modMer_flow (s : State) (f : Mer → Mer) (q_ : Nat) : (s.modMer f).flow q_ = s.flow q_ := rfl
@[simp] theorem State.modMer_pcore (s : State) (f : Mer → Mer) (q_ : Nat) : (s.modMer f).pcore q_ = s.pcore q_ := rfl
@[simp] theorem State.modMer_hart (s : State) (f : Mer → Mer) (q_ : Nat) : (s.modMer f).hart q_ = s.hart q_ := rfl
@[simp] theorem State.modMer_cntr (s : State) (f : Mer → Mer) (q_ : Nat) : (s.modMer f).cntr q_ = s.cntr q_ := rfl
@[simp] theorem State.modMer_lineSt (s : State) (f : Mer → Mer) (q_ : Nat) : (s.modMer f).lineSt q_ = s.lineSt q_ := rfl
@[simp] theorem State.modMer_wcbAt (s : State) (f : Mer → Mer) (q_ : Nat) : (s.modMer f).wcbAt q_ = s.wcbAt q_ := rfl

/-! modMem writes mem only. -/

@[simp] theorem State.modMem_mer (s : State) (f : Mem → Mem) : (s.modMem f).mer = s.mer := rfl
@[simp] theorem State.modMem_sched (s : State) (f : Mem → Mem) : (s.modMem f).sched = s.sched := rfl
@[simp] theorem State.modMem_cores (s : State) (f : Mem → Mem) : (s.modMem f).cores = s.cores := rfl
@[simp] theorem State.modMem_engines (s : State) (f : Mem → Mem) : (s.modMem f).engines = s.engines := rfl
@[simp] theorem State.modMem_sems (s : State) (f : Mem → Mem) : (s.modMem f).sems = s.sems := rfl
@[simp] theorem State.modMem_semres (s : State) (f : Mem → Mem) : (s.modMem f).semres = s.semres := rfl
@[simp] theorem State.modMem_num (s : State) (f : Mem → Mem) : (s.modMem f).num = s.num := rfl
@[simp] theorem State.modMem_kvp (s : State) (f : Mem → Mem) : (s.modMem f).kvp = s.kvp := rfl
@[simp] theorem State.modMem_lnk (s : State) (f : Mem → Mem) : (s.modMem f).lnk = s.lnk := rfl
@[simp] theorem State.modMem_red (s : State) (f : Mem → Mem) : (s.modMem f).red = s.red := rfl
@[simp] theorem State.modMem_grp (s : State) (f : Mem → Mem) : (s.modMem f).grp = s.grp := rfl
@[simp] theorem State.modMem_pwr (s : State) (f : Mem → Mem) : (s.modMem f).pwr = s.pwr := rfl
@[simp] theorem State.modMem_fw (s : State) (f : Mem → Mem) : (s.modMem f).fw = s.fw := rfl
@[simp] theorem State.modMem_sec (s : State) (f : Mem → Mem) : (s.modMem f).sec = s.sec := rfl
@[simp] theorem State.modMem_board (s : State) (f : Mem → Mem) : (s.modMem f).board = s.board := rfl
@[simp] theorem State.modMem_cnt (s : State) (f : Mem → Mem) : (s.modMem f).cnt = s.cnt := rfl
@[simp] theorem State.modMem_harts (s : State) (f : Mem → Mem) : (s.modMem f).harts = s.harts := rfl
@[simp] theorem State.modMem_fresh (s : State) (f : Mem → Mem) : (s.modMem f).fresh = s.fresh := rfl
@[simp] theorem State.modMem_pending (s : State) (f : Mem → Mem) : (s.modMem f).pending = s.pending := rfl
@[simp] theorem State.modMem_core (s : State) (f : Mem → Mem) (q_ : Nat) : (s.modMem f).core q_ = s.core q_ := rfl
@[simp] theorem State.modMem_eng (s : State) (f : Mem → Mem) (q_ : Nat) : (s.modMem f).eng q_ = s.eng q_ := rfl
@[simp] theorem State.modMem_sem (s : State) (f : Mem → Mem) (q_ : Nat) : (s.modMem f).sem q_ = s.sem q_ := rfl
@[simp] theorem State.modMem_entry (s : State) (f : Mem → Mem) (q_ : Nat) : (s.modMem f).entry q_ = s.entry q_ := rfl
@[simp] theorem State.modMem_job (s : State) (f : Mem → Mem) (q_ : Nat) : (s.modMem f).job q_ = s.job q_ := rfl
@[simp] theorem State.modMem_cmd (s : State) (f : Mem → Mem) (q_ : Nat) : (s.modMem f).cmd q_ = s.cmd q_ := rfl
@[simp] theorem State.modMem_bank (s : State) (f : Mem → Mem) (q_ : Nat) : (s.modMem f).bank q_ = s.bank q_ := rfl
@[simp] theorem State.modMem_redSlot (s : State) (f : Mem → Mem) (q_ : Nat) : (s.modMem f).redSlot q_ = s.redSlot q_ := rfl
@[simp] theorem State.modMem_link (s : State) (f : Mem → Mem) (q_ : Nat) : (s.modMem f).link q_ = s.link q_ := rfl
@[simp] theorem State.modMem_flow (s : State) (f : Mem → Mem) (q_ : Nat) : (s.modMem f).flow q_ = s.flow q_ := rfl
@[simp] theorem State.modMem_pcore (s : State) (f : Mem → Mem) (q_ : Nat) : (s.modMem f).pcore q_ = s.pcore q_ := rfl
@[simp] theorem State.modMem_hart (s : State) (f : Mem → Mem) (q_ : Nat) : (s.modMem f).hart q_ = s.hart q_ := rfl
@[simp] theorem State.modMem_cntr (s : State) (f : Mem → Mem) (q_ : Nat) : (s.modMem f).cntr q_ = s.cntr q_ := rfl

/-! modGrp writes grp only. -/

@[simp] theorem State.modGrp_mer (s : State) (f : Group → Group) : (s.modGrp f).mer = s.mer := rfl
@[simp] theorem State.modGrp_sched (s : State) (f : Group → Group) : (s.modGrp f).sched = s.sched := rfl
@[simp] theorem State.modGrp_cores (s : State) (f : Group → Group) : (s.modGrp f).cores = s.cores := rfl
@[simp] theorem State.modGrp_engines (s : State) (f : Group → Group) : (s.modGrp f).engines = s.engines := rfl
@[simp] theorem State.modGrp_mem (s : State) (f : Group → Group) : (s.modGrp f).mem = s.mem := rfl
@[simp] theorem State.modGrp_sems (s : State) (f : Group → Group) : (s.modGrp f).sems = s.sems := rfl
@[simp] theorem State.modGrp_semres (s : State) (f : Group → Group) : (s.modGrp f).semres = s.semres := rfl
@[simp] theorem State.modGrp_num (s : State) (f : Group → Group) : (s.modGrp f).num = s.num := rfl
@[simp] theorem State.modGrp_kvp (s : State) (f : Group → Group) : (s.modGrp f).kvp = s.kvp := rfl
@[simp] theorem State.modGrp_lnk (s : State) (f : Group → Group) : (s.modGrp f).lnk = s.lnk := rfl
@[simp] theorem State.modGrp_red (s : State) (f : Group → Group) : (s.modGrp f).red = s.red := rfl
@[simp] theorem State.modGrp_pwr (s : State) (f : Group → Group) : (s.modGrp f).pwr = s.pwr := rfl
@[simp] theorem State.modGrp_fw (s : State) (f : Group → Group) : (s.modGrp f).fw = s.fw := rfl
@[simp] theorem State.modGrp_sec (s : State) (f : Group → Group) : (s.modGrp f).sec = s.sec := rfl
@[simp] theorem State.modGrp_board (s : State) (f : Group → Group) : (s.modGrp f).board = s.board := rfl
@[simp] theorem State.modGrp_cnt (s : State) (f : Group → Group) : (s.modGrp f).cnt = s.cnt := rfl
@[simp] theorem State.modGrp_harts (s : State) (f : Group → Group) : (s.modGrp f).harts = s.harts := rfl
@[simp] theorem State.modGrp_fresh (s : State) (f : Group → Group) : (s.modGrp f).fresh = s.fresh := rfl
@[simp] theorem State.modGrp_pending (s : State) (f : Group → Group) : (s.modGrp f).pending = s.pending := rfl
@[simp] theorem State.modGrp_core (s : State) (f : Group → Group) (q_ : Nat) : (s.modGrp f).core q_ = s.core q_ := rfl
@[simp] theorem State.modGrp_eng (s : State) (f : Group → Group) (q_ : Nat) : (s.modGrp f).eng q_ = s.eng q_ := rfl
@[simp] theorem State.modGrp_sem (s : State) (f : Group → Group) (q_ : Nat) : (s.modGrp f).sem q_ = s.sem q_ := rfl
@[simp] theorem State.modGrp_entry (s : State) (f : Group → Group) (q_ : Nat) : (s.modGrp f).entry q_ = s.entry q_ := rfl
@[simp] theorem State.modGrp_job (s : State) (f : Group → Group) (q_ : Nat) : (s.modGrp f).job q_ = s.job q_ := rfl
@[simp] theorem State.modGrp_cmd (s : State) (f : Group → Group) (q_ : Nat) : (s.modGrp f).cmd q_ = s.cmd q_ := rfl
@[simp] theorem State.modGrp_bank (s : State) (f : Group → Group) (q_ : Nat) : (s.modGrp f).bank q_ = s.bank q_ := rfl
@[simp] theorem State.modGrp_redSlot (s : State) (f : Group → Group) (q_ : Nat) : (s.modGrp f).redSlot q_ = s.redSlot q_ := rfl
@[simp] theorem State.modGrp_link (s : State) (f : Group → Group) (q_ : Nat) : (s.modGrp f).link q_ = s.link q_ := rfl
@[simp] theorem State.modGrp_flow (s : State) (f : Group → Group) (q_ : Nat) : (s.modGrp f).flow q_ = s.flow q_ := rfl
@[simp] theorem State.modGrp_pcore (s : State) (f : Group → Group) (q_ : Nat) : (s.modGrp f).pcore q_ = s.pcore q_ := rfl
@[simp] theorem State.modGrp_hart (s : State) (f : Group → Group) (q_ : Nat) : (s.modGrp f).hart q_ = s.hart q_ := rfl
@[simp] theorem State.modGrp_cntr (s : State) (f : Group → Group) (q_ : Nat) : (s.modGrp f).cntr q_ = s.cntr q_ := rfl
@[simp] theorem State.modGrp_lineSt (s : State) (f : Group → Group) (q_ : Nat) : (s.modGrp f).lineSt q_ = s.lineSt q_ := rfl
@[simp] theorem State.modGrp_wcbAt (s : State) (f : Group → Group) (q_ : Nat) : (s.modGrp f).wcbAt q_ = s.wcbAt q_ := rfl

/-! modPwr writes pwr only. -/

@[simp] theorem State.modPwr_mer (s : State) (f : Power → Power) : (s.modPwr f).mer = s.mer := rfl
@[simp] theorem State.modPwr_sched (s : State) (f : Power → Power) : (s.modPwr f).sched = s.sched := rfl
@[simp] theorem State.modPwr_cores (s : State) (f : Power → Power) : (s.modPwr f).cores = s.cores := rfl
@[simp] theorem State.modPwr_engines (s : State) (f : Power → Power) : (s.modPwr f).engines = s.engines := rfl
@[simp] theorem State.modPwr_mem (s : State) (f : Power → Power) : (s.modPwr f).mem = s.mem := rfl
@[simp] theorem State.modPwr_sems (s : State) (f : Power → Power) : (s.modPwr f).sems = s.sems := rfl
@[simp] theorem State.modPwr_semres (s : State) (f : Power → Power) : (s.modPwr f).semres = s.semres := rfl
@[simp] theorem State.modPwr_num (s : State) (f : Power → Power) : (s.modPwr f).num = s.num := rfl
@[simp] theorem State.modPwr_kvp (s : State) (f : Power → Power) : (s.modPwr f).kvp = s.kvp := rfl
@[simp] theorem State.modPwr_lnk (s : State) (f : Power → Power) : (s.modPwr f).lnk = s.lnk := rfl
@[simp] theorem State.modPwr_red (s : State) (f : Power → Power) : (s.modPwr f).red = s.red := rfl
@[simp] theorem State.modPwr_grp (s : State) (f : Power → Power) : (s.modPwr f).grp = s.grp := rfl
@[simp] theorem State.modPwr_fw (s : State) (f : Power → Power) : (s.modPwr f).fw = s.fw := rfl
@[simp] theorem State.modPwr_sec (s : State) (f : Power → Power) : (s.modPwr f).sec = s.sec := rfl
@[simp] theorem State.modPwr_board (s : State) (f : Power → Power) : (s.modPwr f).board = s.board := rfl
@[simp] theorem State.modPwr_cnt (s : State) (f : Power → Power) : (s.modPwr f).cnt = s.cnt := rfl
@[simp] theorem State.modPwr_harts (s : State) (f : Power → Power) : (s.modPwr f).harts = s.harts := rfl
@[simp] theorem State.modPwr_fresh (s : State) (f : Power → Power) : (s.modPwr f).fresh = s.fresh := rfl
@[simp] theorem State.modPwr_pending (s : State) (f : Power → Power) : (s.modPwr f).pending = s.pending := rfl
@[simp] theorem State.modPwr_core (s : State) (f : Power → Power) (q_ : Nat) : (s.modPwr f).core q_ = s.core q_ := rfl
@[simp] theorem State.modPwr_eng (s : State) (f : Power → Power) (q_ : Nat) : (s.modPwr f).eng q_ = s.eng q_ := rfl
@[simp] theorem State.modPwr_sem (s : State) (f : Power → Power) (q_ : Nat) : (s.modPwr f).sem q_ = s.sem q_ := rfl
@[simp] theorem State.modPwr_entry (s : State) (f : Power → Power) (q_ : Nat) : (s.modPwr f).entry q_ = s.entry q_ := rfl
@[simp] theorem State.modPwr_job (s : State) (f : Power → Power) (q_ : Nat) : (s.modPwr f).job q_ = s.job q_ := rfl
@[simp] theorem State.modPwr_cmd (s : State) (f : Power → Power) (q_ : Nat) : (s.modPwr f).cmd q_ = s.cmd q_ := rfl
@[simp] theorem State.modPwr_bank (s : State) (f : Power → Power) (q_ : Nat) : (s.modPwr f).bank q_ = s.bank q_ := rfl
@[simp] theorem State.modPwr_redSlot (s : State) (f : Power → Power) (q_ : Nat) : (s.modPwr f).redSlot q_ = s.redSlot q_ := rfl
@[simp] theorem State.modPwr_link (s : State) (f : Power → Power) (q_ : Nat) : (s.modPwr f).link q_ = s.link q_ := rfl
@[simp] theorem State.modPwr_flow (s : State) (f : Power → Power) (q_ : Nat) : (s.modPwr f).flow q_ = s.flow q_ := rfl
@[simp] theorem State.modPwr_hart (s : State) (f : Power → Power) (q_ : Nat) : (s.modPwr f).hart q_ = s.hart q_ := rfl
@[simp] theorem State.modPwr_cntr (s : State) (f : Power → Power) (q_ : Nat) : (s.modPwr f).cntr q_ = s.cntr q_ := rfl
@[simp] theorem State.modPwr_lineSt (s : State) (f : Power → Power) (q_ : Nat) : (s.modPwr f).lineSt q_ = s.lineSt q_ := rfl
@[simp] theorem State.modPwr_wcbAt (s : State) (f : Power → Power) (q_ : Nat) : (s.modPwr f).wcbAt q_ = s.wcbAt q_ := rfl

/-! modPcore writes pwr only. -/

@[simp] theorem State.modPcore_mer (s : State) (c : Nat) (f : PwrCore → PwrCore) : (s.modPcore c f).mer = s.mer := rfl
@[simp] theorem State.modPcore_sched (s : State) (c : Nat) (f : PwrCore → PwrCore) : (s.modPcore c f).sched = s.sched := rfl
@[simp] theorem State.modPcore_cores (s : State) (c : Nat) (f : PwrCore → PwrCore) : (s.modPcore c f).cores = s.cores := rfl
@[simp] theorem State.modPcore_engines (s : State) (c : Nat) (f : PwrCore → PwrCore) : (s.modPcore c f).engines = s.engines := rfl
@[simp] theorem State.modPcore_mem (s : State) (c : Nat) (f : PwrCore → PwrCore) : (s.modPcore c f).mem = s.mem := rfl
@[simp] theorem State.modPcore_sems (s : State) (c : Nat) (f : PwrCore → PwrCore) : (s.modPcore c f).sems = s.sems := rfl
@[simp] theorem State.modPcore_semres (s : State) (c : Nat) (f : PwrCore → PwrCore) : (s.modPcore c f).semres = s.semres := rfl
@[simp] theorem State.modPcore_num (s : State) (c : Nat) (f : PwrCore → PwrCore) : (s.modPcore c f).num = s.num := rfl
@[simp] theorem State.modPcore_kvp (s : State) (c : Nat) (f : PwrCore → PwrCore) : (s.modPcore c f).kvp = s.kvp := rfl
@[simp] theorem State.modPcore_lnk (s : State) (c : Nat) (f : PwrCore → PwrCore) : (s.modPcore c f).lnk = s.lnk := rfl
@[simp] theorem State.modPcore_red (s : State) (c : Nat) (f : PwrCore → PwrCore) : (s.modPcore c f).red = s.red := rfl
@[simp] theorem State.modPcore_grp (s : State) (c : Nat) (f : PwrCore → PwrCore) : (s.modPcore c f).grp = s.grp := rfl
@[simp] theorem State.modPcore_fw (s : State) (c : Nat) (f : PwrCore → PwrCore) : (s.modPcore c f).fw = s.fw := rfl
@[simp] theorem State.modPcore_sec (s : State) (c : Nat) (f : PwrCore → PwrCore) : (s.modPcore c f).sec = s.sec := rfl
@[simp] theorem State.modPcore_board (s : State) (c : Nat) (f : PwrCore → PwrCore) : (s.modPcore c f).board = s.board := rfl
@[simp] theorem State.modPcore_cnt (s : State) (c : Nat) (f : PwrCore → PwrCore) : (s.modPcore c f).cnt = s.cnt := rfl
@[simp] theorem State.modPcore_harts (s : State) (c : Nat) (f : PwrCore → PwrCore) : (s.modPcore c f).harts = s.harts := rfl
@[simp] theorem State.modPcore_fresh (s : State) (c : Nat) (f : PwrCore → PwrCore) : (s.modPcore c f).fresh = s.fresh := rfl
@[simp] theorem State.modPcore_pending (s : State) (c : Nat) (f : PwrCore → PwrCore) : (s.modPcore c f).pending = s.pending := rfl
@[simp] theorem State.modPcore_core (s : State) (c : Nat) (f : PwrCore → PwrCore) (q_ : Nat) : (s.modPcore c f).core q_ = s.core q_ := rfl
@[simp] theorem State.modPcore_eng (s : State) (c : Nat) (f : PwrCore → PwrCore) (q_ : Nat) : (s.modPcore c f).eng q_ = s.eng q_ := rfl
@[simp] theorem State.modPcore_sem (s : State) (c : Nat) (f : PwrCore → PwrCore) (q_ : Nat) : (s.modPcore c f).sem q_ = s.sem q_ := rfl
@[simp] theorem State.modPcore_entry (s : State) (c : Nat) (f : PwrCore → PwrCore) (q_ : Nat) : (s.modPcore c f).entry q_ = s.entry q_ := rfl
@[simp] theorem State.modPcore_job (s : State) (c : Nat) (f : PwrCore → PwrCore) (q_ : Nat) : (s.modPcore c f).job q_ = s.job q_ := rfl
@[simp] theorem State.modPcore_cmd (s : State) (c : Nat) (f : PwrCore → PwrCore) (q_ : Nat) : (s.modPcore c f).cmd q_ = s.cmd q_ := rfl
@[simp] theorem State.modPcore_bank (s : State) (c : Nat) (f : PwrCore → PwrCore) (q_ : Nat) : (s.modPcore c f).bank q_ = s.bank q_ := rfl
@[simp] theorem State.modPcore_redSlot (s : State) (c : Nat) (f : PwrCore → PwrCore) (q_ : Nat) : (s.modPcore c f).redSlot q_ = s.redSlot q_ := rfl
@[simp] theorem State.modPcore_link (s : State) (c : Nat) (f : PwrCore → PwrCore) (q_ : Nat) : (s.modPcore c f).link q_ = s.link q_ := rfl
@[simp] theorem State.modPcore_flow (s : State) (c : Nat) (f : PwrCore → PwrCore) (q_ : Nat) : (s.modPcore c f).flow q_ = s.flow q_ := rfl
@[simp] theorem State.modPcore_hart (s : State) (c : Nat) (f : PwrCore → PwrCore) (q_ : Nat) : (s.modPcore c f).hart q_ = s.hart q_ := rfl
@[simp] theorem State.modPcore_cntr (s : State) (c : Nat) (f : PwrCore → PwrCore) (q_ : Nat) : (s.modPcore c f).cntr q_ = s.cntr q_ := rfl
@[simp] theorem State.modPcore_lineSt (s : State) (c : Nat) (f : PwrCore → PwrCore) (q_ : Nat) : (s.modPcore c f).lineSt q_ = s.lineSt q_ := rfl
@[simp] theorem State.modPcore_wcbAt (s : State) (c : Nat) (f : PwrCore → PwrCore) (q_ : Nat) : (s.modPcore c f).wcbAt q_ = s.wcbAt q_ := rfl

/-! modSec writes sec only. -/

@[simp] theorem State.modSec_mer (s : State) (f : Security → Security) : (s.modSec f).mer = s.mer := rfl
@[simp] theorem State.modSec_sched (s : State) (f : Security → Security) : (s.modSec f).sched = s.sched := rfl
@[simp] theorem State.modSec_cores (s : State) (f : Security → Security) : (s.modSec f).cores = s.cores := rfl
@[simp] theorem State.modSec_engines (s : State) (f : Security → Security) : (s.modSec f).engines = s.engines := rfl
@[simp] theorem State.modSec_mem (s : State) (f : Security → Security) : (s.modSec f).mem = s.mem := rfl
@[simp] theorem State.modSec_sems (s : State) (f : Security → Security) : (s.modSec f).sems = s.sems := rfl
@[simp] theorem State.modSec_semres (s : State) (f : Security → Security) : (s.modSec f).semres = s.semres := rfl
@[simp] theorem State.modSec_num (s : State) (f : Security → Security) : (s.modSec f).num = s.num := rfl
@[simp] theorem State.modSec_kvp (s : State) (f : Security → Security) : (s.modSec f).kvp = s.kvp := rfl
@[simp] theorem State.modSec_lnk (s : State) (f : Security → Security) : (s.modSec f).lnk = s.lnk := rfl
@[simp] theorem State.modSec_red (s : State) (f : Security → Security) : (s.modSec f).red = s.red := rfl
@[simp] theorem State.modSec_grp (s : State) (f : Security → Security) : (s.modSec f).grp = s.grp := rfl
@[simp] theorem State.modSec_pwr (s : State) (f : Security → Security) : (s.modSec f).pwr = s.pwr := rfl
@[simp] theorem State.modSec_fw (s : State) (f : Security → Security) : (s.modSec f).fw = s.fw := rfl
@[simp] theorem State.modSec_board (s : State) (f : Security → Security) : (s.modSec f).board = s.board := rfl
@[simp] theorem State.modSec_cnt (s : State) (f : Security → Security) : (s.modSec f).cnt = s.cnt := rfl
@[simp] theorem State.modSec_harts (s : State) (f : Security → Security) : (s.modSec f).harts = s.harts := rfl
@[simp] theorem State.modSec_fresh (s : State) (f : Security → Security) : (s.modSec f).fresh = s.fresh := rfl
@[simp] theorem State.modSec_pending (s : State) (f : Security → Security) : (s.modSec f).pending = s.pending := rfl
@[simp] theorem State.modSec_core (s : State) (f : Security → Security) (q_ : Nat) : (s.modSec f).core q_ = s.core q_ := rfl
@[simp] theorem State.modSec_eng (s : State) (f : Security → Security) (q_ : Nat) : (s.modSec f).eng q_ = s.eng q_ := rfl
@[simp] theorem State.modSec_sem (s : State) (f : Security → Security) (q_ : Nat) : (s.modSec f).sem q_ = s.sem q_ := rfl
@[simp] theorem State.modSec_entry (s : State) (f : Security → Security) (q_ : Nat) : (s.modSec f).entry q_ = s.entry q_ := rfl
@[simp] theorem State.modSec_job (s : State) (f : Security → Security) (q_ : Nat) : (s.modSec f).job q_ = s.job q_ := rfl
@[simp] theorem State.modSec_cmd (s : State) (f : Security → Security) (q_ : Nat) : (s.modSec f).cmd q_ = s.cmd q_ := rfl
@[simp] theorem State.modSec_bank (s : State) (f : Security → Security) (q_ : Nat) : (s.modSec f).bank q_ = s.bank q_ := rfl
@[simp] theorem State.modSec_redSlot (s : State) (f : Security → Security) (q_ : Nat) : (s.modSec f).redSlot q_ = s.redSlot q_ := rfl
@[simp] theorem State.modSec_link (s : State) (f : Security → Security) (q_ : Nat) : (s.modSec f).link q_ = s.link q_ := rfl
@[simp] theorem State.modSec_flow (s : State) (f : Security → Security) (q_ : Nat) : (s.modSec f).flow q_ = s.flow q_ := rfl
@[simp] theorem State.modSec_pcore (s : State) (f : Security → Security) (q_ : Nat) : (s.modSec f).pcore q_ = s.pcore q_ := rfl
@[simp] theorem State.modSec_hart (s : State) (f : Security → Security) (q_ : Nat) : (s.modSec f).hart q_ = s.hart q_ := rfl
@[simp] theorem State.modSec_cntr (s : State) (f : Security → Security) (q_ : Nat) : (s.modSec f).cntr q_ = s.cntr q_ := rfl
@[simp] theorem State.modSec_lineSt (s : State) (f : Security → Security) (q_ : Nat) : (s.modSec f).lineSt q_ = s.lineSt q_ := rfl
@[simp] theorem State.modSec_wcbAt (s : State) (f : Security → Security) (q_ : Nat) : (s.modSec f).wcbAt q_ = s.wcbAt q_ := rfl

/-! modBoard writes board only. -/

@[simp] theorem State.modBoard_mer (s : State) (f : Board → Board) : (s.modBoard f).mer = s.mer := rfl
@[simp] theorem State.modBoard_sched (s : State) (f : Board → Board) : (s.modBoard f).sched = s.sched := rfl
@[simp] theorem State.modBoard_cores (s : State) (f : Board → Board) : (s.modBoard f).cores = s.cores := rfl
@[simp] theorem State.modBoard_engines (s : State) (f : Board → Board) : (s.modBoard f).engines = s.engines := rfl
@[simp] theorem State.modBoard_mem (s : State) (f : Board → Board) : (s.modBoard f).mem = s.mem := rfl
@[simp] theorem State.modBoard_sems (s : State) (f : Board → Board) : (s.modBoard f).sems = s.sems := rfl
@[simp] theorem State.modBoard_semres (s : State) (f : Board → Board) : (s.modBoard f).semres = s.semres := rfl
@[simp] theorem State.modBoard_num (s : State) (f : Board → Board) : (s.modBoard f).num = s.num := rfl
@[simp] theorem State.modBoard_kvp (s : State) (f : Board → Board) : (s.modBoard f).kvp = s.kvp := rfl
@[simp] theorem State.modBoard_lnk (s : State) (f : Board → Board) : (s.modBoard f).lnk = s.lnk := rfl
@[simp] theorem State.modBoard_red (s : State) (f : Board → Board) : (s.modBoard f).red = s.red := rfl
@[simp] theorem State.modBoard_grp (s : State) (f : Board → Board) : (s.modBoard f).grp = s.grp := rfl
@[simp] theorem State.modBoard_pwr (s : State) (f : Board → Board) : (s.modBoard f).pwr = s.pwr := rfl
@[simp] theorem State.modBoard_fw (s : State) (f : Board → Board) : (s.modBoard f).fw = s.fw := rfl
@[simp] theorem State.modBoard_sec (s : State) (f : Board → Board) : (s.modBoard f).sec = s.sec := rfl
@[simp] theorem State.modBoard_cnt (s : State) (f : Board → Board) : (s.modBoard f).cnt = s.cnt := rfl
@[simp] theorem State.modBoard_harts (s : State) (f : Board → Board) : (s.modBoard f).harts = s.harts := rfl
@[simp] theorem State.modBoard_fresh (s : State) (f : Board → Board) : (s.modBoard f).fresh = s.fresh := rfl
@[simp] theorem State.modBoard_pending (s : State) (f : Board → Board) : (s.modBoard f).pending = s.pending := rfl
@[simp] theorem State.modBoard_core (s : State) (f : Board → Board) (q_ : Nat) : (s.modBoard f).core q_ = s.core q_ := rfl
@[simp] theorem State.modBoard_eng (s : State) (f : Board → Board) (q_ : Nat) : (s.modBoard f).eng q_ = s.eng q_ := rfl
@[simp] theorem State.modBoard_sem (s : State) (f : Board → Board) (q_ : Nat) : (s.modBoard f).sem q_ = s.sem q_ := rfl
@[simp] theorem State.modBoard_entry (s : State) (f : Board → Board) (q_ : Nat) : (s.modBoard f).entry q_ = s.entry q_ := rfl
@[simp] theorem State.modBoard_job (s : State) (f : Board → Board) (q_ : Nat) : (s.modBoard f).job q_ = s.job q_ := rfl
@[simp] theorem State.modBoard_cmd (s : State) (f : Board → Board) (q_ : Nat) : (s.modBoard f).cmd q_ = s.cmd q_ := rfl
@[simp] theorem State.modBoard_bank (s : State) (f : Board → Board) (q_ : Nat) : (s.modBoard f).bank q_ = s.bank q_ := rfl
@[simp] theorem State.modBoard_redSlot (s : State) (f : Board → Board) (q_ : Nat) : (s.modBoard f).redSlot q_ = s.redSlot q_ := rfl
@[simp] theorem State.modBoard_link (s : State) (f : Board → Board) (q_ : Nat) : (s.modBoard f).link q_ = s.link q_ := rfl
@[simp] theorem State.modBoard_flow (s : State) (f : Board → Board) (q_ : Nat) : (s.modBoard f).flow q_ = s.flow q_ := rfl
@[simp] theorem State.modBoard_pcore (s : State) (f : Board → Board) (q_ : Nat) : (s.modBoard f).pcore q_ = s.pcore q_ := rfl
@[simp] theorem State.modBoard_hart (s : State) (f : Board → Board) (q_ : Nat) : (s.modBoard f).hart q_ = s.hart q_ := rfl
@[simp] theorem State.modBoard_cntr (s : State) (f : Board → Board) (q_ : Nat) : (s.modBoard f).cntr q_ = s.cntr q_ := rfl
@[simp] theorem State.modBoard_lineSt (s : State) (f : Board → Board) (q_ : Nat) : (s.modBoard f).lineSt q_ = s.lineSt q_ := rfl
@[simp] theorem State.modBoard_wcbAt (s : State) (f : Board → Board) (q_ : Nat) : (s.modBoard f).wcbAt q_ = s.wcbAt q_ := rfl

/-! modCnt writes cnt only. -/

@[simp] theorem State.modCnt_mer (s : State) (f : Counters → Counters) : (s.modCnt f).mer = s.mer := rfl
@[simp] theorem State.modCnt_sched (s : State) (f : Counters → Counters) : (s.modCnt f).sched = s.sched := rfl
@[simp] theorem State.modCnt_cores (s : State) (f : Counters → Counters) : (s.modCnt f).cores = s.cores := rfl
@[simp] theorem State.modCnt_engines (s : State) (f : Counters → Counters) : (s.modCnt f).engines = s.engines := rfl
@[simp] theorem State.modCnt_mem (s : State) (f : Counters → Counters) : (s.modCnt f).mem = s.mem := rfl
@[simp] theorem State.modCnt_sems (s : State) (f : Counters → Counters) : (s.modCnt f).sems = s.sems := rfl
@[simp] theorem State.modCnt_semres (s : State) (f : Counters → Counters) : (s.modCnt f).semres = s.semres := rfl
@[simp] theorem State.modCnt_num (s : State) (f : Counters → Counters) : (s.modCnt f).num = s.num := rfl
@[simp] theorem State.modCnt_kvp (s : State) (f : Counters → Counters) : (s.modCnt f).kvp = s.kvp := rfl
@[simp] theorem State.modCnt_lnk (s : State) (f : Counters → Counters) : (s.modCnt f).lnk = s.lnk := rfl
@[simp] theorem State.modCnt_red (s : State) (f : Counters → Counters) : (s.modCnt f).red = s.red := rfl
@[simp] theorem State.modCnt_grp (s : State) (f : Counters → Counters) : (s.modCnt f).grp = s.grp := rfl
@[simp] theorem State.modCnt_pwr (s : State) (f : Counters → Counters) : (s.modCnt f).pwr = s.pwr := rfl
@[simp] theorem State.modCnt_fw (s : State) (f : Counters → Counters) : (s.modCnt f).fw = s.fw := rfl
@[simp] theorem State.modCnt_sec (s : State) (f : Counters → Counters) : (s.modCnt f).sec = s.sec := rfl
@[simp] theorem State.modCnt_board (s : State) (f : Counters → Counters) : (s.modCnt f).board = s.board := rfl
@[simp] theorem State.modCnt_harts (s : State) (f : Counters → Counters) : (s.modCnt f).harts = s.harts := rfl
@[simp] theorem State.modCnt_fresh (s : State) (f : Counters → Counters) : (s.modCnt f).fresh = s.fresh := rfl
@[simp] theorem State.modCnt_pending (s : State) (f : Counters → Counters) : (s.modCnt f).pending = s.pending := rfl
@[simp] theorem State.modCnt_core (s : State) (f : Counters → Counters) (q_ : Nat) : (s.modCnt f).core q_ = s.core q_ := rfl
@[simp] theorem State.modCnt_eng (s : State) (f : Counters → Counters) (q_ : Nat) : (s.modCnt f).eng q_ = s.eng q_ := rfl
@[simp] theorem State.modCnt_sem (s : State) (f : Counters → Counters) (q_ : Nat) : (s.modCnt f).sem q_ = s.sem q_ := rfl
@[simp] theorem State.modCnt_entry (s : State) (f : Counters → Counters) (q_ : Nat) : (s.modCnt f).entry q_ = s.entry q_ := rfl
@[simp] theorem State.modCnt_job (s : State) (f : Counters → Counters) (q_ : Nat) : (s.modCnt f).job q_ = s.job q_ := rfl
@[simp] theorem State.modCnt_cmd (s : State) (f : Counters → Counters) (q_ : Nat) : (s.modCnt f).cmd q_ = s.cmd q_ := rfl
@[simp] theorem State.modCnt_bank (s : State) (f : Counters → Counters) (q_ : Nat) : (s.modCnt f).bank q_ = s.bank q_ := rfl
@[simp] theorem State.modCnt_redSlot (s : State) (f : Counters → Counters) (q_ : Nat) : (s.modCnt f).redSlot q_ = s.redSlot q_ := rfl
@[simp] theorem State.modCnt_link (s : State) (f : Counters → Counters) (q_ : Nat) : (s.modCnt f).link q_ = s.link q_ := rfl
@[simp] theorem State.modCnt_flow (s : State) (f : Counters → Counters) (q_ : Nat) : (s.modCnt f).flow q_ = s.flow q_ := rfl
@[simp] theorem State.modCnt_pcore (s : State) (f : Counters → Counters) (q_ : Nat) : (s.modCnt f).pcore q_ = s.pcore q_ := rfl
@[simp] theorem State.modCnt_hart (s : State) (f : Counters → Counters) (q_ : Nat) : (s.modCnt f).hart q_ = s.hart q_ := rfl
@[simp] theorem State.modCnt_lineSt (s : State) (f : Counters → Counters) (q_ : Nat) : (s.modCnt f).lineSt q_ = s.lineSt q_ := rfl
@[simp] theorem State.modCnt_wcbAt (s : State) (f : Counters → Counters) (q_ : Nat) : (s.modCnt f).wcbAt q_ = s.wcbAt q_ := rfl

/-! modHart writes harts only. -/

@[simp] theorem State.modHart_mer (s : State) (n : Nat) (f : Hart → Hart) : (s.modHart n f).mer = s.mer := rfl
@[simp] theorem State.modHart_sched (s : State) (n : Nat) (f : Hart → Hart) : (s.modHart n f).sched = s.sched := rfl
@[simp] theorem State.modHart_cores (s : State) (n : Nat) (f : Hart → Hart) : (s.modHart n f).cores = s.cores := rfl
@[simp] theorem State.modHart_engines (s : State) (n : Nat) (f : Hart → Hart) : (s.modHart n f).engines = s.engines := rfl
@[simp] theorem State.modHart_mem (s : State) (n : Nat) (f : Hart → Hart) : (s.modHart n f).mem = s.mem := rfl
@[simp] theorem State.modHart_sems (s : State) (n : Nat) (f : Hart → Hart) : (s.modHart n f).sems = s.sems := rfl
@[simp] theorem State.modHart_semres (s : State) (n : Nat) (f : Hart → Hart) : (s.modHart n f).semres = s.semres := rfl
@[simp] theorem State.modHart_num (s : State) (n : Nat) (f : Hart → Hart) : (s.modHart n f).num = s.num := rfl
@[simp] theorem State.modHart_kvp (s : State) (n : Nat) (f : Hart → Hart) : (s.modHart n f).kvp = s.kvp := rfl
@[simp] theorem State.modHart_lnk (s : State) (n : Nat) (f : Hart → Hart) : (s.modHart n f).lnk = s.lnk := rfl
@[simp] theorem State.modHart_red (s : State) (n : Nat) (f : Hart → Hart) : (s.modHart n f).red = s.red := rfl
@[simp] theorem State.modHart_grp (s : State) (n : Nat) (f : Hart → Hart) : (s.modHart n f).grp = s.grp := rfl
@[simp] theorem State.modHart_pwr (s : State) (n : Nat) (f : Hart → Hart) : (s.modHart n f).pwr = s.pwr := rfl
@[simp] theorem State.modHart_fw (s : State) (n : Nat) (f : Hart → Hart) : (s.modHart n f).fw = s.fw := rfl
@[simp] theorem State.modHart_sec (s : State) (n : Nat) (f : Hart → Hart) : (s.modHart n f).sec = s.sec := rfl
@[simp] theorem State.modHart_board (s : State) (n : Nat) (f : Hart → Hart) : (s.modHart n f).board = s.board := rfl
@[simp] theorem State.modHart_cnt (s : State) (n : Nat) (f : Hart → Hart) : (s.modHart n f).cnt = s.cnt := rfl
@[simp] theorem State.modHart_fresh (s : State) (n : Nat) (f : Hart → Hart) : (s.modHart n f).fresh = s.fresh := rfl
@[simp] theorem State.modHart_pending (s : State) (n : Nat) (f : Hart → Hart) : (s.modHart n f).pending = s.pending := rfl
@[simp] theorem State.modHart_core (s : State) (n : Nat) (f : Hart → Hart) (q_ : Nat) : (s.modHart n f).core q_ = s.core q_ := rfl
@[simp] theorem State.modHart_eng (s : State) (n : Nat) (f : Hart → Hart) (q_ : Nat) : (s.modHart n f).eng q_ = s.eng q_ := rfl
@[simp] theorem State.modHart_sem (s : State) (n : Nat) (f : Hart → Hart) (q_ : Nat) : (s.modHart n f).sem q_ = s.sem q_ := rfl
@[simp] theorem State.modHart_entry (s : State) (n : Nat) (f : Hart → Hart) (q_ : Nat) : (s.modHart n f).entry q_ = s.entry q_ := rfl
@[simp] theorem State.modHart_job (s : State) (n : Nat) (f : Hart → Hart) (q_ : Nat) : (s.modHart n f).job q_ = s.job q_ := rfl
@[simp] theorem State.modHart_cmd (s : State) (n : Nat) (f : Hart → Hart) (q_ : Nat) : (s.modHart n f).cmd q_ = s.cmd q_ := rfl
@[simp] theorem State.modHart_bank (s : State) (n : Nat) (f : Hart → Hart) (q_ : Nat) : (s.modHart n f).bank q_ = s.bank q_ := rfl
@[simp] theorem State.modHart_redSlot (s : State) (n : Nat) (f : Hart → Hart) (q_ : Nat) : (s.modHart n f).redSlot q_ = s.redSlot q_ := rfl
@[simp] theorem State.modHart_link (s : State) (n : Nat) (f : Hart → Hart) (q_ : Nat) : (s.modHart n f).link q_ = s.link q_ := rfl
@[simp] theorem State.modHart_flow (s : State) (n : Nat) (f : Hart → Hart) (q_ : Nat) : (s.modHart n f).flow q_ = s.flow q_ := rfl
@[simp] theorem State.modHart_pcore (s : State) (n : Nat) (f : Hart → Hart) (q_ : Nat) : (s.modHart n f).pcore q_ = s.pcore q_ := rfl
@[simp] theorem State.modHart_cntr (s : State) (n : Nat) (f : Hart → Hart) (q_ : Nat) : (s.modHart n f).cntr q_ = s.cntr q_ := rfl
@[simp] theorem State.modHart_lineSt (s : State) (n : Nat) (f : Hart → Hart) (q_ : Nat) : (s.modHart n f).lineSt q_ = s.lineSt q_ := rfl
@[simp] theorem State.modHart_wcbAt (s : State) (n : Nat) (f : Hart → Hart) (q_ : Nat) : (s.modHart n f).wcbAt q_ = s.wcbAt q_ := rfl

/-! bumpBy writes cnt only. -/

@[simp] theorem State.bumpBy_mer (s : State) (k n : Nat) : (s.bumpBy k n).mer = s.mer := State.modCnt_mer s _
@[simp] theorem State.bumpBy_sched (s : State) (k n : Nat) : (s.bumpBy k n).sched = s.sched := State.modCnt_sched s _
@[simp] theorem State.bumpBy_cores (s : State) (k n : Nat) : (s.bumpBy k n).cores = s.cores := State.modCnt_cores s _
@[simp] theorem State.bumpBy_engines (s : State) (k n : Nat) : (s.bumpBy k n).engines = s.engines := State.modCnt_engines s _
@[simp] theorem State.bumpBy_mem (s : State) (k n : Nat) : (s.bumpBy k n).mem = s.mem := State.modCnt_mem s _
@[simp] theorem State.bumpBy_sems (s : State) (k n : Nat) : (s.bumpBy k n).sems = s.sems := State.modCnt_sems s _
@[simp] theorem State.bumpBy_semres (s : State) (k n : Nat) : (s.bumpBy k n).semres = s.semres := State.modCnt_semres s _
@[simp] theorem State.bumpBy_num (s : State) (k n : Nat) : (s.bumpBy k n).num = s.num := State.modCnt_num s _
@[simp] theorem State.bumpBy_kvp (s : State) (k n : Nat) : (s.bumpBy k n).kvp = s.kvp := State.modCnt_kvp s _
@[simp] theorem State.bumpBy_lnk (s : State) (k n : Nat) : (s.bumpBy k n).lnk = s.lnk := State.modCnt_lnk s _
@[simp] theorem State.bumpBy_red (s : State) (k n : Nat) : (s.bumpBy k n).red = s.red := State.modCnt_red s _
@[simp] theorem State.bumpBy_grp (s : State) (k n : Nat) : (s.bumpBy k n).grp = s.grp := State.modCnt_grp s _
@[simp] theorem State.bumpBy_pwr (s : State) (k n : Nat) : (s.bumpBy k n).pwr = s.pwr := State.modCnt_pwr s _
@[simp] theorem State.bumpBy_fw (s : State) (k n : Nat) : (s.bumpBy k n).fw = s.fw := State.modCnt_fw s _
@[simp] theorem State.bumpBy_sec (s : State) (k n : Nat) : (s.bumpBy k n).sec = s.sec := State.modCnt_sec s _
@[simp] theorem State.bumpBy_board (s : State) (k n : Nat) : (s.bumpBy k n).board = s.board := State.modCnt_board s _
@[simp] theorem State.bumpBy_harts (s : State) (k n : Nat) : (s.bumpBy k n).harts = s.harts := State.modCnt_harts s _
@[simp] theorem State.bumpBy_fresh (s : State) (k n : Nat) : (s.bumpBy k n).fresh = s.fresh := State.modCnt_fresh s _
@[simp] theorem State.bumpBy_pending (s : State) (k n : Nat) : (s.bumpBy k n).pending = s.pending := State.modCnt_pending s _
@[simp] theorem State.bumpBy_core (s : State) (k n : Nat) (q_ : Nat) : (s.bumpBy k n).core q_ = s.core q_ := State.modCnt_core s _ _
@[simp] theorem State.bumpBy_eng (s : State) (k n : Nat) (q_ : Nat) : (s.bumpBy k n).eng q_ = s.eng q_ := State.modCnt_eng s _ _
@[simp] theorem State.bumpBy_sem (s : State) (k n : Nat) (q_ : Nat) : (s.bumpBy k n).sem q_ = s.sem q_ := State.modCnt_sem s _ _
@[simp] theorem State.bumpBy_entry (s : State) (k n : Nat) (q_ : Nat) : (s.bumpBy k n).entry q_ = s.entry q_ := State.modCnt_entry s _ _
@[simp] theorem State.bumpBy_job (s : State) (k n : Nat) (q_ : Nat) : (s.bumpBy k n).job q_ = s.job q_ := State.modCnt_job s _ _
@[simp] theorem State.bumpBy_cmd (s : State) (k n : Nat) (q_ : Nat) : (s.bumpBy k n).cmd q_ = s.cmd q_ := State.modCnt_cmd s _ _
@[simp] theorem State.bumpBy_bank (s : State) (k n : Nat) (q_ : Nat) : (s.bumpBy k n).bank q_ = s.bank q_ := State.modCnt_bank s _ _
@[simp] theorem State.bumpBy_redSlot (s : State) (k n : Nat) (q_ : Nat) : (s.bumpBy k n).redSlot q_ = s.redSlot q_ := State.modCnt_redSlot s _ _
@[simp] theorem State.bumpBy_link (s : State) (k n : Nat) (q_ : Nat) : (s.bumpBy k n).link q_ = s.link q_ := State.modCnt_link s _ _
@[simp] theorem State.bumpBy_flow (s : State) (k n : Nat) (q_ : Nat) : (s.bumpBy k n).flow q_ = s.flow q_ := State.modCnt_flow s _ _
@[simp] theorem State.bumpBy_pcore (s : State) (k n : Nat) (q_ : Nat) : (s.bumpBy k n).pcore q_ = s.pcore q_ := State.modCnt_pcore s _ _
@[simp] theorem State.bumpBy_hart (s : State) (k n : Nat) (q_ : Nat) : (s.bumpBy k n).hart q_ = s.hart q_ := State.modCnt_hart s _ _
@[simp] theorem State.bumpBy_lineSt (s : State) (k n : Nat) (q_ : Nat) : (s.bumpBy k n).lineSt q_ = s.lineSt q_ := State.modCnt_lineSt s _ _
@[simp] theorem State.bumpBy_wcbAt (s : State) (k n : Nat) (q_ : Nat) : (s.bumpBy k n).wcbAt q_ = s.wcbAt q_ := State.modCnt_wcbAt s _ _

/-! bump writes cnt only. -/

@[simp] theorem State.bump_mer (s : State) (k : Nat) : (s.bump k).mer = s.mer := State.bumpBy_mer s k 1
@[simp] theorem State.bump_sched (s : State) (k : Nat) : (s.bump k).sched = s.sched := State.bumpBy_sched s k 1
@[simp] theorem State.bump_cores (s : State) (k : Nat) : (s.bump k).cores = s.cores := State.bumpBy_cores s k 1
@[simp] theorem State.bump_engines (s : State) (k : Nat) : (s.bump k).engines = s.engines := State.bumpBy_engines s k 1
@[simp] theorem State.bump_mem (s : State) (k : Nat) : (s.bump k).mem = s.mem := State.bumpBy_mem s k 1
@[simp] theorem State.bump_sems (s : State) (k : Nat) : (s.bump k).sems = s.sems := State.bumpBy_sems s k 1
@[simp] theorem State.bump_semres (s : State) (k : Nat) : (s.bump k).semres = s.semres := State.bumpBy_semres s k 1
@[simp] theorem State.bump_num (s : State) (k : Nat) : (s.bump k).num = s.num := State.bumpBy_num s k 1
@[simp] theorem State.bump_kvp (s : State) (k : Nat) : (s.bump k).kvp = s.kvp := State.bumpBy_kvp s k 1
@[simp] theorem State.bump_lnk (s : State) (k : Nat) : (s.bump k).lnk = s.lnk := State.bumpBy_lnk s k 1
@[simp] theorem State.bump_red (s : State) (k : Nat) : (s.bump k).red = s.red := State.bumpBy_red s k 1
@[simp] theorem State.bump_grp (s : State) (k : Nat) : (s.bump k).grp = s.grp := State.bumpBy_grp s k 1
@[simp] theorem State.bump_pwr (s : State) (k : Nat) : (s.bump k).pwr = s.pwr := State.bumpBy_pwr s k 1
@[simp] theorem State.bump_fw (s : State) (k : Nat) : (s.bump k).fw = s.fw := State.bumpBy_fw s k 1
@[simp] theorem State.bump_sec (s : State) (k : Nat) : (s.bump k).sec = s.sec := State.bumpBy_sec s k 1
@[simp] theorem State.bump_board (s : State) (k : Nat) : (s.bump k).board = s.board := State.bumpBy_board s k 1
@[simp] theorem State.bump_harts (s : State) (k : Nat) : (s.bump k).harts = s.harts := State.bumpBy_harts s k 1
@[simp] theorem State.bump_fresh (s : State) (k : Nat) : (s.bump k).fresh = s.fresh := State.bumpBy_fresh s k 1
@[simp] theorem State.bump_pending (s : State) (k : Nat) : (s.bump k).pending = s.pending := State.bumpBy_pending s k 1
@[simp] theorem State.bump_core (s : State) (k : Nat) (q_ : Nat) : (s.bump k).core q_ = s.core q_ := State.bumpBy_core s k 1 _
@[simp] theorem State.bump_eng (s : State) (k : Nat) (q_ : Nat) : (s.bump k).eng q_ = s.eng q_ := State.bumpBy_eng s k 1 _
@[simp] theorem State.bump_sem (s : State) (k : Nat) (q_ : Nat) : (s.bump k).sem q_ = s.sem q_ := State.bumpBy_sem s k 1 _
@[simp] theorem State.bump_entry (s : State) (k : Nat) (q_ : Nat) : (s.bump k).entry q_ = s.entry q_ := State.bumpBy_entry s k 1 _
@[simp] theorem State.bump_job (s : State) (k : Nat) (q_ : Nat) : (s.bump k).job q_ = s.job q_ := State.bumpBy_job s k 1 _
@[simp] theorem State.bump_cmd (s : State) (k : Nat) (q_ : Nat) : (s.bump k).cmd q_ = s.cmd q_ := State.bumpBy_cmd s k 1 _
@[simp] theorem State.bump_bank (s : State) (k : Nat) (q_ : Nat) : (s.bump k).bank q_ = s.bank q_ := State.bumpBy_bank s k 1 _
@[simp] theorem State.bump_redSlot (s : State) (k : Nat) (q_ : Nat) : (s.bump k).redSlot q_ = s.redSlot q_ := State.bumpBy_redSlot s k 1 _
@[simp] theorem State.bump_link (s : State) (k : Nat) (q_ : Nat) : (s.bump k).link q_ = s.link q_ := State.bumpBy_link s k 1 _
@[simp] theorem State.bump_flow (s : State) (k : Nat) (q_ : Nat) : (s.bump k).flow q_ = s.flow q_ := State.bumpBy_flow s k 1 _
@[simp] theorem State.bump_pcore (s : State) (k : Nat) (q_ : Nat) : (s.bump k).pcore q_ = s.pcore q_ := State.bumpBy_pcore s k 1 _
@[simp] theorem State.bump_hart (s : State) (k : Nat) (q_ : Nat) : (s.bump k).hart q_ = s.hart q_ := State.bumpBy_hart s k 1 _
@[simp] theorem State.bump_lineSt (s : State) (k : Nat) (q_ : Nat) : (s.bump k).lineSt q_ = s.lineSt q_ := State.bumpBy_lineSt s k 1 _
@[simp] theorem State.bump_wcbAt (s : State) (k : Nat) (q_ : Nat) : (s.bump k).wcbAt q_ = s.wcbAt q_ := State.bumpBy_wcbAt s k 1 _

/-! logEvt writes cnt only. -/

@[simp] theorem State.logEvt_mer (s : State) (cls slot code : Nat) (tag : W32) (unit : Nat) (a0 a1 a2 a3 : W64) : (s.logEvt cls slot code tag unit a0 a1 a2 a3).mer = s.mer := rfl
@[simp] theorem State.logEvt_sched (s : State) (cls slot code : Nat) (tag : W32) (unit : Nat) (a0 a1 a2 a3 : W64) : (s.logEvt cls slot code tag unit a0 a1 a2 a3).sched = s.sched := rfl
@[simp] theorem State.logEvt_cores (s : State) (cls slot code : Nat) (tag : W32) (unit : Nat) (a0 a1 a2 a3 : W64) : (s.logEvt cls slot code tag unit a0 a1 a2 a3).cores = s.cores := rfl
@[simp] theorem State.logEvt_engines (s : State) (cls slot code : Nat) (tag : W32) (unit : Nat) (a0 a1 a2 a3 : W64) : (s.logEvt cls slot code tag unit a0 a1 a2 a3).engines = s.engines := rfl
@[simp] theorem State.logEvt_mem (s : State) (cls slot code : Nat) (tag : W32) (unit : Nat) (a0 a1 a2 a3 : W64) : (s.logEvt cls slot code tag unit a0 a1 a2 a3).mem = s.mem := rfl
@[simp] theorem State.logEvt_sems (s : State) (cls slot code : Nat) (tag : W32) (unit : Nat) (a0 a1 a2 a3 : W64) : (s.logEvt cls slot code tag unit a0 a1 a2 a3).sems = s.sems := rfl
@[simp] theorem State.logEvt_semres (s : State) (cls slot code : Nat) (tag : W32) (unit : Nat) (a0 a1 a2 a3 : W64) : (s.logEvt cls slot code tag unit a0 a1 a2 a3).semres = s.semres := rfl
@[simp] theorem State.logEvt_num (s : State) (cls slot code : Nat) (tag : W32) (unit : Nat) (a0 a1 a2 a3 : W64) : (s.logEvt cls slot code tag unit a0 a1 a2 a3).num = s.num := rfl
@[simp] theorem State.logEvt_kvp (s : State) (cls slot code : Nat) (tag : W32) (unit : Nat) (a0 a1 a2 a3 : W64) : (s.logEvt cls slot code tag unit a0 a1 a2 a3).kvp = s.kvp := rfl
@[simp] theorem State.logEvt_lnk (s : State) (cls slot code : Nat) (tag : W32) (unit : Nat) (a0 a1 a2 a3 : W64) : (s.logEvt cls slot code tag unit a0 a1 a2 a3).lnk = s.lnk := rfl
@[simp] theorem State.logEvt_red (s : State) (cls slot code : Nat) (tag : W32) (unit : Nat) (a0 a1 a2 a3 : W64) : (s.logEvt cls slot code tag unit a0 a1 a2 a3).red = s.red := rfl
@[simp] theorem State.logEvt_grp (s : State) (cls slot code : Nat) (tag : W32) (unit : Nat) (a0 a1 a2 a3 : W64) : (s.logEvt cls slot code tag unit a0 a1 a2 a3).grp = s.grp := rfl
@[simp] theorem State.logEvt_pwr (s : State) (cls slot code : Nat) (tag : W32) (unit : Nat) (a0 a1 a2 a3 : W64) : (s.logEvt cls slot code tag unit a0 a1 a2 a3).pwr = s.pwr := rfl
@[simp] theorem State.logEvt_fw (s : State) (cls slot code : Nat) (tag : W32) (unit : Nat) (a0 a1 a2 a3 : W64) : (s.logEvt cls slot code tag unit a0 a1 a2 a3).fw = s.fw := rfl
@[simp] theorem State.logEvt_sec (s : State) (cls slot code : Nat) (tag : W32) (unit : Nat) (a0 a1 a2 a3 : W64) : (s.logEvt cls slot code tag unit a0 a1 a2 a3).sec = s.sec := rfl
@[simp] theorem State.logEvt_board (s : State) (cls slot code : Nat) (tag : W32) (unit : Nat) (a0 a1 a2 a3 : W64) : (s.logEvt cls slot code tag unit a0 a1 a2 a3).board = s.board := rfl
@[simp] theorem State.logEvt_harts (s : State) (cls slot code : Nat) (tag : W32) (unit : Nat) (a0 a1 a2 a3 : W64) : (s.logEvt cls slot code tag unit a0 a1 a2 a3).harts = s.harts := rfl
@[simp] theorem State.logEvt_fresh (s : State) (cls slot code : Nat) (tag : W32) (unit : Nat) (a0 a1 a2 a3 : W64) : (s.logEvt cls slot code tag unit a0 a1 a2 a3).fresh = s.fresh := rfl
@[simp] theorem State.logEvt_pending (s : State) (cls slot code : Nat) (tag : W32) (unit : Nat) (a0 a1 a2 a3 : W64) : (s.logEvt cls slot code tag unit a0 a1 a2 a3).pending = s.pending := rfl
@[simp] theorem State.logEvt_core (s : State) (cls slot code : Nat) (tag : W32) (unit : Nat) (a0 a1 a2 a3 : W64) (q_ : Nat) : (s.logEvt cls slot code tag unit a0 a1 a2 a3).core q_ = s.core q_ := rfl
@[simp] theorem State.logEvt_eng (s : State) (cls slot code : Nat) (tag : W32) (unit : Nat) (a0 a1 a2 a3 : W64) (q_ : Nat) : (s.logEvt cls slot code tag unit a0 a1 a2 a3).eng q_ = s.eng q_ := rfl
@[simp] theorem State.logEvt_sem (s : State) (cls slot code : Nat) (tag : W32) (unit : Nat) (a0 a1 a2 a3 : W64) (q_ : Nat) : (s.logEvt cls slot code tag unit a0 a1 a2 a3).sem q_ = s.sem q_ := rfl
@[simp] theorem State.logEvt_entry (s : State) (cls slot code : Nat) (tag : W32) (unit : Nat) (a0 a1 a2 a3 : W64) (q_ : Nat) : (s.logEvt cls slot code tag unit a0 a1 a2 a3).entry q_ = s.entry q_ := rfl
@[simp] theorem State.logEvt_job (s : State) (cls slot code : Nat) (tag : W32) (unit : Nat) (a0 a1 a2 a3 : W64) (q_ : Nat) : (s.logEvt cls slot code tag unit a0 a1 a2 a3).job q_ = s.job q_ := rfl
@[simp] theorem State.logEvt_cmd (s : State) (cls slot code : Nat) (tag : W32) (unit : Nat) (a0 a1 a2 a3 : W64) (q_ : Nat) : (s.logEvt cls slot code tag unit a0 a1 a2 a3).cmd q_ = s.cmd q_ := rfl
@[simp] theorem State.logEvt_bank (s : State) (cls slot code : Nat) (tag : W32) (unit : Nat) (a0 a1 a2 a3 : W64) (q_ : Nat) : (s.logEvt cls slot code tag unit a0 a1 a2 a3).bank q_ = s.bank q_ := rfl
@[simp] theorem State.logEvt_redSlot (s : State) (cls slot code : Nat) (tag : W32) (unit : Nat) (a0 a1 a2 a3 : W64) (q_ : Nat) : (s.logEvt cls slot code tag unit a0 a1 a2 a3).redSlot q_ = s.redSlot q_ := rfl
@[simp] theorem State.logEvt_link (s : State) (cls slot code : Nat) (tag : W32) (unit : Nat) (a0 a1 a2 a3 : W64) (q_ : Nat) : (s.logEvt cls slot code tag unit a0 a1 a2 a3).link q_ = s.link q_ := rfl
@[simp] theorem State.logEvt_flow (s : State) (cls slot code : Nat) (tag : W32) (unit : Nat) (a0 a1 a2 a3 : W64) (q_ : Nat) : (s.logEvt cls slot code tag unit a0 a1 a2 a3).flow q_ = s.flow q_ := rfl
@[simp] theorem State.logEvt_pcore (s : State) (cls slot code : Nat) (tag : W32) (unit : Nat) (a0 a1 a2 a3 : W64) (q_ : Nat) : (s.logEvt cls slot code tag unit a0 a1 a2 a3).pcore q_ = s.pcore q_ := rfl
@[simp] theorem State.logEvt_hart (s : State) (cls slot code : Nat) (tag : W32) (unit : Nat) (a0 a1 a2 a3 : W64) (q_ : Nat) : (s.logEvt cls slot code tag unit a0 a1 a2 a3).hart q_ = s.hart q_ := rfl
@[simp] theorem State.logEvt_lineSt (s : State) (cls slot code : Nat) (tag : W32) (unit : Nat) (a0 a1 a2 a3 : W64) (q_ : Nat) : (s.logEvt cls slot code tag unit a0 a1 a2 a3).lineSt q_ = s.lineSt q_ := rfl
@[simp] theorem State.logEvt_wcbAt (s : State) (cls slot code : Nat) (tag : W32) (unit : Nat) (a0 a1 a2 a3 : W64) (q_ : Nat) : (s.logEvt cls slot code tag unit a0 a1 a2 a3).wcbAt q_ = s.wcbAt q_ := rfl

/-! tick writes fresh only. -/

@[simp] theorem State.tick_mer (s : State) : (s.tick).mer = s.mer := rfl
@[simp] theorem State.tick_sched (s : State) : (s.tick).sched = s.sched := rfl
@[simp] theorem State.tick_cores (s : State) : (s.tick).cores = s.cores := rfl
@[simp] theorem State.tick_engines (s : State) : (s.tick).engines = s.engines := rfl
@[simp] theorem State.tick_mem (s : State) : (s.tick).mem = s.mem := rfl
@[simp] theorem State.tick_sems (s : State) : (s.tick).sems = s.sems := rfl
@[simp] theorem State.tick_semres (s : State) : (s.tick).semres = s.semres := rfl
@[simp] theorem State.tick_num (s : State) : (s.tick).num = s.num := rfl
@[simp] theorem State.tick_kvp (s : State) : (s.tick).kvp = s.kvp := rfl
@[simp] theorem State.tick_lnk (s : State) : (s.tick).lnk = s.lnk := rfl
@[simp] theorem State.tick_red (s : State) : (s.tick).red = s.red := rfl
@[simp] theorem State.tick_grp (s : State) : (s.tick).grp = s.grp := rfl
@[simp] theorem State.tick_pwr (s : State) : (s.tick).pwr = s.pwr := rfl
@[simp] theorem State.tick_fw (s : State) : (s.tick).fw = s.fw := rfl
@[simp] theorem State.tick_sec (s : State) : (s.tick).sec = s.sec := rfl
@[simp] theorem State.tick_board (s : State) : (s.tick).board = s.board := rfl
@[simp] theorem State.tick_cnt (s : State) : (s.tick).cnt = s.cnt := rfl
@[simp] theorem State.tick_harts (s : State) : (s.tick).harts = s.harts := rfl
@[simp] theorem State.tick_pending (s : State) : (s.tick).pending = s.pending := rfl
@[simp] theorem State.tick_core (s : State) (q_ : Nat) : (s.tick).core q_ = s.core q_ := rfl
@[simp] theorem State.tick_eng (s : State) (q_ : Nat) : (s.tick).eng q_ = s.eng q_ := rfl
@[simp] theorem State.tick_sem (s : State) (q_ : Nat) : (s.tick).sem q_ = s.sem q_ := rfl
@[simp] theorem State.tick_entry (s : State) (q_ : Nat) : (s.tick).entry q_ = s.entry q_ := rfl
@[simp] theorem State.tick_job (s : State) (q_ : Nat) : (s.tick).job q_ = s.job q_ := rfl
@[simp] theorem State.tick_cmd (s : State) (q_ : Nat) : (s.tick).cmd q_ = s.cmd q_ := rfl
@[simp] theorem State.tick_bank (s : State) (q_ : Nat) : (s.tick).bank q_ = s.bank q_ := rfl
@[simp] theorem State.tick_redSlot (s : State) (q_ : Nat) : (s.tick).redSlot q_ = s.redSlot q_ := rfl
@[simp] theorem State.tick_link (s : State) (q_ : Nat) : (s.tick).link q_ = s.link q_ := rfl
@[simp] theorem State.tick_flow (s : State) (q_ : Nat) : (s.tick).flow q_ = s.flow q_ := rfl
@[simp] theorem State.tick_pcore (s : State) (q_ : Nat) : (s.tick).pcore q_ = s.pcore q_ := rfl
@[simp] theorem State.tick_hart (s : State) (q_ : Nat) : (s.tick).hart q_ = s.hart q_ := rfl
@[simp] theorem State.tick_cntr (s : State) (q_ : Nat) : (s.tick).cntr q_ = s.cntr q_ := rfl
@[simp] theorem State.tick_lineSt (s : State) (q_ : Nat) : (s.tick).lineSt q_ = s.lineSt q_ := rfl
@[simp] theorem State.tick_wcbAt (s : State) (q_ : Nat) : (s.tick).wcbAt q_ = s.wcbAt q_ := rfl

/-! What an update writes, read back. -/

@[simp] theorem State.modFw_fw (s : State) (f : Darkel → Darkel) : (s.modFw f).fw = f s.fw := rfl
@[simp] theorem State.modLnk_lnk (s : State) (f : Links → Links) : (s.modLnk f).lnk = f s.lnk := rfl
@[simp] theorem State.modMer_mer (s : State) (f : Mer → Mer) : (s.modMer f).mer = f s.mer := rfl
@[simp] theorem State.modMem_mem (s : State) (f : Mem → Mem) : (s.modMem f).mem = f s.mem := rfl
@[simp] theorem State.modGrp_grp (s : State) (f : Group → Group) : (s.modGrp f).grp = f s.grp := rfl
@[simp] theorem State.modPwr_pwr (s : State) (f : Power → Power) : (s.modPwr f).pwr = f s.pwr := rfl
@[simp] theorem State.modSec_sec (s : State) (f : Security → Security) : (s.modSec f).sec = f s.sec := rfl
@[simp] theorem State.modBoard_board (s : State) (f : Board → Board) : (s.modBoard f).board = f s.board := rfl
@[simp] theorem State.modCnt_cnt (s : State) (f : Counters → Counters) : (s.modCnt f).cnt = f s.cnt := rfl

theorem State.core_setCore (s : State) (c : Nat) (k : Core) (d : Nat) :
    (s.setCore c k).core d = if d = c then k else s.core d := by
  by_cases h : d = c
  · subst h; simp [State.core, State.setCore, State.setCore]
  · simp only [State.core, State.setCore, State.setCore, if_neg h]
    exact SMap.get_set_other _ _ _ _ _ _ h
@[simp] theorem State.core_setCore_self (s : State) (c : Nat) (k : Core) : (s.setCore c k).core c = k := by
  rw [State.core_setCore, if_pos rfl]
theorem State.eng_setEng (s : State) (c : Nat) (k : Engine) (d : Nat) :
    (s.setEng c k).eng d = if d = c then k else s.eng d := by
  by_cases h : d = c
  · subst h; simp [State.eng, State.setEng, State.setEng]
  · simp only [State.eng, State.setEng, State.setEng, if_neg h]
    exact SMap.get_set_other _ _ _ _ _ _ h
@[simp] theorem State.eng_setEng_self (s : State) (c : Nat) (k : Engine) : (s.setEng c k).eng c = k := by
  rw [State.eng_setEng, if_pos rfl]
theorem State.core_modCore (s : State) (c : Nat) (f : Core → Core) (d : Nat) :
    (s.modCore c f).core d = if d = c then f (s.core c) else s.core d := by
  by_cases h : d = c
  · subst h; simp [State.core, State.modCore, State.setCore]
  · simp only [State.core, State.modCore, State.setCore, if_neg h]
    exact SMap.get_set_other _ _ _ _ _ _ h
@[simp] theorem State.core_modCore_self (s : State) (c : Nat) (f : Core → Core) : (s.modCore c f).core c = f (s.core c) := by
  rw [State.core_modCore, if_pos rfl]
theorem State.eng_modEng (s : State) (c : Nat) (f : Engine → Engine) (d : Nat) :
    (s.modEng c f).eng d = if d = c then f (s.eng c) else s.eng d := by
  by_cases h : d = c
  · subst h; simp [State.eng, State.modEng, State.setEng]
  · simp only [State.eng, State.modEng, State.setEng, if_neg h]
    exact SMap.get_set_other _ _ _ _ _ _ h
@[simp] theorem State.eng_modEng_self (s : State) (c : Nat) (f : Engine → Engine) : (s.modEng c f).eng c = f (s.eng c) := by
  rw [State.eng_modEng, if_pos rfl]
theorem State.sem_modSem (s : State) (c : Nat) (f : Sem → Sem) (d : Nat) :
    (s.modSem c f).sem d = if d = c then f (s.sem c) else s.sem d := SMap.get_set _ _ _ _ _
@[simp] theorem State.sem_modSem_self (s : State) (c : Nat) (f : Sem → Sem) : (s.modSem c f).sem c = f (s.sem c) := by
  rw [State.sem_modSem, if_pos rfl]
theorem State.entry_modEntry (s : State) (c : Nat) (f : SchedEntry → SchedEntry) (d : Nat) :
    (s.modEntry c f).entry d = if d = c then f (s.entry c) else s.entry d := SMap.get_set _ _ _ _ _
@[simp] theorem State.entry_modEntry_self (s : State) (c : Nat) (f : SchedEntry → SchedEntry) : (s.modEntry c f).entry c = f (s.entry c) := by
  rw [State.entry_modEntry, if_pos rfl]
theorem State.job_modJob (s : State) (c : Nat) (f : Job → Job) (d : Nat) :
    (s.modJob c f).job d = if d = c then f (s.job c) else s.job d := SMap.get_set _ _ _ _ _
@[simp] theorem State.job_modJob_self (s : State) (c : Nat) (f : Job → Job) : (s.modJob c f).job c = f (s.job c) := by
  rw [State.job_modJob, if_pos rfl]
theorem State.cmd_modCmd (s : State) (c : Nat) (f : CmdEntry → CmdEntry) (d : Nat) :
    (s.modCmd c f).cmd d = if d = c then f (s.cmd c) else s.cmd d := SMap.get_set _ _ _ _ _
@[simp] theorem State.cmd_modCmd_self (s : State) (c : Nat) (f : CmdEntry → CmdEntry) : (s.modCmd c f).cmd c = f (s.cmd c) := by
  rw [State.cmd_modCmd, if_pos rfl]
theorem State.bank_modBank (s : State) (c : Nat) (f : NumBank → NumBank) (d : Nat) :
    (s.modBank c f).bank d = if d = c then f (s.bank c) else s.bank d := SMap.get_set _ _ _ _ _
@[simp] theorem State.bank_modBank_self (s : State) (c : Nat) (f : NumBank → NumBank) : (s.modBank c f).bank c = f (s.bank c) := by
  rw [State.bank_modBank, if_pos rfl]
theorem State.redSlot_modRed (s : State) (c : Nat) (f : RedSlot → RedSlot) (d : Nat) :
    (s.modRed c f).redSlot d = if d = c then f (s.redSlot c) else s.redSlot d := SMap.get_set _ _ _ _ _
@[simp] theorem State.redSlot_modRed_self (s : State) (c : Nat) (f : RedSlot → RedSlot) : (s.modRed c f).redSlot c = f (s.redSlot c) := by
  rw [State.redSlot_modRed, if_pos rfl]
theorem State.link_modLink (s : State) (c : Nat) (f : Link → Link) (d : Nat) :
    (s.modLink c f).link d = if d = c then f (s.link c) else s.link d := SMap.get_set _ _ _ _ _
@[simp] theorem State.link_modLink_self (s : State) (c : Nat) (f : Link → Link) : (s.modLink c f).link c = f (s.link c) := by
  rw [State.link_modLink, if_pos rfl]
theorem State.flow_modFlow (s : State) (c : Nat) (f : Flow → Flow) (d : Nat) :
    (s.modFlow c f).flow d = if d = c then f (s.flow c) else s.flow d := SMap.get_set _ _ _ _ _
@[simp] theorem State.flow_modFlow_self (s : State) (c : Nat) (f : Flow → Flow) : (s.modFlow c f).flow c = f (s.flow c) := by
  rw [State.flow_modFlow, if_pos rfl]
theorem State.pcore_modPcore (s : State) (c : Nat) (f : PwrCore → PwrCore) (d : Nat) :
    (s.modPcore c f).pcore d = if d = c then f (s.pcore c) else s.pcore d := SMap.get_set _ _ _ _ _
@[simp] theorem State.pcore_modPcore_self (s : State) (c : Nat) (f : PwrCore → PwrCore) : (s.modPcore c f).pcore c = f (s.pcore c) := by
  rw [State.pcore_modPcore, if_pos rfl]
theorem State.hart_modHart (s : State) (c : Nat) (f : Hart → Hart) (d : Nat) :
    (s.modHart c f).hart d = if d = c then f (s.hart c) else s.hart d := SMap.get_set _ _ _ _ _
@[simp] theorem State.hart_modHart_self (s : State) (c : Nat) (f : Hart → Hart) : (s.modHart c f).hart c = f (s.hart c) := by
  rw [State.hart_modHart, if_pos rfl]

theorem State.cntr_bumpBy (s : State) (k n i : Nat) :
    (s.bumpBy k n).cntr i = if i = k then cntAdd (s.cntr k) n else s.cntr i := SMap.get_set _ _ _ _ _

theorem State.cntr_bump (s : State) (k i : Nat) : (s.bump k).cntr i = if i = k then cntAdd (s.cntr k) 1 else s.cntr i :=
  State.cntr_bumpBy s k 1 i

theorem State.modCtx_eq (s : State) (c : Nat) (f : SqCtx → SqCtx) :
    s.modCtx c f = s.modCore c fun k => { k with ctx := f k.ctx } := rfl

theorem State.modVctx_eq (s : State) (e : Nat) (f : VeCtx → VeCtx) :
    s.modVctx e f = s.modEng e fun k => { k with ctx := f k.ctx } := rfl

@[simp] theorem State.setCore_core_cores (s : State) (c : Nat) (k : Core) :
    { s with cores := (s.setCore c k).cores } = s.setCore c k := rfl

@[simp] theorem State.setEng_engines_eq (s : State) (e : Nat) (k : Engine) :
    { s with engines := (s.setEng e k).engines } = s.setEng e k := rfl

/-- Changes of one core, of one engine, join. -/
theorem State.modCore_modCore (s : State) (c : Nat) (f g : Core → Core) (d : Nat) :
    ((s.modCore c f).modCore c g).core d = (s.modCore c fun k => g (f k)).core d := by
  simp only [State.core_modCore]; split <;> simp

theorem State.modEng_modEng (s : State) (e : Nat) (f g : Engine → Engine) (d : Nat) :
    ((s.modEng e f).modEng e g).eng d = (s.modEng e fun k => g (f k)).eng d := by
  simp only [State.eng_modEng]; split <;> simp

end Sys2Proof.Machine
end

