-- ==== Sys2Proof/Laws/Engine.lean ====
section
/-! SUPPORT. Laws of the engine's shared operations: issue, results under masks, branches and faults (R144 to R151, R174). -/

namespace Sys2Proof.Machine

open Sys2Proof.Claim

/-! Registers and masks. -/

theorem VeCtx.sreg_setSreg (x : VeCtx) (sd : BitVec 5) (v : W64) (r : BitVec 5) :
    (x.setSreg sd v).sreg r = if r = sd ∧ r ≠ 0 then v else x.sreg r := by
  unfold VeCtx.setSreg VeCtx.sreg
  by_cases h : sd = 0
  · rw [if_pos h]
    by_cases hr : r = 0
    · simp [hr]
    · rw [if_neg (show ¬(r = sd ∧ r ≠ 0) from fun e => hr (e.1.trans h))]
  · rw [if_neg h]
    by_cases hr : r = 0
    · simp [hr]
    · simp only [if_neg hr, SMap.get_set]
      by_cases hs : r = sd
      · rw [if_pos (congrArg _ hs), if_pos ⟨hs, hr⟩]
      · rw [if_neg (fun e => hs (BitVec.eq_of_toNat_eq e)), if_neg (fun e => hs e.1)]

theorem VeCtx.preg_setPreg (x : VeCtx) (pd : BitVec 3) (v : W32) (r : BitVec 3) :
    (x.setPreg pd v).preg r = if r = pd ∧ r ≠ 0 then v else x.preg r := by
  unfold VeCtx.setPreg VeCtx.preg
  by_cases h : pd = 0
  · rw [if_pos h]
    by_cases hr : r = 0
    · simp [hr]
    · rw [if_neg (show ¬(r = pd ∧ r ≠ 0) from fun e => hr (e.1.trans h))]
  · rw [if_neg h]
    by_cases hr : r = 0
    · simp [hr]
    · simp only [if_neg hr, SMap.get_set]
      by_cases hs : r = pd
      · rw [if_pos (congrArg _ hs), if_pos ⟨hs, hr⟩]
      · rw [if_neg (fun e => hs (BitVec.eq_of_toNat_eq e)), if_neg (fun e => hs e.1)]

/-- Lanes written one by one. -/
theorem foldLanes_get (mask : W32) (f : Nat → W32) (l : List Nat) (v : VReg) (i : Nat) :
    SMap.get 0 (l.foldl (fun v i => if mask.getLsbD i then SMap.set 0 v i (f i) else v) v) i =
      if i ∈ l ∧ mask.getLsbD i = true then f i else SMap.get 0 v i := by
  induction l generalizing v with
  | nil => simp
  | cons j t ih =>
    rw [List.foldl_cons, ih]
    by_cases hj : i = j
    · subst hj
      by_cases hm : mask.getLsbD i = true
      · simp [hm]
      · simp [hm]
    · by_cases hm : mask.getLsbD j = true
      · simp [hm, SMap.get_set, hj]
      · simp [hm, hj]

theorem setLanes_get (v : VReg) (mask : W32) (f : Nat → W32) (i : Nat) (hi : i < 32) :
    SMap.get 0 (setLanes v mask f) i = if mask.getLsbD i = true then f i else SMap.get 0 v i := by
  unfold setLanes
  rw [foldLanes_get]
  simp [List.mem_range, hi]

theorem VeCtx.lane_setVec (x : VeCtx) (vd : BitVec 6) (mask : W32) (f : Nat → W32) : LanesSet vd mask f x (x.setVec vd.toNat mask f) := by
  intro r i hi
  unfold VeCtx.lane VeCtx.setVec VeCtx.vreg
  simp only [SMap.get_set]
  by_cases h : r = vd
  · subst h
    rw [if_pos rfl, setLanes_get _ _ _ _ hi]
    simp
  · rw [if_neg (fun e => h (BitVec.eq_of_toNat_eq e)), if_neg (fun e => h e.1)]

/-- A sum of distinct powers of two, bit by bit. -/
theorem foldBits (f : Nat → Bool) (n : Nat) :
    (List.range n).foldl (fun a i => if f i then a + 2 ^ i else a) 0 < 2 ^ n ∧
      ∀ i, ((List.range n).foldl (fun a i => if f i then a + 2 ^ i else a) 0).testBit i = (decide (i < n) && f i) := by
  induction n with
  | zero => exact ⟨by simp, fun i => by simp⟩
  | succ n ih =>
    rw [List.range_succ, List.foldl_append]
    simp only [List.foldl_cons, List.foldl_nil]
    obtain ⟨h1, h2⟩ := ih
    by_cases hf : f n = true
    · rw [if_pos hf]
      refine ⟨by rw [Nat.pow_succ]; omega, fun i => ?_⟩
      rw [Nat.add_comm, show 2 ^ n = 2 ^ n * 1 by omega, Nat.testBit_two_pow_mul_add 1 h1]
      by_cases hi : i < n
      · rw [if_pos hi, h2 i]; simp [hi, Nat.lt_succ_of_lt hi]
      · rw [if_neg hi]
        by_cases he : i = n
        · subst he; simp [hf]
        · have : ¬ i < n + 1 := by omega
          simp only [this, decide_false, Bool.false_and]
          exact Nat.testBit_lt_two_pow (by
            calc (1 : Nat) < 2 ^ 1 := by decide
              _ ≤ 2 ^ (i - n) := Nat.pow_le_pow_right (by decide) (by omega))
    · rw [if_neg hf]
      refine ⟨by rw [Nat.pow_succ]; omega, fun i => ?_⟩
      rw [h2 i]
      by_cases he : i = n
      · subst he; simp [hf]
      · rw [show decide (i < n) = decide (i < n + 1) from decide_eq_decide.2 (by omega)]

theorem maskOf_bit (f : Nat → Bool) (i : Nat) (hi : i < 32) : (maskOf f).getLsbD i = f i := by
  unfold maskOf
  obtain ⟨_, h2⟩ := foldBits f 32
  rw [BitVec.getLsbD_ofNat, h2 i]
  simp [hi]

theorem blendMask_bit (old new mask : W32) (i : Nat) (hi : i < 32) :
    (blendMask old new mask).getLsbD i = if mask.getLsbD i = true then new.getLsbD i else old.getLsbD i := by
  unfold blendMask
  simp only [BitVec.getLsbD_or, BitVec.getLsbD_and, BitVec.getLsbD_not, hi, decide_true, Bool.true_and]
  cases mask.getLsbD i <;> simp

theorem VeCtx.setPreg_bits (x : VeCtx) (pd pm : BitVec 3) (f : Nat → Bool) :
    PredSet pd (x.preg pm) f x (x.setPreg pd (blendMask (x.preg pd) (maskOf f) (x.preg pm))) := by
  intro r i hi
  rw [VeCtx.preg_setPreg]
  by_cases h : r = pd ∧ r ≠ 0
  · rw [if_pos h, blendMask_bit _ _ _ _ hi, maskOf_bit _ _ hi]
    by_cases hm : (x.preg pm).getLsbD i = true
    · rw [if_pos hm, if_pos ⟨h.1, h.2, hm⟩]
    · rw [if_neg hm, if_neg (fun e => hm e.2.2), h.1]
  · rw [if_neg h, if_neg (fun e => h ⟨e.1, e.2.1⟩)]

/-! Issue. -/

theorem State.veIssue_run (s : State) (e : Nat) (f : State → State) (h : EngIssues s e) :
    s.veIssue e f = f (s.bump (cntVe e 0)) := by
  unfold State.veIssue
  rw [if_pos ⟨h.1, h.2.1⟩, if_pos h.2.2]

/-- An engine that does not issue does nothing. -/
theorem State.veIssue_hold (s : State) (e : Nat) (f : State → State) (h : ¬ ((s.eng e).st = .run ∧ s.veStopped e = false)) :
    s.veIssue e f = s := by
  unfold State.veIssue
  rw [if_neg h]

/-- A fetch past the local store is a range fault. -/
theorem State.veIssue_end (s : State) (e : Nat) (f : State → State) (h1 : (s.eng e).st = .run) (h2 : s.veStopped e = false)
    (h3 : lsWords ≤ (s.eng e).ctx.pc) : s.veIssue e f = s.veFault e .range := by
  unfold State.veIssue
  rw [if_pos ⟨h1, h2⟩, if_neg (by omega)]

theorem State.modCnt_self (s : State) (f : Counters → Counters) : s.modCnt f = { s with cnt := (s.modCnt f).cnt } := rfl

theorem State.bump_self (s : State) (k : Nat) : s.bump k = { s with cnt := (s.bump k).cnt } := by
  unfold State.bump State.bumpBy
  exact State.modCnt_self s _

theorem State.bump_cnt (s : State) (k : Nat) : (s.bump k).cnt = { s.cnt with cnt := (s.bump k).cnt.cnt } := by
  unfold State.bump State.bumpBy State.modCnt
  simp only

theorem State.veDo_self (s : State) (e : Nat) (f : VeCtx → VeCtx) : s.veDo e f = { s with engines := (s.veDo e f).engines } := rfl

/-- A state that differs from an issuing one in engine e alone. -/
theorem engineIs_of (s t : State) (e : Nat) (k : Engine) (h1 : t = { s.bump (cntVe e 0) with engines := t.engines })
    (h2 : ∀ f, t.eng f = if f = e then k else s.eng f) : EngineIs e k s t := by
  have hc : t.cnt = (s.bump (cntVe e 0)).cnt := by rw [h1]
  refine ⟨⟨?_, fun f hf => by rw [h2 f, if_neg hf], ?_, fun i => ?_⟩, by rw [h2 e, if_pos rfl]⟩
  · rw [hc]
    refine h1.trans ?_
    rw [State.bump_self s]
  · rw [hc]; exact State.bump_cnt s _
  · have : t.cntr i = (s.bump (cntVe e 0)).cntr i := by unfold State.cntr; rw [hc]
    rw [this, State.cntr_bump]
    split
    · rename_i h; rw [h]
    · rfl

/-- A change of the registers and the step past the word. -/
theorem State.veDo_effect (s : State) (e : Nat) (f : VeCtx → VeCtx) (hpc : (f (s.eng e).ctx).pc = (s.eng e).ctx.pc) :
    EngineIs e (engNext (s.eng e) (f (s.eng e).ctx)) s ((s.bump (cntVe e 0)).veDo e f) := by
  refine engineIs_of _ _ _ _ (State.veDo_self _ _ _) fun g => ?_
  unfold State.veDo State.veAdvance State.modVctx
  simp only [State.eng_modEng, State.bump_eng, if_pos]
  by_cases hg : g = e
  · rw [if_pos hg, if_pos hg]
    unfold engNext
    simp only [hpc]
  · rw [if_neg hg, if_neg hg, if_neg hg]

/-- What a scalar operation does (R147, R149). -/
theorem State.veScalar_result (s : State) (e : Nat) (sd : BitVec 5) (f : VeCtx → W64) (h : EngIssues s e) :
    ScalarResult e sd (f (s.eng e).ctx) s (s.veScalar e sd f) := by
  unfold State.veScalar
  rw [State.veIssue_run s e _ h]
  obtain ⟨h1, h2⟩ := State.veDo_effect s e (fun x => x.setSreg sd (f x)) (by
    simp only [VeCtx.setSreg]; split <;> rfl)
  refine ⟨h1, ?_, ?_⟩
  · rw [h2]
    unfold engNext VeCtx.setSreg
    split <;> rfl
  · rw [h2]
    intro r
    exact VeCtx.sreg_setSreg (s.eng e).ctx sd _ r

/-- What a vector operation does (R147, R148). -/
theorem State.veVector_result (s : State) (e : Nat) (vd : BitVec 6) (pm : BitVec 3) (f : VeCtx → Nat → W32) (h : EngIssues s e) :
    VectorResult e vd ((s.eng e).ctx.preg pm) (f (s.eng e).ctx) s (s.veVector e vd pm f) := by
  unfold State.veVector
  rw [State.veIssue_run s e _ h]
  obtain ⟨h1, h2⟩ := State.veDo_effect s e (fun x => x.setVec vd.toNat (x.preg pm) (f x)) rfl
  refine ⟨h1, by rw [h2]; rfl, ?_⟩
  rw [h2]
  intro r i hi
  exact VeCtx.lane_setVec (s.eng e).ctx vd _ _ r i hi

/-- What a compare does (R147, R148). -/
theorem State.vePred_result (s : State) (e : Nat) (pd pm : BitVec 3) (f : VeCtx → Nat → Bool) (h : EngIssues s e) :
    PredicateResult e pd ((s.eng e).ctx.preg pm) (f (s.eng e).ctx) s (s.vePred e pd pm f) := by
  unfold State.vePred
  rw [State.veIssue_run s e _ h]
  obtain ⟨h1, h2⟩ := State.veDo_effect s e
    (fun x => x.setPreg pd (blendMask (x.preg pd) (maskOf (f x)) (x.preg pm))) (by
      simp only [VeCtx.setPreg]; split <;> rfl)
  refine ⟨h1, ?_, ?_⟩
  · rw [h2]
    unfold engNext VeCtx.setPreg
    split <;> rfl
  · rw [h2]
    intro r i hi
    exact VeCtx.setPreg_bits (s.eng e).ctx pd pm _ r i hi

end Sys2Proof.Machine
end

