-- ==== Sys2Proof/Laws/Units.lean ====
section
/-! SUPPORT. Laws of what units share: the log's queue, faults of engines and sequencers, issue of a sequencer's instruction,
semaphores (R130, R142, R174, R219 to R223, R482). -/

namespace Sys2Proof.Machine

open Sys2Proof.Claim

/-! The log's queue. -/

theorem mem_insertDue (r : LogRec) (l : List LogRec) (x : LogRec) : x ∈ insertDue r l ↔ x = r ∨ x ∈ l := by
  induction l with
  | nil => simp [insertDue]
  | cons h t ih =>
    unfold insertDue
    split
    · rw [List.mem_cons, ih, List.mem_cons]
      constructor
      · rintro (h1 | h1 | h1)
        · exact .inr (.inl h1)
        · exact .inl h1
        · exact .inr (.inr h1)
      · rintro (h1 | h1 | h1)
        · exact .inr (.inl h1)
        · exact .inl h1
        · exact .inr (.inr h1)
    · rw [List.mem_cons]

theorem State.logEvt_due (s : State) (cls slot code : Nat) (tag : W32) (unit : Nat) (a0 a1 a2 a3 : W64) :
    (s.logEvt cls slot code tag unit a0 a1 a2 a3).cnt.due =
      insertDue ⟨cls, slot, code, tag, unit, a0, a1, a2, a3, s.mer.now⟩ s.cnt.due := rfl

theorem State.logEvt_self (s : State) (cls slot code : Nat) (tag : W32) (unit : Nat) (a0 a1 a2 a3 : W64) :
    s.logEvt cls slot code tag unit a0 a1 a2 a3 = { s with cnt := (s.logEvt cls slot code tag unit a0 a1 a2 a3).cnt } :=
  State.modCnt_self s _

/-! Faults. -/

theorem State.veFault_effect (s : State) (e : Nat) (code : VeCode) (hw : (s.eng e).st ≠ .semw) :
    EngineFaults e code s (s.veFault e code) := by
  unfold State.veFault State.veFaultAt
  simp only [if_neg hw]
  refine ⟨?_, fun f hf => ?_, ?_, ?_⟩
  · rw [State.logEvt_self]; rfl
  · rw [State.logEvt_eng, State.eng_modEng, if_neg hf]
  · rw [State.logEvt_eng, State.eng_modEng_self]
  · rw [State.logEvt_due]
    exact ⟨_, (mem_insertDue _ _ _).2 (.inl rfl), rfl, rfl, rfl⟩

theorem State.sqFault_effect (s : State) (c : Nat) (code : SqCode) (pc desc : Nat) (hw : (s.core c).st ≠ .semw) :
    SeqFaults c code pc desc s (s.sqFault c code pc desc) := by
  unfold State.sqFault
  simp only [if_neg hw]
  refine ⟨?_, fun f hf => ?_, ?_, ?_⟩
  · rw [State.logEvt_self]; rfl
  · rw [State.logEvt_core, State.core_modCore, if_neg hf]
  · rw [State.logEvt_core, State.core_modCore_self]
  · rw [State.logEvt_due]
    exact ⟨_, (mem_insertDue _ _ _).2 (.inl rfl), rfl, rfl, rfl⟩

/-! Engines. -/

/-- A branch that is not taken, or is taken within the local store (R151). -/
theorem State.veBranch_effect (s : State) (e : Nat) (off : BitVec 16) (f : VeCtx → Bool) (h : EngIssues s e)
    (ht : f (s.eng e).ctx = true → 0 ≤ ((s.eng e).ctx.pc : Int) + off.toInt ∧ ((s.eng e).ctx.pc : Int) + off.toInt < lsWords) :
    EngineIs e (if f (s.eng e).ctx = true then
        { s.eng e with ctx := { (s.eng e).ctx with pc := (((s.eng e).ctx.pc : Int) + off.toInt).toNat } }
      else engNext (s.eng e) (s.eng e).ctx) s (s.veBranch e off f) := by
  unfold State.veBranch
  rw [State.veIssue_run s e _ h]
  simp only [State.bump_eng]
  by_cases hf : f (s.eng e).ctx = true
  · rw [if_pos hf, if_pos hf, if_pos (ht hf)]
    refine engineIs_of _ _ _ _ rfl fun g => ?_
    unfold State.modVctx
    rw [State.eng_modEng, State.bump_eng, State.bump_eng]
  · rw [if_neg hf, if_neg hf]
    refine engineIs_of _ _ _ _ rfl fun g => ?_
    unfold State.veAdvance
    rw [State.eng_modEng, State.bump_eng, State.bump_eng]
    rfl

/-! Sequencers. -/

theorem State.sqIssue_run (s : State) (c : Nat) (f : State) (h : SeqIssues s c) : s.sqIssue c f = f := by
  unfold State.sqIssue
  rw [if_pos ⟨h.1, h.2.1⟩, if_pos h.2.2]

theorem State.sqIssue_hold (s : State) (c : Nat) (f : State) (h : ¬ ((s.core c).st = .run ∧ s.sqStopped c = false)) :
    s.sqIssue c f = s := by
  unfold State.sqIssue
  rw [if_neg h]

/-- A program counter out of the job's range is a range fault (R107). -/
theorem State.sqIssue_end (s : State) (c : Nat) (f : State) (h1 : (s.core c).st = .run) (h2 : s.sqStopped c = false)
    (h3 : (s.core c).pcOk (s.core c).ctx.pc = false) : s.sqIssue c f = s.sqFault c .range (s.core c).ctx.pc 0 := by
  unfold State.sqIssue
  rw [if_pos ⟨h1, h2⟩, if_neg (by simp [h3])]

/-- A change of one core. -/
theorem State.modCore_effect (s : State) (c : Nat) (f : Core → Core) : CoreIs c (f (s.core c)) s (s.modCore c f) :=
  ⟨rfl, fun d hd => by rw [State.core_modCore, if_neg hd], State.core_modCore_self s c f⟩

theorem State.sqAdvance_effect (s : State) (c : Nat) : CoreIs c (seqNext (s.core c)) s (s.sqAdvance c) :=
  State.modCore_effect s c _

theorem State.sqHold_effect (s : State) (c : Nat) (st : SqState) (h : SqHeld) :
    CoreIs c (seqHeld (s.core c) st h) s (s.sqHold c st h) := State.modCore_effect s c _

/-! Semaphores. -/

@[simp] theorem State.modInstOn_sem (s : State) (c : Nat) (f : Inst → Inst) (n : Nat) : (s.modInstOn c f).sem n = s.sem n := by
  unfold State.modInstOn; split <;> rfl
@[simp] theorem State.modInstOn_core (s : State) (c : Nat) (f : Inst → Inst) (n : Nat) : (s.modInstOn c f).core n = s.core n := by
  unfold State.modInstOn; split <;> rfl
@[simp] theorem State.modInstOn_eng (s : State) (c : Nat) (f : Inst → Inst) (n : Nat) : (s.modInstOn c f).eng n = s.eng n := by
  unfold State.modInstOn; split <;> rfl

/-- The frame of a change of an instance. -/
theorem State.modInstOn_frame (s : State) (c : Nat) (f : Inst → Inst) : SemFrame s (s.modInstOn c f) := by
  unfold State.modInstOn; split <;> rfl

/-- A take lowers the count and leaves the queue and every other semaphore (R220). -/
theorem State.semTake_sem (s : State) (u : SemUnit) (n amt m : Nat) :
    (s.semTake u n amt).sem m = if m = n then { s.sem n with count := (s.sem n).count - amt } else s.sem m := by
  unfold State.semTake State.noteTake
  rw [State.modInstOn_sem, State.sem_modSem]

/-- An add that fits raises the count (R219). -/
theorem State.semAdd_some (s : State) (n amt : Nat) (h : (s.sem n).count + amt ≤ 65535) :
    s.semAdd n amt = some (s.modSem n fun q => { q with count := q.count + amt }) := by
  unfold State.semAdd
  rw [if_neg (by omega)]

theorem State.semAdd_none (s : State) (n amt : Nat) (h : 65535 < (s.sem n).count + amt) : s.semAdd n amt = none := by
  unfold State.semAdd
  rw [if_pos h]

/-- An add that would pass 65,535 is a semaphore fault of its unit (R129, R160). -/
theorem State.semAddBy_fault (s : State) (u : SemUnit) (n amt : Nat) (h : 65535 < (s.sem n).count + amt) :
    s.semAddBy u n amt = match u with | .core c => s.sqFault c .sem (s.core c).ctx.pc 0 | .eng e => s.veFault e .sem := by
  cases u <;> simp only [State.semAddBy, State.semAdd_none s n amt h]

/-- The counts after an add of a unit. -/
theorem State.semAddBy_sem (s : State) (u : SemUnit) (n amt m : Nat) (h : (s.sem n).count + amt ≤ 65535) :
    (s.semAddBy u n amt).sem m = if m = n then { s.sem n with count := (s.sem n).count + amt } else s.sem m := by
  unfold State.semAddBy
  rw [State.semAdd_some s n amt h]
  unfold State.noteAdd
  cases u with
  | core c => simp only [State.sqAdvance, State.modCore_sem, State.modInstOn_sem, State.sem_modSem]
  | eng e => simp only [State.veAdvance, State.modEng_sem, State.modInstOn_sem, State.sem_modSem]

end Sys2Proof.Machine
end

