-- ==== Sys2Proof/Laws/Links.lean ====
section
/-! SUPPORT. Laws of the links' shared operations: what checking a line, reading a packet's source and the local path leave
as they are (R126, R186, R336). -/

namespace Sys2Proof.Machine

/-- Reads of memory on behalf of the links have happened: memory's check states and events, counters and the log's queue,
which only grows, units that have faulted and the semaphores they waited on, and the links may have changed. -/
def Pumped (s t : State) : Prop :=
  t = { s with mem := t.mem, cnt := t.cnt, cores := t.cores, engines := t.engines, lnk := t.lnk, sems := t.sems,
               fw := { s.fw with insts := t.fw.insts } } ∧
    ∀ r ∈ s.cnt.due, r ∈ t.cnt.due

theorem Pumped.refl (s : State) : Pumped s s := ⟨rfl, fun _ h => h⟩
theorem Pumped.trans {s t u : State} (h : Pumped s t) (k : Pumped t u) : Pumped s u := by
  refine ⟨?_, fun r hr => k.2 r (h.2 r hr)⟩
  have h1 := h.1
  have k1 := k.1
  rw [h1] at k1
  exact k1

theorem State.modLnk_pumped (s : State) (f : Links → Links) : Pumped s (s.modLnk f) := ⟨rfl, fun _ h => h⟩
theorem State.modFlow_pumped (s : State) (f : Nat) (g : Flow → Flow) : Pumped s (s.modFlow f g) := State.modLnk_pumped s _
theorem State.setOp_pumped (s : State) (n : Nat) (o : Option LinkOp) : Pumped s (s.setOp n o) := State.modLnk_pumped s _
theorem State.modMem_pumped (s : State) (f : Mem → Mem) : Pumped s (s.modMem f) := ⟨rfl, fun _ h => h⟩
theorem State.modCore_pumped (s : State) (c : Nat) (f : Core → Core) : Pumped s (s.modCore c f) := ⟨rfl, fun _ h => h⟩
theorem State.modEng_pumped (s : State) (e : Nat) (f : Engine → Engine) : Pumped s (s.modEng e f) := ⟨rfl, fun _ h => h⟩
theorem State.modSem_pumped (s : State) (n : Nat) (f : Sem → Sem) : Pumped s (s.modSem n f) := ⟨rfl, fun _ h => h⟩
theorem State.modInstOn_pumped (s : State) (c : Nat) (f : Inst → Inst) : Pumped s (s.modInstOn c f) := by
  unfold State.modInstOn
  split
  · exact .refl s
  · exact ⟨rfl, fun _ h => h⟩
theorem State.foldl_pumped {α : Type} (f : State → α → State) (hf : ∀ s a, Pumped s (f s a)) (l : List α) (s : State) :
    Pumped s (l.foldl f s) := by
  induction l generalizing s with
  | nil => exact .refl s
  | cons a t ih => exact .trans (hf s a) (ih _)
theorem State.modCnt_pumped (s : State) (f : Counters → Counters) (hf : ∀ c, ∀ r ∈ c.due, r ∈ (f c).due) :
    Pumped s (s.modCnt f) := ⟨rfl, fun r h => hf _ r h⟩
theorem State.bumpBy_pumped (s : State) (k n : Nat) : Pumped s (s.bumpBy k n) := by
  unfold State.bumpBy
  exact State.modCnt_pumped s _ fun _ _ h => h
theorem State.bump_pumped (s : State) (k : Nat) : Pumped s (s.bump k) := by
  unfold State.bump
  exact State.bumpBy_pumped s k 1
theorem State.logEvt_pumped (s : State) (cls slot code : Nat) (tag : W32) (unit : Nat) (a0 a1 a2 a3 : W64) :
    Pumped s (s.logEvt cls slot code tag unit a0 a1 a2 a3) := by
  unfold State.logEvt
  exact State.modCnt_pumped s _ fun _ r h => (mem_insertDue _ _ _).2 (.inr h)
theorem State.stkEvt_pumped (s : State) (b : Nat) : Pumped s (s.stkEvt b) := by
  unfold State.stkEvt
  exact State.modMem_pumped s _
theorem State.countPort_pumped (s : State) (l k n : Nat) : Pumped s (s.countPort l k n) := by
  unfold State.countPort
  split
  · exact State.bumpBy_pumped _ _ _
  · exact .refl s
theorem State.countCe_pumped (s : State) (l : Nat) : Pumped s (s.countCe l) := by
  unfold State.countCe
  split
  · exact State.modMem_pumped _ _
  · exact State.bump_pumped _ _
  · exact State.bump_pumped _ _
  · exact .refl s
theorem State.countUe_pumped (s : State) (l : Nat) : Pumped s (s.countUe l) := by
  unfold State.countUe
  split
  · exact State.modMem_pumped _ _
  · exact State.bump_pumped _ _
  · exact State.bump_pumped _ _
  · exact .refl s

theorem State.foundUe_pumped (s : State) (r j l : Nat) : Pumped s (s.foundUe r j l) := by
  unfold State.foundUe
  simp only
  exact .trans (.trans (.trans (State.countUe_pumped s l) (State.stkEvt_pumped _ _)) (State.modMem_pumped _ _))
    (State.logEvt_pumped _ _ _ _ _ _ _ _ _ _)

theorem State.checkLine_pumped (s : State) (r j l : Nat) : Pumped s (s.checkLine r j l).1 := by
  have h0 : Pumped s (s.supplyLine l) := by
    unfold State.supplyLine
    split
    · exact State.modMem_pumped s _
    · exact .refl s
  have h1 := Pumped.trans h0 (State.countPort_pumped _ l 0 1)
  unfold State.checkLine
  simp only
  split
  · exact h1
  · exact .trans (.trans h1 (State.countCe_pumped _ _)) (State.stkEvt_pumped _ _)
  · exact .trans h1 (State.foundUe_pumped _ _ _ _)
  · exact .trans h1 (State.foundUe_pumped _ _ _ _)
  · exact .trans h1 (State.foundUe_pumped _ _ _ _)
  · split
    · exact .trans h1 (State.foundUe_pumped _ _ _ _)
    · split
      · exact .trans (.trans h1 (State.countCe_pumped _ _)) (State.stkEvt_pumped _ _)
      · exact h1

theorem State.checkLines_pumped (s : State) (r j : Nat) (l : List Nat) : Pumped s (s.checkLines r j l).1 := by
  induction l generalizing s with
  | nil => exact .refl s
  | cons a t ih => exact .trans (State.checkLine_pumped s r j a) (ih _)

theorem State.checkRange_pumped (s : State) (r j a n : Nat) : Pumped s (s.checkRange r j a n).1 := State.checkLines_pumped _ _ _ _

theorem State.checkSrc_pumped (s : State) (j : Nat) (l : List (Nat × Nat)) : Pumped s (s.checkSrc j l).1 := by
  induction l generalizing s with
  | nil => exact .refl s
  | cons a t ih => exact .trans (State.checkRange_pumped s rdDma j a.1 a.2) (ih _)

/-! A unit that gives up its wait (R220). -/

theorem State.sqAdvance_pumped (s : State) (c : Nat) : Pumped s (s.sqAdvance c) := State.modCore_pumped _ _ _
theorem State.veAdvance_pumped (s : State) (e : Nat) : Pumped s (s.veAdvance e) := State.modEng_pumped _ _ _
theorem State.semTake_pumped (s : State) (u : SemUnit) (n amt : Nat) : Pumped s (s.semTake u n amt) :=
  .trans (State.modSem_pumped _ _ _) (State.modInstOn_pumped _ _ _)
theorem State.semServeOne_pumped (s t : State) (n : Nat) (h : s.semServeOne n = some t) : Pumped s t := by
  unfold State.semServeOne at h
  split at h
  · cases h
  · split at h
    · cases h
      split
      · exact .trans (.trans (State.modSem_pumped _ _ _) (State.semTake_pumped _ _ _ _)) (State.sqAdvance_pumped _ _)
      · exact .trans (.trans (State.modSem_pumped _ _ _) (State.semTake_pumped _ _ _ _)) (State.veAdvance_pumped _ _)
    · cases h
theorem State.semServe_pumped (s : State) (n k : Nat) : Pumped s (s.semServe n k) := by
  induction k generalizing s with
  | zero => exact .refl s
  | succ k ih =>
    unfold State.semServe
    split
    · exact .refl s
    · rename_i t h
      exact .trans (State.semServeOne_pumped s t n h) (ih t)
theorem State.semQuit_pumped (s : State) (u : SemUnit) : Pumped s (s.semQuit u) :=
  .trans (show Pumped s (s.semLeave u) from ⟨rfl, fun _ h => h⟩)
    (State.foldl_pumped _ (fun t p => State.semServe_pumped t _ _) _ _)

theorem State.sqFault_pumped (s : State) (c : Nat) (code : SqCode) (pc d : Nat) : Pumped s (s.sqFault c code pc d) := by
  unfold State.sqFault
  simp only
  split
  · exact .trans (.trans (State.modCore_pumped _ _ _) (State.logEvt_pumped _ _ _ _ _ _ _ _ _ _)) (State.semQuit_pumped _ _)
  · exact .trans (State.modCore_pumped _ _ _) (State.logEvt_pumped _ _ _ _ _ _ _ _ _ _)
theorem State.veFaultAt_pumped (s : State) (e : Nat) (code : VeCode) (pc : Nat) : Pumped s (s.veFaultAt e code pc) := by
  unfold State.veFaultAt
  simp only
  split
  · exact .trans (.trans (State.modEng_pumped _ _ _) (State.logEvt_pumped _ _ _ _ _ _ _ _ _ _)) (State.semQuit_pumped _ _)
  · exact .trans (State.modEng_pumped _ _ _) (State.logEvt_pumped _ _ _ _ _ _ _ _ _ _)
theorem State.veFault_pumped (s : State) (e : Nat) (code : VeCode) : Pumped s (s.veFault e code) :=
  State.veFaultAt_pumped s e code _

theorem State.opMemFault_pumped (s : State) (o : LinkOp) : Pumped s (s.opMemFault o) := by
  unfold State.opMemFault
  split
  · exact State.sqFault_pumped _ _ _ _ _
  · exact State.veFaultAt_pumped _ _ _ _
  · exact .refl s

/-- A packet taken for its first sending (R330, R336). -/
theorem State.takePacket_pumped (s : State) (f : Nat) : Pumped s (s.takePacket f).1 := by
  unfold State.takePacket
  split
  · exact .refl s
  · split
    · exact .refl s
    · simp only
      split
      · exact .trans (State.checkSrc_pumped _ _ _) (.trans (State.modFlow_pumped _ _ _) (State.setOp_pumped _ _ _))
      · exact .trans (.trans (State.checkSrc_pumped _ _ _) (State.setOp_pumped _ _ _)) (State.opMemFault_pumped _ _)

/-- A packet discarded, with its acknowledgement (R333, R341). -/
theorem State.enqueue_pumped (s : State) (l src : Nat) (p : Packet) : Pumped s (s.enqueue l src p) := by
  unfold State.enqueue
  split
  · exact .refl s
  · exact State.modLnk_pumped _ _
theorem State.sendAck_pumped (s : State) (c f : Nat) (q : W16) (st : Nat) : Pumped s (s.sendAck c f q st) := by
  unfold State.sendAck
  simp only
  split
  · exact State.modLnk_pumped _ _
  · split
    · exact State.enqueue_pumped _ _ _ _
    · exact State.modLnk_pumped _ _
theorem State.noRoute_pumped (s : State) (p : Packet) : Pumped s (s.noRoute p) := by
  unfold State.noRoute State.lose
  split
  · exact State.modLnk_pumped _ _
  · exact .trans (State.modLnk_pumped _ _) (State.sendAck_pumped _ _ _ _ _)

/-- The local path (R126). -/
theorem State.pumpLocal_pumped (s : State) (f n : Nat) : Pumped s (s.pumpLocal f n) := by
  induction n generalizing s with
  | zero => exact .refl s
  | succ n ih =>
    unfold State.pumpLocal
    split
    · exact .refl s
    · split
      · have h := State.takePacket_pumped s f
        split
        · rename_i e
          rw [e] at h
          exact .trans h (.trans (State.modLnk_pumped _ _) (ih _))
        · rename_i e
          rw [e] at h
          exact h
      · split
        · have h := State.takePacket_pumped s f
          split
          · rename_i e
            rw [e] at h
            exact .trans h (.trans (State.noRoute_pumped _ _) (ih _))
          · rename_i e
            rw [e] at h
            exact h
        · exact .refl s

theorem State.addOp_pumped (s : State) (o : LinkOp) : Pumped s (s.addOp o) := by
  unfold State.addOp
  exact .trans (.trans (State.setOp_pumped _ _ _) (State.modLnk_pumped _ _)) (State.pumpLocal_pumped _ _ _)

/-- As Pumped, with the group's own state too. -/
def Messaged (s t : State) : Prop :=
  t = { s with mem := t.mem, cnt := t.cnt, cores := t.cores, engines := t.engines, lnk := t.lnk, grp := t.grp,
               sems := t.sems, fw := { s.fw with insts := t.fw.insts } } ∧
    ∀ r ∈ s.cnt.due, r ∈ t.cnt.due

theorem Messaged.refl (s : State) : Messaged s s := ⟨rfl, fun _ h => h⟩
theorem Messaged.trans {s t u : State} (h : Messaged s t) (k : Messaged t u) : Messaged s u := by
  refine ⟨?_, fun r hr => k.2 r (h.2 r hr)⟩
  have h1 := h.1
  have k1 := k.1
  rw [h1] at k1
  exact k1
theorem State.modGrp_messaged (s : State) (f : Group → Group) : Messaged s (s.modGrp f) := ⟨rfl, fun _ h => h⟩
theorem Pumped.messaged {s t : State} (h : Pumped s t) : Messaged s t := by
  obtain ⟨h1, h2⟩ := h
  refine ⟨?_, h2⟩
  have hg : t.grp = s.grp := by rw [h1]
  rw [hg]; exact h1

/-- A message sent: the sequence number of its destination, and the links. -/
theorem State.sendMgmt_messaged (s : State) (d t : Nat) (b : List Byte) : Messaged s (s.sendMgmt d t b) := by
  unfold State.sendMgmt
  exact .trans (State.modGrp_messaged _ _) (Pumped.messaged (State.addOp_pumped _ _))

end Sys2Proof.Machine
end

