-- ==== Sys2Proof/Laws/Commands.lean ====
section
/-! SUPPORT. Laws of Darkel's command table: running a command, its completion and its answers (R418, R419), and datagrams of the management port (R468). -/

namespace Sys2Proof.Machine

open Sys2Proof.Claim

/-! Answers. -/

/-- An answer to the port changes the port's state alone. -/
theorem State.portReply_frame (s : State) (i : Nat) (f : Bool) : s.portReply i f = { s with sec := (s.portReply i f).sec } := by
  unfold State.portReply
  split
  · rfl
  · simp only
    split <;> split <;> rfl

/-- An answer to a manager changes the group's state and the links, and what the links' own reads do. -/
theorem State.mgrReply_messaged (s : State) (i : Nat) : Messaged s (s.mgrReply i) := by
  unfold State.mgrReply
  split
  · exact .refl s
  · exact .trans (State.modGrp_messaged _ _) (State.sendMgmt_messaged _ _ _ _)

theorem State.portReply_none (s : State) (i : Nat) (f : Bool) (h : (s.sec.portCmds.find? fun p => p.1 == i) = none) :
    s.portReply i f = s := by
  unfold State.portReply
  rw [h]

theorem State.mgrReply_none (s : State) (i : Nat) (h : (s.grp.mgrCmds.find? fun p => p.1 == i) = none) : s.mgrReply i = s := by
  unfold State.mgrReply
  rw [h]

@[simp] theorem State.portReply_fw (s : State) (i : Nat) (f : Bool) : (s.portReply i f).fw = s.fw := by
  rw [State.portReply_frame]
@[simp] theorem State.portReply_cnt (s : State) (i : Nat) (f : Bool) : (s.portReply i f).cnt = s.cnt := by
  rw [State.portReply_frame]
@[simp] theorem State.portReply_mer (s : State) (i : Nat) (f : Bool) : (s.portReply i f).mer = s.mer := by
  rw [State.portReply_frame]
theorem State.mgrReply_fw (s : State) (i : Nat) :
    (s.mgrReply i).fw = { s.fw with insts := (s.mgrReply i).fw.insts } := by
  have h := (State.mgrReply_messaged s i).1
  exact congrArg State.fw h
@[simp] theorem State.mgrReply_cmd (s : State) (i m : Nat) : (s.mgrReply i).cmd m = s.cmd m := by
  unfold State.cmd; rw [State.mgrReply_fw]
@[simp] theorem State.mgrReply_mer (s : State) (i : Nat) : (s.mgrReply i).mer = s.mer := by
  rw [(State.mgrReply_messaged s i).1]
theorem State.mgrReply_due (s : State) (i : Nat) (r : LogRec) (hr : r ∈ s.cnt.due) : r ∈ (s.mgrReply i).cnt.due := by
  exact (State.mgrReply_messaged s i).2 r hr

/-- The table is read through Darkel's state alone. -/
theorem State.cmd_of_fw {s t : State} (h : s.fw = t.fw) (i : Nat) : s.cmd i = t.cmd i := by unfold State.cmd; rw [h]

/-! Completion. -/

theorem bit_setBit_self (w : W64) (n : Nat) (h : n < 64) : bit (setBit w n) n = true := by
  unfold bit setBit
  rw [BitVec.getLsbD_or, BitVec.getLsbD_ofNat, Nat.testBit_two_pow_self]
  simp [h]

/-- The entry as a completion leaves it. -/
def doneEntry (s : State) (i status result : Nat) : CmdEntry :=
  { s.cmd i with
    w := SMap.set 0 (SMap.set 0 (SMap.set 0 (s.cmd i).w 6 (statusWord status result)) 7 s.mer.now) 0
      (clrBit ((s.cmd i).took 0) 63),
    phase := .free, taken := [], quote := [] }

theorem State.finishCmd_cmd (s : State) (i status result m : Nat) :
    (s.finishCmd i status result).cmd m = if m = i then doneEntry s i status result else s.cmd m := by
  unfold State.finishCmd
  simp only
  have e : ∀ u : State, ((u.portReply i true).mgrReply i).cmd m = u.cmd m := fun u => by
    rw [State.mgrReply_cmd]; exact State.cmd_of_fw (by rw [State.portReply_fw]) m
  rw [e]
  split
  · rw [State.logEvt_cmd]
    exact (State.cmd_modCmd s i _ m : ((s.modCmd i fun e =>
      { e with w := SMap.set 0 (SMap.set 0 (SMap.set 0 e.w 6 (statusWord status result)) 7 s.mer.now) 0
                 (clrBit ((s.cmd i).took 0) 63), phase := .free, taken := [], quote := [] }).cmd m) = _)
  · rw [State.cmd_modCmd]; rfl

/-- Words 6, 7 and 0 of a completed command, and its free entry (R418). -/
theorem State.finishCmd_done (s : State) (i status result : Nat) : CmdDone i status result s (s.finishCmd i status result) := by
  have hm : (s.finishCmd i status result).mer = s.mer := by
    unfold State.finishCmd
    simp only
    rw [State.mgrReply_mer, State.portReply_mer]
    split <;> rfl
  refine ⟨?_, ?_, ?_, ?_⟩
  · rw [State.finishCmd_cmd, if_pos rfl]; rfl
  · rw [State.finishCmd_cmd, if_pos rfl]
    unfold CmdEntry.word doneEntry
    simp only [SMap.get_set]
    rfl
  · rw [State.finishCmd_cmd, if_pos rfl, hm]
    unfold CmdEntry.word doneEntry
    simp only [SMap.get_set]
    rfl
  · rw [State.finishCmd_cmd, if_pos rfl]
    unfold CmdEntry.word doneEntry
    simp only [SMap.get_set]
    rfl

/-! Running a command. -/

/-- A command that may not take its effect leaves the state as it is. -/
theorem State.runCmd_idle (s : State) (i code : Nat) (f : CmdEntry → State → CmdOut) (h : s.cmdRuns i code = false) :
    s.runCmd i code f = s := by
  unfold State.runCmd
  rw [h]; rfl

/-- A command that completes. -/
theorem State.runCmd_fin (s t : State) (i code status result : Nat) (f : CmdEntry → State → CmdOut)
    (h : s.cmdRuns i code = true) (hf : f (s.cmd i) s = .fin t status result) (hs : status < 0x10 ∨ status = csFail) :
    s.runCmd i code f = t.finishCmd i status result := by
  unfold State.runCmd
  rw [if_pos h, hf]
  simp only
  rw [if_pos hs]

/-- A command that is refused has its answer and no other effect (R421). -/
theorem State.runCmd_refused (s t : State) (i code status result : Nat) (f : CmdEntry → State → CmdOut)
    (h : s.cmdRuns i code = true) (hf : f (s.cmd i) s = .fin t status result) (hs : ¬ (status < 0x10 ∨ status = csFail)) :
    s.runCmd i code f = s.finishCmd i status result := by
  unfold State.runCmd
  rw [if_pos h, hf]
  simp only
  rw [if_neg hs]

/-- A command that goes on. -/
theorem State.runCmd_more (s t : State) (i code : Nat) (f : CmdEntry → State → CmdOut) (h : s.cmdRuns i code = true)
    (hf : f (s.cmd i) s = .more t) : s.runCmd i code f = t := by
  unfold State.runCmd
  rw [if_pos h, hf]

/-- A command refused after reads of memory. -/
theorem State.runCmd_bad (s t : State) (i code status : Nat) (f : CmdEntry → State → CmdOut) (h : s.cmdRuns i code = true)
    (hf : f (s.cmd i) s = .bad t status) : s.runCmd i code f = t.finishCmd i status 0 := by
  unfold State.runCmd
  rw [if_pos h, hf]

/-- Bit 5 of FW_EVT, REFUSED, and the log's record of a refusal (R422). -/
theorem State.finishCmd_refused (s : State) (i status : Nat) (hs : 0x10 ≤ status) : CmdRefused i status s (s.finishCmd i status 0) := by
  refine ⟨State.finishCmd_done s i status 0, ?_, ?_, ?_, ?_⟩
  · unfold State.finishCmd
    simp only
    rw [State.mgrReply_fw, State.portReply_fw, if_pos hs, State.logEvt_fw]
    exact bit_setBit_self _ _ (by decide)
  · unfold FwKept State.finishCmd
    simp only
    rw [State.mgrReply_fw, State.portReply_fw, if_pos hs, State.logEvt_fw]
    rfl
  · unfold State.finishCmd
    simp only
    rw [if_pos hs]
    refine ⟨⟨2, 255, 0x60, (s.cmd i).tag, 0, clrBit ((s.cmd i).took 0) 63, statusWord status 0, 0, 0, s.mer.now⟩,
      State.mgrReply_due _ _ _ ?_, rfl⟩
    rw [State.portReply_cnt, State.logEvt_due]
    exact (mem_insertDue _ _ _).2 (.inl rfl)
  · intro h
    unfold State.finishCmd
    simp only
    rw [if_pos hs, State.portReply_none _ _ _ (by exact h.1), State.mgrReply_none _ _ (by exact h.2)]
    rfl

/-! Datagrams. -/

/-- A datagram that completes its message hands it on, its fragments no longer held (R468). -/
theorem State.takePort_completes (s : State) (type : Nat) (m : PortMsg) (f : PortWhole → State → State) (h : Completes s type m) :
    s.takePort type m f = f (wholeOf s type m) (withoutParts m s) := by
  obtain ⟨hj, hl⟩ := h
  unfold State.takePort
  have e : (fun p : PortPart => p.src == m.src && p.session == m.session && p.seq == m.seq) = partOf m := rfl
  simp only [e]
  cases hp : s.sec.portParts.find? (partOf m) with
  | none =>
    have hf : fragsWith s m = SMap.insert m.fidx m.payload [] := by simp [fragsWith, hp]
    rw [hf] at hl
    simp only [Option.getD_none, hl, wholeOf, hf, if_true]
    simp [withoutParts, State.modSec, partOf]
  | some p =>
    have hf : fragsWith s m = SMap.insert m.fidx m.payload p.frags := by simp [fragsWith, hp]
    obtain ⟨h1, h2⟩ := hj p hp
    rw [hf] at hl
    simp only [Option.getD_some, hl, h1, h2, wholeOf, hf, if_true]
    simp [withoutParts, State.modSec, partOf]

/-- One that does not is held with the others. -/
theorem State.takePort_holds (s : State) (type : Nat) (m : PortMsg) (f : PortWhole → State → State) (hj : Joins s type m)
    (h : ¬ Completes s type m) : FragmentHeld type m s (s.takePort type m f) := by
  have hl : (fragsWith s m).length ≠ m.fcnt := fun x => h ⟨hj, x⟩
  unfold State.takePort
  have e : (fun p : PortPart => p.src == m.src && p.session == m.session && p.seq == m.seq) = partOf m := rfl
  simp only [e]
  cases hp : s.sec.portParts.find? (partOf m) with
  | none =>
    have hf : fragsWith s m = SMap.insert m.fidx m.payload [] := by simp [fragsWith, hp]
    rw [hf] at hl
    simp only [Option.getD_none, hl]
    simp [FragmentHeld, hf, State.modSec, partOf]
  | some p =>
    have hf : fragsWith s m = SMap.insert m.fidx m.payload p.frags := by simp [fragsWith, hp]
    obtain ⟨h1, h2⟩ := hj p hp
    have hs := List.find?_some hp
    rw [hf] at hl
    simp only [Option.getD_some, hl, h1, h2]
    simp only [partOf] at hs
    simp [FragmentHeld, hf, State.modSec, partOf]
    exact .inr (by simpa [and_assoc] using hs)

end Sys2Proof.Machine
end

