-- ==== Sys2Proof/Laws/MemoryForm.lean ====
section
/-! SUPPORT. The canonical form of the memory: every memory operation keeps it, and reset has it. -/

namespace Sys2Proof.Machine

theorem Memory.wf_iff (m : Mem) :
    Memory.wf m = true ↔ SMap.wf 0 m.cells = true ∧ SMap.wf .good m.lines = true ∧ SMap.wf [] m.wcb = true := by
  simp [Memory.wf, and_assoc]

theorem Memory.wf_reset : Memory.wf State.reset.mem = true := by decide

/-- A change of the memory that leaves its three tables. -/
theorem Memory.wf_of_eq (m n : Mem) (h : Memory.wf m = true) (h1 : n.cells = m.cells) (h2 : n.lines = m.lines)
    (h3 : n.wcb = m.wcb) : Memory.wf n = true := by
  simpa [Memory.wf, h1, h2, h3] using h

theorem State.setWcb_wf (s : State) (p : Nat) (l : List WcbEntry) (h : Memory.wf s.mem = true) :
    Memory.wf (s.setWcb p l).mem = true := by
  rw [Memory.wf_iff] at h ⊢
  exact ⟨h.1, h.2.1, SMap.wf_set _ _ _ _ h.2.2⟩

theorem State.setLine_wf (s : State) (l : Nat) (v : LineState) (h : Memory.wf s.mem = true) :
    Memory.wf (s.setLine l v).mem = true := by
  rw [Memory.wf_iff] at h ⊢
  exact ⟨h.1, SMap.wf_set _ _ _ _ h.2.1, h.2.2⟩

theorem State.poke_wf (s : State) (a : Nat) (bs : List Byte) (h : Memory.wf s.mem = true) :
    Memory.wf (s.poke a bs).mem = true := by
  induction bs generalizing s a with
  | nil => exact h
  | cons b t ih =>
    refine ih _ _ ?_
    rw [Memory.wf_iff] at h ⊢
    exact ⟨SMap.wf_set _ _ _ _ h.1, h.2.1, h.2.2⟩

theorem State.foldl_wf {α : Type} (f : State → α → State) (l : List α) (s : State)
    (hf : ∀ s a, Memory.wf s.mem = true → Memory.wf (f s a).mem = true) (h : Memory.wf s.mem = true) :
    Memory.wf (l.foldl f s).mem = true := by
  induction l generalizing s with
  | nil => exact h
  | cons a t ih => exact ih _ (hf s a h)

theorem State.ite_wf {c : Prop} [Decidable c] {s t : State} (hs : Memory.wf s.mem = true) (ht : Memory.wf t.mem = true) :
    Memory.wf (if c then s else t).mem = true := by split <;> assumption

theorem State.stkEvt_wf (s : State) (b : Nat) (h : Memory.wf s.mem = true) : Memory.wf (s.stkEvt b).mem = true := by
  unfold State.stkEvt
  rw [State.modMem_mem]
  exact Memory.wf_of_eq s.mem _ h rfl rfl rfl

theorem State.countCe_wf (s : State) (l : Nat) (h : Memory.wf s.mem = true) : Memory.wf (s.countCe l).mem = true := by
  unfold State.countCe
  split
  · rw [State.modMem_mem]; exact Memory.wf_of_eq s.mem _ h rfl rfl rfl
  · rw [State.bump_mem]; exact h
  · rw [State.bump_mem]; exact h
  · exact h

theorem State.countUe_wf (s : State) (l : Nat) (h : Memory.wf s.mem = true) : Memory.wf (s.countUe l).mem = true := by
  unfold State.countUe
  split
  · rw [State.modMem_mem]; exact Memory.wf_of_eq s.mem _ h rfl rfl rfl
  · rw [State.bump_mem]; exact h
  · rw [State.bump_mem]; exact h
  · exact h

@[simp] theorem State.countPort_mem (s : State) (l k n : Nat) : (s.countPort l k n).mem = s.mem := by
  unfold State.countPort; split <;> simp

theorem State.foundUe_wf (s : State) (r j l : Nat) (h : Memory.wf s.mem = true) :
    Memory.wf (s.foundUe r j l).mem = true := by
  unfold State.foundUe
  simp only [State.logEvt_mem, State.modMem_mem]
  have h1 := State.stkEvt_wf (s.countUe l) (if r = rdScrub then 1 else 2) (State.countUe_wf s l h)
  exact Memory.wf_of_eq ((s.countUe l).stkEvt (if r = rdScrub then 1 else 2)).mem _ h1 rfl rfl rfl

theorem State.checkLine_wf (s : State) (r j l : Nat) (h : Memory.wf s.mem = true) :
    Memory.wf (s.checkLine r j l).1.mem = true := by
  have h1 : Memory.wf ((s.supplyLine l).countPort l 0 1).mem = true := by
    rw [State.countPort_mem]
    unfold State.supplyLine
    split
    · exact Memory.wf_of_eq s.mem _ h rfl rfl rfl
    · exact h
  unfold State.checkLine
  simp only
  split
  · exact h1
  · exact State.stkEvt_wf _ _ (State.countCe_wf _ _ h1)
  · exact State.foundUe_wf _ _ _ _ h1
  · exact State.foundUe_wf _ _ _ _ h1
  · exact State.foundUe_wf _ _ _ _ h1
  · split
    · exact State.foundUe_wf _ _ _ _ h1
    · split
      · exact State.stkEvt_wf _ _ (State.countCe_wf _ _ h1)
      · exact h1

theorem State.checkLines_wf (s : State) (r j : Nat) (l : List Nat) (h : Memory.wf s.mem = true) :
    Memory.wf (s.checkLines r j l).1.mem = true := by
  induction l generalizing s with
  | nil => exact h
  | cons a t ih => exact ih _ (State.checkLine_wf _ _ _ _ h)

theorem State.checkRange_wf (s : State) (r j a n : Nat) (h : Memory.wf s.mem = true) :
    Memory.wf (s.checkRange r j a n).1.mem = true := State.checkLines_wf _ _ _ _ h

theorem State.writeLine_wf (s : State) (l : Nat) (bs : List Byte) (h : Memory.wf s.mem = true) :
    Memory.wf (s.writeLine l bs).mem = true := by
  unfold State.writeLine
  simp only [State.countPort_mem]
  refine State.setLine_wf _ _ _ (State.poke_wf _ _ _ ?_)
  split
  · exact State.setWcb_wf _ _ _ h
  · exact h

theorem State.recall_wf (s : State) (l : Nat) (h : Memory.wf s.mem = true) :
    Memory.wf (s.modMem fun m => m.recall l).mem = true := Memory.wf_of_eq s.mem _ h rfl rfl rfl

theorem State.mergeRead_wf (s : State) (l : Nat) (h : Memory.wf s.mem = true) : Memory.wf (s.mergeRead l).mem = true := by
  unfold State.mergeRead
  split
  · exact State.stkEvt_wf _ _ (State.countCe_wf _ _ h)
  · exact State.ite_wf (State.stkEvt_wf _ _ (State.countCe_wf _ _ h)) h
  · exact h

theorem State.mergeLine_wf (s : State) (l : Nat) (bs : List (Nat × Byte)) (h : Memory.wf s.mem = true) :
    Memory.wf (s.mergeLine l bs).mem = true := by
  have h1 := State.mergeRead_wf s l h
  unfold State.mergeLine
  simp only
  refine State.ite_wf ?_ ?_ <;> rw [State.countPort_mem]
  · exact State.stkEvt_wf _ _ (State.setLine_wf _ _ _ (State.recall_wf _ _ h1))
  · exact State.foldl_wf _ _ _ (fun s a hs => State.poke_wf _ _ _ hs)
      (State.setLine_wf _ _ _ (State.ite_wf (State.poke_wf _ _ _ h1) h1))

theorem State.flushEntry_wf (s : State) (p : Nat) (w : WcbEntry) (h : Memory.wf s.mem = true) :
    Memory.wf (s.flushEntry p w).mem = true := by
  unfold State.flushEntry
  simp only
  split
  · simp only [State.countPort_mem]
    exact State.setLine_wf _ _ _ (State.poke_wf _ _ _ (State.setWcb_wf _ _ _ h))
  · simp only [State.countPort_mem]
    exact State.mergeLine_wf _ _ _ (State.setWcb_wf _ _ _ h)

theorem State.flushLine_wf (s : State) (l : Nat) (h : Memory.wf s.mem = true) : Memory.wf (s.flushLine l).mem = true := by
  unfold State.flushLine
  split
  · exact h
  · split
    · exact h
    · exact State.flushEntry_wf _ _ _ h

theorem State.placePart_wf (s : State) (a : Nat) (bs : List Byte) (h : Memory.wf s.mem = true) :
    Memory.wf (s.placePart a bs).mem = true := by
  unfold State.placePart
  simp only
  split
  · exact State.mergeLine_wf _ _ _ h
  · split
    · split
      · exact State.flushEntry_wf _ _ _ (State.setWcb_wf _ _ _ h)
      · exact State.setWcb_wf _ _ _ h
    · refine State.setWcb_wf _ _ _ ?_
      split
      · split
        · exact State.flushEntry_wf _ _ _ h
        · exact h
      · exact h

theorem State.writePart_wf (s : State) (a : Nat) (bs : List Byte) (h : Memory.wf s.mem = true) :
    Memory.wf (s.writePart a bs).mem = true := State.placePart_wf _ _ _ (State.recall_wf s (lineOf a) h)

theorem State.writeIn_wf (s : State) (a : Nat) (bs : List Byte) (h : Memory.wf s.mem = true) :
    Memory.wf (s.writeIn a bs).mem = true := by
  unfold State.writeIn
  simp only
  split
  · exact State.writeLine_wf _ _ _ h
  · split
    · exact h
    · exact State.writePart_wf _ _ _ h

theorem State.write_wf (s : State) (a : Nat) (bs : List Byte) (h : Memory.wf s.mem = true) :
    Memory.wf (s.write a bs).mem = true := State.foldl_wf _ _ _ (fun _ _ hs => State.writeIn_wf _ _ _ hs) h

theorem State.flushRange_wf (s : State) (a n : Nat) (h : Memory.wf s.mem = true) :
    Memory.wf (s.flushRange a n).mem = true := State.foldl_wf _ _ _ (fun _ _ hs => State.flushLine_wf _ _ hs) h

theorem State.writeDone_wf (s : State) (a : Nat) (bs : List Byte) (h : Memory.wf s.mem = true) :
    Memory.wf (s.writeDone a bs).mem = true := State.flushRange_wf _ _ _ (State.write_wf _ _ _ h)

theorem State.writeW64_wf (s : State) (a : Nat) (w : W64) (h : Memory.wf s.mem = true) :
    Memory.wf (s.writeW64 a w).mem = true := State.writeDone_wf _ _ _ h

theorem State.writeWords_wf (s : State) (a : Nat) (w : List W64) (h : Memory.wf s.mem = true) :
    Memory.wf (s.writeWords a w).mem = true := State.writeDone_wf _ _ _ h

end Sys2Proof.Machine
end

