-- ==== Sys2Proof/Laws/Memory.lean ====
section
/-! SUPPORT. Laws of memory whose lines are good: what every write does, seen through the read of one byte (R187 to R190). -/

namespace Sys2Proof.Machine

open Sys2Proof.Claim

/-! The read of one byte. -/

/-- The byte a list of buffer entries holds for an address. -/
def bufByte (l : List WcbEntry) (a : Nat) : Option Byte :=
  match wcbFind l (lineOf a) with
  | none => none
  | some w => SMap.get none w.bytes (a % 128)

/-- The byte at a canonical address of a good line: the buffered one, else the stored one. -/
def State.view (s : State) (a : Nat) : Byte := (s.wcbByte a).getD (SMap.get 0 s.mem.cells a)

theorem State.wcbByte_eq (s : State) (a : Nat) :
    s.wcbByte a = match wcbPort (lineOf a) with | none => none | some p => bufByte (s.wcbAt p) a := rfl

theorem State.peek_view (s : State) (h : LinesGood s) (a : Nat) : s.peek a = s.view (canon a) := by
  unfold State.peek State.view
  simp only [h (lineOf (canon a))]
  cases s.wcbByte (canon a) <;> rfl

/-- Only the memory and counters have changed. -/
def MemCnt (s t : State) : Prop := t = { s with mem := t.mem, cnt := t.cnt }

theorem MemCnt.refl (s : State) : MemCnt s s := rfl
theorem MemCnt.trans {s t u : State} (h : MemCnt s t) (k : MemCnt t u) : MemCnt s u := by
  unfold MemCnt at *; rw [k, h]
theorem State.modMem_memCnt (s : State) (f : Mem → Mem) : MemCnt s (s.modMem f) := rfl
theorem State.modCnt_memCnt (s : State) (f : Counters → Counters) : MemCnt s (s.modCnt f) := rfl
theorem State.bumpBy_memCnt (s : State) (k n : Nat) : MemCnt s (s.bumpBy k n) := State.modCnt_memCnt s _
theorem State.countPort_memCnt (s : State) (l k n : Nat) : MemCnt s (s.countPort l k n) := by
  unfold State.countPort; split
  · exact State.bumpBy_memCnt _ _ _
  · exact .refl s

/-- A write of one operation: it leaves good lines and sound buffers, touches the memory and counters only, and every byte
reads as `f` says. -/
structure Writes (s t : State) (f : Nat → Byte) : Prop where
  good : LinesGood t
  sound : WcbSound t
  frame : MemCnt s t
  view : ∀ a, t.view a = f a

/-! Stores in the arrays. -/

@[simp] theorem State.setLine_wcbAt (s : State) (l : Nat) (v : LineState) (p : Nat) : (s.setLine l v).wcbAt p = s.wcbAt p := rfl
@[simp] theorem State.setLine_cells (s : State) (l : Nat) (v : LineState) : (s.setLine l v).mem.cells = s.mem.cells := rfl
theorem State.lineSt_setLine (s : State) (l : Nat) (v : LineState) (m : Nat) :
    (s.setLine l v).lineSt m = if m = l then v else s.lineSt m := SMap.get_set _ _ _ _ _
@[simp] theorem State.setWcb_cells (s : State) (p : Nat) (l : List WcbEntry) : (s.setWcb p l).mem.cells = s.mem.cells := rfl
@[simp] theorem State.setWcb_lineSt (s : State) (p : Nat) (l : List WcbEntry) (m : Nat) :
    (s.setWcb p l).lineSt m = s.lineSt m := rfl
theorem State.wcbAt_setWcb (s : State) (p : Nat) (l : List WcbEntry) (q : Nat) :
    (s.setWcb p l).wcbAt q = if q = p then l else s.wcbAt q := SMap.get_set _ _ _ _ _
@[simp] theorem State.countPort_wcbAt (s : State) (l k n p : Nat) : (s.countPort l k n).wcbAt p = s.wcbAt p := by
  unfold State.wcbAt; rw [State.countPort_mem]
@[simp] theorem State.countPort_lineSt (s : State) (l k n m : Nat) : (s.countPort l k n).lineSt m = s.lineSt m := by
  unfold State.lineSt; rw [State.countPort_mem]

theorem State.poke_frame (s : State) (a : Nat) (bs : List Byte) :
    MemCnt s (s.poke a bs) ∧ (∀ p, (s.poke a bs).wcbAt p = s.wcbAt p) ∧ ∀ l, (s.poke a bs).lineSt l = s.lineSt l := by
  induction bs generalizing s a with
  | nil => exact ⟨rfl, fun _ => rfl, fun _ => rfl⟩
  | cons b t ih =>
    obtain ⟨h1, h2, h3⟩ := ih (s.modMem fun m =>
      { (m.recall (lineOf (canon a))) with cells := SMap.set 0 m.cells (canon a) b }) (a + 1)
    exact ⟨.trans (State.modMem_memCnt _ _) h1, fun p => (h2 p).trans rfl, fun l => (h3 l).trans rfl⟩

/-- Bytes stored at canonical addresses. -/
theorem State.poke_cells (s : State) (a : Nat) (bs : List Byte) (hc : ∀ k, k < bs.length → canon (a + k) = a + k) (x : Nat) :
    SMap.get 0 (s.poke a bs).mem.cells x =
      if a ≤ x ∧ x < a + bs.length then (bs[x - a]?).getD 0 else SMap.get 0 s.mem.cells x := by
  induction bs generalizing s a with
  | nil => rw [if_neg (by simp)]; rfl
  | cons b t ih =>
    unfold State.poke
    rw [ih _ (a + 1) (by
      intro k hk
      have := hc (k + 1) (by simpa using hk)
      rw [Nat.add_assoc, Nat.add_comm 1 k]; exact this)]
    have h0 : canon a = a := hc 0 (by simp)
    simp only [State.modMem_mem, h0, SMap.get_set, List.length_cons]
    by_cases hx : x = a
    · subst hx
      rw [if_neg (by omega), if_pos rfl, if_pos (by omega)]; simp
    · by_cases h1 : a + 1 ≤ x ∧ x < a + 1 + t.length
      · rw [if_pos h1, if_pos (by omega), show x - a = (x - (a + 1)) + 1 by omega]
        rfl
      · rw [if_neg h1, if_neg hx, if_neg (by omega)]

/-- One byte stored. -/
theorem State.poke_one (s : State) (a : Nat) (b : Byte) (hc : canon a = a) (x : Nat) :
    SMap.get 0 (s.poke a [b]).mem.cells x = if x = a then b else SMap.get 0 s.mem.cells x := by
  rw [State.poke_cells s a [b] (by intro k hk; simp at hk; subst hk; simpa using hc)]
  by_cases h : x = a
  · subst h; simp
  · rw [if_neg (by simp; omega), if_neg h]

/-- A key below every listed key is not listed. -/
theorem SMap.get_above {α : Type} (d : α) (m : SMap α) (k : Nat) (h : ∀ q ∈ m, k < q.1) : SMap.get d m k = d := by
  induction m with
  | nil => rfl
  | cons q r ih =>
    obtain ⟨j, w⟩ := q
    have h5 : k < j := h (j, w) (by simp)
    rw [SMap.get_cons, if_neg (by omega)]
    exact ih fun q hq => h q (List.mem_cons_of_mem _ hq)

/-- Bytes of a canonical line stored one by one from a table of them. -/
theorem State.foldPoke (line : Nat) (hl : line % 128 = 0) (hc : canon line = line) (m : SMap (Option Byte)) (s : State)
    (hm : m.Pairwise fun p q => p.1 < q.1) (hk : ∀ q ∈ m, q.1 < 128) (hs : ∀ q ∈ m, q.2 ≠ none) :
    let t := (m.filterMap fun q => q.2.map fun b => (q.1, b)).foldl (fun t p => t.poke (line + p.1) [p.2]) s
    MemCnt s t ∧ (∀ p, t.wcbAt p = s.wcbAt p) ∧ (∀ l, t.lineSt l = s.lineSt l) ∧
      ∀ x, SMap.get 0 t.mem.cells x =
        if lineOf x = line then (SMap.get none m (x % 128)).getD (SMap.get 0 s.mem.cells x) else SMap.get 0 s.mem.cells x := by
  induction m generalizing s with
  | nil => exact ⟨rfl, fun _ => rfl, fun _ => rfl, fun x => by simp⟩
  | cons q r ih =>
    obtain ⟨k, v⟩ := q
    have hk0 : k < 128 := hk (k, v) (by simp)
    have hp := List.pairwise_cons.1 hm
    cases v with
    | none => exact absurd rfl (hs (k, none) (by simp))
    | some b =>
      obtain ⟨h1, h2, h3, h4⟩ := ih (s.poke (line + k) [b]) hp.2 (fun q hq => hk q (List.mem_cons_of_mem _ hq))
        (fun q hq => hs q (List.mem_cons_of_mem _ hq))
      obtain ⟨f1, f2, f3⟩ := State.poke_frame s (line + k) [b]
      refine ⟨.trans f1 h1, fun p => (h2 p).trans (f2 p), fun l => (h3 l).trans (f3 l), fun x => ?_⟩
      have h4x := h4 x
      simp only [List.filterMap_cons, Option.map_some, List.foldl_cons] at h4x ⊢
      rw [h4x, State.poke_one s _ b (canon_in_line line k hl hc hk0)]
      by_cases hx : lineOf x = line
      · rw [if_pos hx, if_pos hx, SMap.get_cons]
        have hxe : x = line + x % 128 := by rw [← hx]; exact (lineOf_add_mod x).symm
        by_cases hkx : k = x % 128
        · have hx2 : x = line + k := by rw [hkx]; exact hxe
          have hn : SMap.get none r (x % 128) = none := by
            rw [← hkx]
            exact SMap.get_above none r k fun q hq => hp.1 q hq
          rw [hn, if_pos hx2, if_pos hkx]; rfl
        · rw [if_neg hkx, if_neg (by omega)]
      · rw [if_neg hx, if_neg hx, if_neg]
        intro h; apply hx; rw [h]; exact lineOf_eq line k hl hk0

/-- A rising list of n numbers from i below i + n is all of them. -/
theorem rising_range (ks : List Nat) (i n : Nat) (h : ks.Pairwise (· < ·)) (h1 : ∀ k ∈ ks, i ≤ k ∧ k < i + n)
    (hn : ks.length = n) : ks = List.range' i n := by
  induction ks generalizing i n with
  | nil => subst hn; rfl
  | cons k t ih =>
    have hp := List.pairwise_cons.1 h
    obtain ⟨m, rfl⟩ : ∃ m, n = m + 1 := ⟨t.length, by simpa using hn.symm⟩
    have hk := h1 k (by simp)
    have hlen : t.length = m := by simpa using hn
    have key : k = i := by
      rcases Nat.lt_or_ge i k with hik | hik
      · exfalso
        -- all of t lies above k
        have aux : ∀ (t : List Nat) (lo hi : Nat), t.Pairwise (· < ·) → (∀ x ∈ t, lo < x ∧ x < hi) → t.length + lo < hi ∨ t = [] := by
          intro t
          induction t with
          | nil => intro lo hi _ _; exact .inr rfl
          | cons x t ih =>
            intro lo hi hp hb
            have hp' := List.pairwise_cons.1 hp
            have hx := hb x (by simp)
            rcases ih x hi hp'.2 (fun y hy => ⟨hp'.1 y hy, (hb y (List.mem_cons_of_mem _ hy)).2⟩) with h | h
            · left; simp only [List.length_cons]; omega
            · left; subst h; simp only [List.length_cons, List.length_nil]; omega
        rcases aux t k (i + (m + 1)) hp.2 (fun y hy => ⟨hp.1 y hy, (h1 y (List.mem_cons_of_mem _ hy)).2⟩) with h | h
        · omega
        · subst h; simp at hlen; omega
      · omega
    subst key
    rw [List.range'_succ]
    congr 1
    refine ih (k + 1) m hp.2 ?_ hlen
    intro y hy
    have := hp.1 y hy
    have := (h1 y (List.mem_cons_of_mem _ hy)).2
    omega

/-! The buffers. -/

theorem wcbFind_mem (l : List WcbEntry) (w : WcbEntry) (hn : (l.map (·.line)).Nodup) (hw : w ∈ l) :
    wcbFind l w.line = some w := by
  induction l with
  | nil => cases hw
  | cons x t ih =>
    have hp : x.line ∉ t.map (·.line) ∧ (t.map (·.line)).Nodup := List.nodup_cons.1 hn
    unfold wcbFind
    rw [List.find?_cons]
    rcases List.mem_cons.1 hw with rfl | h
    · simp
    · have : x.line ≠ w.line := fun e => hp.1 (e ▸ List.mem_map_of_mem h)
      rw [show (x.line == w.line) = false from beq_false_of_ne this]
      exact ih hp.2 h

theorem wcbFind_some (l : List WcbEntry) (m : Nat) (w : WcbEntry) (h : wcbFind l m = some w) : w ∈ l ∧ w.line = m :=
  ⟨List.mem_of_find?_eq_some h, by simpa using List.find?_some h⟩

theorem wcbFind_filter (l : List WcbEntry) (m n : Nat) :
    wcbFind (l.filter fun x => x.line != m) n = if n = m then none else wcbFind l n := by
  induction l with
  | nil => simp [wcbFind]
  | cons x t ih =>
    unfold wcbFind at ih ⊢
    rw [List.filter_cons, List.find?_cons]
    by_cases h : x.line = m
    · rw [if_neg (by simp [h]), ih]
      by_cases hn : n = m
      · simp [hn]
      · rw [if_neg hn, if_neg hn, show (x.line == n) = false from beq_false_of_ne (by omega)]
    · rw [if_pos (by simpa using h), List.find?_cons, ih]
      by_cases hn : n = m
      · subst hn
        rw [show (x.line == n) = false from beq_false_of_ne h, if_pos rfl]
      · rw [if_neg hn, if_neg hn]

theorem bufByte_filter (l : List WcbEntry) (m a : Nat) :
    bufByte (l.filter fun x => x.line != m) a = if lineOf a = m then none else bufByte l a := by
  unfold bufByte
  rw [wcbFind_filter]
  by_cases h : lineOf a = m
  · rw [if_pos h, if_pos h]
  · rw [if_neg h, if_neg h]

/-- Bytes merged into a table of bytes. -/
theorem mergeBytes_get (m : SMap (Option Byte)) (off : Nat) (bs : List Byte) (k : Nat) :
    SMap.get none (mergeBytes m off bs) k = if off ≤ k ∧ k < off + bs.length then bs[k - off]? else SMap.get none m k := by
  induction bs generalizing m off with
  | nil => rw [if_neg (by simp)]; rfl
  | cons b t ih =>
    unfold mergeBytes
    rw [ih, SMap.get_set]
    simp only [List.length_cons]
    by_cases hk : k = off
    · subst hk; rw [if_neg (by omega), if_pos rfl, if_pos (by omega)]; simp
    · by_cases h1 : off + 1 ≤ k ∧ k < off + 1 + t.length
      · rw [if_pos h1, if_pos (by omega), show k - off = (k - (off + 1)) + 1 by omega]; rfl
      · rw [if_neg h1, if_neg hk, if_neg (by omega)]

theorem mergeBytes_wf (m : SMap (Option Byte)) (off : Nat) (bs : List Byte) (h : SMap.wf none m = true) :
    SMap.wf none (mergeBytes m off bs) = true := by
  induction bs generalizing m off with
  | nil => exact h
  | cons b t ih => exact ih _ _ (SMap.wf_set _ _ _ _ h)

theorem mergeBytes_keys (m : SMap (Option Byte)) (off : Nat) (bs : List Byte) (h : ∀ q ∈ m, q.1 < 128)
    (hb : off + bs.length ≤ 128) : ∀ q ∈ mergeBytes m off bs, q.1 < 128 := by
  induction bs generalizing m off with
  | nil => exact h
  | cons b t ih =>
    simp only [List.length_cons] at hb
    refine ih _ _ ?_ (by omega)
    intro q hq
    rcases SMap.mem_insert off (some b) m q hq with h1 | h1
    · rw [h1]; show off < 128; omega
    · exact h q h1

/-! The table of a sound entry as a list of bytes. -/

theorem filterMap_keys (m : SMap (Option Byte)) (h : ∀ q ∈ m, q.2 ≠ none) :
    (m.filterMap fun q => q.2.map fun b => (q.1, b)).map (·.1) = m.map (·.1) ∧
      (m.filterMap fun q => q.2.map fun b => (q.1, b)).length = m.length := by
  induction m with
  | nil => exact ⟨rfl, rfl⟩
  | cons q r ih =>
    obtain ⟨k, v⟩ := q
    obtain ⟨h1, h2⟩ := ih fun q hq => h q (List.mem_cons_of_mem _ hq)
    cases v with
    | none => exact absurd rfl (h (k, none) (by simp))
    | some b => simp [h1, h2]

/-- A table whose keys are all of a range holds its bytes in order. -/
theorem SMap.get_range (m : SMap (Option Byte)) (i n : Nat) (h : ∀ q ∈ m, q.2 ≠ none) (hk : m.map (·.1) = List.range' i n)
    (k : Nat) (h1 : i ≤ k) (h2 : k < i + n) :
    SMap.get none m k = ((m.filterMap fun q => q.2.map fun b => (q.1, b)).map (·.2))[k - i]? ∧ SMap.get none m k ≠ none := by
  induction n generalizing m i with
  | zero => omega
  | succ n ih =>
    rw [List.range'_succ] at hk
    cases m with
    | nil => cases hk
    | cons q r =>
      obtain ⟨j, v⟩ := q
      simp only [List.map_cons, List.cons.injEq] at hk
      obtain ⟨rfl, hk2⟩ := hk
      cases v with
      | none => exact absurd rfl (h (j, none) (by simp))
      | some b =>
        rw [SMap.get_cons]
        by_cases hj : j = k
        · subst hj; simp
        · rw [if_neg hj]
          have := ih r (j + 1) (fun q hq => h q (List.mem_cons_of_mem _ hq)) hk2 (by omega) (by omega)
          refine ⟨?_, this.2⟩
          rw [this.1, show k - j = (k - (j + 1)) + 1 by omega]
          simp

theorem linesGood_setWcb {s : State} (h : LinesGood s) (p : Nat) (l : List WcbEntry) : LinesGood (s.setWcb p l) := h
theorem linesGood_setLine {s : State} (h : LinesGood s) (l : Nat) : LinesGood (s.setLine l .good) := by
  intro m; rw [State.lineSt_setLine]; split
  · rfl
  · exact h m
theorem linesGood_of_lineSt {s t : State} (h : LinesGood s) (e : ∀ l, t.lineSt l = s.lineSt l) : LinesGood t :=
  fun l => (e l).trans (h l)

/-- What is sound of every port is sound of a state with the same buffers. -/
theorem wcbSound_of_wcbAt {s t : State} (h : WcbSound s) (e : ∀ p, t.wcbAt p = s.wcbAt p) : WcbSound t := by
  intro p; rw [e p]; exact h p

theorem wcbSound_setWcb {s : State} (h : WcbSound s) (p : Nat) (l : List WcbEntry) (h1 : ∀ w ∈ l, EntrySound p w)
    (h2 : (l.map (·.line)).Nodup) : WcbSound (s.setWcb p l) := by
  intro q
  rw [State.wcbAt_setWcb]
  split
  · rename_i e; subst e; exact ⟨h1, h2⟩
  · exact h q

theorem wcbSound_filter {s : State} (h : WcbSound s) (p m : Nat) :
    WcbSound (s.setWcb p ((s.wcbAt p).filter fun x => x.line != m)) :=
  wcbSound_setWcb h p _ (fun w hw => (h p).1 w (List.mem_filter.1 hw).1)
    ((h p).2.sublist (List.Sublist.map _ List.filter_sublist))

/-- The view of a byte depends on its port's buffer and its stored byte alone. -/
theorem State.view_eq (s : State) (a : Nat) :
    s.view a = ((match wcbPort (lineOf a) with | none => none | some p => bufByte (s.wcbAt p) a).getD
      (SMap.get 0 s.mem.cells a)) := rfl

/-- Merging bytes into a good line whose buffer holds nothing of it. -/
theorem State.mergeLine_good (s : State) (line : Nat) (m : SMap (Option Byte)) (hl : line % 128 = 0) (hc : canon line = line)
    (hg : LinesGood s) (hm : SMap.wf none m = true) (hk : ∀ q ∈ m, q.1 < 128) :
    let t := s.mergeLine line (m.filterMap fun q => q.2.map fun b => (q.1, b))
    MemCnt s t ∧ (∀ p, t.wcbAt p = s.wcbAt p) ∧ LinesGood t ∧
      ∀ x, SMap.get 0 t.mem.cells x =
        if lineOf x = line then (SMap.get none m (x % 128)).getD (SMap.get 0 s.mem.cells x) else SMap.get 0 s.mem.cells x := by
  have hw := (SMap.wf_iff none m).1 hm
  obtain ⟨h1, h2, h3, h4⟩ := State.foldPoke line hl hc m (s.setLine line .good) hw.1 hk hw.2
  have e : s.mergeLine line (m.filterMap fun q => q.2.map fun b => (q.1, b)) =
      ((m.filterMap fun q => q.2.map fun b => (q.1, b)).foldl (fun t p => t.poke (line + p.1) [p.2])
        (s.setLine line .good)).countPort line 1 1 := by
    have hr : s.mergeRead line = s := by unfold State.mergeRead; rw [hg line]
    unfold State.mergeLine
    simp [hr, hg line]
  simp only [e]
  refine ⟨.trans (.trans (State.modMem_memCnt s _) h1) (State.countPort_memCnt _ _ _ _), fun p => ?_, ?_, fun x => ?_⟩
  · rw [State.countPort_wcbAt, h2 p, State.setLine_wcbAt]
  · exact linesGood_of_lineSt (linesGood_setLine hg line) fun l => by rw [State.countPort_lineSt, h3 l]
  · rw [State.countPort_mem, h4 x]; rfl

/-- Writing a buffer entry to its line changes no byte that a read gives (R188, R189). -/
theorem State.flushEntry_writes (s : State) (p : Nat) (w : WcbEntry) (hg : LinesGood s) (hs : WcbSound s) (hw : w ∈ s.wcbAt p) :
    Writes s (s.flushEntry p w) s.view ∧
      ∀ q, (s.flushEntry p w).wcbAt q = if q = p then (s.wcbAt p).filter (fun x => x.line != w.line) else s.wcbAt q := by
  obtain ⟨hp, hl, hc, hwf, hk⟩ := (hs p).1 w hw
  have hl0 : w.line % 128 = 0 := by rw [← hl]; exact lineOf_mod _
  have hwi := (SMap.wf_iff none w.bytes).1 hwf
  have hfind : wcbFind (s.wcbAt p) w.line = some w := wcbFind_mem _ _ (hs p).2 hw
  -- what any state with the entry removed and its bytes stored reads as
  have key : ∀ t : State, (∀ q, t.wcbAt q = (s.setWcb p ((s.wcbAt p).filter fun x => x.line != w.line)).wcbAt q) →
      (∀ x, SMap.get 0 t.mem.cells x =
        if lineOf x = w.line then (SMap.get none w.bytes (x % 128)).getD (SMap.get 0 s.mem.cells x)
        else SMap.get 0 s.mem.cells x) → ∀ a, t.view a = s.view a := by
    intro t h1 h2 a
    rw [State.view_eq, State.view_eq, h2 a]
    by_cases ha : lineOf a = w.line
    · rw [if_pos ha, ha, hp]
      simp only [h1, State.wcbAt_setWcb, if_pos]
      rw [bufByte_filter, if_pos ha]
      simp only [bufByte, ha, hfind]
      rfl
    · rw [if_neg ha]
      cases hq : wcbPort (lineOf a) with
      | none => rfl
      | some q =>
        simp only [h1, State.wcbAt_setWcb]
        by_cases hqp : q = p
        · subst hqp; rw [if_pos rfl, bufByte_filter, if_neg ha]
        · rw [if_neg hqp]
  unfold State.flushEntry
  simp only
  split
  · rename_i hlen
    obtain ⟨f1, f2⟩ := filterMap_keys w.bytes hwi.2
    have hr : w.bytes.map (·.1) = List.range' 0 128 := by
      refine rising_range _ 0 128 ?_ ?_ ?_
      · exact List.pairwise_map.2 hwi.1
      · intro k hk2
        obtain ⟨q, hq, rfl⟩ := List.mem_map.1 hk2
        exact ⟨Nat.zero_le _, by have := hk q hq; omega⟩
      · rw [List.length_map, ← f2]; exact hlen
    obtain ⟨p1, p2, p3⟩ := State.poke_frame (s.setWcb p ((s.wcbAt p).filter fun x => x.line != w.line)) w.line
      ((w.bytes.filterMap fun q => q.2.map fun b => (q.1, b)).map (·.2))
    refine ⟨⟨?_, ?_, ?_, key _ ?_ ?_⟩, fun q => by
      rw [State.countPort_wcbAt, State.setLine_wcbAt, p2, State.wcbAt_setWcb]⟩
    · exact linesGood_of_lineSt (linesGood_setLine (linesGood_of_lineSt hg fun l => by rw [p3]; rfl) w.line)
        fun l => State.countPort_lineSt _ _ _ _ _
    · exact wcbSound_of_wcbAt (wcbSound_filter hs p w.line) fun q => by
        rw [State.countPort_wcbAt, State.setLine_wcbAt, p2]
    · exact .trans (.trans (.trans (State.modMem_memCnt _ _) p1) (State.modMem_memCnt _ _)) (State.countPort_memCnt _ _ _ _)
    · intro q; rw [State.countPort_wcbAt, State.setLine_wcbAt, p2]
    · intro x
      rw [State.countPort_mem, State.setLine_cells, State.poke_cells _ _ _ (by
        intro k hk2
        rw [List.length_map, hlen] at hk2
        exact canon_in_line _ _ hl0 hc hk2), State.setWcb_cells, List.length_map, hlen]
      by_cases hx : lineOf x = w.line
      · have hxe := lineOf_add_mod x
        have hx128 : x % 128 < 128 := Nat.mod_lt _ (by decide)
        rw [if_pos hx, if_pos (by omega)]
        obtain ⟨g1, g2⟩ := SMap.get_range w.bytes 0 128 hwi.2 hr (x % 128) (Nat.zero_le _) (by omega)
        rw [show x - w.line = x % 128 - 0 by omega, ← g1]
        cases hv : SMap.get none w.bytes (x % 128) with
        | none => exact absurd hv g2
        | some b => rfl
      · rw [if_neg hx, if_neg]
        intro hr2; apply hx
        rw [show x = w.line + (x - w.line) by omega]
        exact lineOf_eq _ _ hl0 (by omega)
  · obtain ⟨h1, h2, h3, h4⟩ := State.mergeLine_good (s.setWcb p ((s.wcbAt p).filter fun x => x.line != w.line)) w.line w.bytes
      hl0 hc hg hwf hk
    refine ⟨⟨?_, ?_, ?_, key _ ?_ ?_⟩, fun q => by rw [State.countPort_wcbAt, h2, State.wcbAt_setWcb]⟩
    · exact linesGood_of_lineSt h3 fun l => State.countPort_lineSt _ _ _ _ _
    · exact wcbSound_of_wcbAt (wcbSound_filter hs p w.line) fun q => by rw [State.countPort_wcbAt, h2]
    · exact .trans (.trans (State.modMem_memCnt _ _) h1) (State.countPort_memCnt _ _ _ _)
    · intro q; rw [State.countPort_wcbAt, h2]
    · intro x; rw [State.countPort_mem, h4 x]; rfl

/-! Writes within one line. -/

/-- Bytes laid over a view. -/
def laid (a : Nat) (bs : List Byte) (f : Nat → Byte) (x : Nat) : Byte :=
  if a ≤ x ∧ x < a + bs.length then (bs[x - a]?).getD 0 else f x

/-- A table with rising keys reads at a listed key as listed. -/
theorem SMap.get_mem {α : Type} (d : α) (m : SMap α) (h : m.Pairwise fun p q => p.1 < q.1) (q : Nat × α) (hq : q ∈ m) :
    SMap.get d m q.1 = q.2 := by
  induction m with
  | nil => cases hq
  | cons x r ih =>
    have hp := List.pairwise_cons.1 h
    obtain ⟨j, v⟩ := x
    rw [SMap.get_cons]
    rcases List.mem_cons.1 hq with rfl | h1
    · exact if_pos rfl
    · have := hp.1 q h1
      rw [if_neg (by simp only at this; omega)]
      exact ih hp.2 h1

/-- An offset list of bytes as a table. -/
theorem offTable (off : Nat) (bs : List Byte) :
    ∃ m : SMap (Option Byte), m.filterMap (fun q => q.2.map fun b => (q.1, b)) =
        (List.range bs.length).zipWith (fun i b => (off + i, b)) bs ∧
      SMap.wf none m = true ∧ (∀ q ∈ m, off ≤ q.1 ∧ q.1 < off + bs.length) ∧
      ∀ k, SMap.get none m k = if off ≤ k ∧ k < off + bs.length then bs[k - off]? else none := by
  refine ⟨mergeBytes [] off bs, ?_, mergeBytes_wf _ _ _ rfl, ?_, fun k => mergeBytes_get _ _ _ _⟩
  · have key : ∀ (bs : List Byte) (m : SMap (Option Byte)) (off : Nat), (∀ q ∈ m, q.1 < off) →
        mergeBytes m off bs = m ++ (List.range bs.length).zipWith (fun i b => (off + i, some b)) bs := by
      intro bs
      induction bs with
      | nil => intro m off _; simp [mergeBytes]
      | cons b t ih =>
        intro m off h
        have hins : SMap.set none m off (some b) = m ++ [(off, some b)] := by
          show SMap.insert off (some b) m = _
          induction m with
          | nil => rfl
          | cons q r ih2 =>
            have h0 : q.1 < off := h q (by simp)
            show (if off < q.1 then _ else if off = q.1 then _ else _) = _
            rw [if_neg (by omega), if_neg (by omega), ih2 fun q hq => h q (List.mem_cons_of_mem _ hq)]
            rfl
        unfold mergeBytes
        rw [ih _ _ (by
          rw [hins]; intro q hq
          rcases List.mem_append.1 hq with h1 | h1
          · have := h q h1; omega
          · rw [List.mem_singleton.1 h1]; exact Nat.lt_succ_self off), hins]
        simp [List.range_succ_eq_map, List.zipWith_map_left, Nat.add_assoc, Nat.add_comm 1]
    rw [key bs [] off (by simp)]
    simp only [List.nil_append]
    generalize List.range bs.length = is
    induction is generalizing bs with
    | nil => rfl
    | cons i r ih => cases bs with
      | nil => rfl
      | cons b t => simp [ih t]
  · intro q hq
    have h1 := (SMap.wf_iff none _).1 (mergeBytes_wf [] off bs rfl)
    have h2 : SMap.get none (mergeBytes [] off bs) q.1 = q.2 := Sys2Proof.Machine.SMap.get_mem none _ h1.1 q hq
    rw [mergeBytes_get] at h2
    by_cases h : off ≤ q.1 ∧ q.1 < off + bs.length
    · exact h
    · rw [if_neg h] at h2
      exact absurd h2.symm (h1.2 q hq)

/-- An entry whose bytes are laid over, or a new entry, seen through the view. -/
theorem State.view_setWcb (s : State) (p a : Nat) (bs : List Byte) (l : List WcbEntry) (hb : a % 128 + bs.length ≤ 128)
    (hp : wcbPort (lineOf a) = some p)
    (h1 : ∀ x, lineOf x ≠ lineOf a → bufByte l x = bufByte (s.wcbAt p) x)
    (h2 : ∀ x, lineOf x = lineOf a → bufByte l x =
      if a ≤ x ∧ x < a + bs.length then bs[x - a]? else bufByte (s.wcbAt p) x) (x : Nat) :
    (s.setWcb p l).view x = laid a bs s.view x := by
  rw [State.view_eq]
  unfold laid
  have hla := lineOf_add_mod a
  by_cases hx : lineOf x = lineOf a
  · rw [hx, hp]
    simp only [State.wcbAt_setWcb, if_pos]
    rw [h2 x hx]
    by_cases hr : a ≤ x ∧ x < a + bs.length
    · rw [if_pos hr, if_pos hr, List.getElem?_eq_getElem (by omega)]; rfl
    · rw [if_neg hr, if_neg hr, State.view_eq, hx, hp]; rfl
  · have hr : ¬ (a ≤ x ∧ x < a + bs.length) := by
      intro h; apply hx
      rw [show x = lineOf a + (x - lineOf a) by have := lineOf_le a; omega]
      exact lineOf_eq _ _ (lineOf_mod a) (by omega)
    rw [if_neg hr, State.view_eq]
    cases hq : wcbPort (lineOf x) with
    | none => rfl
    | some q =>
      simp only [State.wcbAt_setWcb]
      by_cases hqp : q = p
      · subst hqp; rw [if_pos rfl, h1 x hx]; rfl
      · rw [if_neg hqp]; rfl

theorem State.mergeLine_part (s : State) (a : Nat) (bs : List Byte) (hg : LinesGood s) (hs : WcbSound s) (hc : canon a = a)
    (hb : a % 128 + bs.length ≤ 128) (hp : wcbPort (lineOf a) = none) :
    Writes s (s.mergeLine (lineOf a) ((List.range bs.length).zipWith (fun i b => (a % 128 + i, b)) bs)) (laid a bs s.view) := by
  obtain ⟨m, e, hm, hk, hv⟩ := offTable (a % 128) bs
  have hcl : canon (lineOf a) = lineOf a := by rw [canon_lineOf, hc]
  have hla := lineOf_add_mod a
  obtain ⟨h1, h2, h3, h4⟩ := State.mergeLine_good s (lineOf a) m (lineOf_mod a) hcl hg hm
    (fun q hq => by have := hk q hq; omega)
  rw [← e]
  refine ⟨h3, wcbSound_of_wcbAt hs h2, h1, fun x => ?_⟩
  rw [State.view_eq, h4 x]
  unfold laid
  by_cases hx : lineOf x = lineOf a
  · rw [if_pos hx, hx, hp, hv]
    have hlx := lineOf_add_mod x
    by_cases hr : a ≤ x ∧ x < a + bs.length
    · rw [if_pos hr, if_pos (by omega), show x % 128 - a % 128 = x - a by omega, List.getElem?_eq_getElem (by omega)]; rfl
    · rw [if_neg hr, if_neg (by omega), State.view_eq, hx, hp]; rfl
  · have hr : ¬ (a ≤ x ∧ x < a + bs.length) := by
      intro h; apply hx
      rw [show x = lineOf a + (x - lineOf a) by have := lineOf_le a; omega]
      exact lineOf_eq _ _ (lineOf_mod a) (by omega)
    rw [if_neg hx, if_neg hr, State.view_eq]
    simp only [h2]

/-- A partial write of one line (R188, R198). -/
theorem State.placePart_writes (s : State) (a : Nat) (bs : List Byte) (hg : LinesGood s) (hs : WcbSound s) (hc : canon a = a)
    (hb : a % 128 + bs.length ≤ 128) : Writes s (s.placePart a bs) (laid a bs s.view) := by
  have hcl : canon (lineOf a) = lineOf a := by rw [canon_lineOf, hc]
  have hll : lineOf (lineOf a) = lineOf a := lineOf_of_mod _ (lineOf_mod a)
  have hla := lineOf_add_mod a
  unfold State.placePart
  simp only
  cases hp : wcbPort (lineOf a) with
  | none => exact State.mergeLine_part s a bs hg hs hc hb hp
  | some p =>
    simp only
    cases hf : wcbFind (s.wcbAt p) (lineOf a) with
    | some w =>
      simp only
      obtain ⟨hw, hwl⟩ := wcbFind_some _ _ _ hf
      obtain ⟨_, _, _, e4, e5⟩ := (hs p).1 w hw
      have hnew : EntrySound p { w with bytes := mergeBytes w.bytes (a % 128) bs } :=
        ⟨hwl ▸ hp, hwl ▸ hll, hwl ▸ hcl, mergeBytes_wf _ _ _ e4, mergeBytes_keys _ _ _ e5 hb⟩
      suffices fin : ∀ w' : WcbEntry, EntrySound p w' → w'.line = lineOf a → w'.bytes = mergeBytes w.bytes (a % 128) bs →
          Writes s (if w'.bytes.length = 128 then
            (s.setWcb p ((s.wcbAt p).map fun x => if x.line = lineOf a then w' else x)).flushEntry p w'
            else s.setWcb p ((s.wcbAt p).map fun x => if x.line = lineOf a then w' else x)) (laid a bs s.view) by
        exact fin _ hnew hwl rfl
      clear hnew
      intro w' hnew hw'l hw'
      have hlines : ((s.wcbAt p).map fun x => if x.line = lineOf a then w' else x).map (·.line) = (s.wcbAt p).map (·.line) := by
        rw [List.map_map]
        refine List.map_congr_left fun x _ => ?_
        simp only [Function.comp]
        split
        · rename_i h; rw [hw'l, h]
        · rfl
      have hfind : ∀ (l : List WcbEntry) (n : Nat), wcbFind (l.map fun x => if x.line = lineOf a then w' else x) n =
          (wcbFind l n).map fun x => if x.line = lineOf a then w' else x := by
        intro l n
        induction l with
        | nil => rfl
        | cons x t ih =>
          unfold wcbFind at ih ⊢
          rw [List.map_cons, List.find?_cons, List.find?_cons, ih]
          have : ((if x.line = lineOf a then w' else x).line == n) = (x.line == n) := by
            split
            · rename_i h; rw [hw'l, h]
            · rfl
          rw [this]
          cases x.line == n <;> rfl
      have hsound : WcbSound (s.setWcb p ((s.wcbAt p).map fun x => if x.line = lineOf a then w' else x)) := by
        refine wcbSound_setWcb hs p _ (fun x hx => ?_) (hlines ▸ (hs p).2)
        obtain ⟨y, hy, rfl⟩ := List.mem_map.1 hx
        split
        · exact hnew
        · exact (hs p).1 y hy
      have hview := State.view_setWcb s p a bs ((s.wcbAt p).map fun x => if x.line = lineOf a then w' else x) hb hp
        (fun x hx => by
          unfold bufByte
          rw [hfind]
          cases hx2 : wcbFind (s.wcbAt p) (lineOf x) with
          | none => rfl
          | some y =>
            have := (wcbFind_some _ _ _ hx2).2
            simp only [Option.map_some]
            rw [if_neg (by rw [this]; exact hx)])
        (fun x hx => by
          have hlx := lineOf_add_mod x
          unfold bufByte
          rw [hfind, hx, hf]
          simp only [Option.map_some]
          rw [if_pos hwl, hw']
          simp only [mergeBytes_get]
          by_cases hr : a ≤ x ∧ x < a + bs.length
          · rw [if_pos hr, if_pos (by omega), show x % 128 - a % 128 = x - a by omega]
          · rw [if_neg hr, if_neg (by omega)])
      split
      · obtain ⟨k, _⟩ := State.flushEntry_writes _ p w' (linesGood_setWcb hg p _) hsound (by
          rw [State.wcbAt_setWcb, if_pos rfl]
          exact List.mem_map.2 ⟨w, hw, if_pos hwl⟩)
        exact ⟨k.good, k.sound, .trans (State.modMem_memCnt _ _) k.frame, fun x => (k.view x).trans (hview x)⟩
      · exact ⟨linesGood_setWcb hg p _, hsound, State.modMem_memCnt _ _, hview⟩
    | none =>
      simp only
      suffices fin : ∀ s1 : State, Writes s s1 s.view ∧ wcbFind (s1.wcbAt p) (lineOf a) = none →
          Writes s (s1.setWcb p (s1.wcbAt p ++ [⟨lineOf a, mergeBytes [] (a % 128) bs⟩])) (laid a bs s.view) by
        refine fin _ ?_
        have base : Writes s s s.view := ⟨hg, hs, .refl s, fun _ => rfl⟩
        split
        · rename_i w r hr
          split
          · obtain ⟨k, k2⟩ := State.flushEntry_writes s p w hg hs (by rw [hr]; simp)
            refine ⟨k, ?_⟩
            rw [k2 p, if_pos rfl, wcbFind_filter, hf]
            split <;> rfl
          · exact ⟨base, hf⟩
        · exact ⟨base, hf⟩
      rintro s1 ⟨k, hn⟩
      have hnew : EntrySound p ⟨lineOf a, mergeBytes [] (a % 128) bs⟩ :=
        ⟨hp, hll, hcl, mergeBytes_wf _ _ _ rfl, mergeBytes_keys _ _ _ (by simp) hb⟩
      have hnot : lineOf a ∉ (s1.wcbAt p).map (·.line) := by
        intro h
        obtain ⟨w, hw, hwl⟩ := List.mem_map.1 h
        have := wcbFind_mem _ _ (k.sound p).2 hw
        rw [hwl, hn] at this
        cases this
      have hsound : WcbSound (s1.setWcb p (s1.wcbAt p ++ [⟨lineOf a, mergeBytes [] (a % 128) bs⟩])) := by
        refine wcbSound_setWcb k.sound p _ (fun x hx => ?_) ?_
        · rcases List.mem_append.1 hx with h | h
          · exact (k.sound p).1 x h
          · rw [List.mem_singleton.1 h]; exact hnew
        · rw [List.map_append, List.nodup_append]
          refine ⟨(k.sound p).2, by simp, ?_⟩
          intro y hy z hz
          simp only [List.map_cons, List.map_nil, List.mem_singleton] at hz
          subst hz
          intro e; subst e; exact hnot hy
      have hview := State.view_setWcb s1 p a bs (s1.wcbAt p ++ [⟨lineOf a, mergeBytes [] (a % 128) bs⟩]) hb hp
        (fun x hx => by
          unfold bufByte wcbFind
          rw [List.find?_append]
          cases List.find? (fun w => w.line == lineOf x) (s1.wcbAt p) with
          | some y => rfl
          | none =>
            rw [List.find?_cons, show (lineOf a == lineOf x) = false from beq_false_of_ne (fun e => hx e.symm)]
            rfl)
        (fun x hx => by
          have hlx := lineOf_add_mod x
          have hn2 : bufByte (s1.wcbAt p) x = none := by unfold bufByte; rw [hx, hn]
          rw [hn2]
          unfold bufByte
          unfold wcbFind at hn ⊢
          rw [hx, List.find?_append, hn]
          simp only [Option.none_or, List.find?_cons, beq_self_eq_true]
          rw [mergeBytes_get, SMap.get_nil]
          by_cases hr : a ≤ x ∧ x < a + bs.length
          · rw [if_pos hr, if_pos (by omega), show x % 128 - a % 128 = x - a by omega]
          · rw [if_neg hr, if_neg (by omega)])
      refine ⟨linesGood_setWcb k.good p _, hsound, .trans k.frame (State.modMem_memCnt _ _), fun x => ?_⟩
      rw [hview x]
      unfold laid
      split
      · rfl
      · exact k.view x

/-- A partial write of one line: the control cores' copies of it are taken first (R214). -/
theorem State.writePart_writes (s : State) (a : Nat) (bs : List Byte) (hg : LinesGood s) (hs : WcbSound s) (hc : canon a = a)
    (hb : a % 128 + bs.length ≤ 128) : Writes s (s.writePart a bs) (laid a bs s.view) := by
  have h := State.placePart_writes (s.modMem fun m => m.recall (lineOf a)) a bs hg hs hc hb
  exact ⟨h.good, h.sound, .trans (State.modMem_memCnt _ _) h.frame, h.view⟩

/-- A line written whole (R187, R188). -/
theorem State.writeLine_writes (s : State) (line : Nat) (bs : List Byte) (hg : LinesGood s) (hs : WcbSound s)
    (hl : line % 128 = 0) (hc : canon line = line) (hb : bs.length = 128) :
    Writes s (s.writeLine line bs) (laid line bs s.view) := by
  have hll : lineOf line = line := lineOf_of_mod _ hl
  unfold State.writeLine
  simp only
  suffices fin : ∀ s1 : State, MemCnt s s1 ∧ LinesGood s1 ∧ WcbSound s1 ∧ s1.mem.cells = s.mem.cells ∧
      (∀ x p, lineOf x ≠ line → bufByte (s1.wcbAt p) x = bufByte (s.wcbAt p) x) ∧
      (∀ x p, lineOf x = line → wcbPort line = some p → bufByte (s1.wcbAt p) x = none) →
      Writes s (((s1.poke line bs).setLine line .good).countPort line 1 1) (laid line bs s.view) by
    refine fin _ ?_
    cases hp : wcbPort line with
    | none => exact ⟨.refl s, hg, hs, rfl, fun _ _ _ => rfl, fun x p _ h => by cases h⟩
    | some p =>
      refine ⟨State.modMem_memCnt _ _, hg, wcbSound_filter hs p line, rfl, fun x q hx => ?_, fun x q hx hq => ?_⟩
      · simp only [State.wcbAt_setWcb]
        by_cases h : q = p
        · subst h; rw [if_pos rfl, bufByte_filter, if_neg hx]
        · rw [if_neg h]
      · simp only [State.wcbAt_setWcb]
        cases hq
        rw [if_pos rfl, bufByte_filter, if_pos hx]
  rintro s1 ⟨a1, a2, a3, a4, a5, a6⟩
  obtain ⟨p1, p2, p3⟩ := State.poke_frame s1 line bs
  refine ⟨?_, ?_, ?_, fun x => ?_⟩
  · exact linesGood_of_lineSt (linesGood_setLine (linesGood_of_lineSt a2 p3) line) fun l => State.countPort_lineSt _ _ _ _ _
  · exact wcbSound_of_wcbAt a3 fun q => by rw [State.countPort_wcbAt, State.setLine_wcbAt, p2]
  · exact .trans (.trans (.trans a1 p1) (State.modMem_memCnt _ _)) (State.countPort_memCnt _ _ _ _)
  · have hlx := lineOf_add_mod x
    rw [State.view_eq]
    simp only [State.countPort_wcbAt, State.setLine_wcbAt, p2]
    rw [State.countPort_mem, State.setLine_cells, State.poke_cells _ _ _ (by
        intro k hk; exact canon_in_line _ _ hl hc (by omega)), a4]
    unfold laid
    by_cases hx : lineOf x = line
    · have hr : line ≤ x ∧ x < line + bs.length := by omega
      rw [if_pos hr, if_pos hr, hx]
      cases hp : wcbPort line with
      | none => rfl
      | some p => simp only [a6 x p hx hp]; rfl
    · have hr : ¬ (line ≤ x ∧ x < line + bs.length) := by
        intro h; apply hx
        rw [show x = line + (x - line) by omega]
        exact lineOf_eq _ _ hl (by omega)
      rw [if_neg hr, if_neg hr, State.view_eq]
      cases hp : wcbPort (lineOf x) with
      | none => rfl
      | some p => simp only [a5 x p hx]

/-- Bytes of one line written, whole or in part. -/
theorem State.writeIn_writes (s : State) (a : Nat) (bs : List Byte) (hg : LinesGood s) (hs : WcbSound s)
    (hb : a % 128 + bs.length ≤ 128) : Writes s (s.writeIn a bs) (laid (canon a) bs s.view) := by
  have hm := canon_mod128 a
  unfold State.writeIn
  simp only
  split
  · rename_i h
    exact State.writeLine_writes s _ bs hg hs h.2 (canon_canon a) h.1
  · split
    · rename_i h
      rw [List.isEmpty_iff] at h
      subst h
      refine ⟨hg, hs, .refl s, fun x => ?_⟩
      unfold laid; rw [if_neg (by simp)]
    · exact State.writePart_writes s _ bs hg hs (canon_canon a) (by omega)

/-- A completing operation writes the entry of a line: no read sees it (R190). -/
theorem State.flushLine_writes (s : State) (line : Nat) (hg : LinesGood s) (hs : WcbSound s) :
    Writes s (s.flushLine line) s.view := by
  have base : Writes s s s.view := ⟨hg, hs, .refl s, fun _ => rfl⟩
  unfold State.flushLine
  split
  · exact base
  · split
    · exact base
    · rename_i p _ _ w h
      exact (State.flushEntry_writes s p w hg hs (wcbFind_some _ _ _ h).1).1

end Sys2Proof.Machine
end

