-- ==== Sys2Proof/Machine/AttnLib.lean ====
section
/-! DEFINITION. What the vector engines compute between the attention passes, as the chapter binds the attention
library to do it (R284 to R294): rotary encoding, the running softmax of a query row, the gradient of a score block and
the plan of a sequence split over a ring. Engine programs run these by the commands of the vector engines; no command
calls a definition of this file. -/

namespace Sys2Proof.Machine

/-! Rotary encoding (R284). A complex number is a pair of F32 values, cosine first. -/

/-- x * y, the two components each rounded once. -/
def cmul (x y : W32 × W32) : W32 × W32 :=
  let a := f32 x.1
  let b := f32 x.2
  let c := f32 y.1
  let d := f32 y.2
  ((FVal.add (FVal.mul a c) (FVal.mul b d).neg).toF32, (FVal.add (FVal.mul a d) (FVal.mul b c)).toF32)

/-- The parts of a position that index the three tables: POS[10:0], POS[21:11] and POS[31:22]. -/
def rotaryIndex (pos : Nat) : Nat × Nat × Nat := (pos % 2 ^ 11, pos / 2 ^ 11 % 2 ^ 11, pos / 2 ^ 22 % 2 ^ 10)

/-- cos a and sin a of a position for one element pair, combined from the three tables of that pair in their order. -/
def rotaryAngle (t0 t1 t2 : List (W32 × W32)) (pos : Nat) : W32 × W32 :=
  let (i, j, k) := rotaryIndex pos
  cmul (cmul (t0[i]?.getD (0, 0)) (t1[j]?.getD (0, 0))) (t2[k]?.getD (0, 0))

/-- One element pair (x, y) turned by an angle given as (cos a, sin a). -/
def rotatePair (cs xy : W32 × W32) : W32 × W32 := cmul cs xy

/-- The rotary part of a row, pair by pair, each with its own angle. -/
def rotateRow : List (W32 × W32) → List W32 → List W32
  | cs :: r, x :: y :: t => let p := rotatePair cs (x, y); p.1 :: p.2 :: rotateRow r t
  | _, l => l

/-- The angle the other way, for the rotary part of dK (R290). -/
def unturn (cs : W32 × W32) : W32 × W32 := (cs.1, cs.2 ^^^ 0x80000000#32)

/-! The running softmax of a query row (R285 to R289). -/

def f32NegInf : W32 := 0xFF800000#32

/-- Running maximum, running sum and unnormalised accumulator of a row, in units of the raw score. -/
structure SoftRow where
  m : W32
  l : W32
  acc : List W32
  deriving DecidableEq, Repr

def SoftRow.start (width : Nat) : SoftRow := ⟨f32NegInf, 0, List.replicate width 0⟩

/-- exp(τ × (a - b)), each operation one rn. -/
def expDiff (τ a b : W32) : W32 := f32Exp (f32Mul τ (f32Sub a b))

/-- The sum of widened probabilities added to `l`: chunks of 32 columns from column 0 upward, each by the tree of R153,
the chunk sums one at a time. -/
def sumChunks : Nat → W32 → List W32 → W32
  | 0, l, _ => l
  | _ + 1, l, [] => l
  | k + 1, l, ps => sumChunks k (f32Add l (laneTree f32Add (ps.take 32))) (ps.drop 32)

/-- The row once a block of maximum `mb` is known: rescaled, once, only where the maximum rises (R286); NaN throughout
once a maximum is NaN (R288). -/
def SoftRow.raised (r : SoftRow) (τ mb : W32) : SoftRow :=
  if (f32 mb).isNan || (f32 r.m).isNan then ⟨nan32, nan32, r.acc.map fun _ => nan32⟩
  else if FVal.lt (f32 r.m) (f32 mb) then
    let α := if r.m = f32NegInf then 0 else expDiff τ r.m mb
    ⟨mb, f32Mul r.l α, r.acc.map fun x => f32Mul x α⟩
  else r

/-- The probability of a score against the running maximum, as stored: rounded to PFMT. -/
def probOf (pfmt : Nat) (τ m sc : W32) : Nat := (fmtRound pfmt false (f32 (expDiff τ sc m))).1

/-- One block of a row, from its two row maxima and its scores (masked ones -infinity): the row before its ATV, and the
stored probabilities (R285). -/
def SoftRow.block (r : SoftRow) (τ : W32) (pfmt : Nat) (maxA maxB : W32) (scores : List W32) : SoftRow × List Nat :=
  let mb := f32Max maxA maxB
  if mb = f32NegInf then (r, scores.map fun _ => 0)
  else
    let r1 := r.raised τ mb
    let ps := scores.map (probOf pfmt τ r1.m)
    let wide := ps.map fun p => (elemDecode pfmt p).toF32
    (⟨r1.m, sumChunks (ps.length / 32 + 1) r1.l wide, r1.acc⟩, ps)

/-- The output row of an ATV added to the accumulator; an ATV split over two key halves adds the halves in order. -/
def SoftRow.addOut (r : SoftRow) (o : List W32) : SoftRow := ⟨r.m, r.l, List.zipWith f32Add r.acc o⟩

/-- The row's output in OFMT; +0 for a row that sees no key (R288). -/
def SoftRow.output (r : SoftRow) (ofmt : Nat) : List Nat :=
  if r.m = f32NegInf then r.acc.map fun _ => 0
  else r.acc.map fun x => (fmtRound ofmt false (f32 (f32Mul x (f32Rcp r.l)))).1

/-- The saved statistics of a row for one head: m, then l (R289). -/
def SoftRow.stats (r : SoftRow) : List Byte := toLe 4 r.m.toNat ++ toLe 4 r.l.toNat

/-! The gradient of a score block (R290). -/

/-- P(j) recomputed from the saved statistics. -/
def probAgain (pfmt : Nat) (τ m l sc : W32) : Nat :=
  (fmtRound pfmt false (f32 (f32Mul (expDiff τ sc m) (f32Rcp l)))).1

/-- dS = P ∘ (dP - D), rounded to PFMT. -/
def scoreGrad (pfmt : Nat) (p : Nat) (dP d : W32) : Nat :=
  (fmtRound pfmt false (f32 (f32Mul (elemDecode pfmt p).toF32 (f32Sub dP d)))).1

/-! A sequence split over a ring of P members (R274, R291 to R294). -/

/-- P members, chunks of C tokens. -/
structure Ring where
  members : Nat
  chunk : Nat
  deriving DecidableEq, Repr

/-- The plans the ring takes: its sizes (R291), and a sequence of at most 512 global tokens that fits (R274). -/
def Ring.takes (g : Ring) (toks : List TokenMeta) : Bool :=
  decide (2 ≤ g.members ∧ g.members ≤ 256 ∧ g.chunk % 64 = 0 ∧ 64 ≤ g.chunk ∧ g.chunk ≤ 4096 ∧
    toks.length ≤ 2 * g.members * g.chunk ∧ (toks.filter fun t => t.glob && !t.padding).length ≤ 512)

/-- The two chunks of a member. -/
def Ring.chunksOf (g : Ring) (r : Nat) : List Nat := [r, 2 * g.members - 1 - r]

/-- A padding token. -/
def padToken : TokenMeta := ⟨false, 0xFFFF, 0⟩

/-- A member's 2C tokens; those beyond the sequence's end are padding. -/
def Ring.block (g : Ring) (toks : List TokenMeta) (r : Nat) : List TokenMeta :=
  (g.chunksOf r).flatMap fun c => (List.range g.chunk).map fun i => (toks[c * g.chunk + i]?).getD padToken

/-- The member that `r` sends to. -/
def Ring.next (g : Ring) (r : Nat) : Nat := (r + 1) % g.members

/-- The member whose block `r` computes against at step `t`. -/
def Ring.blockAt (g : Ring) (r t : Nat) : Nat := (r + (g.members - t % g.members)) % g.members

/-- What a member does on the ring (R292). -/
inductive RingAct where
  /-- Wait until ARRIVE, which the predecessor writes, has reached the value; the block stands in receive slot `slot`. -/
  | awaitArrive (value slot : Nat)
  /-- Wait until RELEASE, which the successor writes, has reached the value. -/
  | awaitRelease (value : Nat)
  /-- PUT the block to the successor's receive slot, then the value to its ARRIVE word, on one flow. -/
  | send (slot value : Nat)
  /-- Attend the member's queries to the block of a member. -/
  | attend (member : Nat)
  /-- Attend them to the global block (R293). -/
  | attendGlobal
  /-- Wait for this step's forwarding PUT, then PUT the value to the predecessor's RELEASE word. -/
  | release (value : Nat)
  deriving DecidableEq, Repr

/-- One step of the ring at a member. -/
def Ring.stepOf (g : Ring) (r t : Nat) : List RingAct :=
  (if 1 ≤ t then [.awaitArrive t ((t - 1) % 2)] else []) ++
    (if t + 2 ≤ g.members then
      (if 2 ≤ t then [.awaitRelease (t - 1)] else []) ++ [.send (t % 2) (t + 1)] else []) ++
    [.attend (g.blockAt r t), .attendGlobal] ++ (if 1 ≤ t then [.release t] else [])

/-- All a member does, in the fixed order of R294. -/
def Ring.plan (g : Ring) (r : Nat) : List RingAct := (List.range g.members).flatMap (g.stepOf r)

/-- The metadata of the global block: every global key; where `inRing` says that a ring block holds the key, padding
stands in its place, so that it is counted once (R293). -/
def globalBlock (toks : List TokenMeta) (inRing : TokenMeta → Bool) : List TokenMeta :=
  (toks.filter fun t => t.glob && !t.padding).map fun t => if inRing t then padToken else t

end Sys2Proof.Machine
end

