-- ==== Sys2Proof/WellFormed.lean ====
section
/-! DEFINITION. Which commands are well formed: lists of readings have one reading for each sensor, core or
rail, packets carry at most 4,096 bytes, rows and columns lie in an array. -/

namespace Sys2Proof

/-- A maximum MC clock: 2.40 to 2.64 GHz in steps of 40 MHz (R16). -/
def fmaxWf (n : Nat) : Bool := decide (2400 ≤ n ∧ n ≤ 2640 ∧ n % 40 = 0)

/-- A 32-byte secret, a clock limit per core, a voltage per core and class, at most four signers (R16, R457, R465). -/
def Fuses.wf (f : Fuses) : Bool :=
  f.fmax.all fmaxWf && decide (f.secret.length = 32 ∧ f.mac.length = 6 ∧ f.fmax.length = 4 ∧ f.signers.length ≤ 4 ∧
    f.factoryMv.length = 12)

def SelfTest.wf (t : SelfTest) : Bool :=
  decide (t.failCause ≤ 3 ∧ t.vadd.length = 12 ∧ t.repOk.length = 4)

/-- At most 47 fragments of at most 1,400 bytes (R468). -/
def PortMsg.wf (m : PortMsg) : Bool := decide (m.fidx < m.fcnt ∧ m.fcnt ≤ 47 ∧ m.payload.length ≤ 1400)

/-- A nanoseconds field is below one second. -/
def PtpMsg.wf : PtpMsg → Bool
  | .sync _ => true
  | .followUp _ t => decide (t.ns.toNat < 1000000000)
  | .delayResp _ t => decide (t.ns.toNat < 1000000000)

def Instr.wf : Instr → Bool
  | .wld .. => true
  | .wldt .. => true
  | .wldProceed .. => true
  | .loadComplete .. => true
  | .wswapF .. => true
  | .jet .. => true
  | .ats .. => true
  | .atx .. => true
  | .atv .. => true
  | .passIssue .. => true
  | .prescanEnd .. => true
  | .rowEntry .. => true
  | .drainOutput _ _ _ row col => decide (row < 8192 ∧ col < 384)
  | .drainWriteComplete .. => true
  | .chunkCloseTimeout .. => true
  | .drn .. => true
  | .mov .. => true
  | .movComplete .. => true
  | .put .. => true
  | .putComplete .. => true
  | .semw .. => true
  | .semwSatisfied .. => true
  | .sems .. => true
  | .semsRel .. => true
  | .semsRelAdd .. => true
  | .fence .. => true
  | .fenceComplete .. => true
  | .waitt .. => true
  | .waittA .. => true
  | .waittExpire .. => true
  | .loop .. => true
  | .br .. => true
  | .brSemz .. => true
  | .brSemnz .. => true
  | .brRet .. => true
  | .brLast .. => true
  | .call .. => true
  | .yieldPt .. => true
  | .halt .. => true
  | .haltComplete .. => true
  | .zen .. => true
  | .csnap .. => true
  | .sqReservedOpcode .. => true
  | .columnSteeringSwitch .. => true
  | .sAdd .. => true
  | .sSub .. => true
  | .sMul .. => true
  | .sAnd .. => true
  | .sOr .. => true
  | .sXor .. => true
  | .sShl .. => true
  | .sShr .. => true
  | .sSlt .. => true
  | .sAmoAdd .. => true
  | .sAmoCas .. => true
  | .sAmoMin .. => true
  | .sAmoMax .. => true
  | .sAddi .. => true
  | .sIns .. => true
  | .sLd .. => true
  | .sSt .. => true
  | .sBeq .. => true
  | .sBne .. => true
  | .sBlt .. => true
  | .sJalr .. => true
  | .vAddF32 .. => true
  | .vSubF32 .. => true
  | .vMulF32 .. => true
  | .vFmaF32 .. => true
  | .vMaxF32 .. => true
  | .vMinF32 .. => true
  | .vExp .. => true
  | .vRcp .. => true
  | .vRsqrt .. => true
  | .vCvtF32I32 .. => true
  | .vCvtI32F32 .. => true
  | .vCmpLtF32 .. => true
  | .vCmpEqF32 .. => true
  | .vFmaw .. => true
  | .vAddI32 .. => true
  | .vSubI32 .. => true
  | .vMulI32 .. => true
  | .vAnd .. => true
  | .vOr .. => true
  | .vXor .. => true
  | .vShlI32 .. => true
  | .vShrI32 .. => true
  | .vAddI16 .. => true
  | .vCmpLtI32 .. => true
  | .vSel .. => true
  | .vHsumF32 .. => true
  | .vHmaxF32 .. => true
  | .vMov .. => true
  | .vPerm .. => true
  | .vAddF32S .. => true
  | .vMulF32S .. => true
  | .vFmaF32S .. => true
  | .vAddI32S .. => true
  | .vBcast .. => true
  | .vLane .. => true
  | .vLd .. => true
  | .vSt .. => true
  | .vRedEs16 .. => true
  | .vRedS1 .. => true
  | .vRes .. => true
  | .vRand .. => true
  | .vPmov .. => true
  | .vUctx .. => true
  | .vUpdAdam .. => true
  | .vUpdSgdm .. => true
  | .vUpdEf .. => true
  | .vUnpackMxfp4 .. => true
  | .vUnpackMxfp6E2m3 .. => true
  | .vUnpackMxfp6E3m2 .. => true
  | .vUnpackMxint8 .. => true
  | .vPackMxfp4 .. => true
  | .vPackMxfp6E2m3 .. => true
  | .vPackMxfp6E3m2 .. => true
  | .vPackMxint8 .. => true
  | .vAcq .. => true
  | .vAcqAll .. => true
  | .vFence .. => true
  | .vFenceComplete .. => true
  | .vSemW .. => true
  | .vSemWSatisfied .. => true
  | .vSemS .. => true
  | .vSemSRel .. => true
  | .vSemSRelAdd .. => true
  | .vDma .. => true
  | .vDmaComplete .. => true
  | .vRsys .. => true
  | .vWsys .. => true
  | .vWaitT .. => true
  | .vWaitTExpire .. => true
  | .vHalt .. => true
  | .vHaltComplete .. => true
  | .veReservedOpcode .. => true
  | .beatBoundary m =>
    decide (m.cycles.length = 4 ∧ m.sback.length = 4 ∧ m.held.length = 4 ∧ m.switching.length = 4 ∧ m.bankWait.length = 20 ∧
      m.credWait.length = 96) && (List.range 4).all fun c =>
        decide (((m.left.filter fun q => q.1 == c).map (·.2.2)).sum ≤ m.cycles[c]?.getD 0)
  | .epochBoundary m => decide (m.levels.length = 4) && m.avs.all fun r => decide (r.rail ≤ 6)
  | .avsFrameRetry r => match r with | none => true | some x => decide (x.rail ≤ 6)
  | .instanceLaunch .. => true
  | .slewStep => true
  | .time .. => true
  | .lockAcquired => true
  | .upstreamLinkFail .. => true
  | .holdoverTimeout => true
  | .holdLimit => true
  | .refLost .. => true
  | .referenceReturn .. => true
  | .ppsEdge => true
  | .ptpMessage m => m.wf
  | .commandPost _ _ _ args => decide (args.length ≤ 6)
  | .jobLoad .. => true
  | .jobStart .. => true
  | .jobStop .. => true
  | .jobShare .. => true
  | .modelLoad .. => true
  | .modelUnload .. => true
  | .capSet .. => true
  | .rampPlan .. => true
  | .testSpares .. => true
  | .testArray .. => true
  | .testColumn .. => true
  | .testEngine .. => true
  | .testRow .. => true
  | .testLane .. => true
  | .testTimeout .. => true
  | .linkeq .. => true
  | .vplan .. => true
  | .ageperiod .. => true
  | .regather .. => true
  | .repairColumn .. => true
  | .repairEngine .. => true
  | .repairRow .. => true
  | .repairLane .. => true
  | .attestQuote .. => true
  | .roleSet .. => true
  | .timeLock .. => true
  | .resetWarm .. => true
  | .logRead .. => true
  | .jobSlotStop .. => true
  | .instanceSave .. => true
  | .instanceRestore .. => true
  | .yieldBack .. => true
  | .packetSend .. => true
  | .packetReceive _ p _ => decide (p.payload.length ≤ 4096)
  | .packetForward .. => true
  | .controlCell .. => true
  | .replayTimeout .. => true
  | .laneFail .. => true
  | .linkLost .. => true
  | .linkHoldExpire .. => true
  | .data .. => true
  | .reduce .. => true
  | .lap .. => true
  | .ack .. => true
  | .mgmt .. => true
  | .ackTimer .. => true
  | .operationTimeout .. => true
  | .tailWrite .. => true
  | .reductionDeadline .. => true
  | .stepCommit .. => true
  | .contrailRecompute .. => true
  | .kvpAlloc .. => true
  | .kvpFree .. => true
  | .kvpEnable .. => true
  | .kvpDisable .. => true
  | .kvpReady => true
  | .relow .. => true
  | .semAdd .. => true
  | .semTake .. => true
  | .registerWrite .. => true
  | .registerAccessFault _ _ size _ => decide (size = 1 ∨ size = 2 ∨ size = 4 ∨ size = 8)
  | .scrubLine .. => true
  | .wcbTimeoutFlush _ line => decide (line % 128 = 0)
  | .sensorConversion r => decide (r.tiers.length = 160 ∧ r.die.length = 88)
  | .shallowDroop .. => true
  | .deepDroop .. => true
  | .ageingMeasurement u mg _ _ => decide (mg.length = match u with | .core _ => 32 | .stack _ => 8 | .quadrant _ => 4)
  | .recordGathered .. => true
  | .logRecord => true
  | .supplyResetAssert => true
  | .coldStart f t _ => f.wf && t.wf
  | .linkTraining r => decide ((r.map fun x => x.link.val).Nodup)
  | .i3cWrite .. => true
  | .bootreqTimer => true
  | .boot m => m.wf
  | .bootVerify => true
  | .hello m => m.wf
  | .accept m => m.wf
  | .cmd m => m.wf
  | .bulk m => m.wf
  | .close m => m.wf
  | .sessionTimeout .. => true
  | .portFragmentTimeout .. => true
  | .announce => true
  | .heartbeat => true
  | .status => true
  | .takeover => true
  | .mgmtCmd => true
  | .cmdresp => true
  | .haloplan => true
  | .roleplan => true
  | .logcopy => true
  | .imgreq => true
  | .imgdata => true
  | .imgreqRetry => true
  | .rampshare => true
  | .mgmtFragmentTimeout .. => true
  | .memberFail .. => true
  | .deputyTakeover => true
  | .droopRecovery .. => true
  | .uncorrectableCodeword .. => true

end Sys2Proof
end

