-- ==== Sys2Proof/Tests/Slice0.lean ====
section
/-! SUPPORT. The author's tests: ill-formed commands, results worked by hand from the manual's rules, and for each statement that
has hypotheses states and operands that meet them. -/

set_option Elab.async false

namespace Sys2Proof.Tests

open Sys2Proof.Machine Sys2Proof.Claim

/-! States. -/

/-- Engine 0 in RUN. -/
def engSt (f : VeCtx → VeCtx) : State := State.reset.modEng 0 fun k => { k with st := .run, ctx := f k.ctx }
/-- Engine 0 in RUN, s1 = a and s2 = b. -/
def engRegs (a b : W64) : State := engSt fun x => (x.setSreg 1 a).setSreg 2 b
/-- Core 0 in RUN, its job's range words 0 to 99 and descriptors 1 to 9. -/
def coreSt (f : SqCtx → SqCtx) : State :=
  State.reset.modCore 0 fun k => { k with st := .run, ctx := f k.ctx, jrange := [(0, ⟨true, 0, 99, 1, 9⟩)] }
/-- Core 0 holds this instruction, in STALL. -/
def coreHeld (h : SqHeld) (f : SqCtx → SqCtx) : State :=
  (coreSt f).modCore 0 fun k => { k with st := .stall, ctx := { k.ctx with held := h } }
/-- State s with command n of this code, flags and words 1 to 5 as Darkel runs it. -/
def withCmd (s : State) (n code flags : Nat) (args : List W64) : State :=
  let w : SMap W64 := SMap.set 0 ((List.range 5).foldl (fun m k => SMap.set 0 m (k + 1) ((args[k]?).getD 0)) []) 0
    (w64 (2 ^ 63 + at' code 48 + at' flags 32))
  s.modCmd n fun e => { e with w := w, taken := w, phase := if cmdLong code then .running 0 else .ready 0 }

theorem linesGood_of (s : State) (h : s.mem.lines = []) : LinesGood s := by
  intro l; unfold State.lineSt; rw [h]; rfl

theorem wcbSound_of (s : State) (h : s.mem.wcb = []) : WcbSound s := by
  intro p; unfold State.wcbAt; rw [h]; exact ⟨by simp, by simp⟩

/-! Witnesses: engines. -/

theorem wit_ScalarArithmetic : EngIssues (engSt id) 0 := ⟨by decide, by decide, by decide⟩
/-- The last word of the local store still issues. -/
theorem wit_issue_boundary : EngIssues (engSt fun x => { x with pc := 262143 }) 0 := ⟨by decide, by decide, by decide⟩
theorem wit_EngineBranches : EngIssues (engRegs (w64 (lsBase 0)) 0) 0 := ⟨by decide, by decide, by decide⟩

theorem wit_EngineLoads : EngIssues (engSt id) 0 ∧ EngAccess (engSt id) (addrAt 0 0) 8 ∧
    cvSize 0 = some 128 ∧ EngAccess (engSt id) (addrAt 0 0) 128 ∧ WcbSound (engSt id) :=
  ⟨wit_ScalarArithmetic, ⟨by decide, by decide, linesGood_of _ rfl⟩, rfl, ⟨by decide, by decide, linesGood_of _ rfl⟩,
    wcbSound_of _ rfl⟩

theorem wit_EngineAccessFaults : (engRegs 0x800000000000 0).jobRange 0x800000000000 8 = false ∧
    (engSt id).jobRange (addrAt 0 1) 8 = true ∧ addrAt 0 1 % 8 ≠ 0 ∧
    (engRegs 1 0).jobRange 1 128 = true ∧ 1 % 128 ≠ 0 ∧ (engRegs 0x800000000000 0).jobRange 0x800000000000 128 = false ∧
    6 ≤ (6#4).toNat ∧ stackSize ≤ (w64 stackSize).toNat ∧ (w64 stackSize).toNat < 0x1000000000 := by decide

theorem wit_EngineAtomics : (∃ i o, locate 0 = .stack i o) ∧ EngAccess (engSt id) 0 8 ∧ EngAccess (engSt id) 0 4 ∧
    WcbSound (engSt id) :=
  ⟨⟨0, 0, rfl⟩, ⟨by decide, by decide, linesGood_of _ rfl⟩, ⟨by decide, by decide, linesGood_of _ rfl⟩, wcbSound_of _ rfl⟩

theorem wit_VectorFreeResults : f32 0x7FC00000#32 = .nan ∧ (0x80000001#32).msb = true ∧ 0x80000001#32 ≠ 0x80000000#32 ∧
    ((engSt id).eng 0).keyed = false ∧ (((engSt id).modEng 0 fun k => { k with keyed := true }).eng 0).keyed = true := by decide

theorem wit_WideAndMx : (1#6).toNat % 2 = 1 ∧ (0#6).toNat % 2 = 0 ∧ (1#5) ≠ 0 ∧ (2#5) ≠ 1 := by decide

theorem wit_ReductionAdds : EngIssues (engSt id) 0 ∧ EngAccess (engSt id) 0 128 ∧ EngAccess (engSt id) 0 8 ∧
    (2#6).toNat % 2 = 0 ∧ [(32767 : Int), -32767].length = [(1 : Int), 65535].length :=
  ⟨wit_ScalarArithmetic, ⟨by decide, by decide, linesGood_of _ rfl⟩, ⟨by decide, by decide, linesGood_of _ rfl⟩, rfl, rfl⟩

/-- A context of zeros, and one with a reserved bit set. -/
theorem wit_UpdateGate_context : ownStore 0 (lsBase 0) 64 = true ∧ lsBase 0 % 64 = 0 ∧
    uctxOf ((engSt id).bytes (lsBase 0) 64) = some ⟨0, 0, 0, 0, 0, 0, 0, 0, 0, 0, 0, 0, 0, false, 0⟩ ∧
    uctxOf (((engSt id).poke (lsBase 0 + 0x35) [2]).bytes (lsBase 0) 64) = none ∧
    LinesGood ((engSt id).poke (lsBase 0 + 0x35) [2]) :=
  ⟨by decide, by decide, by decide +kernel, by decide +kernel, linesGood_of _ rfl⟩

/-- A bank whose committed step is 0 and has been skipped, or applies. -/
def numSt (skip : Bool) (step : W32) : State :=
  (engSt fun x => { x with step := step }).modBank 0 fun b => { b with state := if skip then 0x10000 else 0 }

def gateOf (s : State) : Int := ((s.eng 0).ctx.step - BitVec.ofNat 32 (fld (s.bank (s.eng 0).job).state 63 32)).toInt

theorem wit_UpdateGate : 0 < gateOf (numSt false 1) ∧ gateOf (numSt true 0) = 0 ∧ bit ((numSt true 0).bank 0).state 16 = true ∧
    gateOf (numSt false 0xFFFFFFFF) < 0 ∧ EngIssues (numSt true 0) 0 ∧ (0#6).toNat % 2 = 0 ∧ (63#6).toNat % 2 = 1 :=
  ⟨by decide, by decide, by decide, by decide, ⟨by decide, by decide, by decide⟩, by decide, by decide⟩

theorem wit_UpdatesApply : EngIssues (numSt false 0) 0 ∧ (numSt false 0).updGate 0 = .apply :=
  ⟨⟨by decide, by decide, by decide⟩, by decide⟩

/-- Nothing outstanding; a store outstanding; a tick to come; register numbers 4 and 5; a reserved opcode. -/
theorem wit_EngineSystem : ((engSt id).eng 0).ctx.stores = [] ∧ ((engSt id).eng 0).ctx.dmas = [] ∧
    ((engSt fun x => { x with stores := [0] }).eng 0).ctx.stores ≠ [] ∧ (0 : Nat) ≤ (engSt id).now ∧
    (engRegs 1 0).now < (((engRegs 1 0).eng 0).ctx.sreg 1).toNat ∧ (((engRegs 0 4).eng 0).ctx.sreg 2).toNat = 4 ∧
    (((engRegs 0 5).eng 0).ctx.sreg 2).toNat ≠ 4 ∧ ((engSt id).core (0 / 16)).st ≠ .halted ∧ veReserved 0 = true := by decide

/-- Semaphore 0 granted to slot 0, with this count and these waiters. -/
def semSt (s : State) (count : Nat) (ws : List (SemUnit × Nat × W64)) : State :=
  s.modSem 0 fun q => { q with granted := true, job := 0, count := count, waiters := ws }

/-- Amounts at the bounds: 4,096; 0; the count itself; one more than it; a sum of 65,535 and of 65,536. -/
theorem wit_EngineWaits_issue :
    4095 < (((engRegs 0 4096).eng 0).ctx.sreg 2).toNat ∧ ((engRegs 0 1).sem 0).granted = false ∧
    ((semSt (engRegs 0 4095) 4095 []).sem 0).granted = true ∧ ((semSt (engRegs 0 4095) 4095 []).sem 0).job = ((engRegs 0 4095).eng 0).job ∧
    ((semSt (engRegs 0 4095) 4095 []).sem 0).waiters = [] ∧ 4095 ≤ ((semSt (engRegs 0 4095) 4095 []).sem 0).count ∧
    ((semSt (engRegs 0 4095) 4094 []).sem 0).count < 4095 ∧
    ((semSt (engRegs 0 1) 5 [(.core 1, 1, 0)]).sem 0).waiters ≠ [] ∧
    ((semSt (engRegs 0 1) 65534 []).sem 0).count + 1 ≤ 65535 ∧ 65535 < ((semSt (engRegs 0 1) 65535 []).sem 0).count + 1 := by
  decide

theorem wit_EngineWaits_job : ((State.sem ((semSt (engRegs 0 1) 5 []).modSem 0 fun q => { q with job := 1 }) 0).job) ≠
    ((engRegs 0 1).eng 0).job := by decide

/-- Engine 0 holds an instruction. -/
def engHold (h : VeHeld) : State := (engSt id).modEng 0 fun k => { k with st := .stall, ctx := { k.ctx with held := h } }

theorem wit_EngineWaits_end :
    ((engHold .fence).eng 0).ctx.held = .fence ∧ ((engHold .fence).eng 0).ctx.dmas = [] ∧
    ((semSt (engHold (.semSRel 0 5)) 65530 []).eng 0).ctx.held = .semSRel 0 5 ∧
    ((semSt (engHold (.semSRel 0 5)) 65530 []).sem 0).count + 5 ≤ 65535 ∧
    ((engHold .halt).eng 0).ctx.held = .halt ∧ ((engHold .halt).core 0).st ≠ .halted ∧
    ((semSt (engHold (.semW 0 5)) 5 [(.eng 0, 5, 0)]).eng 0).ctx.held = .semW 0 5 ∧
    ((semSt (engHold (.semW 0 5)) 5 [(.eng 0, 5, 0)]).sem 0).waiters = [(.eng 0, 5, 0)] ∧
    5 ≤ ((semSt (engHold (.semW 0 5)) 5 [(.eng 0, 5, 0)]).sem 0).count ∧
    ((engHold (.waitT 0)).eng 0).ctx.held = .waitT 0 ∧ (0#64).toNat ≤ (engHold (.waitT 0)).now := by decide

theorem wit_EngineWaits_memory (h : VeHeld) : LinesGood (engHold h) ∧ WcbSound (engHold h) :=
  ⟨linesGood_of _ rfl, wcbSound_of _ rfl⟩

/-- A record at the start of the local store: 16 bytes from 0 to 0x10 of a chip on flow 1. -/
def dmaSt (chip : Nat) (dmas : List DmaOp) : State :=
  (((engRegs (w64 (lsBase 0)) 0).modVctx 0 fun x => { x with dmas := dmas }).modFlow 1 fun f => { f with valid := true }).poke (lsBase 0 + 8)
    (w64Bytes (w64 (at' chip 48 + 0x10)) ++ w64Bytes (w64 (at' 1 32 + 16)))

theorem wit_EngineDma :
    let s := dmaSt 0 []
    let r := lsBase 0
    EngIssues s 0 ∧ ((s.eng 0).ctx.sreg 1).toNat = r ∧ ownStore 0 r 32 = true ∧ r % 32 = 0 ∧ fld (s.word64 r) 63 48 = 0 ∧
      fld (s.word64 (r + 16)) 63 45 = 0 ∧ s.word64 (r + 24) = 0 ∧ fld (s.word64 r) 47 0 % 16 = 0 ∧ fld (s.word64 (r + 8)) 47 0 = 0x10 ∧
      fld (s.word64 (r + 16)) 31 0 = 16 ∧ s.jobRange 0 16 = true ∧ s.jobRange 0x10 16 = true ∧
      s.flowGranted (s.eng 0).job (fld (s.word64 (r + 16)) 44 32) = true ∧ fld (s.word64 (r + 8)) 63 48 = s.grp.chip.toNat :=
  by refine ⟨⟨?_, ?_, ?_⟩, ?_⟩ <;> decide +kernel

theorem wit_EngineDma_word3 : ((dmaSt 0 []).poke (lsBase 0 + 24) [1]).word64 (lsBase 0 + 24) ≠ 0 ∧
    ((dmaSt 0 []).poke (lsBase 0 + 24) [1]).jobRange 0 16 = true := by decide +kernel

theorem wit_EngineDma_remote : fld ((dmaSt 1 []).word64 (lsBase 0 + 8)) 63 48 ≠ (dmaSt 1 []).grp.chip.toNat ∧
    8 ≤ ((dmaSt 0 (List.replicate 8 (.copy 0 16 16 1 0))).eng 0).ctx.dmas.length ∧
    ((dmaSt 0 [.copy 0 16 16 1 0, .copy 0 16 16 2 0]).eng 0).ctx.dmas[1]? = some (.copy 0 16 16 2 0) ∧
    (∀ d ∈ [DmaOp.copy 0 16 16 1 0], (dmaSt 0 []).dmaFlow d ≠ 2) ∧ inMemory 0 16 = true ∧ inMemory 16 16 = true ∧
    ((dmaSt 0 []).eng 0).ctx.held = .none := by decide +kernel

/-! Witnesses: sequencers. -/

theorem coreIssues : SeqIssues (coreSt id) 0 := ⟨by decide, by decide, by decide⟩
/-- The last word of the range still issues. -/
theorem coreIssues_last : SeqIssues (coreSt fun x => { x with pc := 99 }) 0 := ⟨by decide, by decide, by decide⟩

def lev (i n : Nat) : LoopLevel := ⟨1, 3, n, i⟩

/-- A body that ends with the range and one that ends past it; three and four open loops; targets at and past the range's end;
semaphores at 0 and 1; the last iteration; seven, eight and no calls. -/
theorem wit_SequencerFlow : 98 + (1#12).toNat = 99 ∧ 99 < 99 + (1#12).toNat ∧ [lev 0 1, lev 0 1, lev 0 1, lev 0 1].length = 4 ∧
    ((coreSt id).core 0).pcOk (99#15).toNat = true ∧ ((coreSt id).core 0).pcOk (100#15).toNat = false ∧
    ((semSt (coreSt id) 0 []).sem 0).granted = true ∧ ((semSt (coreSt id) 0 []).sem 0).job = ((coreSt id).core 0).job ∧
    ((semSt (coreSt id) 0 []).sem 0).count = 0 ∧ ((semSt (coreSt id) 1 []).sem 0).count ≠ 0 ∧
    ((coreSt id).sem 0).granted = false ∧
    (∃ l rest, ((coreSt fun x => { x with loops := [lev 4 5] }).core 0).ctx.loops = l :: rest ∧ l.index + 1 = l.count) ∧
    (¬ ∃ l rest, ((coreSt id).core 0).ctx.loops = l :: rest ∧ l.index + 1 = l.count) ∧
    ((coreSt id).core 0).ctx.calls = [] ∧ ((coreSt fun x => { x with calls := [5, 9] }).core 0).ctx.calls = 5 :: [9] ∧
    8 ≤ ((coreSt fun x => { x with calls := List.replicate 8 1 }).core 0).ctx.calls.length ∧
    ((coreSt fun x => { x with calls := List.replicate 7 1 }).core 0).ctx.calls.length < 8 ∧ 3 + 1 < 5 ∧ 5 ≤ 4 + 1 :=
  ⟨by decide, by decide, by decide, by decide, by decide, by decide, by decide, by decide, by decide, by decide,
    ⟨lev 4 5, [], by decide, by decide⟩, fun ⟨_, _, h, _⟩ => (by cases h), by decide, by decide, by decide, by decide, by decide,
    by decide⟩

/-- A MOV outstanding. -/
def oneMove : SqCtx → SqCtx := fun x => { x with moves := [.snap 0 []] }

theorem wit_SequencerSemaphores :
    ((semSt (coreSt id) 4095 []).sem 0).waiters = [] ∧ (4095#12).toNat ≤ ((semSt (coreSt id) 4095 []).sem 0).count ∧
    ((semSt (coreSt id) 4094 []).sem 0).count < (4095#12).toNat ∧ ((semSt (coreSt id) 65530 []).sem 0).count + 5 ≤ 65535 ∧
    65535 < ((semSt (coreSt id) 65531 []).sem 0).count + 5 ∧
    ((coreSt id).core 0).classesOut true true true true = false ∧
    ((coreSt oneMove).core 0).classesOut true true true true = true ∧
    ((semSt (coreHeld (.semsRel 0 5) id) 65530 []).core 0).ctx.held = .semsRel 0 5 ∧
    ((semSt (coreHeld (.semw 0 5) id) 5 [(.core 0, 5, 0)]).sem 0).waiters = [(.core 0, 5, 0)] ∧
    ((semSt (coreHeld (.semw 0 5) id) 4 [(.core 0, 5, 0)]).sem 0).count < 5 := by decide

/-- An instance on core 0. -/
def instOf (whole : Bool) (st : InstState) : Inst :=
  { mkInst 3 0 { SchedEntry.empty with whole := whole, job := 0 } [0] 0 with st := st }
def withInst (s : State) (x : Inst) : State := s.modFw fun d => { d with insts := [x] }

/-- A test waits for the core, so that a YIELD waits. -/
def yielding : State := withCmd (withInst (coreSt id) (instOf false .running)) 0 8 0 [w64 (at' 1 56)]

theorem wit_SequencerWaits : SeqIssues yielding 0 ∧ yielding.yieldWanted 0 = true ∧ (coreSt id).yieldWanted 0 = false ∧
    (3#2) = 3 ∧ (2#2) ≠ 3 ∧ (coreSt id).nominalOn 0 + 0 * 1 ≤ (coreSt id).now ∧ (coreSt id).now < (coreSt id).nominalOn 0 + 1 * 1 ∧
    ceilDiv ((coreSt id).now + 0 * 1) 1 * 1 ≤ (coreSt id).now ∧ (coreSt id).now < ceilDiv ((coreSt id).now + 1 * 1024) 1024 * 1024 ∧
    ((coreSt oneMove).core 0).quiet = false ∧ ((coreSt id).core 0).quiet = true ∧ (coreSt id).enginesEnded 0 = false ∧
    sqReserved 0 = true ∧ ((coreHeld (.fence true false false false) oneMove).core 0).ctx.held = .fence true false false false ∧
    ((coreHeld (.fence true false false false) oneMove).core 0).classesOut true false false false = false ∧
    ((coreHeld (.halt 7) id).core 0).ctx.held = .halt 7 :=
  ⟨⟨by decide, by decide, by decide⟩, by decide, by decide, by decide, by decide, by decide, by decide, by decide, by decide,
    by decide, by decide, by decide, by decide, by decide, by decide, by decide⟩

theorem wit_SequencerWaits_expire :
    let s := (coreHeld (.waitt 0) id).modCore 0 fun k => { k with st := .waitt }
    (s.core 0).st = .waitt ∧ (s.core 0).ctx.held = .waitt 0 ∧ (0 : Nat) ≤ s.now := by decide

theorem wit_SequencerWaits_switch :
    let s := (coreSt id).modCore 0 fun k => { k with arrA := { k.arrA with pendCol := some 387 } }
    (s.core 0).arrA.pendCol.isSome ∧ (s.core 0).tileBoundary = true ∧ (s.core 0).ctx.loads = [] := by decide

/-- Descriptors: 1 a D16 tile of one row of eight columns at 0x100, 2 a DRAIN, 3 a WIDE of one row and column at 0x200, 4 a MASK,
5 PAGES, 6 a D16 tile of eight columns in the core buffer. -/
def descs : SMap W64 :=
  [(4, 0x100), (5, w64 (at' 1 12 + at' 8 26 + at' 16 40)), (9, w64 (at' 5 4)),
   (12, 0x200), (13, w64 (at' 1 4 + at' 1 12 + at' 1 26 + at' 16 40)), (16, 0x1000), (17, w64 (at' 3 4)), (18, 0x2000),
   (20, 0x3000), (21, w64 (at' 4 4 + at' 8 26 + at' 128 40)), (22, w64 (at' 1 56 + cbufBase 0)),
   (24, w64 (cbufBase 0)), (25, w64 (at' 1 12 + at' 8 26 + at' 16 40))]
def coreD (f : SqCtx → SqCtx) : State := (coreSt f).modCore 0 fun k => { k with desc := descs }

def act : TileRef := ⟨false, 0x100, 16, 1, 8, 0, 0, 0⟩
def aLoad (n : Nat) : Load := ⟨false, act, 0, 0, false, 0, none, n, 1⟩
def aPass (swap : Bool) : Pass := Pass.new ⟨.jet, 0, swap, 1, 1, act, [], 0, 0, 0, none, [0], 0⟩ []

theorem wit_StationaryLoads : SeqIssues (coreD id) 0 ∧
    (match optIndex 1 ((coreD id).loadOperand 0 1 false 0), optIndex 0 ((coreD id).loadOperand 0 0 false 0) with
      | .ok ra, .ok rb => ra == some act && rb.isNone | _, _ => false) = true ∧
    ((coreD id).core 0).loadBlocked = false ∧
    ((coreD fun x => { x with loads := [aLoad 0, aLoad 1, aLoad 2, aLoad 3] }).core 0).loadBlocked = true ∧
    (15#4).toNat < partSubs 4 ∧ 4 < (5#3).toNat ∧ partSubs 0 ≤ (1#4).toNat :=
  ⟨⟨by decide, by decide, by decide⟩, by decide +kernel, by decide, by decide, by decide, by decide, by decide⟩

theorem wit_StationaryLoads_land :
    let s := coreD fun x => { x with loads := [aLoad 0] }
    (s.core 0).ctx.loads[0]? = some (aLoad 0) ∧ (s.core 0).ctx.passes = [] ∧ (s.core 0).ctx.held = .none ∧ s.mem.lines = [] := by
  decide

/-- A swap wave has passed; a load waits for it. -/
def vacatedSt (h : SqHeld) : State :=
  (coreHeld h id).modCore 0 fun k => { k with arrA := { k.arrA with vacated := true }, arrB := { k.arrB with vacated := true } }

theorem wit_StationaryLoads_wave :
    let s := vacatedSt (.load false (some act) none 1 0 0 0)
    (s.core 0).arrA.vacated = true ∧ (∀ q ∈ (s.core 0).ctx.passes, q.toSwap = false) ∧
    (s.core 0).ctx.held = .load false (some act) none 1 0 0 0 ∧ s.sqStopped 0 = false ∧
    ({ s.core 0 with arrA := { (s.core 0).arrA with vacated := false } } : Core).loadBlocked = false ∧
    ((vacatedSt .none).core 0).ctx.held = .none := by decide

theorem wit_StationaryLoads_swap : ((coreSt id).core 0).passInside = false ∧
    ((coreSt fun x => { x with passes := [{ aPass false with framesA := [none] }] }).core 0).passInside = true ∧
    ((coreD fun x => { x with loads := [aLoad 0] }).core 0).ctx.loads ≠ [] := by decide

/-- A DRN for sub-array 0. -/
def aDrn : PendDrn :=
  ⟨0, 0, ⟨false, false, false, false, true, true⟩, .tile { act with base := 0x200 }, none, ⟨0, 0, 0, 0, 0, 0, none, none, 0, 0⟩, 1, 0, 2, 0⟩

def passDispatches (s : State) (kind : PassKind) (a mask : Nat) : Bool :=
  match s.passOperands 0 kind a mask 0 1 false with
  | .ok (s1, _) =>
    match takeDrns (List.range (partSubs 0)) (s.core 0).ctx.drnq with
    | some (drns, _) =>
      (match s1.bindAll 0 kind 0 1 ((s.core 0).futureTiles false false) ((s.core 0).futureTiles true false) drns with
       | .ok _ => true | .error _ => false)
    | none => false
  | .error _ => false

theorem wit_PassDispatch_jet : SeqIssues (coreD fun x => { x with drnq := [aDrn] }) 0 ∧
    ((coreD fun x => { x with drnq := [aDrn] }).core 0).ctx.waiting = false ∧
    (coreD fun x => { x with drnq := [aDrn] }).noMorePasses 0 = false ∧
    passDispatches (coreD fun x => { x with drnq := [aDrn] }) .jet 6 0 = true :=
  ⟨⟨by decide, by decide, by decide⟩, by decide, by decide, by decide +kernel⟩

theorem wit_PassDispatch_atv :
    passDispatches (coreD fun x => { x with drnq := [aDrn], atsValid := true, atsM := 1 }) .atv 6 0 = true := by decide +kernel

theorem wit_PassDispatch_stall : 4 < (5#3).toNat ∧ ((coreD fun x => { x with passes := [aPass false] }).core 0).ctx.waiting = true := by
  decide

theorem wit_PassProgress_issue :
    let s := coreD fun x => { x with passes := [aPass false] }
    s.frozen 0 = false ∧ (s.core 0).ctx.waiting = true ∧ (∀ q ∈ (s.core 0).ctx.passes, q.issued = true → q.entering = false) ∧
    (s.core 0).ctx.held = .none ∧ (s.core 0).ctx.passes[0]? = some (aPass false) ∧ (aPass false).ua = none ∧
    (aPass false).issued = false ∧ (aPass false).framesA = [] := by decide

theorem wit_PassProgress_enter :
    let p : Pass := { aPass true with ua := some [none], issued := true }
    let s := coreD fun x => { x with passes := [p] }
    (s.core 0).ctx.passes = [p] ∧ p.ua.isSome = true ∧ p.framesA = [] ∧ p.entered = 0 ∧ (s.core 0).ctx.loads = [] ∧
    (∀ m ∈ p.ops.rows, p.rowSlots m = 0) := by decide

theorem wit_Drains_queue :
    16 ≤ ((coreD fun x => { x with drnq := List.replicate 16 aDrn }).core 0).ctx.drnq.length ∧
    ((coreD fun x => { x with drnq := List.replicate 15 aDrn }).core 0).ctx.drnq.length < 16 ∧
    (match (coreD id).drnOperands 0 1 0 2 0 ⟨false, false, false, false, true, true⟩ with | .ok _ => true | .error _ => false) = true := by
  decide +kernel

/-- A pass all of whose rows have entered, its DRN bound. -/
def draining (final : Bool) : Pass :=
  { aPass false with
    binds := [⟨{ aDrn with flags := { aDrn.flags with final := final } }, none, none, none, none⟩],
    ua := some [none], framesA := [none], framesB := [none], issued := true, entered := 1 }

theorem wit_Drains_element (final : Bool) :
    let p := draining final
    let s := coreD fun x => { x with passes := [p] }
    s.frozen 0 = false ∧ (s.core 0).ctx.drainPass false 0 0 0 = some 0 ∧ (s.core 0).ctx.passes[0]? = some p ∧
    (p.ready false 0 0 0).isSome = true ∧ p.binds.map (fun d => d.out false) = [some (.tile { act with base := 0x200 })] ∧
    p.ops.ats = none ∧ fmtMx 0 = false ∧
    (p.binds.all fun d => decide ((s.mergeAt 0 p d (d.source false) 0 0).2.1.next.count ≤ 4096)) = true := by
  cases final <;> decide +kernel

theorem wit_Drains_writes :
    let w : DrainWrite := .line 0 2 [(0, some 1), (1, some 2)]
    let s := coreD fun x => { x with drainWrites := [w] }
    (s.core 0).ctx.drainWrites[0]? = some w ∧ (s.core 0).ctx.owesLine 2 0 = false ∧ s.mem.lines = [] ∧ s.mem.wcb = [] ∧
    inMemory 0 128 = true ∧ SMap.wf none [(0, some (1 : Byte)), (1, some 2)] = true := by decide

def aPacket : StagedPacket := ⟨1, 0, 0, 0, 1, 9, 0, 0x1000, 1, [], 0, 0, none, 0, false, 0x8000, 0, true⟩

theorem wit_Drains_packets :
    let s := (coreD fun x => { x with drainWrites := [.packet 5] }).modCore 0 fun k =>
      { k with staged := [(5, some aPacket)], chunks := [⟨1, 0, 0, [5]⟩] }
    (s.core 0).ctx.drainWrites[0]? = some (.packet 5) ∧ SMap.get none (s.core 0).staged 5 = some aPacket ∧
    SMap.get none ((coreD id).core 0).staged 5 = none ∧ (s.core 0).chunks[0]? = some ⟨1, 0, 0, [5]⟩ := by decide

theorem wit_Copies_issue :
    ((coreD fun x => { x with moves := List.replicate 16 (.snap 0 []) }).core 0).movesFull = true ∧
    ((coreD fun x => { x with moves := List.replicate 15 (.snap 0 []) }).core 0).movesFull = false ∧
    (match (coreD id).copyOperand 0 1 with | .ok u => u == act && (pairRuns u u).isSome | .error _ => false) = true ∧
    ((coreD id).modFlow 1 fun f => { f with valid := true }).flowGranted 0 1 = true := by decide +kernel

/-- A tile of 64 bytes a row for a snapshot. -/
theorem wit_Copies_snap :
    let s := (coreSt id).modCore 0 fun k => { k with desc := [(4, 0x100), (5, w64 (at' 1 12 + at' 32 26 + at' 64 40))] }
    (match (s.core 0).tileAt 1 with
      | .ok u => u.wide == false && decide (u.fmt ≤ 8 ∧ 64 ≤ u.rowBytes) && s.tileInRange u && s.jobRange (u.base + 64 * 4095) 64
      | .error _ => false) = true := by decide +kernel

theorem wit_Copies_complete :
    let u := act
    let v := { act with base := 0x200 }
    let s := coreD fun x => { x with moves := [.mov u v false 0 1, .snap 0 [1, 2, 3, 4, 5, 6, 7, 8]] }
    (s.core 0).ctx.moves[0]? = some (.mov u v false 0 1) ∧ pairRuns u v = some [(0x100, 0x200, 16)] ∧
    (s.core 0).ctx.held = .none ∧ inMemory 0x100 16 = true ∧ inMemory 0x200 16 = true ∧
    (s.core 0).ctx.moves[1]? = some (.snap 0 [1, 2, 3, 4, 5, 6, 7, 8]) ∧ inMemory 0 (8 * 8) = true ∧ s.mem.lines = [] ∧
    s.mem.wcb = [] := by decide

def aPut : LinkOp := { mkOp (.core 0) 1 (some 0) 1 [] 0 0 with finished := true }

theorem wit_Copies_put :
    let s := (coreD fun x => { x with puts := [7] }).setOp 7 (some aPut)
    s.op 7 = some aPut ∧ aPut.finished = true ∧ aPut.owner = .core (0 : CoreId).val ∧ (s.core 0).ctx.held = .none := by decide

/-! Witnesses: Meridian and the schedule. -/

def merSt (f : Mer → Mer) : State := State.reset.modMer f
def sysMgr (s : State) : State := s.modGrp fun g => { g with role := 2 }
def linkUp (s : State) (l : Nat) : State := s.modLink l fun q => { q with st := .up2, partner := 5 }

theorem wit_MeridianEvents_slew :
    let s (st : LockState) (n : Int) := merSt fun m => { m with st := st, slew := n, now := 5000, returning := true }
    (s .locked 1).mer.st = .locked ∧ 0 < (s .locked 1).mer.slew ∧ (s .locked 1).mer.lastSlew + 5000 ≤ (s .locked 1).now ∧
    (s .locked (-1)).mer.slew < 0 ∧ (s .holdover 1).mer.st = .holdover ∧ (s .holdover 1).mer.slew = 1 := by decide

theorem wit_MeridianEvents_states :
    let a := merSt fun m => { m with st := .acquire, measured := true }
    let u := linkUp (merSt fun m => { m with st := .locked, upstream := some 0 }) 1
    let v := u.modLink 0 fun q => { q with partner := 5 }
    let h (n : Nat) := merSt fun m => { m with st := .locked, altSince := some n }
    a.mer.st = .acquire ∧ a.mer.measured = true ∧ a.sec.boot ≠ .lock ∧
    v.mer.upstream = some 0 ∧ (v.link 0).up = false ∧ (v.link 1).up = true ∧ (v.link 1).partner = (v.link 0).partner ∧
    (1 : LinkId) ≠ 0 ∧ v.mer.st = .locked ∧ (h 4).mer.altSince = some 4 ∧ (h 4).mer.st = .locked := by decide

theorem wit_MeridianEvents_limits :
    let h := merSt fun m => { m with st := .holdover, holdEp := 101 }
    let r := sysMgr (merSt fun m => { m with st := .locked, source := 1 })
    h.mer.st = .holdover ∧ 100 < h.mer.holdEp ∧ r.grp.role = 2 ∧ r.mer.source = 1 ∧ r.mer.st = .locked := by decide

/-- Link 1 leads to chip 5, the manager, and link 0 does not; 2^22 ticks on the alternative and one less; a reference that has
been away for 2 s and one that has not. -/
theorem wit_MeridianEvents_times :
    let m (now : W64) := (linkUp (merSt fun m => { m with st := .locked, upstream := some 0, now := now, altSince := some 0 }) 1).modGrp
      fun g => { g with gmgr := 5 }
    let r (now : W64) := sysMgr (merSt fun m => { m with st := .locked, source := 2, now := now })
    (m 0).upstreamChip = 5 ∧ (m 0).leadsTo 1 (m 0).upstreamChip = true ∧ (m 0).leadsTo 0 (m 0).upstreamChip = false ∧
    ((m 0).link 0).up = false ∧ ((m 0).link 1).up = true ∧ 0 + 4 * 2 ^ 20 ≤ (m 0x400000).now ∧ (m 0x3FFFFF).now < 0 + 4 * 2 ^ 20 ∧
    (r 2000000000).mer.refAt + 2000000000 ≤ (r 2000000000).now ∧ (r 1999999999).now < (r 1999999999).mer.refAt + 2000000000 := by
  decide

/-- A Sync held, and a Delay_Req on its way. -/
theorem wit_MeridianEvents_ptp :
    let x : PtpExchange := ⟨some (7, 100), some (3, 0, 90), 4, []⟩
    let s := sysMgr (merSt fun m => { m with st := .locked, source := 2, ptp := x })
    s.grp.role = 2 ∧ s.mer.source = 2 ∧ s.mer.ptp.sync = some (7, 100) ∧ s.mer.ptp.request = some (3, 0, 90) := by decide

def aFrame : TimeFrame := ⟨100, 0, 90, 0, 0, 80, 0⟩
def timePacket (src : W16) : Packet :=
  ⟨0, 0, src, 0, 0, BitVec.ofNat 4 pkTime, true, 0, 0, 0, 0, frameBytes aFrame⟩
def timeSt (up : Option LinkId) : State :=
  (merSt fun m => { m with st := .locked, upstream := up }).modLink 0 fun q => { q with rx := [(0, [timePacket 1])] }

theorem wit_MeridianEvents_frames : (timeSt (some 0)).rxFront 0 0 = some (timePacket 1) ∧ (timePacket 1).kind.toNat = pkTime ∧
    (timePacket 1).payload = frameBytes aFrame ∧ (timeSt (some 0)).mer.upstream = some 0 ∧ aFrame.echoTick ≠ 0 ∧
    (timeSt none).rxFront 0 0 = some (timePacket 1) ∧ (timeSt none).mer.upstream ≠ some 0 := by decide

theorem wit_MeridianEvents_reference :
    let r := sysMgr (merSt fun m => { m with st := .holdover, source := 1, extOnly := true })
    let p := sysMgr (merSt fun m => { m with st := .locked, source := 2 })
    let e (b : Bool) := sysMgr (merSt fun m => { m with st := .acquire, source := 1, ppsArmed := b })
    r.grp.role = 2 ∧ r.mer.source = 1 ∧ r.mer.st = .holdover ∧ r.mer.extOnly = true ∧ p.mer.source = 2 ∧
    (e true).mer.source = 1 ∧ (e true).mer.ppsArmed = true ∧ (e false).mer.ppsArmed = false := by decide

/-- The first beat comes before the first epoch; the 1,024th is the epoch's. -/
theorem wit_BoundaryEvents :
    max State.reset.now State.reset.mer.nextBeat < State.reset.mer.nextEpoch ∧
    (let s := merSt fun m => { m with nextBeat := 1048576 }
     s.mer.nextEpoch ≤ s.mer.nextBeat ∧ s.mem.lines = [] ∧ s.mem.wcb = [] ∧
      inMemory (fld s.cnt.snap 47 0 + 8192 * (max s.now s.mer.nextEpoch % 2 ^ 64 / 2 ^ 20 % max 1 (fld s.cnt.snap 63 48))) 8192 = true) := by
  decide

/-- An entry whose instance is due on core 0. -/
def dueEntry : SchedEntry := { SchedEntry.empty with valid := true, cores := 1, period := 1000, share := 1 }
def dueSt (now : W64) : State := (merSt fun m => { m with now := now }).modEntry 3 fun _ => dueEntry

theorem wit_InstanceLaunch : ((dueSt 65).entry 3).due (dueSt 65).now = some (0, 0) ∧ (dueSt 65).instsOf 3 = [] ∧
    (dueSt 65).mayTake ⟨3, coresOf 1, 0, false, false⟩ = true ∧ 64 < (dueSt 65).now - 0 ∧ ¬ 64 < (dueSt 64).now - 0 ∧
    ((dueSt 64).entry 3).due (dueSt 64).now = some (0, 0) := by decide

/-- A waiter on core 0 that semaphore 0 blocks since tick 0, and its saved holder. -/
def blockedSt (noinh : Bool) : State :=
  let w := instOf false .running
  let h : Inst := { instOf false .saved with entry := 4, takes := [(0, 2)] }
  ((semSt (merSt fun m => { m with now := 1025 }) 0 [(.core 0, 1, 0)]).modSem 0 fun q => { q with noinh := noinh }).modFw fun d =>
    { d with insts := [w, h] }

theorem wit_InstanceLaunch_yieldBack :
    let s := blockedSt false
    (match s.liveInst 3 with
      | some w =>
        (match s.blockedOn w with
          | some (n, h) => n == 0 && !(s.sem n).noinh && !s.inChain 3 h && h.needs.all (fun c => w.needs.contains c) && s.saveReady w
          | none => false)
      | none => false) = true ∧
    ((blockedSt true).sem 0).noinh = true := by decide

theorem wit_InstanceLaunch_stop :
    let s := (State.reset.modJob 0 fun j => { j with st := .active }).modCore 0 fun k => { k with st := .fault, faultCode := .desc, job := 0 }
    s.stopDue 0 .unit = true := by decide

theorem wit_InstanceSaveRestore_save :
    let s := withInst (coreSt id) (instOf false .stopping)
    let t := withInst (coreSt oneMove) (instOf false .stopping)
    s.liveInst 3 = some (instOf false .stopping) ∧ s.saveWanted (instOf false .stopping) = true ∧
    s.saveReady (instOf false .stopping) = true ∧ t.saveWanted (instOf false .stopping) = true ∧
    t.saveReady (instOf false .stopping) = false := by decide

theorem wit_InstanceSaveRestore_restore :
    let s := withInst State.reset (instOf false .saved)
    (s.waiting.find? fun w => w.saved && w.entry == 3) = some ⟨3, [0], 0, true, false⟩ ∧
    s.keptInst 3 = some (instOf false .saved) ∧ s.mayTake ⟨3, [0], 0, true, false⟩ = true := by decide

theorem wit_InstanceSaveRestore_end :
    let s := (List.range 16).foldl (fun t j => t.modEng j fun k => { k with st := .halted }) (withInst (coreSt id) (instOf false .running))
    SeqIssues s 0 ∧ (s.core 0).quiet = true ∧ s.enginesEnded 0 = true ∧ s.instOn 0 = some (instOf false .running) ∧
    (instOf false .running).cores = [(0 : CoreId).val] ∧ (instOf false .running).exit < 4096 :=
  ⟨⟨by decide +kernel, by decide +kernel, by decide +kernel⟩, by decide +kernel, by decide +kernel, by decide +kernel, by decide, by decide⟩

/-! Witnesses: Darkel's commands. -/

/-- The last posted entry and Darkel's first. -/
theorem wit_CommandPost : (191#8).toNat < 192 ∧ 192 ≤ (192#8).toNat := by decide

/-- Slot 0 READY with cores 0 and 1. -/
def readySt : State :=
  ((coreSt id).modCore 1 fun k => { k with jrange := [(0, ⟨true, 0, 99, 1, 9⟩)] }).modJob 0 fun j => { j with st := .ready, cores := [0, 1] }

/-- JOB.START of entry 1023 on some cores, with an entry word and a share. -/
def startSt (cores entry share : Nat) : State :=
  withCmd readySt 0 2 0 [1023, 0, 1000, w64 (at' share 48 + at' cores 40 + entry)]
def startOf (s : State) : Nat × Nat :=
  let c := s.cmd 0
  let en := entryOf (c.arg 1) (c.arg 2) (c.arg 3) (c.arg 4)
  (s.startChecks (fld (c.arg 0) 9 0) en, s.startCores en)

/-- Two cores with a share of 1,000 and the last word of the range; three cores; a share of 1,001; an entry past the range. -/
theorem wit_JobCommands_start :
    (startSt 3 99 1000).cmdRuns 0 2 = true ∧ startOf (startSt 3 99 1000) = (0, 0) ∧ startOf (startSt 7 99 1000) = (0x11, 0x11) ∧
    startOf (startSt 3 99 1001) = (0, 0x11) ∧ startOf (startSt 3 100 1) = (0, 0x11) ∧ startOf (startSt 3 99 1) = (0, 0) := by decide

def shareSt (share : Nat) (valid : Bool) : State :=
  withCmd (State.reset.modEntry 5 fun e => { e with valid := valid }) 0 4 0 [5, w64 share]

theorem wit_JobCommands_share :
    (shareSt 1000 true).cmdRuns 0 4 = true ∧ fld (((shareSt 1000 true).cmd 0).arg 1) 9 0 = 1000 ∧
    ((shareSt 1000 true).entry (fld (((shareSt 1000 true).cmd 0).arg 0) 9 0)).valid = true ∧
    fld (((shareSt 1 true).cmd 0).arg 1) 9 0 = 1 ∧ fld (((shareSt 0 true).cmd 0).arg 1) 9 0 < 1 ∧
    1000 < fld (((shareSt 1001 true).cmd 0).arg 1) 9 0 ∧
    ((shareSt 1000 false).entry (fld (((shareSt 1000 false).cmd 0).arg 0) 9 0)).valid = false := by decide

/-- JOB.STOP of slot 0, with its flags and what it names. -/
def stopSt (flags arg : Nat) : State := withCmd (readySt.modEntry 1023 fun e => { e with valid := true, job := 0 }) 0 3 flags [0, w64 arg]

theorem wit_JobCommands_stop :
    (stopSt 0 1023).cmdRuns 0 3 = true ∧ ((stopSt 0 1023).entry 1023).job = 0 ∧ fld (((stopSt 0 1023).cmd 0).took 0) 62 60 ≠ 2 ∧
    ((stopSt 0 1023).job 0).st = .ready ∧ (stopSt 0 1023).fw.insts = [] ∧ ((stopSt 0 1023).cmd 0).flag 1 = false ∧
    ((stopSt 2 0x7FF).cmd 0).flag 1 = true ∧ fld (((stopSt 2 0x7FF).cmd 0).arg 1) 10 0 = 0x7FF := by decide

/-- A model descriptor of one region of 4 KiB and no block. -/
def modelBytes : List Byte :=
  toLe 8 modelMagic ++ toLe 4 1 ++ toLe 4 1 ++ toLe 8 80 ++ List.replicate 40 0 ++ toLe 8 0x100000 ++ toLe 8 0x1000

def modelSt : State := withCmd (State.reset.poke 0x1000 modelBytes) 0 5 0 [0x1000, 80]
def planGiven (r : Except Nat (List (Nat × Nat) × List (Nat × List Byte))) : Option (List (Nat × Nat)) :=
  match r with | .ok x => some x.1 | .error _ => none
def planFails (r : Except Nat (List (Nat × Nat) × List (Nat × List Byte))) : Nat := match r with | .ok _ => 0 | .error n => n

theorem wit_LoadCommands_model :
    modelSt.cmdRuns 0 5 = true ∧ (modelSt.cmd 0).flag 0 = false ∧ cmdSource 0x1000 80 = true ∧ modelSt.allEmpty = true ∧
    ((modelSt.cmd 0).arg 0).toNat = 0x1000 ∧ ((modelSt.cmd 0).arg 1).toNat = 80 ∧
    planGiven ((modelSt.checkRange rdKeeper 255 0x1000 80).1.modelPlan ((modelSt.checkRange rdKeeper 255 0x1000 80).1.bytes 0x1000 80)) =
      some [(0x100000, 0x1000)] ∧
    planFails (modelSt.modelPlan (modelSt.bytes 0x1000 79)) = 0x15 ∧ modelSt.mem.lines = [] := by decide +kernel

theorem wit_LoadCommands_unload :
    let s := (withCmd State.reset 0 5 1 []).modFw fun f => { f with model := some zero32 }
    s.cmdRuns 0 5 = true ∧ (s.cmd 0).flag 0 = true ∧ s.allEmpty = true ∧ s.fw.model ≠ none := by decide

/-- A job image of one region, for its first copy, with a digest of zeros, and with its own. -/
def imageZero : List Byte :=
  toLe 8 imageMagic ++ toLe 4 1 ++ toLe 4 1 ++ toLe 8 288 ++ toLe 8 (at' 2 8) ++ List.replicate 224 0 ++
    toLe 8 (at' 4 56 + 272) ++ toLe 8 16 ++ toLe 8 (at' 5 60 + 0x100000) ++ toLe 8 0x1000
def imageBytes : List Byte := spliceAt imageZero 0x60 (digest32 imageZero)

def jobSt (l : List Byte) : State :=
  withCmd ((State.reset.poke 0x1000 l).modFw fun f => { f with model := some zero32 }) 0 1 0 [0x1000, 288, 3]

set_option maxRecDepth 4000 in
theorem wit_LoadCommands_digest :
    part imageBytes 0x60 32 = digest32 imageZero ∧ spliceAt imageBytes 0x60 zero32 = imageZero := ⟨rfl, rfl⟩

/-- The image as it reads. -/
def imageRead : Image :=
  ⟨imageBytes, 2, 0, false, false, false, 0, zero32, digest32 imageZero,
    [⟨4, 0, toLe 8 (at' 5 60 + 0x100000) ++ toLe 8 0x1000⟩]⟩

set_option maxRecDepth 4000 in
theorem wit_LoadCommands_read : imageOf imageBytes = .ok imageRead := by
  have h : (part imageBytes 0x60 32 == digest32 (spliceAt imageBytes 0x60 zero32)) = true := by
    rw [wit_LoadCommands_digest.1, wit_LoadCommands_digest.2]; exact beq_self_eq_true _
  unfold imageOf
  simp only [h]
  rfl

theorem supplyLine_none (s : State) (a : Nat) (h : s.mem.held = []) : s.supplyLine a = s := by
  unfold State.supplyLine
  split
  · show ({ s with mem := s.mem.supply a } : State) = s
    have : s.mem.supply a = s.mem := by
      have e : s.mem.supply a = { s.mem with held := [] } := by unfold Mem.supply; rw [h]; rfl
      rw [e, ← h]
    rw [this]
  · rfl

theorem checkLines_good (r j : Nat) (l : List Nat) (s : State) (h : LinesGood s) (h0 : s.mem.held = []) :
    (s.checkLines r j l).1.mem = s.mem := by
  induction l generalizing s with
  | nil => rfl
  | cons a t ih =>
    have h1 : (s.checkLine r j a).1 = s.countPort a 0 1 := by unfold State.checkLine; rw [supplyLine_none s a h0, h a]
    have h2 : LinesGood (s.countPort a 0 1) := fun m => by rw [State.countPort_lineSt]; exact h m
    show (State.checkLines (s.checkLine r j a).1 r j t).1.mem = s.mem
    rw [h1, ih _ h2 (by rw [State.countPort_mem]; exact h0), State.countPort_mem]

theorem poke_held (s : State) (a : Nat) (b : List Byte) (h : s.mem.held = []) : (s.poke a b).mem.held = [] := by
  induction b generalizing s a with
  | nil => exact h
  | cons x t ih => exact ih _ _ (by show (s.mem.held.filter _) = []; rw [h]; rfl)

theorem jobSt_held (b : List Byte) : (jobSt b).mem.held = [] := poke_held State.reset 0x1000 b rfl

theorem jobSt_good (b : List Byte) : LinesGood (jobSt b) := fun l => (State.poke_frame State.reset 0x1000 b).2.2 l

/-- The image lies in memory as it was placed. -/
theorem wit_LoadCommands_bytes :
    ((jobSt imageBytes).checkRange rdKeeper 255 0x1000 288).1.bytes 0x1000 288 = imageBytes := by
  have hlen : imageBytes.length = 288 := by decide +kernel
  generalize imageBytes = b at hlen
  have hm : ((jobSt b).checkRange rdKeeper 255 0x1000 288).1.mem = (State.reset.poke 0x1000 b).mem :=
    checkLines_good _ _ _ _ (jobSt_good b) (by rw [jobSt_held])
  have hc : ∀ k, k < b.length → canon (0x1000 + k) = 0x1000 + k := by
    rw [hlen]; decide +kernel
  apply List.ext_getElem
  · rw [State.bytes, List.length_map, List.length_range, hlen]
  · intro i h1 h2
    have hi : i < 288 := hlen ▸ h2
    simp only [State.bytes, List.getElem_map, List.getElem_range]
    unfold State.peek State.wcbByte
    have hw : ∀ p, ((jobSt b).checkRange rdKeeper 255 0x1000 288).1.wcbAt p = [] := fun p => by
      unfold State.wcbAt; rw [hm]; exact (State.poke_frame State.reset 0x1000 b).2.1 p
    have hl : ∀ l, ((jobSt b).checkRange rdKeeper 255 0x1000 288).1.lineSt l = .good := fun l => by
      unfold State.lineSt; rw [hm]; exact (State.poke_frame State.reset 0x1000 b).2.2 l
    have hf : ∀ l, wcbFind [] l = none := fun _ => rfl
    rw [hc i h2]
    simp only [hl, hm, hw, hf, State.poke_cells _ _ _ hc]
    cases wcbPort (lineOf (4096 + i)) <;> simp [h2]

/-- Every check of the image passes. -/
theorem wit_LoadCommands_ok :
    (match ((jobSt imageBytes).checkRange rdKeeper 255 0x1000 288).1.imageChecks 3 imageBytes with
      | .ok m => m.digest.length == 32 | .error _ => false) = true := by
  unfold State.imageChecks
  rw [wit_LoadCommands_read]
  decide +kernel

theorem wit_LoadCommands_runs :
    (jobSt imageBytes).cmdRuns 0 1 = true ∧ cmdSource 0x1000 288 = true ∧ ((jobSt imageBytes).job 3).st = .empty := by
  refine ⟨?_, ?_, ?_⟩ <;> decide +kernel

/-- 400 W and 1,600 W, and a watt beyond each. -/
theorem wit_PlanCommands_cap :
    let s (w : Nat) : State := withCmd State.reset 0 6 0 [w64 w]
    (s 400).cmdRuns 0 6 = true ∧ fld (((s 400).cmd 0).arg 0) 10 0 = 400 ∧ fld (((s 1600).cmd 0).arg 0) 10 0 = 1600 ∧
    fld (((s 399).cmd 0).arg 0) 10 0 < 400 ∧ 1600 < fld (((s 1601).cmd 0).arg 0) 10 0 := by decide

def rampSt (mask : Nat) : State := withCmd State.reset 0 7 0 [w64 mask, 0x10, w64 (200 * 8), 0x10, 0x10]
def rampNames (s : State) : List Nat := (List.range 16).filter fun k => (fld ((s.cmd 0).arg 0) 15 0).testBit k

/-- Four chips, with slews of 2 and 200; five. -/
theorem wit_PlanCommands_ramp :
    (rampSt 0x8007).cmdRuns 0 7 = true ∧ rampNames (rampSt 0x8007) = [0, 1, 2, 15] ∧
    (List.range 4).map (fun k => fld (((rampSt 0x8007).cmd 0).arg (k + 1)) 10 3) = [2, 200, 2, 2] ∧
    (rampNames (rampSt 0x800F)).length = 5 := by decide

def calSt (kind at_ low a1 : Nat) : State := withCmd State.reset 0 9 0 [w64 (at' kind 56 + at' at_ 48 + low), w64 a1]

/-- Links 95 and 96; core 3 in both modes; a period of zero and of one; classes 2 and 3. -/
theorem wit_PlanCommands_cal :
    (calSt 0 95 0 0).cmdRuns 0 9 = true ∧ fld (((calSt 0 95 0 0).cmd 0).arg 0) 63 56 = 0 ∧
    fld (((calSt 0 95 0 0).cmd 0).arg 0) 54 48 = 95 ∧ fld (((calSt 0 96 0 0).cmd 0).arg 0) 54 48 = 96 ∧
    (calSt 1 3 0 0).cmdRuns 0 9 = true ∧ fld (((calSt 1 3 0 0).cmd 0).arg 0) 63 56 = 1 ∧
    fld (((calSt 1 3 0 0).cmd 0).arg 0) 49 48 = 3 ∧ ((calSt 1 3 0 0).pcore 3).free = false ∧
    (((calSt 1 3 0 0).modPcore 3 fun p => { p with free := true }).pcore 3).free = true ∧
    (calSt 2 0 0 1).cmdRuns 0 9 = true ∧ fld (((calSt 2 0 0 1).cmd 0).arg 1) 31 0 = 1 ∧
    fld (((calSt 2 0 0 0).cmd 0).arg 1) 31 0 = 0 ∧ (calSt 3 3 2 0).cmdRuns 0 9 = true ∧
    fld (((calSt 3 3 2 0).cmd 0).arg 0) 1 0 = 2 ∧ fld (((calSt 3 3 3 0).cmd 0).arg 0) 1 0 = 3 := by decide

/-- TEST.RUN of a kind, at a place, on a state. -/
def testSt (s : State) (flags kind at_ low : Nat) : State := withCmd s 0 8 flags [w64 (at' kind 56 + at' at_ 48 + low), 1]
def testArg (s : State) : W64 := (s.cmd 0).arg 0

theorem wit_TestCommands_core :
    let s := testSt State.reset 0 1 3 0
    let t := testSt (withInst (coreSt id) (instOf false .running)) 0 2 0 387
    let u := testSt State.reset 0 3 63 0
    s.cmdRuns 0 8 = true ∧ fld (testArg s) 63 56 = 1 ∧ s.instOn (fld (testArg s) 49 48) = none ∧
    t.cmdRuns 0 8 = true ∧ fld (testArg t) 63 56 = 2 ∧ fld (testArg t) 8 0 < 388 ∧
    t.instOn (fld (testArg t) 49 48) = some (instOf false .running) ∧ (instOf false .running).st = .running ∧
    (instOf true .running).whole = true ∧ (instOf false .running).whole = false ∧
    u.cmdRuns 0 8 = true ∧ fld (testArg u) 63 56 = 3 ∧ fld (testArg u) 53 48 / 16 = 3 ∧
    (testSt State.reset 0 0 0 0).cmdRuns 0 8 = true := by decide

/-- Stack 19 with 15 and with 16 of a bank's spares used; link 95 with a spare, without one, and forced; a test that has waited. -/
def rowsUsed (n : Nat) : State := State.reset.modMem fun m => { m with repaired := List.replicate n ⟨19, 0, 0, 0⟩ }
def laneSt (flags spcab : Nat) : State := testSt (State.reset.modLink 95 fun k => { k with spcab := spcab, st := .up2, src0 := 0, src1 := 1 }) flags 5 95 0

theorem wit_TestCommands_other :
    (testSt (rowsUsed 15) 0 4 19 0).cmdRuns 0 8 = true ∧ (rowOf (testArg (testSt (rowsUsed 15) 0 4 19 0))) = ⟨19, 0, 0, 0⟩ ∧
    (testSt (rowsUsed 15) 0 4 19 0).sparesUsed 19 0 0 < 16 ∧ 16 ≤ (testSt (rowsUsed 16) 0 4 19 0).sparesUsed 19 0 0 ∧
    (laneSt 0 0).cmdRuns 0 8 = true ∧ fld (testArg (laneSt 0 0)) 54 48 = 95 ∧ fld (testArg (laneSt 0 0)) 33 32 ≤ 1 ∧
    ((laneSt 0 0).link 95).spareFree = true ∧ ((laneSt 0 15).link 95).spareFree = false ∧
    ((laneSt 0 15).cmd 0).flag 0 = false ∧ ((laneSt 1 15).cmd 0).flag 0 = true := by decide

theorem wit_TestCommands_timeout :
    let s := ((testSt State.reset 0 1 0 0).modCmd 0 fun e => { e with phase := .pending 0, since := some 0 }).modMer fun m => { m with now := 0x100000 }
    (s.cmd 0).phase = .pending 0 ∧ (s.cmd 0).since = some 0 ∧ (s.cmd 0).code = 8 ∧ fld ((s.cmd 0).arg 1) 15 0 ≠ 0 ∧
    0 + fld ((s.cmd 0).arg 1) 15 0 ≤ s.now / 2 ^ 20 := by decide

/-- REPAIR.APPLY likewise. -/
def repSt (s : State) (flags kind at_ low : Nat) : State := withCmd s 0 0xA flags [w64 (at' kind 56 + at' at_ 48 + low)]
def columns (l : List Nat) : State := State.reset.modCore 0 fun k => { k with arrA := { k.arrA with retired := l } }

/-- Column 387 of array A of core 0, already retired, with three and with four others retired. -/
theorem wit_RepairCommands_column :
    let s (l : List Nat) (flags : Nat) := repSt (columns l) flags 2 0 387
    (s [1, 2, 3] 0).cmdRuns 0 0xA = true ∧ fld (((s [1, 2, 3] 0).cmd 0).arg 0) 8 0 = 387 ∧
    (((s [1, 2, 3] 0).core 0).arrayOf false).pendCol ≠ some 387 ∧ 387 ∈ (((s [387] 0).core 0).arrayOf false).retired ∧
    387 ∉ (((s [1, 2, 3] 0).core 0).arrayOf false).retired ∧ ((s [1, 2, 3] 0).pendCount 2 fun v => fld v 49 47 == 0) = 0 ∧
    ((s [1, 2, 3, 4] 0).core 0).arrA.retired.length = 4 ∧ (s [1, 2, 3] 0).sec.fieldUsed < 512 ∧
    ((s [1, 2, 3] 0).cmd 0).flag 0 = false ∧ ((s [1, 2, 3] 1).cmd 0).flag 0 = true := by decide

def spareUsed (s : State) : Nat := ((List.range 16).filter fun k => decide ((s.eng k).phys = 16)).length

theorem wit_RepairCommands_engine :
    let s := repSt State.reset 0 3 15 0
    let t := repSt (State.reset.modEng 7 fun k => { k with phys := 16 }) 0 3 15 0
    s.cmdRuns 0 0xA = true ∧ fld ((s.cmd 0).arg 0) 53 48 = 15 ∧ spareUsed s = 0 ∧ spareUsed t = 1 ∧ (s.eng 15).st = .idle := by
  decide

theorem wit_RepairCommands_rows :
    (repSt (rowsUsed 15) 0 4 19 0).cmdRuns 0 0xA = true ∧ (repSt (rowsUsed 15) 0 4 19 0).sparesUsed 19 0 0 = 15 ∧
    (repSt (rowsUsed 16) 0 4 19 0).sparesUsed 19 0 0 = 16 ∧
    ((repSt (rowsUsed 15) 0 4 19 0).pendCount 4 fun v => (rowOf v).stack == 19) = 0 ∧ (repSt (rowsUsed 15) 0 4 19 0).mem.lines = [] := by
  decide

theorem wit_RepairCommands_lane :
    let s (spcab : Nat) := repSt (State.reset.modLink 95 fun k => { k with spcab := spcab, st := .up2, src0 := 0, src1 := 1 }) 0 5 95 (at' 1 32)
    (s 1).cmdRuns 0 0xA = true ∧ fld (((s 1).cmd 0).arg 0) 54 48 = 95 ∧ fld (((s 1).cmd 0).arg 0) 33 32 = 1 ∧
    ((s 1).link 95).spareFree = true ∧ ((s 15).link 95).spareFree = false ∧ ((s 1).pendCount 5 fun v => fld v 54 48 == 95) = 0 := by
  decide

def aRec : LogRec := ⟨0, 2, 0, 0, 0, 0, 0, 0, 0, 0⟩

theorem wit_KeeperCommands :
    let log (b : Nat) := withCmd (State.reset.modCnt fun k => { k with log := [(5, aRec), (6, aRec)] }) 0 0xF 0 [6, w64 b, 10]
    let quote := withCmd State.reset 0 0xB 0 [0x100, 0x1000]
    (log 0x1000).cmdRuns 0 0xF = true ∧ ((log 0x1000).logFrom 6 10).length = 1 ∧ (log 0x1000).stackRange 0x1000 64 = true ∧
    ((log 0x1001).cmd 0).arg 1 = 0x1001 ∧ 0x1001 % 64 ≠ 0 ∧
    quote.cmdRuns 0 0xB = true ∧ (quote.cmd 0).arg 0 = 0x100 ∧ (quote.cmd 0).arg 1 = 0x1000 ∧ cmdSource 0x100 32 = true ∧
    cmdSource 0x1000 30176 = true ∧ quote.mem.lines = [] ∧ quote.mem.wcb = [] := by decide +kernel

theorem wit_KeeperCommands_roles :
    let role (r : Nat) (f : Bool) (arg : W64) := withCmd (State.reset.modGrp fun g => { g with formed := f, role := r }) 0 0xC 0 [arg]
    let lock (flags : Nat) (arg : W64) := withCmd (State.reset.modGrp fun g => { g with role := 2 }) 0 0xD flags [arg, 5]
    (role 0 true 1).cmdRuns 0 0xC = true ∧ (role 0 true 1).grp.formed = true ∧ (role 0 false 1).grp.formed = false ∧
    fld (((role 0 true 1).cmd 0).arg 0) 1 0 = 1 ∧ fld (((role 1 true 2).cmd 0).arg 0) 1 0 = 2 ∧ fld (((role 0 true 3).cmd 0).arg 0) 1 0 = 3 ∧
    (role 1 true 2).grp.role ≤ 1 ∧ (lock 1 0).cmdRuns 0 0xD = true ∧ (lock 1 0).grp.role = 2 ∧ fld (((lock 1 0).cmd 0).arg 0) 1 0 = 0 ∧
    fld (((lock 1 3).cmd 0).arg 0) 1 0 = 3 ∧ ((lock 1 0).cmd 0).flag 0 = true ∧ ((lock 0 0).cmd 0).flag 0 = false ∧
    (lock 1 0).workPlanned = false ∧ ((lock 1 0).modEntry 0 fun e => { e with valid := true }).workPlanned = true := by decide

theorem wit_KeeperCommands_reset :
    let s := withCmd State.reset 0 0xE 0 []
    s.cmdRuns 0 0xE = true ∧ s.tooHot = false ∧
    (withCmd (State.reset.modPwr fun p => { p with thmDie := 100 }) 0 0xE 0 []).tooHot = true := by decide

/-! Witnesses: links. -/

/-- A packet for chip d of a kind, with HOPS and LSEQ. -/
def pkt (d : W16) (kind hops lseq : Nat) (payload : List Byte) : Packet :=
  ⟨d, 0x1000, 1, 5, BitVec.ofNat 2 hops, BitVec.ofNat 4 kind, true, 0, 7, BitVec.ofNat 8 lseq, 0, payload⟩
/-- Link 0 of chip 0 up, its far end chip 5, with credits for and a deficit of n cells. -/
def linkSt (n : Nat) (f : Link → Link) : State :=
  (linkUp State.reset 0).modLink 0 fun q => f { q with credits := [(0, n), (1, n), (2, n), (3, n)], deficits := [(5, n), (32768 + 8193, n), (32768 + 16384, n)] }

theorem wit_LinkSends_resend :
    let s := linkSt 10 fun q => { q with replay := [pkt 1 0 0 0 []], toResend := 1 }
    (s.link 0).up = true ∧ 0 < (s.link 0).toResend ∧ (s.link 0).toResend ≤ (s.link 0).replay.length ∧
    (State.reset.link 0).st = .down ∧ State.reset.routeless 5 = false ∧ 8192 ≤ 8192 := by decide

def queued : TxItem := ⟨1, pkt 1 0 1 0 (List.replicate 32 0), 8193⟩

/-- Its two cells with credits and deficit for two. -/
theorem wit_LinkSends_queue :
    let s := linkSt 2 fun q => { q with queue := [queued] }
    (s.link 0).up = true ∧ (s.link 0).toResend = 0 ∧ (s.link 0).replay.length < 64 ∧ s.txChannel 0 = some 1 ∧ 8192 ≤ 8193 ∧
    ((s.link 0).queue.find? fun i => i.source == 8193 && i.vc == 1) = some queued ∧ pktCells queued.pkt = 2 ∧
    pktCells queued.pkt ≤ SMap.get 0 (s.link 0).credits 1 ∧ pktCells queued.pkt ≤ SMap.get 0 (s.link 0).deficits (defKey 1 8193) ∧
    queued.pkt.kind.toNat ≠ pkTime := by decide

def outPk : OutPacket := ⟨0, 0x1000, [], [(0x100, 32)], 0, true⟩
def anOp (todo : List OutPacket) (unacked : List W16) : LinkOp := ⟨.core 0, 5, some 0, 1, todo, unacked, false, none, some 0, 0, 0⟩
/-- The operation on flow 5 with CRED 1, to chip 1 by link 0. -/
def flowSt (n : Nat) (o : LinkOp) : State :=
  ((linkSt n id).modFlow 5 fun f => { f with valid := true, cred := 1, weight := 1 }).modLnk fun k =>
    { k with ops := [(1, some o)], lrt := [(1, w64 (2 ^ 63))] }

theorem wit_LinkSends_flow :
    let s := flowSt 2 (anOp [outPk] [])
    s.txChannel 0 = some 0 ∧ (s.flowOps 5).head? = some (1, anOp [outPk] []) ∧ (anOp [outPk] []).dchip ≠ s.grp.chip.toNat ∧
    s.flowMaySend 5 = true ∧ s.route 1 5 = some (0 : LinkId).val ∧ outPk.kind % 16 ≠ pkTime ∧ cellsFor outPk.size = 2 ∧
    cellsFor outPk.size ≤ SMap.get 0 (s.link 0).credits 0 ∧ cellsFor outPk.size ≤ SMap.get 0 (s.link 0).deficits (defKey 0 5) ∧
    s.mem.lines = [] ∧ (flowSt 1 (anOp [outPk] [])).txChannel 0 = none := by decide

/-- The same flow over a link in HOLD, and a link in TRAIN. -/
theorem wit_LinkSends_states :
    let s := (flowSt 2 (anOp [outPk] [])).modLink 0 fun q => { q with st := .hold }
    (s.link 0).st = .hold ∧ 5 < 8192 ∧ (s.flowOps 5).head? = some (1, anOp [outPk] []) ∧ s.flowMaySend 5 = true ∧
    s.route 1 5 = some (0 : LinkId).val ∧ outPk.kind % 16 ≠ pkAck ∧ s.mem.lines = [] ∧
    ((s.modLink 0 fun q => { q with st := .train }).link 0).st = .train ∧ (flowSt 2 (anOp [outPk] [])).routeless 5 = false := by decide

/-- LSEQ 255 expected; the packet, the one before it, and one whose CRC fails. -/
theorem wit_LinkReceives_packets :
    let s := linkSt 0 fun q => { q with rxSeq := 255 }
    (s.link 0).up = true ∧ (pkt 0 0 0 255 []).lseq.toNat = (s.link 0).rxSeq ∧ s.reservedKind (pkt 0 0 0 255 []) = false ∧
    (pkt 0 0 0 254 []).lseq.toNat ≠ (s.link 0).rxSeq ∧ (s.link 0).nakSent = false ∧
    packetCrc (pkt 0 0 0 255 []) + 1 ≠ packetCrc (pkt 0 0 0 255 []) := by decide +kernel

def fwdSt (hops : Nat) (up : Bool) : State :=
  (if up then linkUp (linkSt 0 fun q => { q with rx := [(hops, [pkt 1 0 hops 0 []])] }) 2
   else linkSt 0 fun q => { q with rx := [(hops, [pkt 1 0 hops 0 []])] }).modLnk fun k => { k with lrt := if up then [(1, w64 (2 ^ 63 + at' 2 50))] else [] }

/-- The third hop goes on; a fourth does not, nor one without a route. -/
theorem wit_LinkReceives_forward :
    (fwdSt 2 true).rxFront 0 2 = some (pkt 1 0 2 0 []) ∧ (pkt 1 0 2 0 []).dchip ≠ (fwdSt 2 true).grp.chip ∧
    (pkt 1 0 2 0 []).hops.toNat < 3 ∧ (fwdSt 2 true).route 1 5 = some 2 ∧ ((fwdSt 2 true).link 2).up = true ∧
    (fwdSt 3 true).rxFront 0 3 = some (pkt 1 0 3 0 []) ∧ 3 ≤ (pkt 1 0 3 0 []).hops.toNat ∧ (fwdSt 0 false).route 1 5 = none := by decide

/-- A cell that acknowledges LSEQ 3, and one that also asks for LSEQ 5 and what follows. -/
def aCell (nak : Bool) : W64 := w64 (at' 1 60 + (if nak then 2 ^ 59 else 0) + at' 3 48 + at' 5 40)

theorem wit_LinkReceives_cells :
    let s := linkSt 0 fun q => { q with replay := [pkt 1 0 0 3 [], pkt 1 0 0 4 [], pkt 1 0 0 5 []] }
    fld (aCell false) 63 60 = 1 ∧ fld (w64 (cellCrc (aCell false)).toNat) 31 0 = (cellCrc (aCell false)).toNat ∧
    fld (w64 (cellCrc (aCell true)).toNat) 31 0 = (cellCrc (aCell true)).toNat ∧ ¬ fld (0 : W64) 63 60 = 1 ∧ (s.link 0).up = true ∧ bit (aCell false) 59 = false ∧ bit (aCell true) 59 = true ∧
    fld (aCell true) 47 40 = 5 ∧ (ackedTo (s.link 0).replay 3).length = 2 ∧ (ackedTo (ackedTo (s.link 0).replay 3) 4).length = 1 ∧
    (s.link 0).resends < 8 := by decide +kernel

theorem wit_LinkFailures :
    let s (n : Nat) := (linkSt 0 fun q => { q with replay := [pkt 1 0 0 3 []], sentAt := [0], resends := n }).modMer fun m => { m with now := 1000 }
    let early := (s 7).modMer fun m => { m with now := 999 }
    let spare (spcab src1 : Nat) := linkSt 0 fun q => { q with spcab := spcab, src1 := src1 }
    let hold (now : W64) := ((linkSt 0 fun q => { q with st := .hold }).modMer fun m => { m with now := now })
    ((s 7).link 0).up = true ∧ ((s 7).link 0).toResend < ((s 7).link 0).replay.length ∧ ((s 7).link 0).sentAt.head? = some 0 ∧
    (0 : W64).toNat + 1000 ≤ (s 7).now ∧ early.now < (0 : W64).toNat + 1000 ∧ ((s 7).link 0).resends < 8 ∧ 8 ≤ ((s 8).link 0).resends ∧
    ((spare 0 1).link 0).spareFree = true ∧ ((spare 15 1).link 0).spareFree = false ∧ ((spare 15 1).link 0).src1 ≠ 63 ∧
    ((spare 15 63).link 0).src1 = 63 ∧ ((hold 100000).link 0).st = .hold ∧
    ((hold 100000).link 0).heldAt.toNat + 1000 * (hold 100000).lnk.hold ≤ (hold 100000).now ∧
    (hold 99999).now < ((hold 99999).link 0).heldAt.toNat + 1000 * (hold 99999).lnk.hold := by decide

/-! Witnesses: landings. -/

def landSt (p : Packet) : State := linkSt 0 fun q => { q with rx := [(p.hops.toNat, [p])] }
def aMgmt (mtype fidx fcnt mseq : Nat) : Packet :=
  { pkt 0 pkMgmt 0 0 [1, 2] with karg := BitVec.ofNat 56 (at' mtype 48 + at' fidx 40 + at' fcnt 32 + mseq) }

theorem wit_Landings_data :
    let p := pkt 0 pkData 0 0 [1, 2]
    let q := { p with daddr := BitVec.ofNat 48 (stackSize - 1) }
    Lands (landSt p) (.link 0 0) pkData p ∧ (landSt p).landOk p p.payload.length = true ∧ p.payload.length ≤ 4096 ∧ (landSt p).mem.lines = [] ∧ (landSt p).mem.wcb = [] ∧
    Lands (landSt q) (.link 0 0) pkData q ∧ (landSt q).landOk q q.payload.length = false :=
  ⟨⟨by decide, by decide, by decide⟩, by decide, by decide, by decide, by decide, ⟨by decide, by decide, by decide⟩, by decide⟩

theorem wit_Landings_mgmt :
    let s := landSt (aMgmt 2 0 1 9)
    let t := landSt (aMgmt 2 1 2 9)
    let u := (landSt (aMgmt 2 0 1 9)).modGrp fun g => { g with taken := [(1, [9])] }
    Lands s (.link 0 0) pkMgmt (aMgmt 2 0 1 9) ∧ (SMap.get [] s.grp.taken 1).contains 9 = false ∧
    kargFidx (aMgmt 2 0 1 9) = 0 ∧ kargFcnt (aMgmt 2 0 1 9) = 1 ∧ kargMtype (aMgmt 2 0 1 9) ≠ 1 ∧ s.grp.parts = [] ∧
    Lands t (.link 0 0) pkMgmt (aMgmt 2 1 2 9) ∧ kargFidx (aMgmt 2 1 2 9) < kargFcnt (aMgmt 2 1 2 9) ∧ 1 < kargFcnt (aMgmt 2 1 2 9) ∧
    Lands u (.link 0 0) pkMgmt (aMgmt 2 0 1 9) ∧
    (SMap.get [] u.grp.taken (aMgmt 2 0 1 9).schip.toNat).contains (kargMseq (aMgmt 2 0 1 9)).toNat = true :=
  ⟨⟨by decide, by decide, by decide⟩, by decide, by decide, by decide, by decide, by decide, ⟨by decide, by decide, by decide⟩,
    by decide, by decide, ⟨by decide, by decide, by decide⟩, by decide⟩

theorem wit_Landings_ack :
    let s (now : W64) := ((linkSt 0 id).modLnk fun k => { k with landed := [(pairKey 0 5, ⟨7, 3, 0⟩)] }).modMer fun m => { m with now := now }
    let r := SMap.get Landed.none (s 200).lnk.landed (pairKey (0#16).toNat (5#13).toNat)
    r.count ≠ 0 ∧ r.since.toNat + 200 ≤ (s 200).now ∧ 0#16 = (s 200).grp.chip ∧ (s 199).now < r.since.toNat + 200 := by decide

/-- An acknowledgement of FSEQ 7 with a status. -/
def anAck (status : Nat) : Packet := { pkt 0 pkAck 0 0 [] with status := BitVec.ofNat 2 status }
def ackSt (status : Nat) (unacked : List W16) : State :=
  (landSt (anAck status)).modLnk fun k => { k with ops := [(1, some (anOp [] unacked))] }

/-- It covers 6 and 7 and not 8. -/
theorem wit_Acknowledgements :
    Lands (ackSt stOk [6, 7]) (.link 0 0) pkAck (anAck stOk) ∧ flowAll (ackSt stOk [6, 7]) 5 = [(1, anOp [] [6, 7])] ∧
    (ackSt stOk [6, 7]).op 1 = some (anOp [] [6, 7]) ∧ (anOp [] [6, 7]).finished = false ∧ (anOp [] [6, 7]).failedWith = none ∧
    (anOp [] [6, 7]).unacked = (anOp [] [6, 7]).unacked.filter (fun u => ackCovers 7 stOk u) ∧
    (∃ u, (anOp [] [6, 7]).owner = .core u) ∧ (anOp [] [7, 8]).unacked.filter (fun u => ackCovers 7 stOk u) = [7] ∧
    Lands (ackSt stLost [6, 7]) (.link 0 0) pkAck (anAck stLost) ∧ (anOp [] [6, 7]).unacked.contains (anAck stLost).fseq = true ∧
    (anAck stLost).status.toNat ≠ stOk :=
  ⟨⟨by decide, by decide, by decide⟩, by decide, by decide, by decide, by decide, by decide, ⟨0, rfl⟩, by decide,
    ⟨by decide, by decide, by decide⟩, by decide, by decide⟩

theorem wit_Acknowledgements_timeout :
    let s (now : W64) := (ackSt stOk [7]).modMer fun m => { m with now := now }
    (s 1000000).op 1 = some (anOp [] [7]) ∧ (anOp [] [7]).t0 = some 0 ∧
    (0#64).toNat + 1000 * (s 1000000).lnk.timeout ≤ (s 1000000).now ∧
    (s 999999).now < (0#64).toNat + 1000 * (s 999999).lnk.timeout := by decide

/-! Witnesses: reduction and numerics. -/

/-- Slot 0's reduction: one bucket of two packets in S1, one contribution of chip 1, added by engine 0; its index, table, landing
area, queue and mask lie apart. -/
def redRegs : RedSlot :=
  { RedSlot.reset with ctl := w64 (2 ^ 63 + 0x1000), btab := w64 (at' 1 52 + 0x10000), bidx := 0x20000, wqbase := 0x40000,
                       wqcfg := w64 (at' 16 40), mask := 0x50000 }
def entryWords : List W64 :=
  [w64 (at' 1 44 + at' 1 24 + 2), w64 (at' 1 51), w64 (at' 0xFFFFFFFF 32), 0x28000, 0x30000, 0x38000, 0x3C000,
   w64 (at' 7 32)]
def redSt (s : State) (step : Nat) (pk : SMap PkState) (srcs : List SrcRec) (dl : Nat) : State :=
  (((s.modRed 0 fun _ => redRegs).poke 0x10000 (entryWords.flatMap w64Bytes)).poke 0x10010 (toLe 4 0 ++ toLe 4 dl)).modRent 0 0 fun r =>
    { r with armed := true, srcs := srcs, pk := pk, t0 := some (w64 step) }
def aSrc : SrcRec := ⟨1, 0, 0, 0⟩

/-- A chunk of packet 1 of bucket b for a step. -/
def aChunk (bucket step : Nat) : Packet :=
  { pkt 0 pkReduce 0 0 (w64Bytes (w64 (at' step 32 + 1)) ++ w64Bytes (w64 (at' 1 56)) ++ List.replicate 48 0 ++ toLe 2 8 ++
      List.replicate 62 0 ++ List.replicate 8 1) with karg := BitVec.ofNat 56 (at' bucket 40 + at' 1 24) }
def reduceSt (bucket step : Nat) : State := redSt (landSt (aChunk bucket step)) 0 [] [aSrc] 0xFFFFFFFF

theorem wit_ReduceLandings :
    let s := reduceSt 0 7
    let p := aChunk 0 7
    let b := s.bent 0 0
    let r := s.rent 0 0
    s.landFront (.link 0 0) = some p ∧ p.dchip = s.grp.chip ∧ p.kind.toNat = pkReduce ∧ s.landOk p 1 = true ∧
    s.redSlotOf p.daddr.toNat = some 0 ∧ s.bentOf 0 0 = some 0 ∧
    r.srcs.findIdx? (fun y => y.chip == p.schip.toNat && y.slice == 0 && b.fmtOf y == 1) = some 0 ∧ chunkNpkt p.payload = 1 ∧
    128 + packetBytes 1 ≤ p.payload.length ∧ chunkPidx p.payload = 1 ∧ b.npall = 2 ∧ s.expected 0 b 1 = true ∧
    BitVec.ofNat 32 (fld (w64OfBytes p.payload) 63 32) = b.step ∧ b.latch = false ∧ r.srcs[0]? = some aSrc ∧
    r.pkt 0 1 = .none ∧ r.takenFor 0 1 = false ∧ s.expected 0 b 0 = true ∧ r.resolved 0 0 = false ∧ s.mem.lines = [] ∧
    s.mem.wcb = [] := by decide +kernel

theorem apart_of (l : List (Nat × Nat)) (h1 : ∀ p ∈ l, p.1 + p.2 ≤ 0x1000000000 ∨ 0x1500000000 ≤ p.1)
    (h2 : l.Pairwise fun p q => p.1 + p.2 ≤ q.1 ∨ q.1 + q.2 ≤ p.1) : Apart l :=
  h2.imp_of_mem fun {p q} hp hq h i k hi hk => by
    have := h1 p hp
    have := h1 q hq
    rw [canon_other _ (by omega), canon_other _ (by omega)]; omega

/-- The six places of that packet do not touch. -/
theorem wit_ReduceLandings_apart :
    let s := reduceSt 0 7
    let b := s.bent 0 0
    let r := s.rent 0 0
    Apart [(b.packetAt r.srcs 0 1, 8), (b.residueAt r.srcs 0 1, 2), (b.addr, 64), (s.wqAt 0 0 0, 32), (s.headAt 0 0, 8),
      (fld (s.redSlot 0).mask 47 0 + 128 * b.bucket, 128)] :=
  apart_of _ (by decide +kernel) (by decide +kernel)

theorem wit_ReduceLandings_past :
    let p := aChunk 0 6
    let s := reduceSt 0 6
    BitVec.ofNat 32 (fld (w64OfBytes p.payload) 63 32) ≠ (s.bent 0 0).step ∧
    (BitVec.ofNat 32 (fld (w64OfBytes p.payload) 63 32) - (s.bent 0 0).step).slt 0 = true ∧
    ((reduceSt 1 7).poke 0x20002 [1]).bentOf 0 1 = none := by decide +kernel

/-- A LAP packet for slot 0: stage, step, chip. -/
def aLap (stage step chip : Nat) : Packet :=
  pkt 0 pkLap 0 0 (w64Bytes (w64 (at' stage 32 + step)) ++ w64Bytes 1 ++ w64Bytes (w64 chip) ++ List.replicate 8 0)
/-- The slot has committed step 6; its group has four members and the system three groups. -/
def lapSt (stage step : Nat) : State :=
  ((landSt (aLap stage step 9)).modRed 0 fun _ => { redRegs with lapcfg := w64 (at' 4 51 + at' 3 40) }).modBank 0 fun b => { b with state := w64 (at' 6 32) }

theorem wit_LapAndStatuses_laps :
    let s := lapSt 1 7
    let p := aLap 1 7 9
    let d (n : Nat) : W32 := BitVec.ofNat 32 (fld (w64OfBytes (aLap 1 n 9).payload) 31 0) - s.committed 0
    s.landFront (.link 0 0) = some p ∧ p.dchip = s.grp.chip ∧ p.kind.toNat = pkLap ∧ s.landOk p 1 = true ∧ s.redSlotOf p.daddr.toNat = some 0 ∧
    d 7 = 1 ∧ d 8 = 2 ∧ d 9 ≠ 1 ∧ d 9 ≠ 2 ∧ d 6 ≠ 1 ∧ d 6 ≠ 2 ∧
    [1, 2, 3].map (fun n => fld (w64OfBytes (aLap n 7 9).payload) 33 32) = [1, 2, 3] ∧
    (s.lapAcc 0 7).members = [] ∧ (s.lapAcc 0 7).groupSent = false ∧ (s.lapAcc 0 7).members.length + 1 ≠ s.nmem 0 ∧
    (s.lapAcc 0 7).groups = [] ∧ (s.lapAcc 0 7).finalSent = false ∧ (s.lapAcc 0 7).groups.length + 1 ≠ s.ngrp 0 ∧ (s.bank 0).held = [] := by
  decide +kernel

/-- Engine 0 has written TAIL 1 and a status for the first post, packet 0; packet 1 has not come. -/
def tailSt (status : Nat) : State :=
  ((redSt State.reset 0 [(pkKey 0 0, .posted)] [aSrc] 0xFFFFFFFF).modRed 0 fun r => { r with heads := [(0, 1)] }).poke (lsBase 0 + 8) [1]
    |>.poke 0x4001F [BitVec.ofNat 8 status]

theorem wit_LapAndStatuses_tail :
    let s := tailSt 3
    let b := s.bent 0 0
    let r := s.rent 0 0
    s.redEn 0 = true ∧ (s.eng 0).job = 0 ∧ (s.word64 (s.headAt 0 0 + 8)).toNat = SMap.get 0 (s.redSlot 0).tails 0 + 1 ∧
    SMap.get 0 (s.redSlot 0).tails 0 + 1 ≤ SMap.get 0 (s.redSlot 0).heads 0 ∧ s.wqAt 0 0 0 = 0x40000 ∧
    s.bentOf 0 (fld (s.word64 0x40000) 63 48) = some 0 ∧ fld (s.word64 0x40000) 43 32 = 0 ∧ fld (s.word64 0x40000) 31 0 = 0 ∧
    r.pkt 0 0 = .posted ∧ fld (s.word64 0x40018) 63 56 = 3 ∧ fld ((tailSt 0).word64 0x40018) 63 56 = 0 ∧
    r.srcs[0]? = some aSrc ∧ aSrc.kind ≠ 1 ∧ b.npall = 2 ∧ s.expected 0 b 1 = true ∧ r.resolved 0 1 = false ∧ r.haloOf 0 = none ∧
    pkKey 0 1 ≠ pkKey 0 0 := by decide +kernel

def deadSt (now : W64) (held : Bool) : State :=
  (redSt State.reset 0 (if held then [(pkKey 1 0, .held)] else []) [aSrc, ⟨2, 0, 1, 0⟩] 100).modMer fun m => { m with now := now }

theorem wit_LapAndStatuses_deadline :
    let s := deadSt 100 true
    let r := s.rent 0 0
    r.deadline (s.bent 0 0) = some 100 ∧ r.armed = true ∧ r.deadlinePassed = false ∧ (deadSt 99 true).now < 100 ∧ 100 ≤ s.now ∧
    r.srcs[0]? = some aSrc ∧ aSrc.kind = 0 ∧ r.haloOf 0 = some 1 ∧ (s.bent 0 0).npall = 2 ∧ s.expected 0 (s.bent 0 0) 0 = true ∧
    r.pkt 0 0 = .none ∧ r.pkt 1 0 = .held ∧ (deadSt 100 false).entryDone 0 0 = false ∧ ((deadSt 100 false).rent 0 0).pk = [] := by
  decide +kernel

/-- A bank that has committed step 6 at this loss scale with CLEAN 1,999 of 2,000, and the word of step 7. -/
def commitSt (ls clean : Nat) (word : W64) : State :=
  State.reset.modBank 0 fun b => { b with state := w64 (at' 6 32 + at' ls 24 + clean), held := [(7, word, 0)] }

theorem wit_Commits_bank :
    let n (ls clean : Nat) := (commitSt ls clean 0).bank 0
    ((commitSt 5 0 0).bank 0).held.find? (fun h => h.1 == (n 5 0).step + 1) = some (7, 0, 0) ∧
    ((State.reset.bank 0).held.find? fun h => h.1 == (State.reset.bank 0).step + 1) = none ∧
    fld (1 : W64) 2 0 ≠ 0 ∧ fld (8 : W64) 2 0 = 0 ∧ (n 5 1999).clean + 1 = fld (n 5 1999).ctl 63 48 ∧
    (n 5 1998).clean + 1 ≠ fld (n 5 1998).ctl 63 48 ∧ (n 1 0).lsmin < (n 1 0).lsexp ∧ ¬ (n 0 0).lsmin < (n 0 0).lsexp ∧
    (n 23 0).lsexp < (n 23 0).lsmax ∧ ¬ (n 24 0).lsexp < (n 24 0).lsmax := by decide

/-- A captured tile of zeros, with a row of zeros. -/
def tile0 : TileMeta := ⟨4, 0, 0, 1, 1, false, none, 0, none⟩

theorem refSum_zeros (ks : List Nat) (h : ∀ i ∈ ks, rowVal 0 [] [] i = .fin false 0 (-133)) :
    refSum (rowVal 0 [] []) [] ks = ((0, 0), .finite) := by
  unfold refSum
  induction ks with
  | nil => rfl
  | cons k t ih =>
    have h0 : rowVal 0 [] [] k = .fin false 0 (-133) := h k (by simp)
    have hp : pairAdd ((0, 0) : W32 × W32) (FVal.mul (.fin false 0 (-133)) (.fin false 0 0)) = (0, 0) := by decide +kernel
    have hs : (fun (a : (W32 × W32) × Tag) i =>
        match FVal.mul (rowVal 0 [] [] i) (((([] : List (Nat × FVal)).find? fun q => q.1 == i).map (·.2)).getD (.fin false 0 0)) with
        | .fin _ _ _ => (pairAdd a.1 (FVal.mul (rowVal 0 [] [] i) (((([] : List (Nat × FVal)).find? fun q => q.1 == i).map (·.2)).getD (.fin false 0 0))), a.2)
        | _ => (a.1, a.2.add (Tag.ofVal (FVal.mul (rowVal 0 [] [] i) (((([] : List (Nat × FVal)).find? fun q => q.1 == i).map (·.2)).getD (.fin false 0 0))))))
          ((0, 0), .finite) k = ((0, 0), .finite) := by
      simp only [List.find?_nil, Option.map_none, Option.getD_none, h0]
      show (pairAdd _ _, _) = _
      rw [hp]
    rw [List.foldl_cons]
    exact (congrArg (fun z => List.foldl _ z t) hs).trans (ih fun i hi => h i (by simp [hi]))

/-- No column of it is beyond its bound; with a tag of NaN in a chain word, that column is. -/
theorem wit_Commits_columns :
    (checkCapture Plane.empty tile0 [] [] 0 1 none []).filter (·.beyond) = [] ∧
    (checkCapture Plane.empty tile0 [] [] 0 1 none [⟨0, .nan⟩]).filter (·.beyond) ≠ [] := by
  refine ⟨?_, fun h => ?_⟩
  · have hw : Plane.empty.weights 4 0 1 = [] := by decide
    have hr : ∀ i ∈ (List.range 1).flatMap (fun lane => (List.range 96).map fun k => 384 * lane + 0 + k),
        rowVal 0 [] [] i = .fin false 0 (-133) := by decide
    have hc : ∀ n, (checkColumn 1 none ((([] : List ChainWord)[n]?).getD ChainWord.zero) (rowVal 0 [] []) []
        ((List.range 1).flatMap fun lane => (List.range 96).map fun k => 384 * lane + 0 + k) n).beyond = false := by
      intro n
      unfold checkColumn
      rw [refSum_zeros _ hr]
      rfl
    unfold checkCapture
    simp only [List.filter_eq_nil_iff, List.mem_map]
    rintro c ⟨i, -, rfl⟩
    have h2 : tile0.part = 4 := rfl
    have h3 : tile0.sub = 0 := rfl
    have h4 : bandRows 4 = 96 := rfl
    have h5 : subBand 4 0 = 0 := rfl
    simp only [h2, h3, h4, h5, hw, List.filterMap_nil, Nat.zero_mul]
    rw [hc]; exact Bool.false_ne_true
  · have : ((checkCapture Plane.empty tile0 [] [] 0 1 none [⟨0, .nan⟩]).filter (·.beyond)).isEmpty = false := by decide +kernel
    rw [h] at this; cases this
theorem wit_Commits_capture :
    let s := (coreSt id).modCore 0 fun k =>
      { k with captures := [(14, .full false Plane.empty 0 tile0 [] [] 0 1 4 none [] [] [])] }
    (s.core 0).capture (14 : Fin 15) = .full false Plane.empty 0 tile0 [] [] 0 1 4 none [] [] [] := by decide

/-- The record area that reset leaves, at address 0, lies outside the carve-out. -/
theorem wit_Commits_carve :
    State.reset.insideCarve 0 (256 + 64 * 1) = false := by decide

/-! Witnesses: key-value pages, control cores, memory, log, power. -/

/-- Four pages of 128 bytes from 0x100000, their table at 0x20000; page 2 with one reference, page 3 with none, both RESERVE. -/
def kvpSt (en ready : Bool) (head : Option Nat) : State :=
  ({ State.reset with kvp := { Kvp.reset with pool := 0x100000, geom := w64 (at' 4 20 + 1), ptab := 0x20000, en := en, ready := ready,
                                              head := head, free := 1 } }.poke 0x20046 [1]).poke 0x2004F [0x40] |>.poke 0x2006F [0x40]

theorem wit_KvPages :
    let s := kvpSt true true (some 1)
    s.kvp.en = true ∧ s.kvp.ready = true ∧ s.kvp.head = some 1 ∧ (kvpSt true true none).kvp.head = none ∧
    (kvpSt true false none).kvp.ready = false ∧ s.kvp.count ≤ fld (4 : W64) 21 0 ∧ fld (3 : W64) 21 0 < s.kvp.count ∧
    fld (s.kvpWord 3 1) 63 62 = 1 ∧ s.kvpWord 3 0 = 0 ∧ s.kvpWord 2 0 ≠ 0 ∧ fld (s.kvpWord 0 1) 63 62 = 0 ∧ s.kvpInRange = true ∧
    ({ s with kvp := { s.kvp with ptab := 0x500000000 } }).kvpInRange = false ∧ s.mem.lines = [] ∧ s.mem.wcb = [] := by decide +kernel

theorem wit_ControlCores_semaphores :
    let s (n : Nat) (ws) := semSt State.reset n ws
    ((s 65530 []).sem 0).count + (5#12).toNat ≤ 65535 ∧ 65535 < ((s 65531 []).sem 0).count + (5#12).toNat ∧
    ((s 5 []).sem 0).waiters = [] ∧ (5#12).toNat ≤ ((s 5 []).sem 0).count ∧ ((s 4 []).sem 0).count < (5#12).toNat ∧
    ((s 9 [(.core 0, 1, 0)]).sem 0).waiters ≠ [] := by decide

/-- Addresses as the manual's register tables give them. -/
theorem wit_ControlCores_registers :
    regAt 0xE00000010 = none ∧ inRegs 0xE00000010 = true ∧ regAt 0xD00000000 = none ∧ inRegs 0xD00000000 = false ∧
    regAt 0xE00000000 = some .merNow ∧ regAt 0xE00000008 = some .merStatus ∧ regAt 0xE01C00000 = some .pwrCap ∧
    regAt 0xE003007F8 = some (.sem 255) ∧ regAt 0xE01800018 = some .fwAuth ∧ regAt 0xE00130000 = some (.sqStatus 3) ∧
    regAt 0xE01E00100 = some (.secMeas 0 0) ∧ regAt 0xE00000020 = some .merEvt ∧ regAt 0xE00800010 = some .stkEvt ∧
    regAt 0xE00C00038 = some .kvpEvt ∧ regAt 0xE01002008 = some .lnkEvt ∧ regAt 0xE01800030 = some .fwEvt ∧
    regAt 0xE01C00020 = some .pwrEvt ∧ regAt 0xE0063F008 = some (.veEvt 63) ∧ regAt 0xE01400348 = some (.red 3 9) ∧
    regAt 0xE00260018 = some (.descWin 3 3) ∧ (∃ k, regAt 0xE02000000 = some (.cnt k)) ∧ regAt 0xE00800000 = some .stkCarve ∧
    regAt 0xE01D00000 = some .thmCtl ∧ (∃ i k, regAt 0xE01813000 = some (.cmdTable i k) ∧ 192 ≤ i) ∧
    accessFaults 0xE00000000 4 false = true ∧ accessFaults 0xE00000000 8 false = false :=
  by
  repeat' apply And.intro
  all_goals first | decide | exact ⟨_, rfl⟩ | exact ⟨192, 0, by decide⟩

/-- The first word of the interleaved addresses may be stored, loaded and changed; the ROM may only be loaded; a word across
two places of eight bytes and one of a core buffer may not be changed by an atomic. -/
theorem wit_ControlCores_memory :
    regAt 0x1000 = none ∧ inRegs 0x1000 = false ∧ ccStores 0x1000 8 = true ∧ ccLoads 0x1000 8 = true ∧ inStacks 0x1000 = true ∧
    ccStores romBase 8 = false ∧ regAt romBase = none ∧ inRegs romBase = false ∧
    amoAllowed 0x1000 true = true ∧ amoAllowed 0x1004 false = true ∧ amoAllowed 0x1004 true = false ∧ amoAllowed (lsBase 0) true = false ∧
    csrFixed 0xC01 = true ∧ lineOf (canon (0x1078 + 0)) = lineOf (canon 0x1000) ∧ 0 < [(1 : Byte)].length := by decide

theorem wit_ControlCores_schedule : ∃ a i k, regAt a = some (.sched i k) := ⟨0xE00008000, _, _, rfl⟩

def lineSt (en : Bool) (l : List (Nat × LineState)) : State := State.reset.modMem fun m => { m with scrubEn := en, lines := l }

/-- The scrubber of stack 19, at its first line. -/
theorem wit_MemoryAndLog_scrub :
    let p : MemPort := .stack 19
    let l := sweepLine p (SMap.get 0 (lineSt true []).mem.scrubAt (portNo p) % sweepLines p)
    l = 19 * 4096 ∧ (lineSt false []).mem.scrubEn = false ∧ (lineSt true []).lineSt l = .good ∧
    (lineSt true [(l, .correctable 5)]).lineSt l = .correctable 5 ∧ (lineSt true [(l, .uncorrectable)]).lineSt l = .uncorrectable ∧
    rowAt l = some ⟨19, 0, 0, 0⟩ := by decide

def aWcb : WcbEntry := { line := 0x1000, bytes := [(0, some 7)] }
def wcbSt : State := State.reset.modMem fun m => { m with wcb := [(1, [aWcb])] }

/-- One byte of line 0x1000 waits in the buffer of stack 1. -/
theorem wit_MemoryAndLog_buffer : LinesGood wcbSt ∧ WcbSound wcbSt ∧ wcbFind (wcbSt.wcbAt (portNo (.stack 1))) 0x1000 = some aWcb ∧
    wcbFind (wcbSt.wcbAt (portNo (.stack 2))) 0x2000 = none := by
  refine ⟨linesGood_of _ rfl, fun p => ?_, by decide, by decide⟩
  by_cases h : p = 1
  · subst h
    have h1 : wcbSt.wcbAt 1 = [aWcb] := rfl
    rw [h1]
    refine ⟨fun w hw => ?_, by decide⟩
    obtain rfl := List.mem_singleton.mp hw
    exact ⟨by decide, by decide, by decide, by decide, by decide⟩
  · have h1 : wcbSt.wcbAt p = [] := by
      unfold State.wcbAt
      show SMap.get [] [(1, [aWcb])] p = []
      simp [SMap.get, Ne.symm h]
    rw [h1]; exact ⟨by simp, by simp⟩

theorem wit_MemoryAndLog_log : State.reset.cnt.due = [] ∧
    (State.reset.modCnt fun k => { k with due := [aRec] }).cnt.due = aRec :: [] ∧ aRec.code ≠ 0x20 := by decide

def readings (n : Nat) : SensorReadings := ⟨List.replicate 160 n, List.replicate 88 20⟩

/-- A tier at the trip limit of 110, at the throttle limit of 95, and below both; a core at 1,240 and at 1,200 MHz. -/
theorem wit_PowerEvents_sensors :
    let w := State.reset.pwr.thmCtl
    let hot (n : Nat) := (∃ t ∈ (readings n).tiers, fld w 63 56 ≤ t)
    hot 110 ∧ ¬ hot 109 ∧ (¬ ∃ t ∈ (readings 109).die, fld w 47 40 ≤ t) ∧ (∃ t ∈ tiersOn (readings 95) 3, fld w 55 48 ≤ t) ∧
    State.reset.pwr.tripped = false ∧ (State.reset.modPwr fun p => { p with tripped := true }).pwr.tripped = true :=
  ⟨⟨110, by decide +kernel, by decide⟩, by decide +kernel, by decide +kernel, ⟨95, by decide +kernel, by decide⟩, by decide, by decide⟩

theorem wit_PowerEvents_clocks :
    1200 < ((State.reset.modPcore 3 fun p => { p with fnow := 1240, fset := 1240 }).pcore 3).clock ∧
    ((State.reset.modPcore 3 fun p => { p with fnow := 1200, fset := 1200 }).pcore 3).clock ≤ 1200 ∧
    (State.reset.pcore 3).stretched = false ∧ ((State.reset.modPcore 3 fun p => { p with stretched := true }).pcore 3).stretched = true ∧
    State.reset.pwr.socStretch = false ∧ (State.reset.pcore 3).validRec.getLsbD (State.reset.pcore 3).cls = true ∧
    ((State.reset.modPcore 3 fun p => { p with cls := 2, validRec := 3 }).pcore 3).validRec.getLsbD 2 = false ∧
    (SMap.get 7 (State.reset.modPwr fun p => { p with quadValid := [(2, 6)] }).pwr.quadValid (2 : Fin 4)).testBit 0 = false := by
  decide

/-- A core that changed hands in the beat: its cycles are charged to the entry that left and to the one that holds it, with the
switch (R439, R445). -/
theorem test_charge_handed_over :
    let e : SchedEntry := { SchedEntry.empty with cores := 2 }
    let s := State.reset.modFw fun d => { d with insts := [mkInst 3 0 e [1] 0], left := [(1, 5)] }
    let m : BeatMeas := ⟨0, 0, [0, 1000, 0, 0], [(1, 5, 100), (1, 6, 50)], [0, 20, 0, 0], [], [], [], [], 0⟩
    s.chargedTo m 3 = 1840 ∧ s.chargedTo m 5 = 200 ∧ s.chargedTo m 6 = 0 := by decide
/-- A launch that takes two lines back has 1,600 + 205 + 40 ticks to go, one that takes none has none (R446). -/
theorem test_switch_ticks :
    let s := State.reset.modJob 1 fun b => { b with aside := [(cbufBase 2, []), (cbufBase 2 + 128, [])] }
    s.switchTicks 1 2 = 1845 ∧ s.switchTicks 1 3 = 0 := by decide

/-- A record missing for the twentieth epoch spent in its class is valid, the guard band gone; after the nineteenth it is
not (R411). -/
theorem test_record_gathered :
    let s (n : Nat) := State.reset.modPcore 3 fun p => { p with cls := 2, validRec := 3, guard := true, gathering := [(2, n)] }
    let t (n : Nat) := ((s n).coreClass 3 16).pcore 3
    (t 19).validRec = 7 ∧ (t 19).guard = false ∧ (t 18).validRec = 3 ∧ (t 18).guard = true ∧ (t 18).gathering = [(2, 19)] := by
  decide

/-- Margins of 60 and of 59; the retried frame of rail 4. -/
theorem wit_PowerEvents_other :
    (State.reset.modPwr fun p => { p with ageDue := [.core 3] }).pwr.ageDue.contains (.core 3) = true ∧
    ¬ State.reset.pwr.ageDue.contains (.core 3) = true ∧ (∀ m ∈ [60, 61], 60 ≤ m) ∧ (∃ m ∈ [61, 59], m < 60) ∧
    (State.reset.modPwr fun p => { p with avsRetry := [4, 5] }).pwr.avsRetry.head? = some (⟨4, 750, 10⟩ : AvsReading).rail :=
  ⟨by decide, by decide, by decide, ⟨59, by decide, by decide⟩, by decide⟩

/-! Witnesses: start-up, the port, management. -/

def bootSt (b : BootStage) : State :=
  (State.reset.modSec fun c => { c with boot := b }).modBoard fun d => { d with groupReg := 0x8000, straps := 0 }

/-- Link 62 of chip 0 leads to link 0 of chip 63. -/
theorem wit_StartUp :
    let s := bootSt .links
    (bootSt .fuse).sec.boot = .fuse ∧ s.sec.boot = .links ∧ s.board.groupReg.getLsbD 15 = true ∧ s.sec.boot ≠ .fuse ∧
    s.laneMapped 62 0 = false ∧ s.laneMapped 62 1 = false ∧
    s.board.groupReg.toNat % 1024 * 64 + s.board.straps.toNat % 64 = 0 ∧ BitVec.ofNat 16 63 = 63#16 ∧
    ∀ ng, wiredTo ng 0 62 = some (63, 0) ∧ wiredTo ng 0 62 ≠ some (62, 0) :=
  ⟨by decide, by decide, by decide, by decide, by decide, by decide, by decide, by decide, fun _ => ⟨rfl, fun h => absurd (show some (63, 0) = some (62, 0) from h) (by decide)⟩⟩

/-- A port cabled, and a datagram. -/
def cabled (s : State) : State := s.modBoard fun b => { b with addr := [(0, 1)] }
def datagram (payload : List Byte) : PortMsg := ⟨7, 0, 1, 5, 9, payload⟩

/-- With no fragment held a datagram of one is a whole message. -/
theorem whole_datagram (s : State) (type : Nat) (payload : List Byte) (h : s.sec.portParts = []) :
    Completes s type (datagram payload) ∧ (wholeOf s type (datagram payload)).body = payload := by
  simp [Completes, Joins, wholeOf, fragsWith, h, datagram, SMap.insert]

/-- The second of two fragments completes their message, in the order of FIDX. -/
theorem wit_PortSessions_fragments :
    let part : PortPart := ⟨7, 0x12, 5, 9, [(0, [1, 2])], 2, 0⟩
    let s := State.reset.modSec fun c => { c with portParts := [part] }
    let m : PortMsg := ⟨7, 1, 2, 5, 9, [3]⟩
    Completes s 0x12 m ∧ (wholeOf s 0x12 m).body = [1, 2, 3] ∧ Joins s 0x12 { m with fidx := 0 } ∧ ¬ Completes s 0x12 { m with fidx := 0 } := by
  refine ⟨⟨fun p h => ?_, by decide⟩, by decide, fun p h => ?_, fun h => absurd h.2 (by decide)⟩ <;> (cases h; decide)

theorem wit_BootImage_writes :
    let s := bootSt .links
    (s.modBoard fun b => { b with supplyReset := true }).board.supplyReset = true ∧ s.board.supplyReset = false ∧
    s.board.groupTaken = false ∧ (0x10#8).toNat = 0x10 ∧ (0x11#8).toNat = 0x11 ∧ s.board.addrLocked = false ∧ 0x18 ≤ (0x57#8).toNat ∧
    (0x57#8).toNat ≤ 0x57 ∧ (s.modBoard fun b => { b with groupTaken := true }).board.groupTaken = true := by decide

theorem wit_BootImage_requests :
    (cabled (bootSt .waitimg)).sec.boot = .waitimg ∧ (cabled (bootSt .waitimg)).portCabled = true ∧ (bootSt .waitimg).portCabled = false ∧
    (cabled (bootSt .failed)).sec.boot = .failed := by decide

/-- The last byte an image may have. -/
theorem wit_BootImage_boot :
    let m := datagram (toLe 8 (imageMax - 1) ++ [7])
    let s := bootSt .lock
    s.wantsImage = true ∧ Completes s 2 m ∧ (wholeOf s 2 m).body.drop 8 ≠ [] ∧
    leNat ((wholeOf s 2 m).body.take 8) + ((wholeOf s 2 m).body.drop 8).length ≤ imageMax ∧
    (bootSt .running).wantsImage = false ∧ s.mem.lines = [] ∧ s.mem.wcb = [] :=
  ⟨by decide, (whole_datagram _ _ _ rfl).1, by decide, by decide, by decide, by decide, by decide⟩

/-- Memory of zeros holds no image. -/
theorem wit_BootImage_bad : (bootSt .verify).sec.boot = .verify ∧ (bootSt .verify).mem.lines = [] ∧ (bootSt .verify).imageFault true ≠ 0 := by
  decide +kernel

def sessionOf (last : Option W32) (est : Bool) : Session :=
  { id := 5, opkey := [1], hello := [], challenge := [], established := est, kc := [2], kd := [3], lastSeq := last, answers := [],
    lastValid := 0, bulk := [], kemSeed := [] }
def portSt (q : Session) : State :=
  State.reset.modSec fun c => { c with boot := .running, portcmd := true, sessions := [q] }

/-- A message of the session whose tag is right. -/
def signedMsg (type custom : Nat) (body : List Byte) : PortMsg :=
  datagram (body ++ msgTag [2] (headerBytes type 1 (body.length + 32) 5 9 ++ body) custom)

theorem authentic_signed (type custom : Nat) (q : Session) (body : List Byte) (hq : q.id = 5) (he : q.established = true)
    (hk : q.kc = [2]) : Authentic (portSt q) type custom (signedMsg type custom body) q body := by
  have hl : ∀ m c, (msgTag [2] m c).length = 32 := fun m c => by simp [msgTag, fixLen]
  have hs : (portSt q).session 5 = some q := by
    show List.find? _ [q] = _
    simp [List.find?, hq]
  refine ⟨rfl, (whole_datagram _ _ _ rfl).1, hs, ?_⟩
  have hf : ∀ pl, fragsWith (portSt q) (datagram pl) = [(0, pl)] := fun pl => rfl
  unfold Session.checked wholeOf signedMsg
  have hg : ∀ pl : List Byte, SMap.get [] [(0, pl)] 0 = pl := fun pl => rfl
  simp only [hf, hg, List.flatMap_cons, List.flatMap_nil, List.append_nil]
  unfold datagram
  simp only [List.length_append, hl, Nat.add_sub_cancel, List.take_left', List.drop_left', he, hk]
  rw [if_pos ⟨trivial, by omega, trivial⟩]

/-- A first command, a later one, and one that is not later; no entry free; an empty body that closes. -/
theorem wit_PortSessions_commands (n : Nat) :
    Authentic (portSt (sessionOf (some (BitVec.ofNat 32 n)) true)) 0x20 kmCmd (signedMsg 0x20 kmCmd (List.replicate 64 0))
      (sessionOf (some (BitVec.ofNat 32 n)) true) (List.replicate 64 0) ∧
    (List.replicate 64 (0 : Byte)).length = 64 ∧ (BitVec.ofNat 32 8).toNat < (9#32).toNat ∧ ¬ (BitVec.ofNat 32 9).toNat < (9#32).toNat ∧
    EntryFree (portSt (sessionOf none true)) :=
  ⟨authentic_signed _ _ _ _ rfl rfl rfl, by decide, by decide, by decide, ⟨0, by decide, by decide, by decide⟩⟩

theorem wit_PortSessions_full :
    ¬ EntryFree (State.reset.modFw fun f => { f with cmds := (List.range 64).map fun k => (192 + k, { (State.reset.cmd 0) with phase := .ready k }) }) := by
  rintro ⟨k, hk, hp, -⟩
  revert k; decide +kernel

theorem wit_PortSessions_close : Authentic (portSt (sessionOf none true)) 0x3F kmClose (signedMsg 0x3F kmClose []) (sessionOf none true) [] :=
  authentic_signed _ _ _ _ rfl rfl rfl

/-- A manager with an ingest region of 4 KiB takes its last 16 bytes. -/
def ingestSt : State :=
  (portSt (sessionOf none true)).modGrp (fun g => { g with role := 1 }) |>.modSec fun c => { c with ingBase := 0x100000, ingSize := 4096 }

theorem wit_PortSessions_bulk :
    let body : List Byte := toLe 8 4080 ++ List.replicate 16 7
    Authentic ingestSt 0x30 kmBulk (signedMsg 0x30 kmBulk body) (sessionOf none true) body ∧ ingestSt.grp.role ≠ 0 ∧
    ingestSt.sec.ingSize ≠ 0 ∧ 8 ≤ body.length ∧ body.length % 16 = 8 ∧ leNat (body.take 8) + (body.drop 8).length ≤ ingestSt.sec.ingSize ∧
    ingestSt.mem.lines = [] ∧ ingestSt.mem.wcb = [] ∧ (portSt (sessionOf none true)).grp.role = 0 :=
  ⟨authentic_signed _ _ _ _ rfl rfl rfl, by decide, by decide, by decide, by decide, by decide, by decide, by decide, by decide⟩

/-- A greeting by a key whose digest the configuration holds: known, unless the digest is that of an unused one. -/
theorem wit_PortSessions_hello (h : (digest32 (List.replicate 64 1) != zero32) = true) :
    let m := datagram (List.replicate 96 1)
    let s := (portSt (sessionOf none true)).modSec fun c => { c with opkeys := [digest32 (List.replicate 64 1)] }
    s.portOpen = true ∧ Completes s 0x10 m ∧ (wholeOf s 0x10 m).body.length = 96 ∧ s.knownKey ((wholeOf s 0x10 m).body.drop 32) = true ∧
      s.sec.sessions.length < 8 := by
  refine ⟨rfl, (whole_datagram _ _ _ rfl).1, by decide, ?_, by decide⟩
  rw [(whole_datagram _ _ _ rfl).2]
  show ((digest32 (List.replicate 64 1) != zero32) && [digest32 (List.replicate 64 1)].contains (digest32 (List.replicate 64 1))) = true
  rw [h]; simp

theorem wit_PortSessions_unknown : ¬ (datagram []).payload.length = 96 := by decide

theorem wit_PortSessions_accept :
    let s := portSt (sessionOf none false)
    let m := datagram (List.replicate 31360 0)
    s.portOpen = true ∧ Completes s 0x12 m ∧ s.session m.session = some (sessionOf none false) ∧ (sessionOf none false).established = false ∧
    (wholeOf s 0x12 m).body.length = 31360 := by
  refine ⟨rfl, (whole_datagram _ _ _ rfl).1, rfl, rfl, ?_⟩
  rw [(whole_datagram _ _ _ rfl).2]
  show (List.replicate 31360 0).length = 31360
  rw [List.length_replicate]

theorem wit_PortSessions_timeout :
    let s (now : W64) := (portSt (sessionOf none true)).modMer fun m => { m with now := now }
    (s 60000000000).session 5 = some (sessionOf none true) ∧ (sessionOf none true).lastValid.toNat + 60000000000 ≤ (s 60000000000).now ∧
    (s 59999999999).now < (sessionOf none true).lastValid.toNat + 60000000000 := by decide

/-- A member's, a manager's and a system manager's state, with one message in the queue. -/
def grpSt (f : Group → Group) (mtype : Nat) (schip : Nat) (body : List Byte) : State :=
  (State.reset.modGrp f).modGrp fun g => { g with inbox := [⟨mtype, schip, 3, body⟩] }
def termBody (term : Nat) (rest : List Byte) : List Byte := toLe 4 0 ++ toLe 4 term ++ toLe 8 0 ++ rest

theorem wit_Management_announce :
    let m : MgmtMsg := ⟨1, 5, 3, termBody 0 ([0, 1, 0, 0] ++ toLe 4 4)⟩
    let s (f : Bool) (role term : Nat) := grpSt (fun g => { g with formed := f, role := role, term := term }) 1 5 m.body
    (s false 0 0).grp.inbox.head? = some m ∧ m.mtype = 1 ∧ chipGroup m.schip = (s false 0 0).myGroup ∧ (s false 0 0).grp.formed = false ∧
    bodyField m.body 17 1 = 1 ∧ bodyField m.body 20 4 = 4 ∧ (s true 0 3).grp.formed = true ∧ (s true 0 3).grp.term < 4 ∧
    ¬ (s true 0 4).grp.term < 4 ∧ 1 ≤ (s true 1 0).grp.role ∧ bodyField (termBody 0 [0, 0]) 17 1 = 0 := by decide

/-- An announcement of TERM 4 from the own group is not stale to a member or a manager of TERM 3; one of TERM 3 is to TERM 4. -/
theorem wit_Management_current :
    let m (term : Nat) : MgmtMsg := ⟨1, 5, 3, termBody term ([0, 1, 0, 0] ++ toLe 4 term)⟩
    let s (role : Nat) (b : MgmtMsg) := grpSt (fun g => { g with formed := true, role := role, term := 3 }) 1 5 b.body
    (s 0 (m 4)).stale (m 4) = false ∧ (s 1 (m 4)).stale (m 4) = false ∧ (s 0 (m 4)).grp.term < 4 ∧
    (s 1 (m 4)).grp.term < (m 4).term ∧ (m 3).term ≤ (s 1 (m 3)).grp.term := by decide

theorem wit_Management_messages :
    let s (role term mtype : Nat) := grpSt (fun g => { g with formed := true, role := role, term := term }) mtype 5 (termBody 4 (toLe 4 5))
    let m (mtype : Nat) : MgmtMsg := ⟨mtype, 5, 3, termBody 4 (toLe 4 5)⟩
    Front (s 1 4 2) 2 (m 2) ∧ Front (s 0 4 2) 2 (m 2) ∧ Front (s 0 4 3) 3 (m 3) ∧ Front (s 0 4 4) 4 (m 4) ∧ (s 1 5 2).stale (m 2) = true ∧
    chipGroup 5 = (s 1 4 2).myGroup ∧ (s 0 4 4).grp.term < bodyField (m 4).body 16 4 :=
  ⟨⟨by decide, by decide, by decide⟩, ⟨by decide, by decide, by decide⟩, ⟨by decide, by decide, by decide⟩,
    ⟨by decide, by decide, by decide⟩, by decide, by decide, by decide⟩

/-- Four epochs of silence, and three. -/
theorem wit_Management_silence :
    let s (n : W64) (role : Nat) := (State.reset.modGrp fun g => { g with deputy := true, sdeputy := true, role := role }).modMer fun m => { m with now := n }
    let q (n : W64) := (((State.reset.modGrp fun g => { g with role := 1, smgr := 60 }).modMember 5 fun m => { m with heard := true }).modMer fun m => { m with now := n })
    (s 0x400000 0).managerSilent = true ∧ (s 0x3FFFFF 0).managerSilent = false ∧ (s 0x400000 0).grp.deputy = true ∧
    (s 0x400000 1).grp.sdeputy = true ∧ (s 0x400000 1).grp.role = 1 ∧ (q 0x400000).grp.role ≠ 0 ∧ (5#16).toNat ≠ (q 0).me ∧
    ((q 0x400000).member 5).heard = true ∧ ((q 0x400000).member 5).failed = false ∧ chipGroup 5 = (q 0).myGroup ∧
    (q 0x400000).grp.failep ≤ (q 0x400000).epochNo - ((q 0x400000).member 5).lastEpoch ∧ 5 ≠ (q 0).grp.smgr ∧
    (q 0x3FFFFF).failCause 5 = false ∧ (q 0x3FFFFF).failSlots 5 = [] := by decide

/-- Each type of message, from the manager and from another chip, to a member and to a manager. -/
def anyMsg (role mtype schip : Nat) (body : List Byte) : State :=
  grpSt (fun g => { g with formed := true, role := role, gmgr := 5, smgr := 5 }) mtype schip body

theorem wit_Messages_front (role mtype schip : Nat) (hc : schip = 5 ∨ schip = 6) (rest : List Byte) :
    Front (anyMsg role mtype schip (termBody 0 rest)) mtype ⟨mtype, schip, 3, termBody 0 rest⟩ ∧
    (anyMsg role mtype schip (termBody 0 rest)).grp.gmgr = 5 ∧ (anyMsg role mtype schip (termBody 0 rest)).grp.smgr = 5 ∧
    (anyMsg role mtype schip (termBody 0 rest)).grp.role = role ∧ EntryFree (anyMsg role mtype schip (termBody 0 rest)) ∧
    (5 : Nat) ≠ 6 := by
  refine ⟨⟨rfl, rfl, ?_⟩, rfl, rfl, rfl, ⟨0, by decide, rfl, (by show bit (0 : W64) 63 = false; decide)⟩, by decide⟩
  have h1 : ∀ r c, (anyMsg r mtype c (termBody 0 rest)).grp.term = 0 := fun _ _ => rfl
  have h2 : ∀ r c, (anyMsg r mtype c (termBody 0 rest)).myGroup = 0 := fun r c => (by show chipGroup (0 : W16).toNat = 0; decide)
  unfold State.stale State.away
  rcases hc with rfl | rfl <;> simp [h1, h2, chipGroup]

/-- Plans of two entries; a ramp of one; the image's last byte; a chip that asks its manager. -/
theorem wit_Messages_bodies :
    let two := termBody 0 (toLe 4 7 ++ toLe 4 2 ++ List.replicate 32 1)
    let img := termBody 0 (toLe 8 (imageMax - 1) ++ toLe 8 imageMax ++ [9])
    let held := (bootSt .waitimg).modGrp fun g => { g with formed := true, gmgr := 5 }
    bodyField two 20 4 = 2 ∧ 24 + 16 * 1 + 16 ≤ two.length ∧ bodyField (termBody 0 (toLe 4 1)) 16 4 = 1 ∧ held.wantsImage = true ∧
    img.drop 32 ≠ [] ∧ bodyField img 16 8 + (img.drop 32).length ≤ imageMax ∧ (bootSt .running).wantsImage = false ∧
    held.sec.boot = .waitimg ∧ held.grp.imgAsked = 0 ∧ held.portCabled = false ∧ held.manager = some (5, false) ∧ (cabled held).portCabled = true ∧
    (cabled held).board.bootreqs = 0 ∧ held.mem.lines = [] ∧ held.mem.wcb = [] := by decide +kernel

/-- A message of TERM 0 is no older than the chip's own; an image request is repeated 100 ms after the one not answered. -/
theorem wit_Messages_current :
    let s := (anyMsg 1 5 5 (termBody 0 [])).modGrp fun g => { g with imgAsked := 0x100000 }
    let m : MgmtMsg := ⟨5, 5, 3, termBody 0 []⟩
    let late := s.modMer fun m => { m with now := 100000000 }
    m.term ≤ (if s.away m then s.grp.sterm else s.grp.term) ∧ late.grp.imgAskedAt + 100000000 ≤ late.now ∧
    contiguous late.sec.imgHave < late.grp.imgAsked ∧ s.now < s.grp.imgAskedAt + 100000000 ∧ s.grp.imgAsked ≠ 0 := by decide

/-! Witnesses: the whole machine. -/

theorem wit_StepTakesFront :
    ({ State.reset with pending := [.vAcqAll 0, .logRecord] } : State).pending = .vAcqAll 0 :: [.logRecord] ∧ State.reset.pending = [] :=
  ⟨rfl, rfl⟩

theorem wit_QueueKept : exec .logRecord State.reset = .next State.reset ∧ Memory.wf State.reset.mem = true ∧
    step State.reset = .next { State.reset with mer := { State.reset.mer with now := State.reset.mer.now + 1 } } := ⟨rfl, rfl, rfl⟩

theorem wit_ReadAfterWrite : LinesGood (bootSt .running) ∧ WcbSound (bootSt .running) ∧ (List.replicate 3 (1 : Byte)).length ≤ 2 ^ 30 :=
  ⟨linesGood_of _ rfl, wcbSound_of _ rfl, by decide⟩

/-- The first and the last byte of the interleaved addresses. -/
theorem wit_AddressMap : locate 0 = .stack 0 0 ∧ locate 0x4FFFFFFFF = .stack 19 0x3FFFFFFF ∧ (0x4FFFFFFFF : Nat) < 0x500000000 := by decide

theorem wit_ExactSums : [List.replicate 64 (32767 : Int)].length ≤ 65536 ∧
    (∀ q ∈ [List.replicate 64 (32767 : Int)], q.length = 64 ∧ ∀ n ∈ q, -32767 ≤ n ∧ n ≤ 32767) := by decide

/-- Line 0x1000 uncorrectable and poisoned; 127 bytes cover a part of it, 128 all of it. -/
theorem wit_PoisonedWrites :
    let s (x : LineState) := State.reset.modMem fun m => { m with lines := [(0x1000, x)] }
    0x1000 % 128 = 0 ∧ canon 0x1000 = 0x1000 ∧ (s .uncorrectable).lineSt 0x1000 = .uncorrectable ∧ (s .poisoned).lineSt 0x1000 = .poisoned ∧
    (s .poisoned).mem.wcb = [] ∧ (∀ p : Fin 24, wcbFind ((s .poisoned).wcbAt p) 0x1000 = none) ∧
    (∀ i, i < 128 → canon (0x1000 + i) = 0x1000 + i) ∧ ¬ (127 < 127) := by decide

/-! Words of R109, R110 and of R150, R151. -/

/-- The words of chapter 05's worked program. -/
theorem test_decode_program :
    [0x1000002003000000, 0x2801006007008000, 0x20020010000007FF, 0x5000000000003001, 0x280200C00D00E000, 0x4101000001000005,
      0x5400000000000000].map (decodeSq 0) =
    [some (.wld 0 2 3 0 0), some (.drn 0 6 7 8 0 ⟨false, false, false, false, false, true⟩), some (.jet 0 1 0 true 2047),
      some (.loop 0 3 1), some (.drn 0 12 13 14 0 ⟨false, false, false, false, true, false⟩), some (.semsRel 0 5 1),
      some (.halt 0 0)] := by decide

/-- ALIGN of WAITT and COND of BR pick the command; a reserved opcode, COND or field is none. -/
theorem test_decode_variants :
    [0x4300000000000001, 0x4301000000000001, 0x5101000007000005, 0x5103000000000000, 0x5104000007000000, 0x5105000000000000,
      0x6200000000000000, 0x5400001000000000].map (decodeSq 0) =
    [some (.waitt 0 0 1), some (.waittA 0 0 1), some (.brSemz 0 7 5), some (.brRet 0), some (.brLast 0 7), none, none, none] := by
  decide

/-- s.addi s1, s2, 5; v.add.f32 v1, v2, v3; v.pmov p2, s3 under p1; s.amo.cas of 64 bits; v.halt; a reserved class and FN. -/
theorem test_decode_engine :
    [0x08220005#32, 0x40108300#32, 0x5020C025#32, 0x04221909#32, 0x6000001F#32, 0x7C000000#32, 0x5000001F#32].map (decodeVe 0) =
    [some (.sAddi 0 1 2 5), some (.vAddF32 0 1 2 3 0), some (.vPmov 0 2 3 1), some (.sAmoCas 0 true 1 2 3), some (.vHalt 0), none,
      none] := by decide

/-! Ill-formed commands are refused by their check. -/

theorem test_wf_drain : (Instr.drainOutput 0 false 0 8192 0).wf = false ∧ (Instr.drainOutput 0 false 0 8191 384).wf = false ∧
    (Instr.drainOutput 0 false 0 8191 383).wf = true := by decide
theorem test_wf_post : (Instr.commandPost 0 0 0 (List.replicate 7 0)).wf = false := by decide
theorem test_wf_packet : (Instr.packetReceive 0 (pkt 0 0 0 0 (List.replicate 4097 0)) 0).wf = false := by decide +kernel
theorem test_wf_access : (Instr.registerAccessFault 0 0 3 true).wf = false ∧ (Instr.registerAccessFault 0 0 4 true).wf = true := by decide
theorem test_wf_line : (Instr.wcbTimeoutFlush (.stack 0) 0x1001).wf = false := by decide
theorem test_wf_sensors : (Instr.sensorConversion ⟨[], List.replicate 88 0⟩).wf = false := by decide
theorem test_wf_ageing : (Instr.ageingMeasurement (.core 0) [60] 0 true).wf = false := by decide
theorem test_wf_start : (Instr.coldStart Fuses.blank ⟨4, [], List.replicate 12 0, List.replicate 4 true⟩ 0).wf = false := by decide
theorem test_wf_training : (Instr.linkTraining [⟨3, none, false, false, none, 0⟩, ⟨3, none, true, true, none, 0⟩]).wf = false := by decide
theorem test_wf_port : (Instr.hello ⟨0, 1, 1, 0, 0, []⟩).wf = false ∧ (Instr.cmd ⟨0, 0, 48, 0, 0, []⟩).wf = false ∧
    (Instr.bulk ⟨0, 0, 1, 0, 0, List.replicate 1401 0⟩).wf = false ∧ (Instr.close (datagram [])).wf = true := by decide +kernel

/-! Worked examples of the manual. -/

/-- "Locating one byte": chapter "Stack memory and core buffers". -/
theorem test_locate : locate 0x000123456789 = .stack 6 0x0E904789 ∧ canon 0x00118E904789 = 0x000123456789 ∧
    rowAt 0x000123456780 = some ⟨6, 7, 1, 233⟩ := by decide
/-- "Quantising one MXFP4 block". -/
theorem test_mxfp4 : mxPack fmtMXFP4 ([f32 0x41500000, f32 0x40A00000, f32 0x3F333333, f32 0xBE4CCCCD] ++ List.replicate 28 (f32 0x3F800000)) =
    (0x80, [(7, false), (4, false), (1, false), (8, false)] ++ List.replicate 28 (1, false)) := by decide +kernel
/-- "Three contributions to one gradient element". -/
theorem test_es16 : es16Encode (f32 0x3C4985F0) (-20) = (12897, false) ∧ es16Encode (f32 0xBB83126F) (-20) = (-4194, false) ∧
    es16Encode (f32 0x3CFEC56D) (-20) = (32611, false) ∧ es16Encode (f32 0x3D4CCCCD) (-20) = (32767, true) ∧
    (esValue 41314 (-20)).toF32 = 0x3D216200 := by decide +kernel
/-- "Rounding one moment value to D16". -/
theorem test_stochastic : srTo fmtD16 0x3F80C000 0x3FFF = 0x3F800000 ∧ srTo fmtD16 0x3F80C000 0x4000 = 0x3F810000 := by decide +kernel
/-- "Two K tiles of an E4M3 × E5M2 product merged in either order". -/
theorem test_merge :
    let m (h : RunFrame × ChainWord) (f s : Int) : RunFrame × ChainWord := (h.1.merge (some f), h.1.mergeA (some f) h.2 ⟨s, .finite⟩)
    let z : RunFrame × ChainWord := (RunFrame.zero, ChainWord.zero)
    (m (m z (-20) 5000) (-25) (-7)).2.s = 159993 ∧ (m (m z (-25) (-7)) (-20) 5000).2.s = 159993 ∧
    (m (m z (-20) 5000) (-25) (-7)).1.g = some (-25) ∧ (m (m z (-20) 5000) (-100) (-7)).1.g = some (-86) ∧
    (m (m z (-20) 5000) (-100) (-7)).1.span = true := by decide
/-- "Checking one ES16 packet against a corrupted copy", in one step each. -/
def redPacket (n2 : Int) : List Byte :=
  toLe 2 12897 ++ toLe 2 (wrapN 16 (-4194)) ++ toLe 2 n2.toNat ++ List.replicate 122 0
def redEng (n2 : Int) : State :=
  (engRegs 0x1000 36807).modVctx 0 (fun x => (x.setVec 4 allLanes fun i => if i = 0 then 1000 else if i = 1 then 2000 else 0)) |>.poke 0x1000 (redPacket n2)
def stepOf (i : Instr) (s : State) : State := match exec i s with | .next t => t | _ => s
theorem test_red_ok :
    let x := ((stepOf (.vRedEs16 0 4 1 2 0) (redEng 32611)).eng 0).ctx
    x.sreg 2 = 0 ∧ x.lane 4 0 = 13897 ∧ x.lane 4 1 = BitVec.ofInt 32 (-2194) ∧ x.lane 4 2 = 32611 ∧ residue65535 (x.pair 4) = 41807 := by
  decide +kernel
theorem test_red_corrupted :
    let x := ((stepOf (.vRedEs16 0 4 1 2 0) (redEng 31587)).eng 0).ctx
    x.sreg 2 = 1 ∧ x.lane 4 0 = 1000 ∧ x.lane 4 2 = 0 := by decide +kernel
/-- "A raise followed by a skip". -/
def raiseBank : NumBank :=
  { NumBank.reset with state := w64 (at' 39999 32 + at' 16 24 + at' 1 17 + 1998), ctl := w64 (at' 2000 48 + at' 24 40) }
theorem test_raise :
    let a := raiseBank.commit 0
    let b := a.bank.commit 0
    let c := b.bank.commit 4
    (a.bank.step, a.bank.lsexp, a.bank.clean, a.bank.applied) = (40000, 16, 1999, 1) ∧
    (b.bank.step, b.bank.lsexp, b.bank.clean, b.bank.applied, b.raised) = (40001, 17, 0, 2, true) ∧
    (c.bank.step, c.bank.lsexp, c.bank.clean, c.bank.applied, c.skip, c.lowered) = (40002, 16, 0, 2, true, true) := by decide +kernel
/-- "Binning the 16-bit tile of The matrix arrays". -/
theorem test_bin : binOf (.fin false 1841299456 (-38)) = 12 := by decide +kernel
/-- "A 4 KiB PUT across three hops". -/
theorem test_route : farPort 1024 3 1719 = some (700, 1349) ∧ globalPort 52 66 = 1719 ∧ globalPort 40 92 = 1349 ∧ localLink 10 52 = 41 ∧
    localLink 40 50 = 9 := by decide
/-- "A serving runtime starts a decode loop": a WAITT with k = 8 and u = beat in instance 4. -/
theorem test_serving : 5001707520 + 4 * 40960 + 8 * 1024 = 5001879552 ∧ (5000123456 / 1024 + 1) * 1024 = 5000124416 := by decide

/-! Results worked by hand from the rules. -/

theorem test_s_add_wraps : ((stepOf (.sAdd 0 3 1 2) (engRegs 0xFFFFFFFFFFFFFFFF 1)).eng 0).ctx.sreg 3 = 0 := by decide
theorem test_s0_reads_zero : ((stepOf (.sAdd 0 0 1 2) (engRegs 3 4)).eng 0).ctx.sreg 0 = 0 := by decide
theorem test_s_shl_by_64 : ((stepOf (.sShl 0 3 1 2) (engRegs 5 64)).eng 0).ctx.sreg 3 = 5 := by decide
theorem test_s_slt_signed : ((stepOf (.sSlt 0 3 1 2) (engRegs 0xFFFFFFFFFFFFFFFF 0)).eng 0).ctx.sreg 3 = 1 := by decide
theorem test_s_ins : ((stepOf (.sIns 0 1 1 0xBEEF) (engRegs 0xDEAD 0)).eng 0).ctx.sreg 1 = 0xDEADBEEF := by decide
theorem test_s_addi_negative : ((stepOf (.sAddi 0 3 1 0xFFFF) (engRegs 0 0)).eng 0).ctx.sreg 3 = 0xFFFFFFFFFFFFFFFF := by decide
/-- The branch of word 2 by −2 goes to word 0. -/
theorem test_s_beq_back : ((stepOf (.sBeq 0 1 2 0xFFFE) ((engRegs 7 7).modVctx 0 fun x => { x with pc := 2 })).eng 0).ctx.pc = 0 := by decide
theorem test_s_jalr_link :
    let k := (stepOf (.sJalr 0 1 3 2) ((engRegs (w64 (lsBase 0)) 0).modVctx 0 fun x => { x with pc := 9 })).eng 0
    k.ctx.pc = 2 ∧ k.ctx.sreg 3 = w64 (lsBase 0 + 40) := by decide
theorem test_s_st_ld :
    let s := stepOf (.sSt 0 2 1 8) (engRegs 0x2000 0x1122334455667788)
    (s.peek 0x2008 = 0x88 ∧ s.peek 0x200F = 0x11) ∧ ((stepOf (.sLd 0 3 1 8) s).eng 0).ctx.sreg 3 = 0x1122334455667788 := by decide +kernel
/-- −1 is smaller than 1 as a signed word; sd receives the old value sign-extended. -/
theorem test_amo_max :
    let s := stepOf (.sAmoMax 0 false 3 1 2) ((engRegs 0x2000 1).poke 0x2000 [0xFF, 0xFF, 0xFF, 0xFF])
    s.word32 0x2000 = 1 ∧ (s.eng 0).ctx.sreg 3 = 0xFFFFFFFFFFFFFFFF := by decide +kernel

/-- Every lane of v1 and of v2. -/
def vecs (a b : W32) : State := (engSt id).modVctx 0 fun x => (x.setVec 1 allLanes fun _ => a).setVec 2 allLanes fun _ => b
def lane0 (i : Instr) (a b : W32) : W32 := ((stepOf i (vecs a b)).eng 0).ctx.lane 3 0
/-- 1 + 2^-24 lies halfway and rounds to the even 1. -/
theorem test_v_add_tie : lane0 (.vAddF32 0 3 1 2 0) 0x3F800000 0x33800000 = 0x3F800000 := by decide +kernel
theorem test_v_sub_zero : lane0 (.vSubF32 0 3 1 2 0) 0x40400000 0x40400000 = 0 := by decide +kernel
theorem test_v_mul_nan : lane0 (.vMulF32 0 3 1 2 0) 0x7F800000 0 = 0x7FC00000 := by decide +kernel
theorem test_v_max_zero : lane0 (.vMaxF32 0 3 1 2 0) 0x80000000 0 = 0 := by decide +kernel
theorem test_v_min_zero : lane0 (.vMinF32 0 3 1 2 0) 0 0x80000000 = 0x80000000 := by decide +kernel
theorem test_v_rcp_zero : lane0 (.vRcp 0 3 1 0) 0x80000000 0 = 0xFF800000 := by decide +kernel
/-- 2.5 goes to the even 2; NaN to 0. -/
theorem test_v_cvt : lane0 (.vCvtI32F32 0 3 1 0) 0x40200000 0 = 2 ∧ lane0 (.vCvtI32F32 0 3 1 0) 0x7FC00000 0 = 0 := by decide +kernel
theorem test_v_shr_arithmetic : lane0 (.vShrI32 0 3 1 2 0) 0x80000000 33 = 0xC0000000 := by decide +kernel
theorem test_v_add_i16 : lane0 (.vAddI16 0 3 1 2 0) 0x0001FFFF 0x00010001 = 0x00020000 := by decide +kernel
theorem test_v_hsum : lane0 (.vHsumF32 0 3 1 0) 0x3F800000 0 = 0x42000000 := by decide +kernel
/-- 1 × 2^-30 added to the pair (1, 0): head 1, tail 2^-30. -/
theorem test_v_fmaw :
    let s := (vecs 0x3F800000 0x30800000).modVctx 0 fun x => x.setVec 4 allLanes fun _ => 0x3F800000
    let x := ((stepOf (.vFmaw 0 4 1 2 0) s).eng 0).ctx
    x.lane 4 0 = 0x3F800000 ∧ x.lane 5 0 = 0x30800000 := by decide +kernel
theorem test_v_cmp_nan : (((stepOf (.vCmpEqF32 0 1 1 2 0) (vecs 0x7FC00000 0x7FC00000)).eng 0).ctx.preg 1).getLsbD 0 = false := by
  decide +kernel
/-- p1 clear: no lane is written. -/
theorem test_v_masked : lane0 (.vMov 0 3 1 1) 5 0 = 0 := by decide +kernel

/-- A LOOP of two words twice: after its last word the PC is back at its first, then past it. -/
theorem test_loop :
    let s := stepOf (.loop 0 2 1) (coreSt id)
    ((s.core 0).ctx.pc, (s.core 0).ctx.loops) = (1, [⟨1, 2, 2, 0⟩]) ∧ loopStep 2 [⟨1, 2, 2, 0⟩] = (1, [⟨1, 2, 2, 1⟩]) ∧
    loopStep 2 [⟨1, 2, 2, 1⟩] = (3, []) := by decide
theorem test_call : ((stepOf (.call 0 50) (coreSt id)).core 0).ctx.calls = [1] := by decide
theorem test_br_range : ((stepOf (.br 0 100) (coreSt id)).core 0).st = .fault := by decide
theorem test_semw : ((stepOf (.semw 0 0 5) (semSt (coreSt id) 7 [])).sem 0).count = 2 := by decide +kernel
theorem test_sems_overflow : ((stepOf (.sems 0 0 5) (semSt (coreSt id) 65531 [])).core 0).faultCode = .sem := by decide +kernel
/-- WLD of descriptor 1 leaves a load outstanding. -/
theorem test_wld : ((stepOf (.wld 0 1 0 0 0) (coreD id)).core 0).ctx.loads.length = 1 := by decide +kernel
theorem test_kvp_alloc : SMap.get 0 (stepOf (.kvpAlloc 0) (kvpSt true true (some 1))).kvp.popped 0 = 0x8000000000000001 := by decide +kernel
theorem test_sem_take_empty : SMap.get 0 (stepOf (.semTake 2 0 5) (semSt State.reset 4 [])).semres 2 = w64 (at' 1 16 + 4) := by decide +kernel
theorem test_cap_set : (stepOf (.capSet 0) (withCmd State.reset 0 6 0 [w64 1600])).pwr.capNext = 1600 := by decide +kernel
theorem test_cap_bad : ((stepOf (.capSet 0) (withCmd State.reset 0 6 0 [w64 399])).cmd 0).word 6 = w64 (at' 0x11 56) := by decide +kernel
theorem test_write_clears : (stepOf (.registerWrite 0 0xE00000020 1) (merSt fun m => { m with evt := 3 })).mer.evt = 2 := by decide +kernel
theorem test_idle_step : (match step State.reset with | .next t => t.now | _ => 0) = 1 := by decide
/-- The count of a slew moves by one tick every 5,000. -/
theorem test_slew : (stepOf .slewStep (merSt fun m => { m with st := .locked, slew := 3, now := 5000 })).mer.slew = 2 := by decide +kernel

/-! The attention library (R284 to R294). -/

theorem test_rotary_index : rotaryIndex 0xFFC00801 = (1, 1, 1023) := by decide
/-- (1, 2) turned by a right angle is (-2, 1). -/
theorem test_rotate : rotatePair (0, 0x3F800000) (0x3F800000, 0x40000000) = (0xC0000000, 0x3F800000) := by decide +kernel
/-- The first block raises the maximum from -infinity with a factor of +0 (R285, step 1 of the worked example). -/
theorem test_soft_first : (SoftRow.start 1).raised 0x3F800000 0x40000000 = ⟨0x40000000, 0, [0]⟩ := by decide +kernel
/-- A row that sees no key ends at -infinity and +0 and writes +0 (R288, R289). -/
theorem test_soft_unseen : let r := ((SoftRow.start 1).block 0x3F800000 fmtH16 f32NegInf f32NegInf [f32NegInf]).1
    (r.output fmtD16, r.stats) = ([0], [0, 0, 0x80, 0xFF, 0, 0, 0, 0]) := by decide +kernel
/-- Ring of 4, member 1: chunks 1 and 6; at step 2 it waits for the second arrival and works on member 3's block. -/
theorem test_ring : (⟨4, 64⟩ : Ring).chunksOf 1 = [1, 6] ∧ (⟨4, 64⟩ : Ring).stepOf 1 2 =
    [.awaitArrive 2 1, .awaitRelease 1, .send 0 3, .attend 3, .attendGlobal, .release 2] := by decide

end Sys2Proof.Tests
end

section
/-! SUPPORT. Laws of a supply reset and a cold start (R457 to R460, R491). -/

namespace Sys2Proof.Machine

open Sys2Proof.Claim

/-! Steps one after the other. -/

/-- A relation that every step keeps, and that joins, holds over all of them. -/
theorem foldl_relates {σ α : Type} {R : σ → σ → Prop} (refl : ∀ s, R s s) (trans : ∀ {s t u}, R s t → R t u → R s u)
    (f : σ → α → σ) (step : ∀ s a, R s (f s a)) (l : List α) (s : σ) : R s (l.foldl f s) := by
  induction l generalizing s with
  | nil => exact refl s
  | cons a t ih => exact trans (step s a) (ih _)

/-- What is read under a number after each of the first n has been changed once. -/
theorem foldl_range_read {σ α : Type} (read : σ → Nat → α) (f : Nat → α → α) (upd : σ → Nat → σ)
    (h : ∀ s a c, read (upd s a) c = if c = a then f a (read s a) else read s c) (n : Nat) (s : σ) (c : Nat) :
    read ((List.range n).foldl upd s) c = if c < n then f c (read s c) else read s c := by
  induction n with
  | zero => rfl
  | succ n ih =>
    rw [List.range_succ, List.foldl_append, List.foldl_cons, List.foldl_nil, h]
    by_cases hc : c = n
    · subst hc
      rw [if_pos rfl, if_pos (Nat.lt_succ_self c), ih, if_neg (Nat.lt_irrefl c)]
    · rw [if_neg hc, ih]
      by_cases hlt : c < n
      · rw [if_pos hlt, if_pos (by omega)]
      · rw [if_neg hlt, if_neg (by omega)]

/-! Supply reset (R491). -/

/-- A read of a table whose values have all been changed by `f`, with the default changed likewise. -/
theorem SMap.get_map {α β : Type} (f : α → β) (d : α) (m : SMap α) (k : Nat) :
    SMap.get (f d) (m.map fun q => (q.1, f q.2)) k = f (SMap.get d m k) := by
  induction m with
  | nil => rfl
  | cons q t ih =>
    obtain ⟨j, v⟩ := q
    simp only [List.map_cons, SMap.get_cons, ih]
    split <;> rfl

/-- The loss of a core's repeatable clock, after a supply reset. -/
theorem supplyReset_replost (m : SMap PwrCore) (c : Nat) :
    (SMap.get PwrCore.reset (m.map fun q => (q.1, keptPower q.2)) c).replost = (SMap.get PwrCore.reset m c).replost :=
  (congrArg PwrCore.replost (SMap.get_map keptPower PwrCore.reset m c)).trans rfl

/-! Repairs at a start. -/

/-- A start has gone on: cores, engines, Darkel's services, the log, measurements and rails may have changed, of memory the
account of its rows, of the fuses the repair map; every other part is as before, the records of the cores' clocks too. -/
structure StartKept (s t : State) : Prop where
  frame : t = { s with cores := t.cores, engines := t.engines, mem := t.mem, sec := t.sec, fw := t.fw, cnt := t.cnt,
                       pwr := t.pwr, fresh := t.fresh }
  mem : t.mem = { s.mem with repaired := t.mem.repaired, repairDue := t.mem.repairDue, evt := t.mem.evt }
  fuses : t.sec.fuses = { s.sec.fuses with repairs := t.sec.fuses.repairs }
  power : t.pwr.core = s.pwr.core

theorem StartKept.refl (s : State) : StartKept s s := ⟨rfl, rfl, rfl, rfl⟩

theorem StartKept.trans {s t u : State} (h : StartKept s t) (k : StartKept t u) : StartKept s u := by
  obtain ⟨h1, h2, h3, h4⟩ := h
  obtain ⟨k1, k2, k3, k4⟩ := k
  rw [h1] at k1
  rw [h2] at k2
  rw [h3] at k3
  exact ⟨k1, k2, k3, k4.trans h4⟩

theorem StartKept.sched {s t : State} (h : StartKept s t) : t.sched = s.sched := by rw [h.frame]

theorem State.modCore_kept (s : State) (c : Nat) (f : Core → Core) : StartKept s (s.modCore c f) := ⟨rfl, rfl, rfl, rfl⟩
theorem State.modEng_kept (s : State) (e : Nat) (f : Engine → Engine) : StartKept s (s.modEng e f) := ⟨rfl, rfl, rfl, rfl⟩
theorem State.modFw_kept (s : State) (f : Darkel → Darkel) : StartKept s (s.modFw f) := ⟨rfl, rfl, rfl, rfl⟩
theorem State.modCnt_kept (s : State) (f : Counters → Counters) : StartKept s (s.modCnt f) := ⟨rfl, rfl, rfl, rfl⟩
theorem State.stkEvt_kept (s : State) (b : Nat) : StartKept s (s.stkEvt b) := ⟨rfl, rfl, rfl, rfl⟩
theorem State.tick_kept (s : State) : StartKept s s.tick := ⟨rfl, rfl, rfl, rfl⟩
theorem State.modSec_kept (s : State) (f : Security → Security)
    (h : (f s.sec).fuses = { s.sec.fuses with repairs := (f s.sec).fuses.repairs }) : StartKept s (s.modSec f) :=
  ⟨rfl, rfl, h, rfl⟩
theorem State.modPwr_kept (s : State) (f : Power → Power) (h : (f s.pwr).core = s.pwr.core) : StartKept s (s.modPwr f) :=
  ⟨rfl, rfl, rfl, h⟩
theorem State.logEvt_kept (s : State) (cls slot code : Nat) (tag : W32) (unit : Nat) (a0 a1 a2 a3 : W64) :
    StartKept s (s.logEvt cls slot code tag unit a0 a1 a2 a3) := State.modCnt_kept s _

theorem State.useSpareRow_kept (s : State) (r : RowRepair) : StartKept s (s.useSpareRow r) := by
  unfold State.useSpareRow
  simp only
  split <;> exact ⟨rfl, rfl, rfl, rfl⟩

theorem State.applyEntry_kept (s : State) (w : W64) : StartKept s (s.applyEntry w) := by
  unfold State.applyEntry
  split
  · exact State.modCore_kept _ _ _
  · exact State.modEng_kept _ _ _
  · exact State.useSpareRow_kept _ _
  · exact .refl s

theorem State.selfRepair_kept (s : State) (w : W64) : StartKept s (s.selfRepair w) := by
  unfold State.selfRepair
  exact .trans (State.modSec_kept s _ rfl) (State.applyEntry_kept _ w)

theorem State.dueAtStart_kept (s : State) (r : RowRepair) : StartKept s (s.dueAtStart r) := by
  unfold State.dueAtStart
  split
  · exact ⟨rfl, rfl, rfl, rfl⟩
  · split
    · exact State.stkEvt_kept s 5
    · split
      · exact .refl s
      · exact State.selfRepair_kept s _

/-- No job is on a chip that has no schedule: a core leaves service and no slot stops. -/
theorem State.serviceOut_unscheduled (s : State) (c : Nat) (h : s.sched = []) :
    s.serviceOut c = s.modFw fun d => { d with oos := d.oos ||| BitVec.ofNat 4 (2 ^ c) } := by
  unfold State.serviceOut
  simp only [h, List.any_nil, Bool.and_false]
  rfl

theorem State.startOut_kept (s : State) (c : Nat) (w : W64) (h : s.sched = []) : StartKept s (s.startOut c w) := by
  unfold State.startOut
  rw [State.serviceOut_unscheduled s c h]
  exact .trans (State.modFw_kept _ _) (State.logEvt_kept _ _ _ _ _ _ _ _ _ _)

theorem State.takeFailing_kept (s : State) (w : W64) (h : s.sched = []) : StartKept s (s.takeFailing w) := by
  unfold State.takeFailing
  simp only
  split
  · split
    · exact .refl s
    · split
      · exact State.startOut_kept s _ w h
      · exact State.selfRepair_kept s w
  · split
    · exact State.startOut_kept s _ w h
    · exact State.selfRepair_kept s w
  · split
    · exact .trans (State.stkEvt_kept s 5) (State.logEvt_kept _ _ _ _ _ _ _ _ _ _)
    · exact State.selfRepair_kept s w
  · split
    · exact .refl s
    · exact State.selfRepair_kept s w

/-- Steps of a start one after the other. -/
theorem State.foldl_kept {α : Type} (f : State → α → State) (hf : ∀ s a, StartKept s (f s a)) (l : List α) (s : State) :
    StartKept s (l.foldl f s) := foldl_relates StartKept.refl StartKept.trans f hf l s

/-- Failing elements one after the other, on a chip that has no schedule. -/
theorem State.foldl_takeFailing_kept (l : List W64) (s : State) (h : s.sched = []) :
    StartKept s (l.foldl (fun u w => u.takeFailing w) s) :=
  foldl_relates (R := fun s t : State => s.sched = [] → StartKept s t) (fun s _ => .refl s)
    (fun hst htu h => (hst h).trans (htu ((hst h).sched.trans h))) _ State.takeFailing_kept l s h

/-! Cold start (R457). -/

/-- Changes of the cores' records, one core after the other. -/
theorem State.foldl_modPcore (f : Nat → PwrCore → PwrCore) (n : Nat) (s : State) (c : Nat) :
    ((List.range n).foldl (fun u c => u.modPcore c (f c)) s).pcore c = if c < n then f c (s.pcore c) else s.pcore c :=
  foldl_range_read State.pcore f _ (fun s a c => State.pcore_modPcore s a (f a) c) n s c

/-- They change the power controller alone. -/
theorem State.foldl_modPcore_frame (f : Nat → PwrCore → PwrCore) (l : List Nat) (s : State) :
    let t := l.foldl (fun u c => u.modPcore c (f c)) s
    t = { s with pwr := t.pwr } :=
  foldl_relates (R := fun s t : State => t = { s with pwr := t.pwr }) (fun _ => rfl) (fun h k => by rw [k, h]) _
    (fun _ _ => rfl) l s

/-- Changes of the engines, one after the other. -/
theorem State.foldl_modEng (f : Nat → Engine → Engine) (n : Nat) (s : State) (e : Nat) :
    ((List.range n).foldl (fun t e => t.modEng e (f e)) s).eng e = if e < n then f e (s.eng e) else s.eng e :=
  foldl_range_read State.eng f _ (fun s a e => State.eng_modEng s a (f a) e) n s e

/-- A table built by writing each of n keys. -/
theorem SMap.get_foldl_set {α : Type} [DecidableEq α] (d : α) (f : Nat → α) (n i : Nat) :
    SMap.get d ((List.range n).foldl (fun g i => SMap.set d g i (f i)) []) i = if i < n then f i else d :=
  foldl_range_read (SMap.get d) (fun i _ => f i) _ (fun m a i => SMap.get_set d m a (f a) i) n [] i

/-- An engine with its generators seeded. -/
def seedEngine (fresh e : Nat) (k : Engine) : Engine :=
  { k with gen := (List.range 32).foldl (fun g i => SMap.set 0 g i (seedLane fresh e i)) [] }

theorem seedEngine_gen (fresh e i : Nat) (k : Engine) (hi : i < 32) :
    SMap.get 0 (seedEngine fresh e k).gen i = seedLane fresh e i := by
  unfold seedEngine
  rw [SMap.get_foldl_set, if_pos hi]

theorem State.seedEngines_eq (s : State) :
    s.seedEngines = ((List.range 64).foldl (fun t e => t.modEng e (seedEngine s.fresh e)) s).tick := by
  unfold State.seedEngines seedEngine
  simp only

/-- The generators of the engines after seeding. -/
theorem State.seedEngines_gen (s : State) (e i : Nat) (he : e < 64) (hi : i < 32) :
    SMap.get 0 (s.seedEngines.eng e).gen i = seedLane s.fresh e i := by
  rw [State.seedEngines_eq, State.tick_eng, State.foldl_modEng, if_pos he, seedEngine_gen _ _ _ _ hi]

/-- The low twelve bits of a seed number its engine and lane from 1. -/
theorem seedLane_mod (fresh e i : Nat) (he : e < 64) (hi : i < 32) :
    (seedLane fresh e i).toNat % 4096 = 32 * e + i + 1 := by
  have hx : (Config.freeWide fresh (32 * e + i)).toNat % 2 ^ 52 < 2 ^ 52 := Nat.mod_lt _ (by decide)
  unfold seedLane w64 at'
  rw [BitVec.toNat_ofNat]
  omega

theorem seedLane_ne_zero (fresh e i : Nat) (he : e < 64) (hi : i < 32) : seedLane fresh e i ≠ 0 := by
  intro h
  have := seedLane_mod fresh e i he hi
  have zero : (0 : W64).toNat % 4096 = 0 := rfl
  rw [h, zero] at this
  omega

theorem seedLane_inj (fresh e i e' i' : Nat) (he : e < 64) (hi : i < 32) (he' : e' < 64) (hi' : i' < 32)
    (h : seedLane fresh e i = seedLane fresh e' i') : e = e' ∧ i = i' := by
  have h1 := seedLane_mod fresh e i he hi
  have h2 := seedLane_mod fresh e' i' he' hi'
  rw [h, h2] at h1
  omega

/-- The state of a start before its repairs: the records of the cores are set. -/
def State.coldPowered (s : State) (f : Fuses) (t : SelfTest) (straps : BitVec 8) : State :=
  (List.range 4).foldl (fun u c => u.modPcore c (startPower (s.coldBase f straps).sec.fuses t c)) (s.coldBase f straps)

/-- The state of a start after self-test: every repair has been taken. -/
def State.coldTested (s : State) (f : Fuses) (t : SelfTest) (straps : BitVec 8) : State :=
  let s2 := s.coldPowered f t straps
  let s3 := s2.mem.repairDue.foldl (fun u r => u.dueAtStart r)
    ((s.coldBase f straps).sec.fuses.repairs.foldl (fun u w => u.applyEntry w) s2)
  t.failing.foldl (fun u w => u.takeFailing w) s3

theorem State.coldPowered_frame (s : State) (f : Fuses) (t : SelfTest) (straps : BitVec 8) :
    s.coldPowered f t straps = { s.coldBase f straps with pwr := (s.coldPowered f t straps).pwr } :=
  State.foldl_modPcore_frame _ _ _

theorem State.coldTested_kept (s : State) (f : Fuses) (t : SelfTest) (straps : BitVec 8) :
    StartKept (s.coldPowered f t straps) (s.coldTested f t straps) := by
  have h0 : (s.coldPowered f t straps).sched = [] := by rw [State.coldPowered_frame]; rfl
  have h1 := State.foldl_kept (fun u w => u.applyEntry w) State.applyEntry_kept (s.coldBase f straps).sec.fuses.repairs
    (s.coldPowered f t straps)
  have h2 := h1.trans
    (State.foldl_kept (fun u r => u.dueAtStart r) State.dueAtStart_kept (s.coldPowered f t straps).mem.repairDue _)
  exact h2.trans (State.foldl_takeFailing_kept t.failing _ (h2.sched.trans h0))

/-- What one measurement, and the three of a start, leave. -/
theorem State.extend_kept (s : State) (k : Nat) (d : List Byte) : StartKept s (s.extend k d) := by
  unfold State.extend State.measure
  exact State.modSec_kept s _ rfl

theorem State.measureStart_kept (s : State) : StartKept s s.measureStart :=
  .trans (.trans (State.extend_kept s _ _) (State.extend_kept _ _ _)) (State.extend_kept _ _ _)

@[simp] theorem State.measureStart_eng (s : State) (e : Nat) : s.measureStart.eng e = s.eng e := by
  unfold State.measureStart State.extend State.measure
  simp only [State.modSec_eng]

@[simp] theorem State.aimRails_eng (s : State) (e : Nat) : s.aimRails.eng e = s.eng e := by
  unfold State.aimRails
  rw [State.modPwr_eng]

theorem State.aimRails_kept (s : State) : StartKept s s.aimRails := by
  unfold State.aimRails
  exact State.modPwr_kept s _ rfl

theorem State.seedEngines_kept (s : State) : StartKept s s.seedEngines := by
  rw [State.seedEngines_eq]
  exact .trans (State.foldl_kept _ (fun t e => State.modEng_kept t e _) _ s) (State.tick_kept _)

/-- The stage a start ends in. -/
def startStage (t : SelfTest) (c : Security) : Security :=
  if t.failCause = 0 then { c with boot := .links } else { c with boot := .failed, failCause := t.failCause }

theorem startStage_fuses (t : SelfTest) (c : Security) : (startStage t c).fuses = c.fuses := by
  unfold startStage; split <;> rfl
theorem startStage_boot (t : SelfTest) (c : Security) :
    (startStage t c).boot = if t.failCause = 0 then .links else .failed := by
  unfold startStage; split <;> rfl

/-- The rest of a start: seeds, voltages, measurements, the identity, the stage. -/
theorem State.coldStart_eq (s : State) (f : Fuses) (t : SelfTest) (straps : BitVec 8) :
    s.coldStart f t straps =
      ((s.coldTested f t straps).seedEngines.aimRails.measureStart.modSec fun c =>
        { c with idpk := fixLen 64 (Config.slhPublic (idSeeds (s.coldBase f straps).sec.fuses)) }).modSec (startStage t) := by
  unfold State.coldStart State.coldTested State.coldPowered startStage
  simp only

/-- What a start does after the records of its cores are set. -/
theorem State.coldStart_kept (s : State) (f : Fuses) (t : SelfTest) (straps : BitVec 8) :
    StartKept (s.coldPowered f t straps) (s.coldStart f t straps) := by
  rw [State.coldStart_eq]
  refine .trans (.trans (.trans (State.coldTested_kept s f t straps) (State.seedEngines_kept _)) (State.aimRails_kept _)) ?_
  refine .trans (.trans (State.measureStart_kept _) (State.modSec_kept _ _ ?_)) (State.modSec_kept _ _ ?_)
  · rfl
  · rw [startStage_fuses]

theorem State.coldStart_boot (s : State) (f : Fuses) (t : SelfTest) (straps : BitVec 8) :
    (s.coldStart f t straps).sec.boot = if t.failCause = 0 then .links else .failed := by
  rw [State.coldStart_eq, State.modSec_sec, startStage_boot]


@[simp] theorem State.coldStart_mer (s : State) (f : Fuses) (t : SelfTest) (straps : BitVec 8) :
    (s.coldStart f t straps).mer = Mer.reset := by
  rw [(State.coldStart_kept s f t straps).frame, State.coldPowered_frame]
  rfl

@[simp] theorem State.coldStart_pending (s : State) (f : Fuses) (t : SelfTest) (straps : BitVec 8) :
    (s.coldStart f t straps).pending = s.pending := by
  rw [(State.coldStart_kept s f t straps).frame, State.coldPowered_frame]
  rfl

theorem State.coldStart_board (s : State) (f : Fuses) (t : SelfTest) (straps : BitVec 8) :
    (s.coldStart f t straps).board = (s.coldBase f straps).board := by
  rw [(State.coldStart_kept s f t straps).frame, State.coldPowered_frame]

/-- Every line of a chip that starts is zero and good (R457). -/
theorem State.coldStart_lines (s : State) (f : Fuses) (t : SelfTest) (straps : BitVec 8) :
    (s.coldStart f t straps).mem.cells = [] ∧ (s.coldStart f t straps).mem.lines = [] := by
  rw [(State.coldStart_kept s f t straps).mem, State.coldPowered_frame]
  exact ⟨rfl, rfl⟩

theorem State.coldStart_secret (s : State) (f : Fuses) (t : SelfTest) (straps : BitVec 8) :
    (s.coldStart f t straps).sec.fuses.secret = (if s.sec.fuses = Fuses.blank then f else s.sec.fuses).secret := by
  rw [(State.coldStart_kept s f t straps).fuses, State.coldPowered_frame]
  rfl

/-- The fused maximum of each core's clock (R16, R457). -/
theorem State.coldStart_fmax (s : State) (f : Fuses) (t : SelfTest) (straps : BitVec 8) (c : Nat) (hc : c < 4) :
    ((s.coldStart f t straps).pcore c).fmax =
      fusedMax (((if s.sec.fuses = Fuses.blank then f else s.sec.fuses).fmax[c]?).getD 2400) := by
  have h : (s.coldStart f t straps).pcore c = (s.coldPowered f t straps).pcore c :=
    congrArg (SMap.get PwrCore.reset · c) (State.coldStart_kept s f t straps).power
  rw [h, State.coldPowered, State.foldl_modPcore, if_pos hc]
  rfl

/-- The generators of a start (R163). -/
theorem State.coldStart_gen (s : State) (f : Fuses) (t : SelfTest) (straps : BitVec 8) (e i : Nat) (he : e < 64) (hi : i < 32) :
    SMap.get 0 ((s.coldStart f t straps).eng e).gen i = seedLane (s.coldTested f t straps).fresh e i := by
  rw [← State.seedEngines_gen _ e i he hi, State.coldStart_eq, State.modSec_eng, State.modSec_eng, State.measureStart_eng,
    State.aimRails_eng]

end Sys2Proof.Machine
end

section
/-! SUPPORT. Laws of link training (R326, R376, R458): the announcements that follow it leave the links as they came up. -/

namespace Sys2Proof.Machine

open Sys2Proof.Claim

/-! Checks of memory and faults of units leave the links unit. -/

@[simp] theorem State.stkEvt_lnk (s : State) (b : Nat) : (s.stkEvt b).lnk = s.lnk := rfl
@[simp] theorem State.supplyLine_lnk (s : State) (l : Nat) : (s.supplyLine l).lnk = s.lnk := by
  unfold State.supplyLine
  split
  · rw [State.modMem_lnk]
  · rfl
@[simp] theorem State.countPort_lnk (s : State) (l k n : Nat) : (s.countPort l k n).lnk = s.lnk := by
  unfold State.countPort
  split
  · rw [State.bumpBy_lnk]
  · rfl
@[simp] theorem State.countCe_lnk (s : State) (l : Nat) : (s.countCe l).lnk = s.lnk := by
  unfold State.countCe
  split
  · rw [State.modMem_lnk]
  · rw [State.bump_lnk]
  · rw [State.bump_lnk]
  · rfl
@[simp] theorem State.countUe_lnk (s : State) (l : Nat) : (s.countUe l).lnk = s.lnk := by
  unfold State.countUe
  split
  · rw [State.modMem_lnk]
  · rw [State.bump_lnk]
  · rw [State.bump_lnk]
  · rfl
@[simp] theorem State.foundUe_lnk (s : State) (r j l : Nat) : (s.foundUe r j l).lnk = s.lnk := by
  unfold State.foundUe
  simp only [State.logEvt_lnk, State.modMem_lnk, State.stkEvt_lnk, State.countUe_lnk]

@[simp] theorem State.checkLine_lnk (s : State) (r j l : Nat) : (s.checkLine r j l).1.lnk = s.lnk := by
  have read : ((s.supplyLine l).countPort l 0 1).lnk = s.lnk := by rw [State.countPort_lnk, State.supplyLine_lnk]
  have corrected : ((((s.supplyLine l).countPort l 0 1).countCe l).stkEvt 0).lnk = s.lnk := by
    rw [State.stkEvt_lnk, State.countCe_lnk, read]
  have found : (((s.supplyLine l).countPort l 0 1).foundUe r j l).lnk = s.lnk := by rw [State.foundUe_lnk, read]
  unfold State.checkLine
  cases s.lineSt l with
  | good => exact read
  | correctable _ => exact corrected
  | uncorrectable => exact found
  | poisoned => exact found
  | lost => exact found
  | beyond =>
    dsimp only
    split
    · exact found
    · split
      · exact corrected
      · exact read

@[simp] theorem State.checkLines_lnk (s : State) (r j : Nat) (l : List Nat) : (s.checkLines r j l).1.lnk = s.lnk := by
  induction l generalizing s with
  | nil => rfl
  | cons a t ih => exact (ih _).trans (State.checkLine_lnk s r j a)

@[simp] theorem State.checkRange_lnk (s : State) (r j a n : Nat) : (s.checkRange r j a n).1.lnk = s.lnk :=
  State.checkLines_lnk s r j _

@[simp] theorem State.checkSrc_lnk (s : State) (j : Nat) (l : List (Nat × Nat)) : (s.checkSrc j l).1.lnk = s.lnk := by
  induction l generalizing s with
  | nil => rfl
  | cons a t ih => exact (ih _).trans (State.checkRange_lnk s _ j a.1 a.2)

@[simp] theorem State.modInstOn_lnk (s : State) (c : Nat) (f : Inst → Inst) : (s.modInstOn c f).lnk = s.lnk := by
  unfold State.modInstOn; split <;> rfl
@[simp] theorem State.semTake_lnk (s : State) (u : SemUnit) (n amt : Nat) : (s.semTake u n amt).lnk = s.lnk := by
  unfold State.semTake State.noteTake
  rw [State.modInstOn_lnk, State.modSem_lnk]

theorem State.semServeOne_lnk (s t : State) (n : Nat) (h : s.semServeOne n = some t) : t.lnk = s.lnk := by
  unfold State.semServeOne at h
  split at h
  · cases h
  · rename_i u amt _ _ _
    split at h
    · cases h
      cases u with
      | core c => exact (State.semTake_lnk _ _ n amt).trans (State.modSem_lnk _ _ _)
      | eng e => exact (State.semTake_lnk _ _ n amt).trans (State.modSem_lnk _ _ _)
    · cases h

@[simp] theorem State.semServe_lnk (s : State) (n k : Nat) : (s.semServe n k).lnk = s.lnk := by
  induction k generalizing s with
  | zero => rfl
  | succ k ih =>
    unfold State.semServe
    split
    · rfl
    · rename_i t h
      exact (ih t).trans (State.semServeOne_lnk s t n h)

@[simp] theorem State.semQuit_lnk (s : State) (u : SemUnit) : (s.semQuit u).lnk = s.lnk :=
  foldl_relates (R := fun s t : State => t.lnk = s.lnk) (fun _ => rfl) (fun h k => k.trans h) _
    (fun t _ => State.semServe_lnk t _ _) _ (s.semLeave u)

@[simp] theorem State.sqFault_lnk (s : State) (c : Nat) (code : SqCode) (pc d : Nat) : (s.sqFault c code pc d).lnk = s.lnk := by
  unfold State.sqFault
  dsimp only
  split
  · rw [State.semQuit_lnk, State.logEvt_lnk, State.modCore_lnk]
  · rw [State.logEvt_lnk, State.modCore_lnk]
@[simp] theorem State.veFaultAt_lnk (s : State) (e : Nat) (code : VeCode) (pc : Nat) : (s.veFaultAt e code pc).lnk = s.lnk := by
  unfold State.veFaultAt
  dsimp only
  split
  · rw [State.semQuit_lnk, State.logEvt_lnk, State.modEng_lnk]
  · rw [State.logEvt_lnk, State.modEng_lnk]
@[simp] theorem State.opMemFault_lnk (s : State) (o : LinkOp) : (s.opMemFault o).lnk = s.lnk := by
  unfold State.opMemFault
  split
  · rw [State.sqFault_lnk]
  · rw [State.veFaultAt_lnk]
  · rfl

/-! Announcements. -/

/-- Messages have gone out or been made ready: the state of every link, the chip's number, its stage and the board's registers are
as before, and a wiring error noted stays noted. -/
structure LinksStand (s t : State) : Prop where
  links : t.lnk.link = s.lnk.link
  miswired : bit s.lnk.evt 6 = true → bit t.lnk.evt 6 = true
  chip : t.grp.chip = s.grp.chip
  boot : t.sec.boot = s.sec.boot
  board : t.board = s.board

theorem LinksStand.refl (s : State) : LinksStand s s := ⟨rfl, id, rfl, rfl, rfl⟩

theorem LinksStand.trans {s t u : State} (h : LinksStand s t) (k : LinksStand t u) : LinksStand s u :=
  ⟨k.links.trans h.links, k.miswired ∘ h.miswired, k.chip.trans h.chip, k.boot.trans h.boot, k.board.trans h.board⟩

theorem LinksStand.link {s t : State} (h : LinksStand s t) (l : Nat) : t.link l = s.link l :=
  congrArg (SMap.get Link.reset · l) h.links

/-- Messages one after the other. -/
theorem State.foldl_stand {α : Type} (f : State → α → State) (hf : ∀ s a, LinksStand s (f s a)) (l : List α) (s : State) :
    LinksStand s (l.foldl f s) := foldl_relates LinksStand.refl LinksStand.trans f hf l s

theorem State.modLnk_stand (s : State) (f : Links → Links) (h : (f s.lnk).link = s.lnk.link) (he : (f s.lnk).evt = s.lnk.evt) :
    LinksStand s (s.modLnk f) := by
  refine ⟨h, fun k => ?_, rfl, rfl, rfl⟩
  rw [State.modLnk_lnk, he]
  exact k

theorem State.modGrp_stand (s : State) (f : Group → Group) (h : (f s.grp).chip = s.grp.chip) : LinksStand s (s.modGrp f) :=
  ⟨rfl, id, h, rfl, rfl⟩

theorem State.modMer_stand (s : State) (f : Mer → Mer) : LinksStand s (s.modMer f) := ⟨rfl, id, rfl, rfl, rfl⟩

/-- An event bit once set stays set when another is. -/
theorem bit_setBit_of_bit (w : W64) (n m : Nat) (h : bit w m = true) : bit (setBit w n) m = true := by
  unfold bit setBit at *
  rw [BitVec.getLsbD_or, h, Bool.true_or]

theorem State.lnkEvt_stand (s : State) (b : Nat) : LinksStand s (s.lnkEvt b) :=
  ⟨rfl, bit_setBit_of_bit _ _ _, rfl, rfl, rfl⟩

/-- Reads of memory for the links leave the links as they are. -/
theorem Pumped.stand {s t : State} (h : Pumped s t) (hl : t.lnk.link = s.lnk.link) (he : t.lnk.evt = s.lnk.evt) :
    LinksStand s t := by
  have hf := h.1
  refine ⟨hl, fun k => ?_, ?_, ?_, ?_⟩
  · rw [he]; exact k
  · rw [hf]
  · rw [hf]
  · rw [hf]

theorem State.takePacket_stand (s : State) (f : Nat) : LinksStand s (s.takePacket f).1 := by
  refine (State.takePacket_pumped s f).stand ?_ ?_ <;>
  · unfold State.takePacket
    split
    · rfl
    · split
      · rfl
      · simp only
        split
        · simp only [State.setOp, State.modFlow, State.modLnk_lnk, State.checkSrc_lnk]
        · simp only [State.opMemFault_lnk, State.setOp, State.modLnk_lnk, State.checkSrc_lnk]

/-- A packet carries the number of the chip that sends it. -/
theorem State.takePacket_schip (s t : State) (f : Nat) (p : Packet) (h : s.takePacket f = (t, some p)) :
    p.schip = t.grp.chip := by
  unfold State.takePacket at h
  split at h
  · cases h
  · split at h
    · cases h
    · simp only at h
      split at h
      · cases h; rfl
      · cases h

/-- A packet of this chip's own that has no way on is acknowledged by the local path. -/
theorem State.noRoute_stand (s : State) (p : Packet) (h : p.schip = s.grp.chip) : LinksStand s (s.noRoute p) := by
  unfold State.noRoute State.lose
  split
  · exact State.lnkEvt_stand s 5
  · refine .trans (State.lnkEvt_stand s 5) ?_
    unfold State.sendAck
    simp only
    rw [if_pos (by rw [h]; rfl)]
    exact State.modLnk_stand _ _ rfl rfl

theorem State.pumpLocal_stand (s : State) (f n : Nat) : LinksStand s (s.pumpLocal f n) := by
  induction n generalizing s with
  | zero => exact .refl s
  | succ n ih =>
    have h := State.takePacket_stand s f
    unfold State.pumpLocal
    split
    · exact .refl s
    · split
      · split
        · rename_i e
          rw [e] at h
          exact .trans h (.trans (State.modLnk_stand _ _ rfl rfl) (ih _))
        · rename_i e
          rw [e] at h
          exact h
      · split
        · split
          · rename_i e
            have hp := State.takePacket_schip _ _ _ _ e
            rw [e] at h
            exact .trans h (.trans (State.noRoute_stand _ _ hp) (ih _))
          · rename_i e
            rw [e] at h
            exact h
        · exact .refl s

theorem State.sendMgmt_stand (s : State) (d t : Nat) (b : List Byte) : LinksStand s (s.sendMgmt d t b) := by
  unfold State.sendMgmt State.addOp
  simp only
  refine LinksStand.trans (State.modGrp_stand s _ ?_) (LinksStand.trans (LinksStand.trans
    (State.modLnk_stand _ _ ?_ ?_) (State.modLnk_stand _ _ ?_ ?_)) (State.pumpLocal_stand _ _ _)) <;> rfl

theorem State.announce_stand (s : State) (dst : List Nat) (sys : Bool) : LinksStand s (s.announce dst sys) :=
  State.foldl_stand _ (fun t d => State.sendMgmt_stand t d _ _) dst s

theorem State.enterAcquire_stand (s : State) : LinksStand s s.enterAcquire := by
  unfold State.enterAcquire State.setLock
  refine .trans (.trans ?_ (State.modMer_stand _ _)) (State.modMer_stand _ _)
  split
  · exact State.modMer_stand _ _
  · exact .refl s

theorem State.acquireFrom_stand (s : State) (chip hops : Nat) : LinksStand s (s.acquireFrom chip hops) :=
  .trans (State.modMer_stand _ _) (State.enterAcquire_stand _)

theorem State.serve_stand (s : State) (chip strap : Nat) : LinksStand s (s.serve chip strap) :=
  .trans (State.modGrp_stand _ _ rfl) (State.modGrp_stand _ _ rfl)

theorem State.formSystem_stand (s : State) : LinksStand s s.formSystem := by
  unfold State.formSystem
  simp only
  split
  · split
    · exact .trans (.trans (State.modGrp_stand _ _ rfl) (State.foldl_stand _ (fun t h => State.serve_stand t _ _) _ _))
        (.trans (State.modMer_stand _ _) (State.enterAcquire_stand _))
    · exact .trans (State.modGrp_stand _ _ rfl) (State.acquireFrom_stand _ _ _)
  · exact .refl s

theorem State.formGroup_stand (s : State) : LinksStand s s.formGroup := by
  unfold State.formGroup
  simp only
  split
  · split
    · exact .trans (.trans (.trans (State.modGrp_stand _ _ rfl) (State.foldl_stand _ (fun t h => State.serve_stand t _ _) _ _))
        (State.announce_stand _ _ _)) (State.formSystem_stand _)
    · exact .trans (State.modGrp_stand _ _ rfl) (State.acquireFrom_stand _ _ _)
  · exact .refl s

/-! Training (R326, R458). -/

/-- The chip with its number taken, before any link comes up. -/
def State.numbered (s : State) : State :=
  (s.modBoard fun b => { b with groupTaken := true }).modGrp fun g => { g with chip := s.chipNumber }

/-- After training the links are as each came up, and the chip has its number (R458). -/
theorem State.train_effect (s : State) (r : TrainResult) :
    let u := s.numbered.trainLink r
    let t := s.train [r]
    t.lnk.link = u.lnk.link ∧ (bit u.lnk.evt 6 = true → bit t.lnk.evt 6 = true) ∧ t.grp.chip = u.grp.chip ∧
      t.sec.boot = .lock ∧ t.board = u.board := by
  obtain ⟨h1, h2, h3, h4, h5⟩ : LinksStand ((s.numbered.trainLink r).installRoutes.modSec fun c => { c with boot := .lock })
      (s.train [r]) := .trans (State.announce_stand _ _ _) (State.formGroup_stand _)
  exact ⟨h1, h2, h3, h4, h5⟩

/-- A link that comes up with both lanes, wired as the rule has it (R326, R334, R340). -/
def trainedLink (r : TrainResult) (chip far : Nat) : Link :=
  { Link.reset with
    st := .up2, partner := chip, plink := far, src0 := 0, src1 := 1, spcab := (r.spare.map BitVec.toNat).getD 15
    asym := r.asym, failed0 := false, failed1 := false, credits := [(0, 768), (1, 768), (2, 768), (3, 768)] }

theorem trainedLink_credits (r : TrainResult) (chip far v : Nat) (h : v < 4) :
    SMap.get 0 (trainedLink r chip far).credits v = 768 := by
  unfold trainedLink
  rcases v with _ | _ | _ | _ | v
  · rfl
  · rfl
  · rfl
  · rfl
  · omega

section
variable (s : State) (r : TrainResult) (chip far : Nat)
  (hp : r.partner = some (BitVec.ofNat 16 chip, BitVec.ofNat 7 far)) (hc : chip < 65536) (hf : far < 128)
include hp hc hf

theorem State.trainLink_wired (hw : wiredTo systemGroups s.me r.link = some (chip, far)) (h0 : r.lane0 = true)
    (h1 : r.lane1 = true) (m0 : s.laneMapped r.link 0 = false) (m1 : s.laneMapped r.link 1 = false) :
    s.trainLink r = s.modLink r.link fun _ => trainedLink r chip far := by
  unfold State.trainLink
  simp only [hp, BitVec.toNat_ofNat, Nat.mod_eq_of_lt hc, Nat.mod_eq_of_lt hf, hw, h0, h1, m0, m1]
  rw [if_neg (fun h => h rfl)]
  rfl

theorem State.trainLink_miswired (hw : wiredTo systemGroups s.me r.link ≠ some (chip, far)) : s.trainLink r = s.lnkEvt 6 := by
  unfold State.trainLink
  simp only [hp, BitVec.toNat_ofNat, Nat.mod_eq_of_lt hc, Nat.mod_eq_of_lt hf]
  exact if_pos hw

end

/-! The commands. -/

theorem exec_coldStart_fuse (f : Fuses) (st : SelfTest) (straps : BitVec 8) (s : State) (h : s.sec.boot = .fuse) :
    exec (.coldStart f st straps) s = .next (s.coldStart f st straps) := by
  show execColdStart f st straps s = _
  unfold execColdStart
  rw [if_pos h]

theorem exec_coldStart_other (f : Fuses) (st : SelfTest) (straps : BitVec 8) (s : State) (h : s.sec.boot ≠ .fuse) :
    exec (.coldStart f st straps) s = .next s := by
  show execColdStart f st straps s = _
  unfold execColdStart
  rw [if_neg h]

theorem exec_linkTraining_ready (r : List TrainResult) (s : State) (h : s.sec.boot = .links ∧ s.groupKnown = true) :
    exec (.linkTraining r) s = .next (s.train r) := by
  show execLinkTraining r s = _
  unfold execLinkTraining
  rw [if_pos h]

theorem exec_linkTraining_other (r : List TrainResult) (s : State) (h : ¬ (s.sec.boot = .links ∧ s.groupKnown = true)) :
    exec (.linkTraining r) s = .next s := by
  show execLinkTraining r s = _
  unfold execLinkTraining
  rw [if_neg h]

/-- Settles O48: the frame of a supply reset, the base state that a cold start keeps to, and links that stand while the chip
announces itself. -/
theorem startUp : Obligations.StartUp := by
  unfold Obligations.StartUp
  intro f st straps r chip far s
  refine ⟨⟨_, rfl, rfl, rfl, rfl, rfl, supplyReset_replost s.pwr.core⟩,
    fun hb => ⟨_, exec_coldStart_fuse f st straps s hb, ?started⟩,
    fun hb => ⟨s, exec_coldStart_other f st straps s hb, rfl⟩,
    fun ht hp hc hf hw h0 h1 m0 m1 => ⟨_, exec_linkTraining_ready [r] s ht, ?wired⟩,
    fun ht hp hc hf hw => ⟨_, exec_linkTraining_ready [r] s ht, ?miswired⟩,
    fun ht => ⟨s, exec_linkTraining_other [r] s ht, rfl⟩⟩
  case started =>
    dsimp only
    rw [State.coldStart_board, State.coldStart_pending, State.coldStart_mer, State.coldStart_boot, State.coldStart_secret]
    obtain ⟨hcells, hlines⟩ := State.coldStart_lines s f st straps
    refine ⟨rfl, rfl, rfl, rfl, rfl, hcells, hlines, rfl, rfl, State.coldStart_fmax s f st straps, fun e i he hi => ?_,
      fun e i e' i' he hi he' hi' h => ?_⟩
    · rw [State.coldStart_gen s f st straps e i he hi]
      exact seedLane_ne_zero _ e i he hi
    · rw [State.coldStart_gen s f st straps e i he hi, State.coldStart_gen s f st straps e' i' he' hi'] at h
      exact seedLane_inj _ e i e' i' he hi he' hi' h
  case wired =>
    obtain ⟨hl, -, hchip, hboot, hboard⟩ := State.train_effect s r
    rw [State.trainLink_wired s.numbered r chip far hp hc hf hw h0 h1 m0 m1] at hl hchip hboard
    have hlink : ∀ m, (s.train [r]).link m = if m = r.link.val then trainedLink r chip far else s.link m := fun m =>
      (congrArg (SMap.get Link.reset · m) hl).trans (State.link_modLink _ _ _ _)
    rw [hboard, hboot, hchip, hlink r.link.val, if_pos rfl]
    exact ⟨rfl, rfl, rfl, rfl, rfl, rfl, rfl, rfl, trainedLink_credits r chip far, fun m hm => (hlink m).trans (if_neg hm)⟩
  case miswired =>
    obtain ⟨hl, hev, -⟩ := State.train_effect s r
    rw [State.trainLink_miswired s.numbered r chip far hp hc hf hw] at hl hev
    exact ⟨congrArg (SMap.get Link.reset · r.link.val) hl, hev (bit_setBit_self _ _ (by decide))⟩

end Sys2Proof.Machine
end

section
/-! SUPPORT. Laws of whole writes and of the control cores' coherent cache over memory whose lines are good (R188, R190, R202,
R211, R214, R217). -/

namespace Sys2Proof.Machine

open Sys2Proof.Claim

/-! What a write of any length stores. -/

theorem Writes.refl {s : State} (hg : LinesGood s) (hs : WcbSound s) : Writes s s s.view := ⟨hg, hs, .refl s, fun _ => rfl⟩

/-- A write and then an operation that changes no byte. -/
theorem Writes.trans {s t u : State} {f : Nat → Byte} (h : Writes s t f) (k : Writes t u t.view) : Writes s u f :=
  ⟨k.good, k.sound, .trans h.frame k.frame, fun a => (k.view a).trans (h.view a)⟩

/-- Good lines, buffers and stored bytes as before: no read sees a difference. -/
theorem Writes.of_same {s t : State} (hs : WcbSound s) (hf : MemCnt s t) (hl : LinesGood t)
    (hw : ∀ p, t.wcbAt p = s.wcbAt p) (hc : t.mem.cells = s.mem.cells) : Writes s t s.view := by
  refine ⟨hl, wcbSound_of_wcbAt hs hw, hf, fun a => ?_⟩
  rw [State.view_eq, State.view_eq, hc]
  simp only [hw]

theorem Writes.peek {s t : State} (h : Writes s t s.view) (hg : LinesGood s) (a : Nat) : t.peek a = s.peek a := by
  rw [State.peek_view t h.good, State.peek_view s hg, h.view]

theorem Writes.bytes {s t : State} (h : Writes s t s.view) (hg : LinesGood s) (a n : Nat) : t.bytes a n = s.bytes a n :=
  List.map_congr_left fun i _ => h.peek hg (a + i)

/-- Bytes have been written: they read back, every other byte reads as before, and only the memory and counters have changed. -/
structure Puts (a : Nat) (bs : List Byte) (s t : State) : Prop where
  good : LinesGood t
  sound : WcbSound t
  frame : MemCnt s t
  stored : Stored a bs s t

theorem Puts.nil {s : State} (hg : LinesGood s) (hs : WcbSound s) (a : Nat) : Puts a [] s s :=
  ⟨hg, hs, .refl s, fun _ h => absurd h (Nat.not_lt_zero _), fun _ _ => rfl⟩

/-- A write within one line. -/
theorem Writes.puts {s t : State} {a : Nat} {bs : List Byte} (hg : LinesGood s) (h : Writes s t (laid (canon a) bs s.view))
    (hb : a % 128 + bs.length ≤ 128) : Puts a bs s t := by
  have hc : ∀ i, i < bs.length → canon (a + i) = canon a + i := fun i hi => canon_add a i (by omega)
  refine ⟨h.good, h.sound, h.frame, fun i hi => ?_, fun b hne => ?_⟩
  · rw [State.peek_view t h.good, h.view, hc i hi]
    unfold laid
    rw [if_pos (by omega), Nat.add_sub_cancel_left]
  · rw [State.peek_view t h.good, State.peek_view s hg, h.view]
    unfold laid
    refine if_neg fun hr => hne (canon b - canon a) (by omega) ?_
    rw [hc _ (by omega)]
    omega

/-- One write after another at the bytes that follow. -/
theorem Puts.append {s t u : State} {a : Nat} {bs cs : List Byte} (h : Puts a bs s t) (k : Puts (a + bs.length) cs t u)
    (hl : bs.length + cs.length ≤ 2 ^ 32) : Puts a (bs ++ cs) s u := by
  obtain ⟨h1, h2⟩ := h.stored
  obtain ⟨k1, k2⟩ := k.stored
  refine ⟨k.good, k.sound, .trans h.frame k.frame, fun i hi => ?_, fun b hne => ?_⟩
  · rw [List.length_append] at hi
    by_cases hb : i < bs.length
    · rw [List.getElem?_append_left hb, k2 (a + i) fun j hj e => ?_, h1 i hb]
      have := canon_inj _ _ e (by omega) (by omega)
      omega
    · rw [List.getElem?_append_right (by omega), ← k1 (i - bs.length) (by omega)]
      congr 1
      omega
  · rw [List.length_append] at hne
    rw [k2 b fun i hi => by rw [Nat.add_assoc]; exact hne _ (by omega), h2 b fun i hi => hne i (by omega)]

/-- A write and then an operation that changes no byte. -/
theorem Puts.trans {s t u : State} {a : Nat} {bs : List Byte} (h : Puts a bs s t) (k : Writes t u t.view) : Puts a bs s u := by
  obtain ⟨h1, h2⟩ := h.stored
  exact ⟨k.good, k.sound, .trans h.frame k.frame, fun i hi => (k.peek h.good _).trans (h1 i hi),
    fun b hb => (k.peek h.good b).trans (h2 b hb)⟩

theorem State.writeIn_puts (s : State) (a : Nat) (bs : List Byte) (hg : LinesGood s) (hs : WcbSound s)
    (hb : a % 128 + bs.length ≤ 128) : Puts a bs s (s.writeIn a bs) :=
  (State.writeIn_writes s a bs hg hs hb).puts hg hb

/-- The pieces of a write, one line after the other. -/
theorem State.writePieces_puts (k : Nat) (s : State) (a : Nat) (bs : List Byte) (hg : LinesGood s) (hs : WcbSound s)
    (hk : bs.length + a % 128 ≤ 128 * k) (hl : bs.length ≤ 2 ^ 32) :
    Puts a bs s ((cutLines a bs k).foldl (fun t p => t.writeIn p.1 p.2) s) := by
  induction k generalizing s a bs with
  | zero =>
    obtain rfl : bs = [] := List.length_eq_zero_iff.1 (by omega)
    exact .nil hg hs a
  | succ k ih =>
    unfold cutLines
    split
    · rename_i h
      rw [List.isEmpty_iff] at h
      subst h
      exact .nil hg hs a
    · have hlen : (bs.take (128 - a % 128)).length = min (128 - a % 128) bs.length := List.length_take
      have hdrop : (bs.drop (128 - a % 128)).length = bs.length - (128 - a % 128) := List.length_drop
      have h1 := State.writeIn_puts s a (bs.take (128 - a % 128)) hg hs (by omega)
      have h2 := ih _ (a + (128 - a % 128)) (bs.drop (128 - a % 128)) h1.good h1.sound (by omega) (by omega)
      simp only [List.foldl_cons]
      by_cases hn : 128 - a % 128 ≤ bs.length
      · have h3 := h1.append (cs := bs.drop (128 - a % 128)) (by rw [hlen, Nat.min_eq_left hn]; exact h2) (by omega)
        rwa [List.take_append_drop] at h3
      · have hnil : bs.drop (128 - a % 128) = [] := List.drop_eq_nil_of_le (by omega)
        have hall : bs.take (128 - a % 128) = bs := List.take_of_length_le (by omega)
        have hcut : ∀ x, cutLines x [] k = [] := fun x => by cases k <;> rfl
        rw [hnil, hall, hcut]
        rw [hall] at h1
        exact h1

theorem State.write_puts (s : State) (a : Nat) (bs : List Byte) (hg : LinesGood s) (hs : WcbSound s) (hl : bs.length ≤ 2 ^ 32) :
    Puts a bs s (s.write a bs) :=
  State.writePieces_puts _ s a bs hg hs (by omega) hl

/-! The coherent cache (R214). -/

/-- No buffer holds bytes of a line. -/
def Unbuffered (s : State) (line : Nat) : Prop := ∀ p, wcbPort line = some p → ∀ w ∈ s.wcbAt p, w.line ≠ line

/-- Entries have at most left the buffers. -/
def BuffersShrink (s t : State) : Prop := ∀ p, ∀ w ∈ t.wcbAt p, w ∈ s.wcbAt p

theorem BuffersShrink.of_eq {s t : State} (h : ∀ p, t.wcbAt p = s.wcbAt p) : BuffersShrink s t := fun p _ hw => h p ▸ hw

theorem BuffersShrink.trans {s t u : State} (h : BuffersShrink s t) (k : BuffersShrink t u) : BuffersShrink s u :=
  fun p w hw => h p w (k p w hw)

theorem Unbuffered.shrink {s t : State} {line : Nat} (h : Unbuffered s line) (k : BuffersShrink s t) : Unbuffered t line :=
  fun p hp w hw => h p hp w (k p w hw)

/-- A line that no buffer holds, seen through the view. -/
theorem State.view_unbuffered (s : State) (x : Nat) (h : Unbuffered s (lineOf x)) : s.view x = SMap.get 0 s.mem.cells x := by
  rw [State.view_eq]
  cases hp : wcbPort (lineOf x) with
  | none => rfl
  | some p =>
    have hn : wcbFind (s.wcbAt p) (lineOf x) = none :=
      List.find?_eq_none.2 fun w hw e => h p hp w hw (beq_iff_eq.1 e)
    simp only [bufByte, hn]
    rfl

theorem State.flushLine_shrinks (s : State) (line : Nat) (hg : LinesGood s) (hs : WcbSound s) :
    BuffersShrink s (s.flushLine line) ∧ Unbuffered (s.flushLine line) line := by
  unfold State.flushLine
  split
  · rename_i hp
    exact ⟨.of_eq fun _ => rfl, fun p h => by rw [hp] at h; cases h⟩
  · rename_i p hp
    split
    · rename_i hf
      refine ⟨.of_eq fun _ => rfl, fun q hq w hw => ?_⟩
      rw [hp] at hq
      cases hq
      exact fun e => List.find?_eq_none.1 hf w hw (beq_iff_eq.2 e)
    · rename_i w hf
      obtain ⟨hw, hwl⟩ := wcbFind_some _ _ _ hf
      obtain ⟨-, hbuf⟩ := State.flushEntry_writes s p w hg hs hw
      refine ⟨fun q x hx => ?_, fun q hq x hx => ?_⟩
      · rw [hbuf] at hx
        split at hx
        · rename_i e
          exact e ▸ (List.mem_filter.1 hx).1
        · exact hx
      · rw [hp] at hq
        cases hq
        rw [hbuf, if_pos rfl] at hx
        exact fun e => bne_iff_ne.1 (List.mem_filter.1 hx).2 (e.trans hwl.symm)

/-- Steps that each change no byte and put nothing in a buffer, one after the other. -/
theorem State.foldl_quiet {α : Type} (f : State → α → State)
    (hf : ∀ s a, LinesGood s → WcbSound s → Writes s (f s a) s.view ∧ BuffersShrink s (f s a)) (l : List α) (s : State)
    (hg : LinesGood s) (hs : WcbSound s) : Writes s (l.foldl f s) s.view ∧ BuffersShrink s (l.foldl f s) :=
  foldl_relates (R := fun s t : State => LinesGood s → WcbSound s → Writes s t s.view ∧ BuffersShrink s t)
    (fun _ hg hs => ⟨.refl hg hs, .of_eq fun _ => rfl⟩)
    (fun h k hg hs =>
      have ⟨h1, h2⟩ := h hg hs
      have ⟨k1, k2⟩ := k h1.good h1.sound
      ⟨h1.trans k1, h2.trans k2⟩) f hf l s hg hs

theorem State.flushLine_quiet (s : State) (line : Nat) (hg : LinesGood s) (hs : WcbSound s) :
    Writes s (s.flushLine line) s.view ∧ BuffersShrink s (s.flushLine line) :=
  ⟨State.flushLine_writes s line hg hs, (State.flushLine_shrinks s line hg hs).1⟩

/-- A write that completes (R190, R204). -/
theorem State.writeDone_puts (s : State) (a : Nat) (bs : List Byte) (hg : LinesGood s) (hs : WcbSound s)
    (hl : bs.length ≤ 2 ^ 32) : Puts a bs s (s.writeDone a bs) := by
  have h := State.write_puts s a bs hg hs hl
  obtain ⟨hflushed, -⟩ := State.foldl_quiet (fun t l => t.flushLine l) State.flushLine_quiet (linesOf a bs.length) _
    h.good h.sound
  exact h.trans hflushed

/-- A change of the cores' copies and reservations alone changes no byte. -/
theorem State.modMem_writes (s : State) (f : Mem → Mem) (hg : LinesGood s) (hs : WcbSound s)
    (h : (f s.mem).cells = s.mem.cells ∧ (f s.mem).lines = s.mem.lines ∧ (f s.mem).wcb = s.mem.wcb) :
    Writes s (s.modMem f) s.view ∧ BuffersShrink s (s.modMem f) := by
  obtain ⟨hc, hl, hw⟩ := h
  have hw' : ∀ p, (s.modMem f).wcbAt p = s.wcbAt p := fun p => congrArg (SMap.get [] · p) hw
  refine ⟨.of_same hs (State.modMem_memCnt s f) (fun l => ?_) hw' hc, .of_eq hw'⟩
  exact (congrArg (fun m => SMap.get LineState.good m l) hl).trans (hg l)

/-- The cores' copies are no part of the bytes, the check states or the buffers. -/
theorem Mem.share_tables (m : Mem) (cc l : Nat) :
    (m.share cc l).cells = m.cells ∧ (m.share cc l).lines = m.lines ∧ (m.share cc l).wcb = m.wcb := ⟨rfl, rfl, rfl⟩
theorem Mem.own_tables (m : Mem) (cc l : Nat) :
    (m.own cc l).cells = m.cells ∧ (m.own cc l).lines = m.lines ∧ (m.own cc l).wcb = m.wcb := ⟨rfl, rfl, rfl⟩
theorem Mem.supply_tables (m : Mem) (l : Nat) :
    (m.supply l).cells = m.cells ∧ (m.supply l).lines = m.lines ∧ (m.supply l).wcb = m.wcb := ⟨rfl, rfl, rfl⟩

/-- The check of a good line returns its data and changes no byte (R185). -/
theorem State.checkLine_good (s : State) (r j l : Nat) (hg : LinesGood s) (hs : WcbSound s) :
    (s.checkLine r j l).2 = true ∧ Writes s (s.checkLine r j l).1 s.view ∧ BuffersShrink s (s.checkLine r j l).1 := by
  have hsup : Writes s (s.supplyLine l) s.view ∧ BuffersShrink s (s.supplyLine l) := by
    unfold State.supplyLine
    split
    · exact State.modMem_writes s _ hg hs (Mem.supply_tables _ _)
    · exact ⟨.refl hg hs, .of_eq fun _ => rfl⟩
  obtain ⟨h1, h2⟩ := hsup
  have e : s.checkLine r j l = ((s.supplyLine l).countPort l 0 1, true) := by
    unfold State.checkLine
    rw [hg l]
  rw [e]
  refine ⟨rfl, h1.trans (.of_same h1.sound (State.countPort_memCnt _ _ _ _) ?_ ?_ ?_), h2.trans (.of_eq ?_)⟩
  · exact linesGood_of_lineSt h1.good fun m => State.countPort_lineSt _ _ _ _ m
  · exact fun p => State.countPort_wcbAt _ _ _ _ p
  · rw [State.countPort_mem]
  · exact fun p => State.countPort_wcbAt _ _ _ _ p

/-- Lines have come into a core's cache: no byte has changed and no buffer holds any of them. -/
structure Filled (ls : List Nat) (s t : State) : Prop where
  writes : Writes s t s.view
  shrinks : BuffersShrink s t
  unbuffered : ∀ l ∈ ls, Unbuffered t l

theorem State.fillLine_good (s : State) (cc line : Nat) (hg : LinesGood s) (hs : WcbSound s) :
    (s.fillLine cc line).2 = true ∧ Filled [line] s (s.fillLine cc line).1 := by
  have h1 := State.flushLine_writes s line hg hs
  obtain ⟨h2, h3⟩ := State.flushLine_shrinks s line hg hs
  have base : Filled [line] s (s.flushLine line) :=
    ⟨h1, h2, fun l hl => by rw [List.mem_singleton.1 hl]; exact h3⟩
  have step : ∀ t, Writes (s.flushLine line) t (s.flushLine line).view → BuffersShrink (s.flushLine line) t →
      Filled [line] s t := fun t k1 k2 => ⟨h1.trans k1, h2.trans k2, fun l hl => (base.unbuffered l hl).shrink k2⟩
  unfold State.fillLine
  simp only
  split
  · exact ⟨rfl, base⟩
  · obtain ⟨k1, k2, k3⟩ := State.checkLine_good (s.flushLine line) rdCc 255 line h1.good h1.sound
    split
    · obtain ⟨m1, m2⟩ := State.modMem_writes ((s.flushLine line).checkLine rdCc 255 line).1 (fun m => m.share cc line)
        k2.good k2.sound (Mem.share_tables _ _ _)
      exact ⟨rfl, step _ (k2.trans m1) (k3.trans m2)⟩
    · exact ⟨k1, step _ k2 k3⟩

theorem State.fillLines_good (s : State) (cc : Nat) (ls : List Nat) (hg : LinesGood s) (hs : WcbSound s) :
    (s.fillLines cc ls).2 = true ∧ Filled ls s (s.fillLines cc ls).1 := by
  induction ls generalizing s with
  | nil => exact ⟨rfl, .refl hg hs, .of_eq fun _ => rfl, fun l hl => absurd hl List.not_mem_nil⟩
  | cons a t ih =>
    obtain ⟨h1, h2⟩ := State.fillLine_good s cc a hg hs
    obtain ⟨k1, k2⟩ := ih (s.fillLine cc a).1 h2.writes.good h2.writes.sound
    unfold State.fillLines
    simp only [h1, if_true]
    refine ⟨k1, h2.writes.trans k2.writes, h2.shrinks.trans k2.shrinks, fun l hl => ?_⟩
    rcases List.mem_cons.1 hl with rfl | hl
    · exact (h2.unbuffered l (List.mem_singleton_self l)).shrink k2.shrinks
    · exact k2.unbuffered l hl

theorem State.ownLine_good (s : State) (cc line : Nat) (hg : LinesGood s) (hs : WcbSound s) :
    Writes s (s.ownLine cc line) s.view ∧ BuffersShrink s (s.ownLine cc line) := by
  have h1 : Writes s (s.setLine line .good) s.view :=
    .of_same hs (State.modMem_memCnt _ _) (linesGood_setLine hg line) (fun _ => rfl) rfl
  obtain ⟨h2, h3⟩ := State.modMem_writes (s.setLine line .good) (fun m => m.own cc line) h1.good h1.sound (Mem.own_tables _ _ _)
  have e : s.ownLine cc line = (s.setLine line .good).modMem fun m => m.own cc line := by
    unfold State.ownLine
    rw [hg line]
    rfl
  rw [e]
  exact ⟨h1.trans h2, .trans (.of_eq fun _ => rfl) h3⟩

/-- Good lines are filled and owned without a fault. -/
theorem State.ownRange_good (s : State) (cc a n : Nat) (hg : LinesGood s) (hs : WcbSound s) :
    (s.ownRange cc a n).2 = true ∧ Filled (linesOf a n) s (s.ownRange cc a n).1 := by
  obtain ⟨h1, h2⟩ := State.fillLines_good s cc (linesOf a n) hg hs
  obtain ⟨k1, k2⟩ := State.foldl_quiet (fun t l => t.ownLine cc l) (fun t l => State.ownLine_good t cc l) (linesOf a n)
    (s.fillLines cc (linesOf a n)).1 h2.writes.good h2.writes.sound
  unfold State.ownRange
  simp only [h1, if_true]
  exact ⟨trivial, h2.writes.trans k1, h2.shrinks.trans k2, fun l hl => (h2.unbuffered l hl).shrink k2⟩

/-- The line of each byte of a range is among the range's lines. -/
theorem lineOf_mem_linesOf (a n i : Nat) (hi : i < n) : lineOf (canon (a + i)) ∈ linesOf a n := by
  unfold linesOf
  rw [if_neg (by omega), ← canon_lineOf]
  refine List.mem_map.2 ⟨(a % 128 + i) / 128, List.mem_range.2 (by omega), congrArg canon ?_⟩
  unfold lineOf
  omega

/-- One byte stored in a line that no buffer holds. -/
theorem State.poke_byte_puts (s : State) (a : Nat) (b : Byte) (hg : LinesGood s) (hs : WcbSound s)
    (hu : Unbuffered s (lineOf (canon a))) : Puts a [b] s (s.poke a [b]) := by
  have hcell : ∀ x, SMap.get 0 (s.poke a [b]).mem.cells x = if x = canon a then b else SMap.get 0 s.mem.cells x :=
    fun x => SMap.get_set _ _ _ _ _
  obtain ⟨hframe, hbuf, -⟩ := State.poke_frame s a [b]
  have hu' : Unbuffered (s.poke a [b]) (lineOf (canon a)) := hu.shrink (.of_eq hbuf)
  refine Writes.puts hg ⟨hg, hs, hframe, fun x => ?_⟩ (by rw [List.length_singleton]; omega)
  unfold laid
  rw [List.length_singleton]
  by_cases hx : x = canon a
  · subst hx
    rw [State.view_unbuffered _ _ hu', hcell, if_pos rfl, if_pos (by omega), Nat.sub_self]
    rfl
  · rw [if_neg (by omega), State.view_eq, State.view_eq, hcell, if_neg hx]
    rfl

/-- Bytes stored in lines that no buffer holds. -/
theorem State.poke_puts (s : State) (a : Nat) (bs : List Byte) (hg : LinesGood s) (hs : WcbSound s)
    (hu : ∀ i, i < bs.length → Unbuffered s (lineOf (canon (a + i)))) (hl : bs.length ≤ 2 ^ 32) :
    Puts a bs s (s.poke a bs) := by
  induction bs generalizing s a with
  | nil => exact .nil hg hs a
  | cons b t ih =>
    rw [List.length_cons] at hl
    have hone := State.poke_byte_puts s a b hg hs (hu 0 (Nat.succ_pos _))
    have hrest := ih (s.poke a [b]) (a + 1) hone.good hone.sound (fun i hi => by
      have := hu (i + 1) (Nat.succ_lt_succ hi)
      rw [Nat.add_assoc, Nat.add_comm 1 i]
      exact this) (by omega)
    exact hone.append (cs := t) hrest (by rw [List.length_singleton]; omega)

/-- Only the memory, counters and the fresh number have changed. -/
def StoreFrame (s t : State) : Prop := t = { s with mem := t.mem, cnt := t.cnt, fresh := t.fresh }

theorem StoreFrame.trans {s t u : State} (h : StoreFrame s t) (k : StoreFrame t u) : StoreFrame s u := by
  unfold StoreFrame at *; rw [k, h]
theorem MemCnt.storeFrame {s t : State} (h : MemCnt s t) : StoreFrame s t := by
  unfold MemCnt at h; unfold StoreFrame; rw [h]
theorem State.tick_storeFrame (s : State) : StoreFrame s s.tick := rfl

/-- What a store of a control core does: it stores its bytes and may use a fresh number. -/
structure PutsFresh (a : Nat) (bs : List Byte) (s t : State) : Prop where
  frame : StoreFrame s t
  stored : Stored a bs s t

theorem Puts.fresh {s t : State} {a : Nat} {bs : List Byte} (h : Puts a bs s t) : PutsFresh a bs s t :=
  ⟨h.frame.storeFrame, h.stored⟩

/-- The use of a fresh number is not seen in good lines. -/
theorem State.peek_tick (s : State) (hg : LinesGood s) (a : Nat) : s.tick.peek a = s.peek a := by
  rw [State.peek_view s.tick hg, State.peek_view s hg]
  rfl

theorem Puts.tick {s t : State} {a : Nat} {bs : List Byte} (h : Puts a bs s t) : PutsFresh a bs s t.tick := by
  obtain ⟨h1, h2⟩ := h.stored
  exact ⟨h.frame.storeFrame.trans (State.tick_storeFrame t), fun i hi => (State.peek_tick t h.good _).trans (h1 i hi),
    fun b hb => (State.peek_tick t h.good b).trans (h2 b hb)⟩

/-- A store to lines that no buffer holds. -/
theorem State.storeOwned_puts (s : State) (cc a : Nat) (bs : List Byte) (hg : LinesGood s) (hs : WcbSound s)
    (hu : ∀ l ∈ linesOf a bs.length, Unbuffered s l) (hl : bs.length ≤ 2 ^ 32) : PutsFresh a bs s (s.storeOwned cc a bs) := by
  have hp := State.poke_puts s a bs hg hs (fun i hi => hu _ (lineOf_mem_linesOf a _ i hi)) hl
  obtain ⟨howned, -⟩ := State.foldl_quiet (fun t l => t.modMem fun m => m.own cc l)
    (fun t l h1 h2 => State.modMem_writes t _ h1 h2 (Mem.own_tables _ _ _)) (linesOf a bs.length) _ hp.good hp.sound
  exact (hp.trans howned).tick

/-- The lines owned and then stored to. -/
theorem State.ownRange_storeOwned (s : State) (cc a : Nat) (bs : List Byte) (hg : LinesGood s) (hs : WcbSound s)
    (hl : bs.length ≤ 2 ^ 32) : PutsFresh a bs s ((s.ownRange cc a bs.length).1.storeOwned cc a bs) := by
  obtain ⟨-, h⟩ := State.ownRange_good s cc a bs.length hg hs
  have hw := h.writes
  obtain ⟨hf, h1, h2⟩ := State.storeOwned_puts _ cc a bs hw.good hw.sound h.unbuffered hl
  exact ⟨hw.frame.storeFrame.trans hf, h1, fun b hb => (h2 b hb).trans (hw.peek hg b)⟩

/-- A store the map takes (R202, R211). -/
theorem State.ccStore_puts (s : State) (cc a : Nat) (bs : List Byte) (h : ccStores a bs.length = true) (hg : LinesGood s)
    (hs : WcbSound s) (hl : bs.length ≤ 2 ^ 32) : PutsFresh a bs s (s.ccStore cc a bs) := by
  unfold State.ccStore
  simp only [h, Bool.not_true, Bool.false_eq_true, if_false]
  split
  · rw [if_pos (State.ownRange_good s cc a bs.length hg hs).1]
    exact State.ownRange_storeOwned s cc a bs hg hs hl
  · exact (State.writeDone_puts s a bs hg hs hl).fresh

/-- A load of stack memory answers its bytes (R202). -/
theorem State.ccLoad_stack (s : State) (cc a n : Nat) (h : ccLoads a n = true) (hi : inStacks a = true) (hg : LinesGood s)
    (hs : WcbSound s) : (s.ccLoad cc a n).2 = some (s.bytes a n) := by
  obtain ⟨h1, h2⟩ := State.fillLines_good s cc (linesOf a n) hg hs
  unfold State.ccLoad
  simp only [h, hi, h1, Bool.not_true, Bool.false_eq_true, if_false, if_true]
  exact congrArg some (h2.writes.bytes hg a n)

theorem toLe_length (n v : Nat) : (toLe n v).length = n := by
  induction n generalizing v with
  | zero => rfl
  | succ n ih => exact congrArg Nat.succ (ih _)

/-- An atomic outside the words it may act on is a store access fault (R216). -/
theorem State.atomics_refused (s : State) (cc : Nat) (op : AmoOp) (a : Nat) (wide : Bool) (v : W64)
    (h : amoAllowed a wide = false) :
    s.ccAmo cc op a wide v = (s.accessFault cc a true, none) ∧ s.ccLr cc a wide = (s.accessFault cc a true, none) ∧
      s.ccSc cc a wide v = (s.accessFault cc a true, none) := by
  unfold State.ccAmo State.ccLr State.ccSc
  simp only [h, Bool.not_false, if_true]
  exact ⟨trivial, trivial, trivial⟩

/-- An AMO answers the old word and stores the result (R216). -/
theorem State.ccAmo_puts (s : State) (cc : Nat) (op : AmoOp) (a : Nat) (wide : Bool) (v : W64) (h : amoAllowed a wide = true)
    (hg : LinesGood s) (hs : WcbSound s) :
    let old := amoWord wide (s.bytes a (amoSize wide))
    let new := op.eval old (if wide then v else (v.truncate 32).signExtend 64)
    (s.ccAmo cc op a wide v).2 = some old ∧ Stored a (toLe (amoSize wide) new.toNat) s (s.ccAmo cc op a wide v).1 := by
  obtain ⟨h1, h2⟩ := State.ownRange_good s cc a (amoSize wide) hg hs
  have hb := h2.writes.bytes hg a (amoSize wide)
  have e : s.ccAmo cc op a wide v =
      ((s.ownRange cc a (amoSize wide)).1.storeOwned cc a (toLe (amoSize wide) (op.eval (amoWord wide (s.bytes a (amoSize wide)))
        (if wide then v else (v.truncate 32).signExtend 64)).toNat), some (amoWord wide (s.bytes a (amoSize wide)))) := by
    unfold State.ccAmo
    simp only [h, h1, hb, Bool.not_true, Bool.false_eq_true, if_false, if_true]
  simp only [e]
  refine ⟨trivial, ?_⟩
  have hst := (State.ownRange_storeOwned s cc a (toLe (amoSize wide) (op.eval (amoWord wide (s.bytes a (amoSize wide)))
    (if wide then v else (v.truncate 32).signExtend 64)).toNat) hg hs (by
      rw [toLe_length]; unfold amoSize; split <;> decide)).stored
  rwa [toLe_length] at hst

end Sys2Proof.Machine
end

section
/-! SUPPORT. Laws of the control cores' reservations: a completed write of any unit ends those of the lines it touches (R217). -/

namespace Sys2Proof.Machine

open Sys2Proof.Claim

/-- Reservations have at most ended. -/
def ResvShrinks (s t : State) : Prop := ∀ q ∈ t.mem.resv, q ∈ s.mem.resv

/-- No control core has a line reserved. -/
def Unreserved (s : State) (line : Nat) : Prop := ∀ q ∈ s.mem.resv, q.2 ≠ some line

theorem ResvShrinks.refl (s : State) : ResvShrinks s s := fun _ h => h
theorem ResvShrinks.of_eq {s t : State} (h : t.mem.resv = s.mem.resv) : ResvShrinks s t := fun _ hq => h ▸ hq
theorem ResvShrinks.trans {s t u : State} (h : ResvShrinks s t) (k : ResvShrinks t u) : ResvShrinks s u :=
  fun q hq => h q (k q hq)
theorem Unreserved.shrink {s t : State} {line : Nat} (h : Unreserved s line) (k : ResvShrinks s t) : Unreserved t line :=
  fun q hq => h q (k q hq)

theorem ResvShrinks.ite {c : Prop} [Decidable c] {s t u : State} (h : ResvShrinks s t) (k : ResvShrinks s u) :
    ResvShrinks s (if c then t else u) := by split <;> assumption

theorem State.foldl_resv {α : Type} (f : State → α → State) (hf : ∀ s a, ResvShrinks s (f s a)) (l : List α) (s : State) :
    ResvShrinks s (l.foldl f s) := foldl_relates ResvShrinks.refl ResvShrinks.trans f hf l s

theorem State.recall_unreserved (s : State) (l : Nat) : Unreserved (s.modMem fun m => m.recall l) l :=
  fun _ hq => bne_iff_ne.1 (List.mem_filter.1 hq).2

theorem State.recall_resv (s : State) (l : Nat) : ResvShrinks s (s.modMem fun m => m.recall l) :=
  fun _ hq => (List.mem_filter.1 hq).1

/-! Every step of a write ends reservations at most. -/

theorem State.poke_resv (s : State) (a : Nat) (bs : List Byte) : ResvShrinks s (s.poke a bs) := by
  induction bs generalizing s a with
  | nil => exact .refl s
  | cons b t ih => exact .trans (State.recall_resv s (lineOf (canon a))) (ih _ (a + 1))

theorem State.setLine_resv (s : State) (l : Nat) (v : LineState) : ResvShrinks s (s.setLine l v) := .of_eq rfl
theorem State.setWcb_resv (s : State) (p : Nat) (l : List WcbEntry) : ResvShrinks s (s.setWcb p l) := .of_eq rfl
theorem State.stkEvt_resv (s : State) (b : Nat) : ResvShrinks s (s.stkEvt b) := .of_eq rfl
theorem State.countPort_resv (s : State) (l k n : Nat) : ResvShrinks s (s.countPort l k n) :=
  .of_eq (by rw [State.countPort_mem])
theorem State.countCe_resv (s : State) (l : Nat) : ResvShrinks s (s.countCe l) := by
  unfold State.countCe
  split
  · exact .of_eq (by rw [State.modMem_mem])
  · exact .of_eq (by rw [State.bump_mem])
  · exact .of_eq (by rw [State.bump_mem])
  · exact .refl s

theorem State.mergeRead_resv (s : State) (l : Nat) : ResvShrinks s (s.mergeRead l) := by
  have h : ResvShrinks s ((s.countCe l).stkEvt 0) := .trans (State.countCe_resv s l) (State.stkEvt_resv _ 0)
  unfold State.mergeRead
  split
  · exact h
  · split
    · exact h
    · exact .refl s
  · exact .refl s

theorem State.mergeLine_resv (s : State) (l : Nat) (bs : List (Nat × Byte)) : ResvShrinks s (s.mergeLine l bs) := by
  unfold State.mergeLine
  simp only
  refine .trans (State.mergeRead_resv s l) (.ite ?_ ?_)
  · exact .trans (.trans (.trans (State.recall_resv _ l) (State.setLine_resv _ _ _)) (State.stkEvt_resv _ _))
      (State.countPort_resv _ _ _ _)
  · exact .trans (.trans (.trans (.ite (State.poke_resv _ _ _) (.refl _)) (State.setLine_resv _ _ _))
      (State.foldl_resv _ (fun t p => State.poke_resv t _ _) _ _)) (State.countPort_resv _ _ _ _)

theorem State.flushEntry_resv (s : State) (p : Nat) (w : WcbEntry) : ResvShrinks s (s.flushEntry p w) := by
  unfold State.flushEntry
  simp only
  exact .ite
    (.trans (.trans (.trans (State.setWcb_resv s _ _) (State.poke_resv _ _ _)) (State.setLine_resv _ _ _))
      (State.countPort_resv _ _ _ _))
    (.trans (.trans (State.setWcb_resv s _ _) (State.mergeLine_resv _ _ _)) (State.countPort_resv _ _ _ _))

theorem State.flushLine_resv (s : State) (l : Nat) : ResvShrinks s (s.flushLine l) := by
  unfold State.flushLine
  split
  · exact .refl s
  · split
    · exact .refl s
    · exact State.flushEntry_resv _ _ _

theorem State.placePart_resv (s : State) (a : Nat) (bs : List Byte) : ResvShrinks s (s.placePart a bs) := by
  unfold State.placePart
  simp only
  split
  · exact State.mergeLine_resv _ _ _
  · split
    · split
      · exact .trans (State.setWcb_resv _ _ _) (State.flushEntry_resv _ _ _)
      · exact State.setWcb_resv _ _ _
    · refine .trans ?_ (State.setWcb_resv _ _ _)
      split
      · split
        · exact State.flushEntry_resv _ _ _
        · exact .refl s
      · exact .refl s

theorem State.writeLine_resv (s : State) (l : Nat) (bs : List Byte) : ResvShrinks s (s.writeLine l bs) := by
  unfold State.writeLine
  simp only
  refine .trans (.trans (.trans ?_ (State.poke_resv _ _ _)) (State.setLine_resv _ _ _)) (State.countPort_resv _ _ _ _)
  split
  · exact State.setWcb_resv _ _ _
  · exact .refl s

theorem State.writeIn_resv (s : State) (a : Nat) (bs : List Byte) : ResvShrinks s (s.writeIn a bs) := by
  unfold State.writeIn
  simp only
  split
  · exact State.writeLine_resv _ _ _
  · split
    · exact .refl s
    · exact .trans (State.recall_resv s _) (State.placePart_resv _ _ _)

/-! The line written. -/

theorem State.poke_unreserved (s : State) (a : Nat) (bs : List Byte) (h : bs ≠ []) :
    Unreserved (s.poke a bs) (lineOf (canon a)) := by
  cases bs with
  | nil => exact absurd rfl h
  | cons b t => exact (State.recall_unreserved s (lineOf (canon a))).shrink (State.poke_resv _ (a + 1) t)

/-- A write within a line leaves it reserved by no core (R217). -/
theorem State.writeIn_unreserved (s : State) (a : Nat) (bs : List Byte) (h : bs ≠ []) :
    Unreserved (s.writeIn a bs) (lineOf (canon a)) := by
  unfold State.writeIn
  simp only
  split
  · unfold State.writeLine
    have hp := fun t : State => State.poke_unreserved t (canon a) bs h
    rw [canon_canon] at hp
    exact ((hp _).shrink (State.setLine_resv _ _ _)).shrink (State.countPort_resv _ _ _ _)
  · rw [if_neg (fun e => h (List.isEmpty_iff.1 e))]
    exact (State.recall_unreserved s (lineOf (canon a))).shrink (State.placePart_resv _ _ _)

/-- Every byte of a write is in one of its pieces, none of them empty. -/
theorem mem_cutLines (k a : Nat) (bs : List Byte) (hk : bs.length + a % 128 ≤ 128 * k) (m : Nat) (hm : m < bs.length) :
    ∃ p ∈ cutLines a bs k, p.2 ≠ [] ∧ lineOf (canon p.1) = lineOf (canon (a + m)) := by
  induction k generalizing a bs m with
  | zero => omega
  | succ k ih =>
    have hne : bs ≠ [] := List.ne_nil_of_length_pos (by omega)
    have hdrop : (bs.drop (128 - a % 128)).length = bs.length - (128 - a % 128) := List.length_drop
    unfold cutLines
    rw [if_neg (fun e => hne (List.isEmpty_iff.1 e))]
    by_cases h : m < 128 - a % 128
    · refine ⟨_, List.mem_cons_self, fun e => hne ?_, ?_⟩
      · rcases List.take_eq_nil_iff.1 e with h0 | h0
        · omega
        · exact h0
      · rw [canon_add a m (by omega)]
        have := canon_mod128 a
        show lineOf (canon a) = _
        unfold lineOf
        omega
    · obtain ⟨p, hp, hp2, hl⟩ := ih (a + (128 - a % 128)) (bs.drop (128 - a % 128)) (by omega) (m - (128 - a % 128)) (by omega)
      refine ⟨p, List.mem_cons_of_mem _ hp, hp2, hl.trans ?_⟩
      congr 2
      omega

theorem State.writePieces_unreserved (l : List (Nat × List Byte)) (s : State) (p : Nat × List Byte) (hp : p ∈ l)
    (hne : p.2 ≠ []) :
    Unreserved (l.foldl (fun t p => t.writeIn p.1 p.2) s) (lineOf (canon p.1)) := by
  induction l generalizing s with
  | nil => cases hp
  | cons q t ih =>
    rw [List.foldl_cons]
    rcases List.mem_cons.1 hp with rfl | hp
    · exact (State.writeIn_unreserved s _ _ hne).shrink (State.foldl_resv _ (fun u x => State.writeIn_resv u _ _) t _)
    · exact ih _ hp

/-- A completed write leaves no line it touches reserved (R217). -/
theorem State.writeDone_unreserved (s : State) (a : Nat) (bs : List Byte) (m : Nat) (hm : m < bs.length) :
    Unreserved (s.writeDone a bs) (lineOf (canon (a + m))) := by
  obtain ⟨p, hp, hne, hl⟩ := mem_cutLines (bs.length / 128 + 2) a bs (by omega) m hm
  rw [← hl]
  exact (State.writePieces_unreserved _ s p hp hne).shrink (State.foldl_resv _ State.flushLine_resv _ _)

/-- A read of a table gives the default or a listed value. -/
theorem SMap.get_default_or_mem {α : Type} (d : α) (m : SMap α) (k : Nat) :
    SMap.get d m k = d ∨ ∃ q ∈ m, q.2 = SMap.get d m k := by
  induction m with
  | nil => exact .inl rfl
  | cons q t ih =>
    obtain ⟨j, v⟩ := q
    rw [SMap.get_cons]
    split
    · exact .inr ⟨(j, v), List.mem_cons_self, rfl⟩
    · exact ih.imp_right fun ⟨q, hq, e⟩ => ⟨q, List.mem_cons_of_mem _ hq, e⟩

/-- An SC to a line that is not reserved fails (R217). -/
theorem State.ccSc_unreserved (s : State) (cc a : Nat) (wide : Bool) (v : W64) (h : amoAllowed a wide = true)
    (hu : Unreserved s (lineOf (canon a))) : (s.ccSc cc a wide v).2 = some 1 := by
  have hk : (SMap.get none s.mem.resv cc == some (lineOf (canon a))) = false := by
    rw [beq_eq_false_iff_ne]
    rcases SMap.get_default_or_mem none s.mem.resv cc with h0 | ⟨q, hq, e⟩
    · rw [h0]; exact Option.some_ne_none _ ∘ Eq.symm
    · rw [← e]; exact hu q hq
  unfold State.ccSc
  simp only [h, hk, Bool.not_true, Bool.false_eq_true, if_false]

end Sys2Proof.Machine
end

section
/-! SUPPORT. Laws of the control cores' semaphore operations and register accesses (R7, R8, R222, R223, R415, R417). -/

namespace Sys2Proof.Machine

open Sys2Proof.Claim

/-! Semaphores (R222, R223). -/

/-- The answer of a semaphore operation: status and count to the core that asked, none to another. -/
def Answered (cc status count : Nat) (s t : State) : Prop :=
  SMap.get 0 t.semres cc = w64 (at' status 16 + count % 65536) ∧ ∀ d, d ≠ cc → SMap.get 0 t.semres d = SMap.get 0 s.semres d

theorem State.semAnswer_answered (s : State) (cc status count : Nat) : Answered cc status count s (s.semAnswer cc status count) :=
  ⟨SMap.get_set_self _ _ _ _, fun _ hd => SMap.get_set_ne _ _ _ _ _ hd⟩

/-- A semaphore whose count alone changes. -/
theorem State.modSem_countSet (s : State) (n : Nat) (f : Nat → Nat) :
    CountSet n (f (s.sem n).count) s (s.modSem n fun q => { q with count := f q.count }) := by
  intro m
  rw [State.sem_modSem]
  by_cases h : m = n
  · subst h; rw [if_pos rfl]
  · rw [if_neg h, if_neg h]

theorem exec_semAdd_fits (cc : CcId) (q : BitVec 8) (amt : BitVec 12) (s : State)
    (h : (s.sem q.toNat).count + amt.toNat ≤ 65535) :
    exec (.semAdd cc q amt) s = .next ((s.modSem q.toNat fun q => { q with count := q.count + amt.toNat }).semAnswer cc.val 0
      ((s.sem q.toNat).count + amt.toNat)) := by
  show Host.Outcome.next (s.ccAdd cc.val q.toNat amt.toNat) = _
  unfold State.ccAdd
  rw [State.semAdd_some s _ _ h]
  simp only [State.sem_modSem_self]

theorem exec_semAdd_overflows (cc : CcId) (q : BitVec 8) (amt : BitVec 12) (s : State)
    (h : 65535 < (s.sem q.toNat).count + amt.toNat) :
    exec (.semAdd cc q amt) s = .next (s.semAnswer cc.val 2 (s.sem q.toNat).count) := by
  show Host.Outcome.next (s.ccAdd cc.val q.toNat amt.toNat) = _
  unfold State.ccAdd
  rw [State.semAdd_none s _ _ h]

theorem exec_semTake_takes (cc : CcId) (q : BitVec 8) (amt : BitVec 12) (s : State) (hw : (s.sem q.toNat).waiters = [])
    (h : amt.toNat ≤ (s.sem q.toNat).count) :
    exec (.semTake cc q amt) s = .next ((s.modSem q.toNat fun q => { q with count := q.count - amt.toNat }).semAnswer cc.val 0
      ((s.sem q.toNat).count - amt.toNat)) := by
  show Host.Outcome.next (s.ccTake cc.val q.toNat amt.toNat) = _
  unfold State.ccTake
  rw [if_pos ⟨by rw [hw]; rfl, h⟩]

/-- A take never waits: without the count, or behind a queue, it is refused. -/
theorem exec_semTake_refused (cc : CcId) (q : BitVec 8) (amt : BitVec 12) (s : State)
    (h : (s.sem q.toNat).waiters ≠ [] ∨ (s.sem q.toNat).count < amt.toNat) :
    exec (.semTake cc q amt) s = .next (s.semAnswer cc.val 1 (s.sem q.toNat).count) := by
  show Host.Outcome.next (s.ccTake cc.val q.toNat amt.toNat) = _
  unfold State.ccTake
  refine congrArg _ (if_neg fun ⟨hw, hc⟩ => ?_)
  rcases h with h | h
  · exact h (List.isEmpty_iff.1 hw)
  · omega

/-! Access faults (R7, R177). -/

/-- An access fault noted at a control core, and nothing else (R202). -/
def FaultNoted (cc : CcId) (addr : BitVec 48) (store : Bool) (s t : State) : Prop :=
  t = { s with harts := t.harts } ∧ (∀ d, d ≠ cc.val → t.hart d = s.hart d) ∧
    t.hart cc = if store then { s.hart cc with storeFault := some addr } else { s.hart cc with loadFault := some addr }

theorem State.accessFault_noted (s : State) (cc : CcId) (addr : BitVec 48) (store : Bool) :
    FaultNoted cc addr store s (s.accessFault cc.val addr.toNat store) := by
  unfold State.accessFault
  refine ⟨rfl, fun d hd => ?_, ?_⟩
  · rw [State.hart_modHart, if_neg hd]
  · rw [State.hart_modHart_self, BitVec.ofNat_toNat, BitVec.setWidth_eq]

/-! Stores to registers (R8). -/

theorem w64Bytes_length (v : W64) : (w64Bytes v).length = 8 := toLe_length 8 _

/-- A store to an address that holds a register takes effect by the register's access codes. -/
theorem exec_registerWrite_at (cc : CcId) (addr : BitVec 48) (v : W64) (s : State) (r : Reg) (h : regAt addr.toNat = some r) :
    exec (.registerWrite cc addr v) s = .next (s.writeReg cc.val addr.toNat v r) := by
  show Host.Outcome.next (s.storeReg cc.val addr.toNat v) = _
  unfold State.storeReg
  rw [h]

/-- One to an address of the range that holds none faults. -/
theorem exec_registerWrite_none (cc : CcId) (addr : BitVec 48) (v : W64) (s : State) (h : regAt addr.toNat = none)
    (hr : inRegs addr.toNat = true) :
    exec (.registerWrite cc addr v) s = .next (s.accessFault cc.val addr.toNat true) := by
  show Host.Outcome.next (s.storeReg cc.val addr.toNat v) = _
  unfold State.storeReg
  rw [h]
  exact congrArg _ (if_pos hr)

/-- One outside the range is a store to memory. -/
theorem exec_registerWrite_outside (cc : CcId) (addr : BitVec 48) (v : W64) (s : State) (h : regAt addr.toNat = none)
    (hr : inRegs addr.toNat = false) :
    exec (.registerWrite cc addr v) s = .next (s.ccStore cc.val addr.toNat (w64Bytes v)) := by
  show Host.Outcome.next (s.storeReg cc.val addr.toNat v) = _
  unfold State.storeReg
  rw [h]
  exact congrArg _ (if_neg (by rw [hr]; decide))

theorem State.ccStore_refused (s : State) (cc a : Nat) (bs : List Byte) (h : ccStores a bs.length = false) :
    s.ccStore cc a bs = s.accessFault cc a true := by
  unfold State.ccStore
  rw [h]
  rfl

theorem exec_registerAccessFault_faults (cc : CcId) (addr : BitVec 48) (size : Nat) (store : Bool) (s : State)
    (h : accessFaults addr.toNat size store = true) :
    exec (.registerAccessFault cc addr size store) s = .next (s.accessFault cc.val addr.toNat store) := by
  show execRegisterAccessFault cc addr size store s = _
  unfold execRegisterAccessFault
  rw [if_pos h]

theorem exec_registerAccessFault_allowed (cc : CcId) (addr : BitVec 48) (size : Nat) (store : Bool) (s : State)
    (h : accessFaults addr.toNat size store = false) :
    exec (.registerAccessFault cc addr size store) s = .next s := by
  show execRegisterAccessFault cc addr size store s = _
  unfold execRegisterAccessFault
  rw [if_neg (by rw [h]; decide)]

/-- A store to the descriptor window changes one word of one core's (R105). -/
theorem State.descWin_stored (s : State) (c k : Nat) (v : W64) :
    let t := s.modCore c fun q => { q with desc := SMap.set 0 q.desc k v }
    OtherCores c s t ∧ t.core c = { s.core c with desc := (t.core c).desc } ∧
      ∀ m, SMap.get 0 (t.core c).desc m = if m = k then v else SMap.get 0 (s.core c).desc m := by
  refine ⟨fun d hd => (State.core_modCore s c _ d).trans (if_neg hd), ?_, fun m => ?_⟩
  · rw [State.core_modCore_self]
  · rw [State.core_modCore_self, SMap.get_set]

/-- A counter after a store that may clear its overflow flag (R474). -/
theorem State.cnt_cleared (s : State) (k m : Nat) (v : W64) :
    (s.modCnt fun c => { c with cnt := SMap.set 0 c.cnt k (cntClear (s.cntr k) v) }).cntr m =
      if m = k ∧ bit v 48 = true then clrBit (s.cntr m) 48 else s.cntr m := by
  have h : (s.modCnt fun c => { c with cnt := SMap.set 0 c.cnt k (cntClear (s.cntr k) v) }).cntr m =
      if m = k then cntClear (s.cntr k) v else s.cntr m := SMap.get_set _ _ _ _ _
  rw [h]
  unfold cntClear
  by_cases hm : m = k
  · subst hm
    by_cases hv : bit v 48 = true
    · rw [if_pos rfl, if_pos hv, if_pos ⟨rfl, hv⟩]
    · rw [if_pos rfl, if_neg hv, if_neg fun hn => hv hn.2]
  · rw [if_neg hm, if_neg fun hn => hm hn.1]

/-! Fields put into a word. -/

/-- A number with the digits of places `p` to `p * q` taken out and others put there, below the same power. -/
theorem digits_replaced_lt (w p q r v : Nat) (hp : 0 < p) (hv : v < q) (hw : w < p * q * r) :
    w / (p * q) * (p * q) + v * p + w % p < p * q * r := by
  have h1 : w / (p * q) + 1 ≤ r := Nat.div_lt_of_lt_mul hw
  have h2 : w % p < p := Nat.mod_lt _ hp
  calc w / (p * q) * (p * q) + v * p + w % p < w / (p * q) * (p * q) + (v + 1) * p := by rw [Nat.succ_mul]; omega
    _ ≤ w / (p * q) * (p * q) + q * p := Nat.add_le_add_left (Nat.mul_le_mul_right p hv) _
    _ = (w / (p * q) + 1) * (p * q) := by rw [Nat.add_mul, Nat.one_mul, Nat.mul_comm q p]
    _ ≤ r * (p * q) := Nat.mul_le_mul_right _ h1
    _ = p * q * r := Nat.mul_comm _ _

/-- A number with the digits of places `p` to `p * q` taken out. -/
theorem digits_removed (w p q : Nat) : w - w / p % q * p = w / (p * q) * (p * q) + w % p := by
  have h1 : p * (w / p) + w % p = w := Nat.div_add_mod w p
  have h2 : q * (w / p / q) + w / p % q = w / p := Nat.div_add_mod (w / p) q
  rw [← Nat.div_div_eq_div_mul]
  refine Nat.sub_eq_of_eq_add ?_
  calc w = p * (q * (w / p / q) + w / p % q) + w % p := by rw [h2, h1]
    _ = w / p / q * (p * q) + w % p + w / p % q * p := by
      rw [Nat.mul_add, ← Nat.mul_assoc, Nat.mul_comm (p * q), Nat.mul_comm p (w / p % q), Nat.add_right_comm]

/-- A field put into a word stands between the bits above and below it. -/
theorem putFld_toNat (w : W64) (hi lo v : Nat) (h : lo ≤ hi) (hh : hi < 64) :
    (putFld w hi lo v).toNat =
      w.toNat / 2 ^ (hi + 1) * 2 ^ (hi + 1) + v % 2 ^ (hi - lo + 1) * 2 ^ lo + w.toNat % 2 ^ lo := by
  have hpq : 2 ^ (hi + 1) = 2 ^ lo * 2 ^ (hi - lo + 1) := by rw [← Nat.pow_add]; congr 1; omega
  have hr : 2 ^ 64 = 2 ^ lo * 2 ^ (hi - lo + 1) * 2 ^ (63 - hi) := by rw [← Nat.pow_add, ← Nat.pow_add]; congr 1; omega
  have hlt := digits_replaced_lt w.toNat (2 ^ lo) (2 ^ (hi - lo + 1)) (2 ^ (63 - hi)) (v % 2 ^ (hi - lo + 1))
    (Nat.two_pow_pos _) (Nat.mod_lt _ (Nat.two_pow_pos _)) (hr ▸ w.isLt)
  unfold putFld fld
  rw [BitVec.toNat_ofNat, digits_removed, hpq, Nat.add_right_comm, hr]
  exact Nat.mod_eq_of_lt hlt

/-- A field read back. -/
theorem fld_putFld_self (w : W64) (hi lo v : Nat) (h : lo ≤ hi) (hh : hi < 64) :
    fld (putFld w hi lo v) hi lo = v % 2 ^ (hi - lo + 1) := by
  have hpq : 2 ^ (hi + 1) = 2 ^ (hi - lo + 1) * 2 ^ lo := by rw [← Nat.pow_add]; congr 1; omega
  unfold fld
  rw [putFld_toNat w hi lo v h hh, hpq, ← Nat.mul_assoc, ← Nat.add_mul, Nat.add_comm (_ * _) (_ % _),
    Nat.add_mul_div_right _ _ (Nat.two_pow_pos lo), Nat.div_eq_of_lt (Nat.mod_lt _ (Nat.two_pow_pos lo)), Nat.zero_add,
    Nat.mul_add_mod_self_right, Nat.mod_mod]

/-- A field above the one put is as it was. -/
theorem fld_putFld_above (w : W64) (hi lo v hi' lo' : Nat) (h : lo ≤ hi) (hh : hi < 64) (ha : hi < lo') :
    fld (putFld w hi lo v) hi' lo' = fld w hi' lo' := by
  have hpq : 2 ^ (hi + 1) = 2 ^ lo * 2 ^ (hi - lo + 1) := by rw [← Nat.pow_add]; congr 1; omega
  have hl : 2 ^ lo' = 2 ^ (hi + 1) * 2 ^ (lo' - (hi + 1)) := by rw [← Nat.pow_add]; congr 1; omega
  have hlow : v % 2 ^ (hi - lo + 1) * 2 ^ lo + w.toNat % 2 ^ lo < 2 ^ (hi + 1) := by
    have := digits_replaced_lt (w.toNat % 2 ^ lo) (2 ^ lo) (2 ^ (hi - lo + 1)) 1 (v % 2 ^ (hi - lo + 1)) (Nat.two_pow_pos _)
      (Nat.mod_lt _ (Nat.two_pow_pos _)) (by
        rw [Nat.mul_one]
        exact Nat.lt_of_lt_of_le (Nat.mod_lt _ (Nat.two_pow_pos lo)) (Nat.le_mul_of_pos_right _ (Nat.two_pow_pos _)))
    rw [Nat.mod_mod, Nat.mul_one, ← hpq] at this
    omega
  unfold fld
  rw [hl, ← Nat.div_div_eq_div_mul, ← Nat.div_div_eq_div_mul, putFld_toNat w hi lo v h hh, Nat.add_assoc,
    Nat.add_comm (_ * _) (_ + _), Nat.add_mul_div_right _ _ (Nat.two_pow_pos _), Nat.div_eq_of_lt hlow, Nat.zero_add]

/-- A field below the one put is as it was. -/
theorem fld_putFld_below (w : W64) (hi lo v hi' lo' : Nat) (h : lo ≤ hi) (hh : hi < 64) (hb : hi' < lo) (h' : lo' ≤ hi') :
    fld (putFld w hi lo v) hi' lo' = fld w hi' lo' := by
  have hd : 2 ^ lo' * 2 ^ (hi' - lo' + 1) ∣ 2 ^ lo := by rw [← Nat.pow_add]; exact Nat.pow_dvd_pow 2 (by omega)
  have hpq : 2 ^ (hi + 1) = 2 ^ (hi - lo + 1) * 2 ^ lo := by rw [← Nat.pow_add]; congr 1; omega
  have hm : (putFld w hi lo v).toNat % 2 ^ lo = w.toNat % 2 ^ lo := by
    rw [putFld_toNat w hi lo v h hh, hpq, ← Nat.mul_assoc, ← Nat.add_mul, Nat.mul_add_mod_self_right, Nat.mod_mod]
  unfold fld
  rw [← Nat.mod_mul_right_div_self, ← Nat.mod_mul_right_div_self, ← Nat.mod_mod_of_dvd _ hd, hm, Nat.mod_mod_of_dvd _ hd]

/-- THM_CTL: the throttle limits are put, the trip limits stay (R415). -/
theorem throttleLimits_put (w : W64) (x y : Nat) (hx : x ≤ 95) (hy : y ≤ 100) :
    let u := putFld (putFld w 55 48 x) 39 32 y
    fld u 55 48 = x ∧ fld u 39 32 = y ∧ fld u 63 56 = fld w 63 56 ∧ fld u 47 40 = fld w 47 40 := by
  refine ⟨?_, ?_, ?_, ?_⟩
  · rw [fld_putFld_above _ 39 32 y 55 48 (by decide) (by decide) (by decide), fld_putFld_self _ 55 48 x (by decide) (by decide)]
    exact Nat.mod_eq_of_lt (by omega)
  · rw [fld_putFld_self _ 39 32 y (by decide) (by decide)]
    exact Nat.mod_eq_of_lt (by omega)
  · rw [fld_putFld_above _ 39 32 y 63 56 (by decide) (by decide) (by decide),
      fld_putFld_above _ 55 48 x 63 56 (by decide) (by decide) (by decide)]
  · rw [fld_putFld_above _ 39 32 y 47 40 (by decide) (by decide) (by decide),
      fld_putFld_below _ 55 48 x 47 40 (by decide) (by decide) (by decide) (by decide)]

/-- Settles O45: each form by the rule of its operation, memory by the laws of whole writes over good lines, the failing SC by the
reservations that a completed write ends. -/
theorem controlCores : Obligations.ControlCores := by
  unfold Obligations.ControlCores
  intro cc q amt addr v size c k e j i b store wide op bs s
  have fault : ∀ st, FaultNoted cc addr st s (s.accessFault cc.val addr.toNat st) := State.accessFault_noted s cc addr
  have reg : ∀ {r}, regAt addr.toNat = some r → exec (.registerWrite cc addr v) s = .next (s.writeReg cc.val addr.toNat v r) :=
    exec_registerWrite_at cc addr v s _
  refine ⟨fun h => ⟨_, exec_semAdd_fits cc q amt s h, rfl, State.modSem_countSet s _ (· + amt.toNat),
      State.semAnswer_answered _ _ _ _⟩,
    fun h => ⟨_, exec_semAdd_overflows cc q amt s h, rfl, fun _ => rfl, State.semAnswer_answered _ _ _ _⟩,
    fun hw h => ⟨_, exec_semTake_takes cc q amt s hw h, rfl, State.modSem_countSet s _ (· - amt.toNat),
      State.semAnswer_answered _ _ _ _⟩,
    fun h => ⟨_, exec_semTake_refused cc q amt s h, rfl, fun _ => rfl, State.semAnswer_answered _ _ _ _⟩,
    fun h hr => ⟨_, exec_registerWrite_none cc addr v s h hr, fault true⟩,
    fun h => ⟨_, reg h, fault true⟩,
    fun h hi => ⟨_, reg h, ?guarded⟩,
    fun h hr hm => ⟨_, exec_registerWrite_outside cc addr v s h hr, ?refused⟩,
    fun h hr hm hg hs => ⟨_, exec_registerWrite_outside cc addr v s h hr, ?stored⟩,
    fun hl hi hg hs => State.ccLoad_stack s cc _ 8 hl hi hg hs,
    fun h => State.atomics_refused s cc op _ wide v h,
    fun h hg hs => State.ccAmo_puts s cc op _ wide v h hg hs,
    fun h hb => ?conditional, ⟨rfl, rfl, fun _ _ hk => if_pos hk⟩,
    fun h => ?readOnly,
    fun h => ⟨_, reg h, rfl⟩, fun h => ⟨_, reg h, rfl⟩, fun h => ⟨_, reg h, rfl⟩, fun h => ⟨_, reg h, rfl⟩,
    fun h => ⟨_, reg h, rfl⟩, fun h => ⟨_, reg h, rfl⟩,
    fun h => ⟨_, reg h, rfl, fun f hf => (State.eng_modEng s e _ f).trans (if_neg hf), State.eng_modEng_self s e _⟩,
    fun h => ⟨_, reg h, rfl, State.redSlot_modRed_self s j fun r => { r with evt := w1c r.evt v (loBits 9) }⟩,
    fun h => ⟨_, reg h, rfl, State.descWin_stored s c k v⟩,
    fun h => ⟨_, reg h, rfl, fun m => State.cnt_cleared s k m v⟩,
    fun h => ⟨_, reg h, ?carve⟩,
    fun h => ⟨_, reg h, rfl, throttleLimits_put s.pwr.thmCtl _ _ (Nat.min_le_left _ _) (Nat.min_le_left _ _)⟩,
    fun h => ⟨_, exec_registerAccessFault_faults cc addr size store s h, fault store⟩,
    fun h => ⟨_, exec_registerAccessFault_allowed cc addr size store s h, rfl⟩⟩
  case guarded =>
    show FaultNoted cc addr true s (if 192 ≤ i then s.accessFault cc addr.toNat true else s.cmdStore i k v)
    rw [if_pos hi]
    exact fault true
  case refused =>
    rw [State.ccStore_refused s cc _ _ (by rw [w64Bytes_length]; exact hm)]
    exact fault true
  case stored =>
    obtain ⟨hframe, hstored⟩ := State.ccStore_puts s cc addr.toNat (w64Bytes v) (by rw [w64Bytes_length]; exact hm) hg hs
      (by rw [w64Bytes_length]; decide)
    exact ⟨hstored, hframe⟩
  case conditional =>
    obtain ⟨m, hm, hline⟩ := hb
    exact State.ccSc_unreserved _ cc _ wide v h (hline ▸ State.writeDone_unreserved s b bs m hm)
  case readOnly => rcases h with h | h | h | h | h | h | h <;> exact ⟨_, reg h, rfl⟩
  case carve =>
    show s.writeCarve v = _
    unfold State.writeCarve
    split <;> rfl

end Sys2Proof.Machine
end

section
/-! SUPPORT. Laws of the reduction adders: residues and sums of packets (R55, R166, R168). -/

namespace Sys2Proof.Machine

open Sys2Proof.Claim

/-! Sums of integers. -/

theorem sum_map_add_int {α : Type} (f g : α → Int) (l : List α) :
    (l.map fun a => f a + g a).sum = (l.map f).sum + (l.map g).sum := by
  induction l with
  | nil => rfl
  | cons a t ih =>
    simp only [List.map_cons, List.sum_cons, ih]
    omega

theorem sum_perm_int {l k : List Int} (h : l.Perm k) : l.sum = k.sum := by
  rw [List.sum_eq_foldr, List.sum_eq_foldr]
  exact h.foldr_eq' (fun x _ y _ z => Int.add_left_comm y x z) 0

/-- Terms of magnitude at most b sum to a magnitude of at most b times their number. -/
theorem sum_bounds_int (b : Int) (l : List Int) (h : ∀ x ∈ l, -b ≤ x ∧ x ≤ b) :
    -(b * l.length) ≤ l.sum ∧ l.sum ≤ b * l.length := by
  induction l with
  | nil => simp only [List.sum_nil, List.length_nil, Int.natCast_zero, Int.mul_zero, Int.neg_zero, Int.le_refl, and_self]
  | cons a t ih =>
    have head := h a List.mem_cons_self
    have tail := ih fun x hx => h x (List.mem_cons_of_mem a hx)
    simp only [List.sum_cons, List.length_cons, Int.natCast_add, Int.natCast_one, Int.mul_add, Int.mul_one]
    omega

/-! Residues. -/

/-- The sum of R166 before its reduction: 1 q0 + 2 q1 + ... -/
def weightedSum (qs : List Int) : Int := ((List.range qs.length).map fun (i : Nat) => ((i : Int) + 1) * (qs[i]?).getD 0).sum

theorem residue65535_eq (qs : List Int) : residue65535 qs = (weightedSum qs % 65535).toNat := by
  have h : (List.range qs.length).zipWith (fun (i : Nat) (q : Int) => ((i : Int) + 1) * q) qs =
      (List.range qs.length).map fun (i : Nat) => ((i : Int) + 1) * (qs[i]?).getD 0 := by
    refine List.ext_getElem (by simp) fun i _ hi => ?_
    have hq : i < qs.length := by simpa using hi
    simp [hq]
  rw [residue65535, h, ← List.sum_eq_foldl, weightedSum]

theorem getD_zipWith_add (p q : List Int) (h : p.length = q.length) (i : Nat) :
    ((List.zipWith (· + ·) p q)[i]?).getD 0 = (p[i]?).getD 0 + (q[i]?).getD 0 := by
  by_cases hi : i < q.length <;> simp [h, hi]

theorem weightedSum_zipWith_add (p q : List Int) (h : p.length = q.length) :
    weightedSum (List.zipWith (· + ·) p q) = weightedSum p + weightedSum q := by
  simp only [weightedSum, getD_zipWith_add p q h, Int.mul_add, sum_map_add_int, List.length_zipWith, h, Nat.min_self]

/-- The residue of an element-wise sum is the sum of the residues (R166). -/
theorem residue65535_zipWith_add (p q : List Int) (h : p.length = q.length) :
    residue65535 (List.zipWith (· + ·) p q) = (residue65535 p + residue65535 q) % 65535 := by
  simp only [residue65535_eq, weightedSum_zipWith_add p q h]
  omega

/-! The add of one packet. -/

@[simp] theorem redStatus_snd (es16 : Bool) (acc qs : List Int) (c : Nat) :
    (redStatus es16 acc qs c).2 = List.zipWith (· + ·) acc qs := by
  simp only [redStatus]
  repeat' split
  all_goals rfl

/-- A packet without 0x8000, with its own residue, whose sums stay in 32 bits is added: the check of the adder (R168) holds, since
residues add. -/
theorem redStatus_ok (es16 : Bool) (acc qs : List Int) (h : acc.length = qs.length) (hq : ∀ n ∈ qs, n ≠ -32768)
    (hs : ∀ n ∈ List.zipWith (· + ·) acc qs, -2 ^ 31 ≤ n ∧ n < 2 ^ 31) :
    (redStatus es16 acc qs (residue65535 qs)).1 = 0 := by
  have valid : ¬ (es16 && qs.any fun q => decide (q = -32768)) = true := by
    simpa using fun _ hm => hq _ hm rfl
  have fits : ¬ ((List.zipWith (· + ·) acc qs).any fun q => decide (q < -(2 ^ 31 : Int) ∨ (2 ^ 31 : Int) ≤ q)) = true := by
    simp only [List.any_eq_true, decide_eq_true_eq]
    rintro ⟨n, hn, hout⟩
    have := hs n hn
    omega
  rw [redStatus, if_neg valid, if_neg (not_not_intro rfl), if_neg fits,
    if_neg (not_not_intro (residue65535_zipWith_add acc qs h))]

/-! The adds of a list of packets to a pair of zeros. -/

/-- The exact sums of the packets, element by element. -/
def packetSums (l : List (List Int)) : List Int := (List.range 64).map fun i => (l.map fun q => (q[i]?).getD 0).sum

@[simp] theorem packetSums_length (l : List (List Int)) : (packetSums l).length = 64 := by simp [packetSums]

theorem packetSums_nil : packetSums [] = List.replicate 64 0 := by simp [packetSums, List.map_const']

theorem packetSums_append_singleton (l : List (List Int)) (q : List Int) (h : q.length = 64) :
    packetSums (l ++ [q]) = List.zipWith (· + ·) (packetSums l) q := by
  refine List.ext_getElem (by simp [h]) fun i _ hi => ?_
  have hq : i < q.length := by
    rw [List.length_zipWith] at hi
    omega
  simp [packetSums, hq]

theorem packetSums_perm {l k : List (List Int)} (h : l.Perm k) : packetSums l = packetSums k :=
  List.map_congr_left fun _ _ => sum_perm_int (h.map _)

/-- Adding packets one by one to the sums of those before forms the sums of all. -/
theorem foldl_redStatus_append (es16 : Bool) (l : List (List Int)) (h : ∀ q ∈ l, q.length = 64) (before : List (List Int)) :
    l.foldl (fun acc q => (redStatus es16 acc q (residue65535 q)).2) (packetSums before) = packetSums (before ++ l) := by
  induction l generalizing before with
  | nil => rw [List.foldl_nil, List.append_nil]
  | cons q t ih =>
    rw [List.foldl_cons, redStatus_snd, ← packetSums_append_singleton before q (h q List.mem_cons_self),
      ih (fun p hp => h p (List.mem_cons_of_mem q hp)), List.append_assoc, List.singleton_append]

theorem foldl_redStatus (es16 : Bool) (l : List (List Int)) (h : ∀ q ∈ l, q.length = 64) :
    l.foldl (fun acc q => (redStatus es16 acc q (residue65535 q)).2) (List.replicate 64 0) = packetSums l := by
  rw [← packetSums_nil, foldl_redStatus_append es16 l h, List.nil_append]

/-! The range of the sums (R55). -/

/-- A packet of 64 elements as ES16 and S1 hold them: no element is beyond 32,767 in magnitude. -/
def IsPacket (q : List Int) : Prop := q.length = 64 ∧ ∀ n ∈ q, -32767 ≤ n ∧ n ≤ 32767

theorem IsPacket.getD_bounds {q : List Int} (h : IsPacket q) (i : Nat) : -32767 ≤ (q[i]?).getD 0 ∧ (q[i]?).getD 0 ≤ 32767 := by
  by_cases hi : i < q.length
  · simpa [hi] using h.2 _ (List.getElem_mem hi)
  · simp [hi]

/-- Each contribution adds at most 32,767 to the magnitude of a sum. -/
theorem packetSums_bounds (l : List (List Int)) (h : ∀ q ∈ l, IsPacket q) :
    ∀ n ∈ packetSums l, -(32767 * l.length : Int) ≤ n ∧ n ≤ 32767 * l.length := by
  intro n hn
  obtain ⟨i, -, rfl⟩ := List.mem_map.mp hn
  have hx : ∀ x ∈ l.map fun q => (q[i]?).getD 0, -32767 ≤ x ∧ x ≤ 32767 := by
    intro x hx
    obtain ⟨q, hq, rfl⟩ := List.mem_map.mp hx
    exact (h q hq).getD_bounds i
  have := sum_bounds_int 32767 _ hx
  rwa [List.length_map] at this

/-- 65,536 × 32,767 is below 2^31 - 1. -/
theorem packetSums_fit (l : List (List Int)) (hl : l.length ≤ 65536) (h : ∀ q ∈ l, IsPacket q) :
    ∀ n ∈ packetSums l, -(2 ^ 31 - 1) ≤ n ∧ n ≤ 2 ^ 31 - 1 := by
  intro n hn
  have := packetSums_bounds l h n hn
  omega

/-- No packet of the list is refused by the pair that holds the sums of those before it. -/
theorem redStatus_packetSums (es16 : Bool) (l : List (List Int)) (hl : l.length ≤ 65536) (h : ∀ q ∈ l, IsPacket q) (i : Nat)
    (q : List Int) (hi : l[i]? = some q) : (redStatus es16 (packetSums (l.take i)) q (residue65535 q)).1 = 0 := by
  obtain ⟨hlen, hval⟩ := h q (List.mem_of_getElem? hi)
  have hnext : List.zipWith (· + ·) (packetSums (l.take i)) q = packetSums (l.take (i + 1)) := by
    rw [List.take_add_one, hi, Option.toList_some, packetSums_append_singleton _ q hlen]
  refine redStatus_ok es16 _ q (by rw [packetSums_length, hlen]) (fun n hn => ?_) fun n hn => ?_
  · have := hval n hn
    omega
  · have := packetSums_fit (l.take (i + 1)) (Nat.le_trans (List.length_take_le' _ l) hl) (fun p hp => h p (List.mem_of_mem_take hp)) n
      (hnext ▸ hn)
    omega

/-- Settles O59: the adds form the exact element sums, which no order changes and 65,536 contributions keep in 32 bits, so that with
residues that add every check of an add holds. -/
theorem exactSums : Obligations.ExactSums := by
  unfold Obligations.ExactSums
  intro es16 l k hl h hp add total
  have sums (x : List (List Int)) (hx : ∀ q ∈ x, q ∈ l) : total x = packetSums x :=
    foldl_redStatus es16 x fun q hq => (h q (hx q hq)).1
  refine ⟨sums l fun _ => id, ?order, ?range, fun i q hi => ?accepted⟩
  case order =>
    rw [sums k fun _ => hp.mem_iff.mpr, sums l fun _ => id, packetSums_perm hp]
  case range =>
    rw [sums l fun _ => id]
    exact packetSums_fit l hl h
  case accepted =>
    rw [sums (l.take i) fun _ => List.mem_of_mem_take]
    exact redStatus_packetSums es16 l hl h i q hi

end Sys2Proof.Machine
end
